-- ==== Sys2Proof/Word.lean ====
section
/-! DEFINITION. The bytes and words of the hardware (spec/00_scope.md rules R9, R10). -/

namespace Sys2Proof

/-- A byte: 8 bits (R10). -/
abbrev Byte := BitVec 8

/-- A word: 16 bits (R10); also an address of the target's data space and the `AAAA` field of a HEX line (R9). -/
abbrev Word := BitVec 16

end Sys2Proof
end

