-- ==== Sys2Proof/Config.lean ====
section
/-! DEFINITION. What is fixed before any step: the constants the source prints (spec/00_scope.md rule R7), the
parameters it names without a value (R8), the device catalog (spec/10_state.md rule R38), and the free values: opaque
constants of which nothing can be proved (the environment's draws, R21, and every value the spec leaves open). -/

namespace Sys2Proof

/-! ## Constants the source prints (R7) -/

namespace Config

/-- `FILE_MIN`: the least file size `parse` accepts. -/
def fileMin : Nat := 11
/-- `FILE_MAX`: the greatest file size `parse` accepts, 1 MiB. -/
def fileMax : Nat := 1048576
/-- The rounds of `init` (R241, R320). -/
def initRounds : Nat := 2
/-- `LINE_MIN`: the least line length. -/
def lineMin : Nat := 11
/-- `SENTINEL`: the value of an unprogrammed byte. -/
def sentinel : Byte := 0xFF
/-- `SER_CHUNK`: data bytes of a candidate line of `serialize`. -/
def serChunk : Nat := 16
/-- The greatest length `serialize` accepts (R171: `AAAA` has 16 bits). -/
def serMax : Nat := 65536
/-- `SYNC`: the first byte of every frame. -/
def sync : Byte := 0x55
/-- `ACK`: the acknowledge byte of a store phase. -/
def ack : Byte := 0x40
/-- `BREAK`: the break character. -/
def breakChar : Byte := 0x00
/-- `REPEAT_MAX`: the greatest repeat count. -/
def repeatMax : Nat := 256
/-- `KEY_LEN`: the length of a key. -/
def keyLen : Nat := 8
/-- `BAUD_SET`: the legal baud rates. -/
def baudSet : List Nat :=
  [50, 75, 110, 134, 150, 200, 300, 600, 1200, 1800, 2400, 4800, 9600, 19200, 38400, 57600, 115200, 230400]
/-- `BAUD_DEFAULT`. -/
def baudDefault : Nat := 115200
/-- `BAUD_FALLBACK`: the rate of the double-break recovery. -/
def baudFallback : Nat := 300
/-- `STOP_BITS`: stop bits of the UPDI physical link. -/
def stopBits : Nat := 2
/-- `STOP_BITS_FALLBACK`: stop bits during the double-break recovery. -/
def stopBitsFallback : Nat := 1
/-- Carriage return and line feed (R11), the line terminators (R101). -/
def cr : Byte := 0x0D
/-- Line feed (R11). -/
def lf : Byte := 0x0A
/-- The start code `':'` of a HEX line (R11, R100). -/
def colon : Byte := 0x3A

/-! Field codes of the instruction byte (spec/30_encoding.md rule R121; PRESUMED by the spec itself: log 1). -/

/-- Address operand of 16 bits, and pointer mode "at pointer, then increment" (R121). -/
def fieldAddr16 : Byte := 0x04
/-- Pointer mode "the pointer register itself" (R121). -/
def fieldPtrReg : Byte := 0x08
/-- Data operand of one word (R121). -/
def fieldWord : Byte := 0x01

end Config

/-! ## The device catalog (R38) -/

/-- The two kinds of paged region (R36, R261). -/
inductive RegionKind where
  | flash
  | eeprom
deriving DecidableEq, Repr, Inhabited

/-- `start`, `size` and `pageSize` of a region (R38). -/
structure RegionDims where
  start : Nat
  size : Nat
  pageSize : Nat
deriving DecidableEq, Repr, Inhabited

/-- `DeviceProfile` (R38). -/
structure Profile where
  flash : RegionDims
  eeprom : RegionDims
  syscfg : Nat
  nvmctrl : Nat
  sigrow : Nat
  fuses : Nat
  userrow : Nat
deriving DecidableEq, Repr, Inhabited

/-- `PART_CODES`: the keys of the device catalog (R7). -/
inductive PartCode where
  | t2k
  | t4k
  | t8k
  | t16k
  | t32k
  | m32k
  | m48k
deriving DecidableEq, Repr, Inhabited

/-- The device catalog, "keyed by part code" (R38). -/
structure Catalog where
  t2k : Profile
  t4k : Profile
  t8k : Profile
  t16k : Profile
  t32k : Profile
  m32k : Profile
  m48k : Profile
deriving DecidableEq, Repr, Inhabited

/-- The profile of a part code (R38: "a closed enum of supported variants mapped through an immutable lookup table"). -/
def Catalog.entry (c : Catalog) : PartCode → Profile
  | .t2k => c.t2k
  | .t4k => c.t4k
  | .t8k => c.t8k
  | .t16k => c.t16k
  | .t32k => c.t32k
  | .m32k => c.m32k
  | .m48k => c.m48k

/-! ## Parameters the source names without a value (R8) -/

/-- The instruction bytes of the command families (R8, R111). -/
structure Opcodes where
  lds : Byte
  ld : Byte
  sts : Byte
  st : Byte
  ldcs : Byte
  rep : Byte
  stcs : Byte
  key : Byte
deriving DecidableEq, Repr, Inhabited

/-- The parameters of R8, with the two approximate bounds of R7. A model takes each as an argument: they are a part of
State that no step writes, so a statement about every state holds for every value of them. -/
structure Params where
  imgCap : Nat
  recvAttempts : Nat
  nvmReadyAttempts : Nat
  unlockPollAttempts : Nat
  progmodePollAttempts : Nat
  urowPollAttempts : Nat
  opc : Opcodes
  csStatus : Nat
  csCtrlA : Nat
  csCtrlB : Nat
  csKeyStatus : Nat
  csResetReq : Nat
  csSysCtrlA : Nat
  csSysStatus : Nat
  ibdly : Nat
  ccdetdis : Nat
  updidis : Nat
  ksChipErase : Nat
  ksNvmProg : Nat
  ksUrowWrite : Nat
  ssLockStatus : Nat
  ssNvmProg : Nat
  ssUrowProg : Nat
  urowFinal : Nat
  resetAssert : Byte
  resetRelease : Byte
  keyChipErase : List Byte
  keyNvmProg : List Byte
  keyUrow : List Byte
  nvmCtrlA : Nat
  nvmStatus : Nat
  nvmData : Nat
  nvmAddrL : Nat
  nvmAddrH : Nat
  nstFlashBusy : Nat
  nstEepromBusy : Nat
  nstWriteError : Nat
  cmdWritePage : Byte
  cmdEraseWritePage : Byte
  cmdPageBufferClr : Byte
  cmdWriteFuse : Byte
  urowLen : Nat
  fuseCount : Nat
  catalog : Catalog
deriving DecidableEq, Repr, Inhabited

/-- The family codes of R120 (PRESUMED: log 1). -/
def Opcodes.default : Opcodes where
  lds := 0x00
  ld := 0x20
  sts := 0x40
  st := 0x60
  ldcs := 0x80
  rep := 0xA0
  stcs := 0xC0
  key := 0xE0

/-- A profile with the control-register offsets of U21 (PRESUMED: log 1). -/
def Profile.hint (flash eeprom : RegionDims) : Profile where
  flash := flash
  eeprom := eeprom
  syscfg := 0x0F00
  nvmctrl := 0x1000
  sigrow := 0x1100
  fuses := 0x1280
  userrow := 0x1300

/-- The catalog of U21's hints (PRESUMED: log 1). -/
def Catalog.default : Catalog where
  t2k := Profile.hint ⟨0x8000, 2048, 64⟩ ⟨0x1400, 64, 32⟩
  t4k := Profile.hint ⟨0x8000, 4096, 64⟩ ⟨0x1400, 128, 32⟩
  t8k := Profile.hint ⟨0x8000, 8192, 64⟩ ⟨0x1400, 128, 32⟩
  t16k := Profile.hint ⟨0x8000, 16384, 64⟩ ⟨0x1400, 256, 32⟩
  t32k := Profile.hint ⟨0x8000, 32768, 128⟩ ⟨0x1400, 256, 64⟩
  m32k := Profile.hint ⟨0x4000, 32768, 128⟩ ⟨0x1400, 256, 64⟩
  m48k := Profile.hint ⟨0x4000, 49152, 128⟩ ⟨0x1400, 256, 64⟩

/-- The defaults of R7, R39, R41 to R49, R120 and R124, and DESIGN CHOICE values where the spec gives none (log 1). -/
def Params.default : Params where
  imgCap := 65536
  recvAttempts := 30
  nvmReadyAttempts := 100
  unlockPollAttempts := 50
  progmodePollAttempts := 5
  urowPollAttempts := 50
  opc := Opcodes.default
  csStatus := 0x00
  csCtrlA := 0x02
  csCtrlB := 0x03
  csKeyStatus := 0x07
  csResetReq := 0x08
  csSysCtrlA := 0x0A
  csSysStatus := 0x0B
  ibdly := 7
  ccdetdis := 3
  updidis := 2
  ksChipErase := 3
  ksNvmProg := 4
  ksUrowWrite := 5
  ssLockStatus := 0
  ssNvmProg := 3
  ssUrowProg := 2
  urowFinal := 1
  resetAssert := 0x59
  resetRelease := 0x00
  keyChipErase := [0x4E, 0x56, 0x4D, 0x45, 0x72, 0x61, 0x73, 0x65]
  keyNvmProg := [0x4E, 0x56, 0x4D, 0x50, 0x72, 0x6F, 0x67, 0x20]
  keyUrow := [0x4E, 0x56, 0x4D, 0x55, 0x73, 0x26, 0x74, 0x65]
  nvmCtrlA := 0x00
  nvmStatus := 0x02
  nvmData := 0x06
  nvmAddrL := 0x08
  nvmAddrH := 0x09
  nstFlashBusy := 0
  nstEepromBusy := 1
  nstWriteError := 2
  cmdWritePage := 0x01
  cmdEraseWritePage := 0x03
  cmdPageBufferClr := 0x04
  cmdWriteFuse := 0x07
  urowLen := 32
  fuseCount := 9
  catalog := Catalog.default

/-! ## The environment's answers and the free values -/

/-- One event of the environment on the wire (R12, R21, U42, U52; log 2). -/
inductive Answer where
  /-- A receive attempt is answered with what a target keeping its contract (R290 to R293) would still send. -/
  | obey
  /-- A receive attempt is answered with these bytes, cut to the number asked. -/
  | bytes (bs : List Byte)
  /-- A receive attempt reports an error. -/
  | error
  /-- The next transmission reports that fewer bytes than asked were written; it answers no receive attempt. -/
  | shortWrite
deriving DecidableEq, Repr, Inhabited

namespace Config

/-- FREE VALUE (log 2): the environment's answer to a receive attempt that the script does not answer. -/
opaque rxEvent : Nat → Answer
/-- FREE VALUE (log 2): whether a transmission that the script does not answer is short. -/
opaque txShort : Nat → Bool
/-- FREE VALUE (log 4): the byte the chip holds at a data-space address nothing has written since draw `n`. -/
opaque chipByte : Nat → Nat → Byte
/-- FREE VALUE (log 4): the page buffer's byte at an address nothing has loaded since draw `n`. -/
opaque bufByte : Nat → Nat → Byte
/-- FREE VALUE (log 13): a byte of a page whose write was cut short (U44). -/
opaque partialByte : Nat → Nat → Byte
/-- FREE VALUE (logs 11, 12, 15): a register of the target after an event that leaves it open. -/
opaque regByte : Nat → Nat → Byte
/-- FREE VALUE (logs 11, 12, 15): the pointer of the target after an event that leaves it open. -/
opaque regWord : Nat → Word
/-- FREE VALUE (logs 12, 15): the page last addressed (start and length) after an event that leaves it open. -/
opaque bufPage : Nat → Nat × Nat
/-- FREE VALUE (log 14): how many later polls read a busy flag as 1 (U43). -/
opaque busyPolls : Nat → Nat → Nat
/-- FREE VALUE (logs 14, 15): a flag of the target that the contract leaves open. -/
opaque flag : Nat → Nat → Bool
/-- FREE VALUE (log 17): what a load answers where the contract calls it a draw (R290). -/
opaque loadByte : Nat → Nat → Byte

end Config
end Sys2Proof
end

