-- ==== Sys2Proof/Syntax.lean ====
section
/-! DEFINITION. The instructions: one constructor per row of spec/opcode_table.json (spec/00_scope.md rule R2: the HEX
record set, the UPDI command set with the break characters, the NVM controller command set). -/

namespace Sys2Proof

/-- One instruction of the programmer core. Counts and indices are naturals, so that a caller can name one that the
hardware refuses (R114, R115); `Instr.wf` says which are legal. -/
inductive Instr where
  /-- `DATA @aaaa dd`: record type 00 (R146). -/
  | data (aaaa : Word) (dd : List Byte)
  /-- `EOF`: record type 01 (R148). -/
  | eof (aaaa : Word) (dd : List Byte)
  /-- `ESA`, Extended Segment Address: record type 02 (R150). -/
  | esa (aaaa : Word) (dd : List Byte)
  /-- `SSA`, Start Segment Address: record type 03 (R153). -/
  | ssa (aaaa : Word) (dd : List Byte)
  /-- `ELA`, Extended Linear Address: record type 04 (R152). -/
  | ela (aaaa : Word) (dd : List Byte)
  /-- A record of a reserved type `rr`, 05 to FF (R154). -/
  | hexReserved (rr : Byte) (aaaa : Word) (dd : List Byte)
  /-- `LDCS r` (R206). -/
  | ldcs (r : Nat)
  /-- `STCS r, v` (R207). -/
  | stcs (r : Nat) (v : Byte)
  /-- `LDS.b a` (R208). -/
  | ldsb (a : Word)
  /-- `LDS.w a` (R214). -/
  | ldsw (a : Word)
  /-- `STS.b a, v` (R209). -/
  | stsb (a : Word) (v : Byte)
  /-- `STS.w a, w` (R210). -/
  | stsw (a : Word) (w : Word)
  /-- `ST.ptr a` (R211). -/
  | stPtr (a : Word)
  /-- `LD.b *(ptr++)` with `n` units, the count in force, which the frame does not carry (R212). -/
  | ldb (n : Nat)
  /-- `LD.w *(ptr++)` with `n` units (R217). -/
  | ldw (n : Nat)
  /-- `ST.b *(ptr++), d`: one unit is one byte of `d` (R213). -/
  | stb (d : List Byte)
  /-- `ST.w *(ptr++), d`: one unit is two bytes of `d`, in address order (R218). -/
  | stw (d : List Byte)
  /-- `REPEAT n` (R215). -/
  | rep (n : Nat)
  /-- `KEY k`, `k` as written left to right (R216). -/
  | key (k : List Byte)
  /-- `BREAK` (R204). -/
  | brk
  /-- Double break (R205). -/
  | doubleBreak
  /-- NVM command `WRITE_PAGE` (R273). -/
  | writePage
  /-- NVM command `ERASE_WRITE_PAGE` (R274). -/
  | eraseWritePage
  /-- NVM command `PAGE_BUFFER_CLR` (R275). -/
  | pageBufferClr
  /-- NVM command `WRITE_FUSE` (R276). -/
  | writeFuse
deriving DecidableEq, Repr, Inhabited

end Sys2Proof
end

