-- ==== Sys2Proof/WellFormed.lean ====
section
/-! DEFINITION. What the encodings admit: well-formed instructions, and the constraints of spec/00_scope.md rule R8 and
spec/10_state.md rule R38 on parameters and profiles. -/

namespace Sys2Proof

/-- A unit count that `REPEAT` can carry (R115: 1 to 256). -/
def countOk (n : Nat) : Bool := decide (1 ≤ n) && decide (n ≤ Config.repeatMax)

/-- Data of a HEX line: at most 255 bytes, the range of `BB` (R100). -/
def lineDataOk (dd : List Byte) : Bool := decide (dd.length ≤ 255)

/-- The operands an encoding exists for. -/
def Instr.wf : Instr → Bool
  | .data _ dd => lineDataOk dd
  | .eof _ dd => lineDataOk dd
  | .esa _ dd => lineDataOk dd
  | .ssa _ dd => lineDataOk dd
  | .ela _ dd => lineDataOk dd
  | .hexReserved rr _ dd => decide (5 ≤ rr.toNat) && lineDataOk dd
  | .ldcs r => decide (r ≤ 15)
  | .stcs r _ => decide (r ≤ 15)
  | .ldsb _ => true
  | .ldsw _ => true
  | .stsb _ _ => true
  | .stsw _ _ => true
  | .stPtr _ => true
  | .ldb n => countOk n
  | .ldw n => countOk n
  | .stb d => countOk d.length
  | .stw d => decide (d.length % 2 = 0) && countOk (d.length / 2)
  | .rep n => countOk n
  | .key k => decide (k.length = Config.keyLen)
  | .brk => true
  | .doubleBreak => true
  | .writePage => true
  | .eraseWritePage => true
  | .pageBufferClr => true
  | .writeFuse => true

/-- The constraints of R38 on one region: pages of at most 256 units (`unit` bytes each), the region inside the 16-bit
data space. That a page holds a whole number of units and at least one is DEDUCED (log 1). -/
def RegionDims.legal (r : RegionDims) (unit : Nat) : Bool :=
  decide (unit ≤ r.pageSize) && decide (r.pageSize % unit = 0) && decide (r.start % unit = 0) &&
    decide (r.pageSize / unit ≤ Config.repeatMax) && decide (r.start + max r.size r.pageSize ≤ 65536)

/-- A profile the hardware accepts (R38, R72, D49, D50): flash pages even and of at most 256 words at an even start,
EEPROM pages of at most 256 bytes, both regions inside the data space. That the fuses and the first byte of each other block
lie in the data space too, and that the END of the user row need not, is the model's choice (DESIGN CHOICE: log 32). -/
def Profile.legal (pr : Profile) (fuseCount : Nat) : Bool :=
  pr.flash.legal 2 && pr.eeprom.legal 1 && decide (pr.fuses + fuseCount ≤ 65536) &&
    decide (pr.nvmctrl < 65536) && decide (pr.syscfg < 65536) && decide (pr.sigrow < 65536) &&
    decide (pr.userrow < 65536)

/-- Family codes stand in `insn[7:5]` (R111). That they are told apart is the model's choice (DESIGN CHOICE: log 1). -/
def Opcodes.legal (o : Opcodes) : Bool :=
  let codes := [o.lds, o.ld, o.sts, o.st, o.ldcs, o.rep, o.stcs, o.key]
  codes.all (fun c => c &&& 0x1F == 0) && decide codes.Nodup

/-- The parameters that the statements speak of. R8, R38, R39, R114 and R115 give the bounds of `IMG_CAP`, of register indices,
of keys and of profiles. The spec gives no constraint on the others; THE MODEL'S OWN CHOICE (DESIGN CHOICE: log 1) is that
every attempt bound is at least 1, that the family codes are told apart, that bit numbers are at most 7, that the four NVM
command codes are pairwise distinct, and that `UROW_LEN` is at least 1. -/
def Params.legal (p : Params) : Bool :=
  decide (2 ≤ p.imgCap) && decide (p.imgCap ≤ 1048576) && decide (p.imgCap % 2 = 0) &&
  decide (1 ≤ p.recvAttempts) && decide (1 ≤ p.nvmReadyAttempts) &&
  decide (1 ≤ p.unlockPollAttempts) && decide (1 ≤ p.progmodePollAttempts) && decide (1 ≤ p.urowPollAttempts) &&
  p.opc.legal &&
  [p.csStatus, p.csCtrlA, p.csCtrlB, p.csKeyStatus, p.csResetReq, p.csSysCtrlA, p.csSysStatus].all (fun r => decide (r ≤ 15)) &&
  [p.ibdly, p.ccdetdis, p.updidis, p.ksChipErase, p.ksNvmProg, p.ksUrowWrite, p.ssLockStatus, p.ssNvmProg, p.ssUrowProg,
    p.urowFinal, p.nstFlashBusy, p.nstEepromBusy, p.nstWriteError].all (fun b => decide (b ≤ 7)) &&
  [p.keyChipErase, p.keyNvmProg, p.keyUrow].all (fun k => decide (k.length = Config.keyLen)) &&
  decide ([p.cmdWritePage, p.cmdEraseWritePage, p.cmdPageBufferClr, p.cmdWriteFuse].Nodup) &&
  decide (1 ≤ p.urowLen) && decide (p.urowLen ≤ Config.repeatMax) &&
  [p.catalog.t2k, p.catalog.t4k, p.catalog.t8k, p.catalog.t16k, p.catalog.t32k, p.catalog.m32k, p.catalog.m48k].all
    (fun pr => pr.legal p.fuseCount)

end Sys2Proof
end

