-- ==== Sys2Proof/Decode.lean ====
section
/-! DEFINITION. The encodings of spec/30_encoding.md: the decoder, total on any bytes and rejecting by name, and after it
the encoder. Four formats (opcode table): a HEX line, a UPDI frame, the break characters, an NVM command byte. -/

namespace Sys2Proof

/-! ## Byte helpers (R10) -/

/-- `lo8`: the low byte of a word. -/
def lo8 (w : Word) : Byte := w.extractLsb' 0 8

/-- `hi8`: the high byte of a word. -/
def hi8 (w : Word) : Byte := w.extractLsb' 8 8

/-- The word of a high and a low byte: `256 * hi + lo` (R66, R113). -/
def wordOf (hi lo : Byte) : Word := hi ++ lo

/-! ## Hexadecimal characters (R11, R102) -/

/-- `hexval`: the value of a hexadecimal character, either case (D6). -/
def hexVal (c : Byte) : Option Nat :=
  if 0x30 ≤ c.toNat ∧ c.toNat ≤ 0x39 then some (c.toNat - 0x30)
  else if 0x41 ≤ c.toNat ∧ c.toNat ≤ 0x46 then some (c.toNat - 0x37)
  else if 0x61 ≤ c.toNat ∧ c.toNat ≤ 0x66 then some (c.toNat - 0x57)
  else none

/-- `hexbyte(c1, c2)`. -/
def hexByte (c1 c2 : Byte) : Option Byte :=
  match hexVal c1, hexVal c2 with
  | some h, some l => some (BitVec.ofNat 8 (16 * h + l))
  | _, _ => none

/-- The bytes a run of character pairs spells; none when a character is not hexadecimal or the run is odd. -/
def hexBytes : List Byte → Option (List Byte)
  | [] => some []
  | [_] => none
  | c1 :: c2 :: cs =>
    match hexByte c1 c2, hexBytes cs with
    | some b, some bs => some (b :: bs)
    | _, _ => none

/-- One upper-case hexadecimal digit. -/
def hexDigit (n : Nat) : Byte := if n < 10 then BitVec.ofNat 8 (0x30 + n) else BitVec.ofNat 8 (0x37 + n)

/-- `HEX2(b)`: two upper-case characters, high nibble first (R11). -/
def hex2 (b : Byte) : List Byte := [hexDigit (b.toNat / 16), hexDigit (b.toNat % 16)]

/-- `HEX4(w)`: high byte first (R11). -/
def hex4 (w : Word) : List Byte := hex2 (hi8 w) ++ hex2 (lo8 w)

/-! ## The HEX line (R100 to R108) -/

/-- The record registers: the fields of one line (R27). -/
structure HexRecord where
  bb : Byte
  aaaa : Word
  rr : Byte
  dd : List Byte
  cc : Byte
deriving DecidableEq, Repr, Inhabited

/-- `chk(sum)`: two's complement of the sum, mod 256 (R103). -/
def chk (sum : Nat) : Byte := BitVec.ofNat 8 (((sum % 256) ^^^ 0xFF) + 1)

/-- The natural-number sum of a list of bytes. -/
def byteSum (bs : List Byte) : Nat := (bs.map BitVec.toNat).sum

/-- The sum a line's checksum is taken over: byte count, both address bytes, record type, all data bytes (R103). -/
def lineSum (bb : Byte) (aaaa : Word) (rr : Byte) (dd : List Byte) : Nat :=
  bb.toNat + (hi8 aaaa).toNat + (lo8 aaaa).toNat + rr.toNat + byteSum dd

/-- Why a line is not a record, in the order the checks are made (R155). -/
inductive LineFault where
  /-- Length below 11, or even (R142). -/
  | lineLength
  /-- The first character is not `':'` (R143, D5). -/
  | startCode
  /-- A character is not hexadecimal (R143, D6). -/
  | hexDigit
  /-- `2 * BB` is not the number of data characters (R143). -/
  | byteCount
  /-- The computed and the stored checksum differ (R144). -/
  | checksum (computed stored : Byte)
deriving DecidableEq, Repr, Inhabited

/-- The fields of the bytes a line spells after its start code (R100). -/
def recordOfBytes : List Byte → Option HexRecord
  | bb :: ah :: al :: rr :: c :: rest =>
    some ⟨bb, wordOf ah al, rr, (c :: rest).dropLast, (c :: rest).getLastD c⟩
  | _ => none

/-- Length check and field decode of a line (R142, R143), before the byte-count check. -/
def decodeFields (l : List Byte) : Except LineFault HexRecord :=
  if l.length < Config.lineMin ∨ l.length % 2 = 0 then .error .lineLength
  else if l.head? ≠ some Config.colon then .error .startCode
  else
    match (hexBytes l.tail).bind recordOfBytes with
    | none => .error .hexDigit
    | some r => .ok r

/-- Byte-count check (R143) and checksum verification (R144). A decoded line has `(len - 11) div 2` data bytes. -/
def checkRecord (r : HexRecord) : Except LineFault HexRecord :=
  if r.bb.toNat ≠ r.dd.length then .error .byteCount
  else if chk (lineSum r.bb r.aaaa r.rr r.dd) ≠ r.cc then
    .error (.checksum (chk (lineSum r.bb r.aaaa r.rr r.dd)) r.cc)
  else .ok r

/-- The record of a line that passes every check (R140 to R144, in the order of R155). -/
def decodeRecord (l : List Byte) : Except LineFault HexRecord :=
  match decodeFields l with
  | .error e => .error e
  | .ok r => checkRecord r

/-- The record-type map (R104). -/
def Instr.ofRecord (r : HexRecord) : Instr :=
  if r.rr = 0x00 then .data r.aaaa r.dd
  else if r.rr = 0x01 then .eof r.aaaa r.dd
  else if r.rr = 0x02 then .esa r.aaaa r.dd
  else if r.rr = 0x03 then .ssa r.aaaa r.dd
  else if r.rr = 0x04 then .ela r.aaaa r.dd
  else .hexReserved r.rr r.aaaa r.dd

/-! ## The UPDI frame (R110 to R123) -/

/-- Instruction byte of a direct load (R121). -/
def insnLds (o : Opcodes) (wide : Bool) : Byte :=
  o.lds ||| (Config.fieldAddr16 ||| (if wide then Config.fieldWord else 0))
/-- Instruction byte of a direct store (R121). -/
def insnSts (o : Opcodes) (wide : Bool) : Byte :=
  o.sts ||| (Config.fieldAddr16 ||| (if wide then Config.fieldWord else 0))
/-- Instruction byte of a post-increment load (R121). -/
def insnLd (o : Opcodes) (wide : Bool) : Byte :=
  o.ld ||| (Config.fieldAddr16 ||| (if wide then Config.fieldWord else 0))
/-- Instruction byte of a post-increment store (R121). -/
def insnSt (o : Opcodes) (wide : Bool) : Byte :=
  o.st ||| (Config.fieldAddr16 ||| (if wide then Config.fieldWord else 0))
/-- Instruction byte of the set-pointer store, a 16-bit operand into the pointer register (R121). -/
def insnStPtr (o : Opcodes) : Byte := o.st ||| (Config.fieldPtrReg ||| Config.fieldWord)
/-- Instruction byte of a control/status load: the index in `insn[3:0]` (R114). -/
def insnLdcs (o : Opcodes) (r : Nat) : Byte := o.ldcs ||| BitVec.ofNat 8 (r % 16)
/-- Instruction byte of a control/status store (R114). -/
def insnStcs (o : Opcodes) (r : Nat) : Byte := o.stcs ||| BitVec.ofNat 8 (r % 16)

/-- Why bytes are no instruction of this hardware. -/
inductive DecodeFault where
  /-- The HEX line fails a check (R155). -/
  | line (f : LineFault)
  /-- A frame does not begin with `SYNC` (R110). -/
  | noSync
  /-- An instruction byte this hardware never sends (R123). -/
  | unknownInsn (b : Byte)
  /-- The instruction byte's operands are not there, or too many are (R118). -/
  | operands
  /-- Not the one or two break characters (R110). -/
  | notBreak
  /-- An NVM command code this hardware never writes (R125). -/
  | unknownCommand
deriving DecidableEq, Repr, Inhabited

/-- The frame's instruction from its instruction byte and operand bytes (R112). `units` is the repeat count in force,
which an `LD` frame does not carry (R118). -/
def decodeInsn (o : Opcodes) (units : Nat) (insn : Byte) (ops : List Byte) : Except DecodeFault Instr :=
  if insn = insnLds o false then
    match ops with
    | [l, h] => .ok (.ldsb (wordOf h l))
    | _ => .error .operands
  else if insn = insnLds o true then
    match ops with
    | [l, h] => .ok (.ldsw (wordOf h l))
    | _ => .error .operands
  else if insn = insnSts o false then
    match ops with
    | [l, h, v] => .ok (.stsb (wordOf h l) v)
    | _ => .error .operands
  else if insn = insnSts o true then
    match ops with
    | [l, h, vl, vh] => .ok (.stsw (wordOf h l) (wordOf vh vl))
    | _ => .error .operands
  else if insn = insnStPtr o then
    match ops with
    | [l, h] => .ok (.stPtr (wordOf h l))
    | _ => .error .operands
  else if insn = insnLd o false then
    match ops with
    | [] => .ok (.ldb units)
    | _ => .error .operands
  else if insn = insnLd o true then
    match ops with
    | [] => .ok (.ldw units)
    | _ => .error .operands
  else if insn = insnSt o false then
    if countOk ops.length then .ok (.stb ops) else .error .operands
  else if insn = insnSt o true then
    if ops.length % 2 = 0 ∧ countOk (ops.length / 2) then .ok (.stw ops) else .error .operands
  else if insn = o.rep then
    match ops with
    | [n] => .ok (.rep (n.toNat + 1))
    | _ => .error .operands
  else if insn = o.key then
    if ops.length = Config.keyLen then .ok (.key ops.reverse) else .error .operands
  else if insn &&& 0xF0 = o.ldcs then
    match ops with
    | [] => .ok (.ldcs (insn &&& 0x0F).toNat)
    | _ => .error .operands
  else if insn &&& 0xF0 = o.stcs then
    match ops with
    | [v] => .ok (.stcs (insn &&& 0x0F).toNat v)
    | _ => .error .operands
  else .error (.unknownInsn insn)

/-- A frame: `SYNC`, the instruction byte, the operand bytes (R110). -/
def decodeFrame (o : Opcodes) (units : Nat) : List Byte → Except DecodeFault Instr
  | b :: insn :: ops => if b = Config.sync then decodeInsn o units insn ops else .error .noSync
  | _ => .error .noSync

/-- The break characters, sent without `SYNC` (R110, R204, R205). -/
def decodeBreak (bs : List Byte) : Except DecodeFault Instr :=
  if bs = [Config.breakChar] then .ok .brk
  else if bs = [Config.breakChar, Config.breakChar] then .ok .doubleBreak
  else .error .notBreak

/-- The NVM controller's command byte (R124). -/
def decodeCommand (p : Params) (bs : List Byte) : Except DecodeFault Instr :=
  if bs = [p.cmdWritePage] then .ok .writePage
  else if bs = [p.cmdEraseWritePage] then .ok .eraseWritePage
  else if bs = [p.cmdPageBufferClr] then .ok .pageBufferClr
  else if bs = [p.cmdWriteFuse] then .ok .writeFuse
  else .error .unknownCommand

/-- The four formats of the opcode table. One byte can be an instruction of several formats, so bytes are always decoded
under the format of the place they stand in (log 6). -/
inductive Format where
  | hexLine
  | updiFrame
  | updiBreak
  | nvmCommand
deriving DecidableEq, Repr, Inhabited

/-- The decoder: total, rejecting by name. `units` is the repeat count in force (R118). -/
def decode (p : Params) (f : Format) (units : Nat) (bs : List Byte) : Except DecodeFault Instr :=
  match f with
  | .hexLine =>
    match decodeRecord bs with
    | .error e => .error (.line e)
    | .ok r => .ok (Instr.ofRecord r)
  | .updiFrame => decodeFrame p.opc units bs
  | .updiBreak => decodeBreak bs
  | .nvmCommand => decodeCommand p bs

/-! ## The encoder -/

/-- A HEX line without its terminator (R107). -/
def encodeLine (rr : Byte) (aaaa : Word) (dd : List Byte) : List Byte :=
  Config.colon :: (hex2 (BitVec.ofNat 8 dd.length) ++ hex4 aaaa ++ hex2 rr ++ dd.flatMap hex2 ++
    hex2 (chk (lineSum (BitVec.ofNat 8 dd.length) aaaa rr dd)))

/-- The operand of `REPEAT`: "encoded as count−1" (R115). -/
def repOperand (n : Nat) : Byte := BitVec.ofNat 8 (n - 1)

/-- A 16-bit operand on the wire: low byte first (R113). -/
def wireWord (w : Word) : List Byte := [lo8 w, hi8 w]

/-- The format an instruction is encoded in. -/
def Instr.format : Instr → Format
  | .data _ _ => .hexLine
  | .eof _ _ => .hexLine
  | .esa _ _ => .hexLine
  | .ssa _ _ => .hexLine
  | .ela _ _ => .hexLine
  | .hexReserved _ _ _ => .hexLine
  | .ldcs _ => .updiFrame
  | .stcs _ _ => .updiFrame
  | .ldsb _ => .updiFrame
  | .ldsw _ => .updiFrame
  | .stsb _ _ => .updiFrame
  | .stsw _ _ => .updiFrame
  | .stPtr _ => .updiFrame
  | .ldb _ => .updiFrame
  | .ldw _ => .updiFrame
  | .stb _ => .updiFrame
  | .stw _ => .updiFrame
  | .rep _ => .updiFrame
  | .key _ => .updiFrame
  | .brk => .updiBreak
  | .doubleBreak => .updiBreak
  | .writePage => .nvmCommand
  | .eraseWritePage => .nvmCommand
  | .pageBufferClr => .nvmCommand
  | .writeFuse => .nvmCommand

/-- The unit count an instruction runs under: an `LD` frame does not carry it (R118). -/
def Instr.units : Instr → Nat
  | .data _ _ => 1
  | .eof _ _ => 1
  | .esa _ _ => 1
  | .ssa _ _ => 1
  | .ela _ _ => 1
  | .hexReserved _ _ _ => 1
  | .ldcs _ => 1
  | .stcs _ _ => 1
  | .ldsb _ => 1
  | .ldsw _ => 1
  | .stsb _ _ => 1
  | .stsw _ _ => 1
  | .stPtr _ => 1
  | .ldb n => n
  | .ldw n => n
  | .stb _ => 1
  | .stw _ => 1
  | .rep _ => 1
  | .key _ => 1
  | .brk => 1
  | .doubleBreak => 1
  | .writePage => 1
  | .eraseWritePage => 1
  | .pageBufferClr => 1
  | .writeFuse => 1

/-- The encoder: the bytes of an instruction, in the order they stand in the file or go out on the wire (R100, R112,
R124). -/
def encode (p : Params) : Instr → List Byte
  | .data a dd => encodeLine 0x00 a dd
  | .eof a dd => encodeLine 0x01 a dd
  | .esa a dd => encodeLine 0x02 a dd
  | .ssa a dd => encodeLine 0x03 a dd
  | .ela a dd => encodeLine 0x04 a dd
  | .hexReserved rr a dd => encodeLine rr a dd
  | .ldcs r => [Config.sync, insnLdcs p.opc r]
  | .stcs r v => [Config.sync, insnStcs p.opc r, v]
  | .ldsb a => Config.sync :: insnLds p.opc false :: wireWord a
  | .ldsw a => Config.sync :: insnLds p.opc true :: wireWord a
  | .stsb a v => Config.sync :: insnSts p.opc false :: (wireWord a ++ [v])
  | .stsw a w => Config.sync :: insnSts p.opc true :: (wireWord a ++ wireWord w)
  | .stPtr a => Config.sync :: insnStPtr p.opc :: wireWord a
  | .ldb _ => [Config.sync, insnLd p.opc false]
  | .ldw _ => [Config.sync, insnLd p.opc true]
  | .stb d => Config.sync :: insnSt p.opc false :: d
  | .stw d => Config.sync :: insnSt p.opc true :: d
  | .rep n => [Config.sync, p.opc.rep, repOperand n]
  | .key k => Config.sync :: p.opc.key :: k.reverse
  | .brk => [Config.breakChar]
  | .doubleBreak => [Config.breakChar, Config.breakChar]
  | .writePage => [p.cmdWritePage]
  | .eraseWritePage => [p.cmdEraseWritePage]
  | .pageBufferClr => [p.cmdPageBufferClr]
  | .writeFuse => [p.cmdWriteFuse]

/-! ## A word of the opcode table (log 6) -/

/-- A table row of a HEX record gives the `RR` byte alone: the line of that type with every operand zero (two zero data
bytes for the extended-address types, which must carry two). -/
def tableLine (rr : Byte) : List Byte :=
  encodeLine rr 0 (if rr = 0x02 ∨ rr = 0x04 then [0, 0] else [])

/-- How many operand bytes follow an instruction byte, with one unit for a store (R118). -/
def operandLen (o : Opcodes) (insn : Byte) : Nat :=
  if insn = insnLds o false ∨ insn = insnLds o true ∨ insn = insnStPtr o then 2
  else if insn = insnSts o false then 3
  else if insn = insnSts o true then 4
  else if insn = insnSt o true then 2
  else if insn = insnSt o false ∨ insn = o.rep ∨ insn &&& 0xF0 = o.stcs then 1
  else if insn = o.key then Config.keyLen
  else 0

/-- The frame of an instruction byte with every operand byte zero. -/
def tableFrame (o : Opcodes) (insn : Byte) : List Byte :=
  Config.sync :: insn :: List.replicate (operandLen o insn) 0

/-- The readings of a one-byte table word, in the order they are tried: the record types of R104, a frame, an NVM command,
a break, a reserved record type. -/
def tableReadings (b : Byte) : List (Format × List Byte) :=
  (if b.toNat ≤ 4 then [(Format.hexLine, tableLine b)] else []) ++
    [(.updiFrame, tableFrame Opcodes.default b), (.nvmCommand, [b]), (.updiBreak, [b]), (.hexLine, tableLine b)]

/-- The first reading that the decoder accepts. -/
def firstDecoded : List (Format × List Byte) → Option Instr
  | [] => none
  | (f, bs) :: rest =>
    match decode Params.default f 1 bs with
    | .ok i => some i
    | .error _ => firstDecoded rest

/-- The instruction the decoder reads from a word of the opcode table: one byte (the `RR` byte, the instruction byte, the
command byte or the break character), or the two bytes of the double break (log 6). -/
def decodeTableWord (nbits w : Nat) : Option Instr :=
  if nbits = 8 then firstDecoded (tableReadings (BitVec.ofNat 8 w))
  else if nbits = 16 then firstDecoded [(.updiBreak, [BitVec.ofNat 8 w, BitVec.ofNat 8 (w / 256)])]
  else none

end Sys2Proof
end

