-- ==== Sys2Proof/Machine/State.lean ====
section
/-! DEFINITION. The machine's state (spec/10_state.md), the reasons a step can stop, the errors of
spec/60_exceptions.md, and the machine right after reset (rule R54). Plain data throughout. -/

namespace Sys2Proof.Machine

/-! ## Errors (R300 to R305) -/

/-- `FormatError` with its sub-cause and the value R301 records. -/
inductive FormatError where
  | fileSize (size : Nat)
  | lineLength (pos : Nat)
  | startCode (pos : Nat)
  | hexDigit (pos : Nat)
  | byteCount (pos : Nat)
  | checksum (pos : Nat) (computed stored : Byte)
  | recordType (pos : Nat) (rr : Byte)
  | extLength (pos : Nat)
  | overrun (pos : Nat) (addr : Nat)
  | noEof
  | loneNibble (index : Nat)
deriving DecidableEq, Repr, Inhabited

/-- `TransportError` (R303). -/
inductive TransportError where
  | openFailure
  | shortWrite
  | echoMissing
  | echoMismatch
  | shortRead
deriving DecidableEq, Repr, Inhabited

/-- `ProtocolError` (R304). -/
inductive ProtocolError where
  | missingAck
  | initFailed
  | keyRejected
  | unlockTimeout
  | urowTimeout
  | nvmWriteError
  | nvmTimeout
deriving DecidableEq, Repr, Inhabited

/-- `lowAddress` and `highAddress` (R23). -/
structure Range where
  low : Nat
  high : Nat
deriving DecidableEq, Repr, Inhabited

/-- The five error classes (R300), each with its sub-cause. -/
inductive Error where
  | format (e : FormatError)
  /-- `OverlapError(Ranges)`, recording the two ranges (R302). -/
  | overlap (a b : Range)
  | transport (e : TransportError)
  | protocol (e : ProtocolError)
  /-- `VerifyError(page, addr)` (R305). -/
  | verify (page addr : Nat)
deriving DecidableEq, Repr, Inhabited

/-- The two failure signals of `enter_progmode`, which are not errors (R304, R246). -/
inductive ProgFailure where
  | lockedTimeout
  | notInProgMode
deriving DecidableEq, Repr, Inhabited

/-! ## Why a step stops -/

/-- What stops the machine for good. -/
inductive Fault where
  /-- Raised by `step` once the external interruption has been taken: "then nothing more runs" (R312). Safe: the machine
  makes no step where the process has exited. -/
  | halted
deriving DecidableEq, Repr, Inhabited

/-- Requests and operands that the spec refuses (R306): they have no meaning and are not errors of the hardware. Each is
safe: the spec gives these requests no behaviour. -/
inductive Refusal where
  /-- An arm of `exec` that has no meaning yet; no arm raises it. -/
  | notModelled (mnemonic : String)
  /-- Raised by a frame, and at the start of an operation, in a link state that does not permit it, or when `failed` is
  set (R316, U38). -/
  | linkState
  /-- Raised by `LDCS` and `STCS` for an index above 15 (R114, U37). -/
  | registerIndex
  /-- Raised by `REPEAT`, `LD` and `ST` for a count outside 1 to 256 (R115, U37). -/
  | repeatCount
  /-- Raised by `ST.w` for an odd number of bytes (R218). -/
  | oddData
  /-- Raised by `KEY` for a key that is not 8 bytes long (R216, U37). -/
  | keyLength
  /-- Raised by `serialize` and `txt2hex` beyond 65536 bytes or beyond the image (R171, U35). -/
  | serializeLength
  /-- Raised by `hex2c` and `hex2bin` when no byte but 0xFF was parsed (R176, U35). -/
  | emptyRange
  /-- Raised by the construction of a session with a rate outside `BAUD_SET` (R203, U37). -/
  | baudRate
  /-- Raised at the start of an operation on a profile that breaks R38 (U39). -/
  | profile
  /-- Raised by `fuse_read` and `fuse_write` for `n >= FUSE_COUNT` (R270). -/
  | fuseIndex
  /-- Raised by `userrow_write` when the data is not `UROW_LEN` bytes (R248). -/
  | userRowLength
  /-- Raised when a HEX record is requested as a link command: a record executes only inside `parse` (R140). -/
  | notLinkCommand
deriving DecidableEq, Repr, Inhabited

/-! ## Block HEX -/

/-- A byte memory: the cells that differ from what an unlisted address reads as, addresses strictly rising. -/
abbrev Memory := List Host.Cell

/-- A byte array, read as `0xFF` where no cell is listed (R22). -/
structure Image where
  size : Nat
  cells : Memory
deriving DecidableEq, Repr, Inhabited

/-- The state of the codec (R22 to R27), the captured range of `merge` (R179) and the operands and output of `serialize`
(R171). -/
structure Codec where
  file : List Byte
  pos : Nat
  img : Memory
  range : Option Range
  offset : BitVec 32
  eofSeen : Bool
  record : HexRecord
  rangeA : Option Range
  image : Image
  length : Nat
  k : Nat
  out : List Byte
deriving DecidableEq, Repr, Inhabited

/-- The codec at the start of an operation (R54, R340): it "shares nothing with any earlier operation". -/
def Codec.fresh : Codec where
  file := []
  pos := 0
  img := []
  range := none
  offset := 0
  eofSeen := false
  record := ⟨0, 0, 0, [], 0⟩
  rangeA := none
  image := ⟨0, []⟩
  length := 0
  k := 0
  out := []

/-! ## Blocks LINK and SESS -/

/-- The link states (R32, C1). -/
inductive LinkState where
  | cold
  | syncPending
  | synced
  | unlocked
  | progMode
  | closed
deriving DecidableEq, Repr, Inhabited

/-- The session record (R29, R31 to R35). -/
structure Session where
  linkState : LinkState
  failed : Option Error
  profile : Profile
  chipEraseOk : Bool
  transportOpen : Bool
  baud : Nat
  stopBits : Nat
  verbosity : Nat
deriving DecidableEq, Repr, Inhabited

/-- A session as constructed (R340 (b), R54): `Cold`, nothing failed, no chip erase, 2 stop bits. -/
def Session.fresh (profile : Profile) (baud verbosity : Nat) : Session where
  linkState := .cold
  failed := none
  profile := profile
  chipEraseOk := false
  transportOpen := true
  baud := baud
  stopBits := Config.stopBits
  verbosity := verbosity

/-! ## Block NVM -/

/-- The region an operation works on (R36). -/
structure Region where
  kind : RegionKind
  dims : RegionDims
deriving DecidableEq, Repr, Inhabited

/-- The two commands `write` commits a page with (R36, R267). -/
inductive PageCommand where
  | writePage
  | eraseWritePage
deriving DecidableEq, Repr, Inhabited

/-- The triple handed to the progress indicator after each page (R269). -/
structure Progress where
  page : Nat
  total : Nat
  hadData : Bool
deriving DecidableEq, Repr, Inhabited

/-- The working registers of the NVM controller (R36), the sequence of progress triples (R269), and the page in progress
(start and length) whose contents a stop leaves open (R293). -/
structure Nvm where
  region : Region
  p : Nat
  cmd : PageCommand
  src : List Byte
  dst : List Byte
  progress : List Progress
  total : Nat
  openPage : Option (Nat × Nat)
deriving DecidableEq, Repr, Inhabited

/-! ## The target (R50 to R53, R290) -/

/-- The target's hidden state. An unlisted byte of `mem` is the free value `Config.chipByte memBase a`; an unlisted byte of
the page buffer is `0xFF` after a clear (`bufBase = none`) and otherwise the free value `Config.bufByte n a`. A busy flag
is held as the number of later polls that read it as 1 (R292). -/
structure Target where
  mem : Memory
  memBase : Nat
  buf : Memory
  bufBase : Option Nat
  pageStart : Nat
  pageLen : Nat
  ptr : Word
  rep : Byte
  cs : Vector Byte 16
  ctrlA : Byte
  dataReg : Byte
  addrL : Byte
  addrH : Byte
  flashBusy : Nat
  eepromBusy : Nat
  writeError : Bool
  locked : Bool
  progMode : Bool
  keyErase : Bool
  keyProg : Bool
  keyRow : Bool
  resetHeld : Bool
deriving DecidableEq, Repr, Inhabited

/-! ## The wire -/

/-- A byte on the transmit stream, with the link configuration it went out with (R65, R203). -/
structure TxByte where
  byte : Byte
  baud : Nat
  stopBits : Nat
deriving DecidableEq, Repr, Inhabited

/-- The wire (R60, R65) and the environment's side of it (R21, R312): the answers still to come, the index of the next
free value, the steps left before the external interruption; and the response of the last frame. -/
structure Wire where
  sent : List TxByte
  script : List Answer
  draws : Nat
  irq : Option Nat
  resp : List Byte
  recvAttempt : Nat
deriving DecidableEq, Repr, Inhabited

/-! ## Operations and what is left of one -/

/-- An operation that HOST can start (R20): the operations of the codec (spec/41_hex_operations.md), the raw link commands
and primitives (spec/42_updi_link.md), the session's (spec/43_updi_session.md), the NVM controller's (spec/44_nvm.md), and
the construction of a session (R340). -/
inductive Request where
  | parse (file : List Byte)
  | serialize (image : Image) (length : Nat)
  | txt2hex (text : List Byte)
  | hex2c (file : List Byte)
  | hex2bin (file : List Byte)
  | merge (a b : List Byte)
  | command (i : Instr)
  | send (bs : List Byte)
  | recv (len : Nat)
  | newSession (part : PartCode) (baud verbosity : Nat)
  | initLink
  | unlockErase
  | enterProgmode
  | leaveProgmode
  | userrowWrite (data : List Byte)
  | close
  | waitNvmReady
  | read (kind : RegionKind)
  | write (kind : RegionKind) (src : List Byte)
  | verify (kind : RegionKind) (src : List Byte)
  | fuseRead (n : Nat)
  | fuseWrite (n : Nat) (value : Byte)
deriving DecidableEq, Repr, Inhabited

/-- What happens when a poll runs out (R245, R246, R248). -/
inductive PollFailure where
  | unlockTimeout
  | urowTimeout
  | lockedTimeout
deriving DecidableEq, Repr, Inhabited

/-- `poll(r, b, want, attempts)` (R250). -/
structure Poll where
  reg : Nat
  bit : Nat
  want : Bool
  attempts : Nat
  onTimeout : PollFailure
deriving DecidableEq, Repr, Inhabited

/-- One element of what is left of the operation in progress: an instruction, or one of the tests and bookkeeping actions
that stand between instructions in the pseudocode of spec/41_hex_operations.md, spec/43_updi_session.md and
spec/44_nvm.md. -/
inductive Micro where
  /-- `parse`, its start: size check, reset of the codec (but for the image in `merge`'s second file), leading
  terminators (R170, R179). -/
  | parse (file : List Byte) (keep : Bool)
  /-- `parse`, its loop: one record at `pos` (R140), or the end of the file (R170). -/
  | records
  /-- `parse`, its return (R170). -/
  | parsed
  /-- `hex2c` and `hex2bin` after the parse (R176 to R178). -/
  | window (asC : Bool)
  /-- `merge`, between its files (R179). -/
  | mergeSecond (b : List Byte)
  /-- `merge`, its overlap test and return (R179, R180). -/
  | mergeEnd
  /-- `serialize`, its loop: one emitted line (R171). -/
  | chunks
  /-- One instruction. -/
  | cmd (i : Instr)
  /-- `send` (R200). -/
  | sendBytes (bs : List Byte)
  /-- `recv` (R201). -/
  | recvBytes (len : Nat)
  /-- The return of a raw command: the value the instruction hands back (R126, R214). -/
  | answer (i : Instr)
  /-- The return of `recv` as an operation of its own: what came in (R201). -/
  | received
  /-- The return of an operation that hands back no value: `send`, `wait_nvm_ready` (R200, R264). -/
  | ready
  /-- The test of the status in `init` (R241). -/
  | initTest
  /-- The test of `keycheck` (R243). -/
  | keyTest (bit : Nat)
  /-- The start of a poll (R250). -/
  | poll (q : Poll)
  /-- The test of a poll (R250). -/
  | pollTest (q : Poll)
  /-- The return of `unlock_erase` (R245). -/
  | unlocked
  /-- The first test of `enter_progmode` (R246). -/
  | progTest
  /-- The last test of `enter_progmode` (R246). -/
  | progConfirm
  /-- The return of `leave_progmode` (R247). -/
  | left
  /-- The return of `userrow_write` (R248). -/
  | rowDone
  /-- A page, or the user row, comes into progress (R293). -/
  | openPage (start len : Nat)
  /-- The page in progress is committed. -/
  | closePage
  /-- `wait_nvm_ready`, its start (R264). -/
  | nvmWait
  /-- `wait_nvm_ready`, its test (R264). -/
  | nvmTest
  /-- `read`, its loop (R266). -/
  | readPage
  /-- `read`, after a page's burst (R266). -/
  | readStore
  /-- `write`, its loop (R267). -/
  | writePage
  /-- `write`, after a page (R267). -/
  | writeDone
  /-- `verify`, its loop (R268). -/
  | verifyPage
  /-- `verify`, the comparison of a page (R268). -/
  | compare
  /-- The return of `fuse_read` (R270). -/
  | fuseDone
  /-- `fuse_write`, the test of the old value (R271). -/
  | fuseTest (n : Nat) (value : Byte)
  /-- `fuse_write`, the read-back (R271). -/
  | fuseVerify (n : Nat) (value : Byte)
deriving DecidableEq, Repr, Inhabited

/-- What an operation hands to its caller (R28, R315): a value, a failure signal or an error. -/
inductive Result where
  | ok
  | byte (v : Byte)
  | word (v : Word)
  | bytes (bs : List Byte)
  | image (img : Image) (range : Option Range)
  | file (bs : List Byte)
  | window (addrStart addrEnd : Nat) (bs : List Byte)
  | dump (bs : List Byte)
  | fuseNoOp
  | fuseWritten
  | failure (f : ProgFailure)
  | error (e : Error)
deriving DecidableEq, Repr, Inhabited

/-- HOST's side (R20): the operations it has yet to start, what is left of the one in progress (the instruction stream the
rules generate, R82), the last result, the attempt cursors of the loops between frames (R25, R320), and whether the
external interruption has ended the process (R312). -/
structure Control where
  requests : List Request
  todo : List Micro
  result : Option Result
  pollAttempt : Nat
  initRound : Nat
  halted : Bool
deriving DecidableEq, Repr, Inhabited

/-- The whole machine. -/
structure State where
  params : Params
  codec : Codec
  session : Session
  nvm : Nvm
  target : Target
  wire : Wire
  ctl : Control
deriving DecidableEq, Repr, Inhabited

/-! ## Reset (R54, R340) -/

/-- The working registers of the NVM controller before the first operation of a session. R54 leaves them "unspecified", all but the
page index: the command is `eraseWritePage` and the region's kind is flash, neither of which has a zero, and the rest is zero,
empty or none (DESIGN CHOICE: log 10). -/
def Nvm.fresh : Nvm where
  region := ⟨.flash, ⟨0, 0, 0⟩⟩
  p := 0
  cmd := .eraseWritePage
  src := []
  dst := []
  progress := []
  total := 0
  openPage := none

/-- The target at the construction of the first session (R54: "unspecified"): its memory and page buffer are free values
(log 4), its registers the values log 3 names. -/
def Target.fresh : Target where
  mem := []
  memBase := 0
  buf := []
  bufBase := some 0
  pageStart := 0
  pageLen := 0
  ptr := 0
  rep := 0
  cs := Vector.replicate 16 0
  ctrlA := 0
  dataReg := 0
  addrL := 0
  addrH := 0
  flashBusy := 0
  eepromBusy := 0
  writeError := false
  locked := true
  progMode := false
  keyErase := false
  keyProg := false
  keyRow := false
  resetHeld := false

/-- The machine right after reset: a fresh codec (R340 (a)) and a fresh session on the `t16k` profile (R340 (b), log 9),
no operation asked for. -/
def State.reset : State where
  params := Params.default
  codec := Codec.fresh
  session := Session.fresh Catalog.default.t16k Config.baudDefault 0
  nvm := Nvm.fresh
  target := Target.fresh
  wire := { sent := [], script := [], draws := 0, irq := none, resp := [], recvAttempt := 0 }
  ctl := { requests := [], todo := [], result := none, pollAttempt := 0, initRound := 0, halted := false }

end Sys2Proof.Machine
end

