-- ==== Sys2Proof/Machine/Flags.lean ====
section
/-! DEFINITION. The condition codes and permissions of the hardware: status bits (spec/10_state.md rules R39 to R48), the
range of an image (R147), the page predicate (R263), the overlap predicate (R180), and what each link state permits
(spec/60_exceptions.md rule R316). -/

namespace Sys2Proof.Machine

/-- `bit(i)` (R10). -/
def bitMask (i : Nat) : Byte := 1#8 <<< i

/-- `v[i]` (R10). -/
def bitSet (v : Byte) (i : Nat) : Bool := v.getLsbD i

/-- `v` with bit `i` made `b`. -/
def putBit (v : Byte) (i : Nat) (b : Bool) : Byte := (v &&& ~~~(bitMask i)) ||| (if b then bitMask i else 0)

/-! ## The range of an image -/

/-- `note(a)` (R147). -/
def noteAddr (r : Option Range) (a : Nat) : Option Range :=
  match r with
  | none => some ⟨a, a⟩
  | some ⟨lo, hi⟩ => some ⟨min lo a, max hi a⟩

/-- `note` over the bytes stored from address `a` up: only a byte different from `0xFF` moves the range (R146, R147). -/
def noteBytes (r : Option Range) (a : Nat) : List Byte → Option Range
  | [] => r
  | b :: bs => noteBytes (if b = Config.sentinel then r else noteAddr r a) (a + 1) bs

/-- The overlap predicate: any of the four boundary-containment combinations (R180); an empty range overlaps nothing (D19). -/
def rangesOverlap (a b : Option Range) : Bool :=
  match a, b with
  | some ra, some rb =>
    (decide (rb.low ≤ ra.low) && decide (ra.low ≤ rb.high)) || (decide (rb.low ≤ ra.high) && decide (ra.high ≤ rb.high)) ||
      (decide (ra.low ≤ rb.low) && decide (rb.low ≤ ra.high)) || (decide (ra.low ≤ rb.high) && decide (rb.high ≤ ra.high))
  | _, _ => false

/-- `union` of two ranges (R179). -/
def rangeUnion (a b : Option Range) : Option Range :=
  match a, b with
  | none, r => r
  | r, none => r
  | some ra, some rb => some ⟨min ra.low rb.low, max ra.high rb.high⟩

/-! ## Pages -/

/-- `HasPageData(page)`: any byte differs from `0xFF` (R263). -/
def hasPageData (page : List Byte) : Bool := page.any (fun b => b != Config.sentinel)

/-- The least index at which two byte sequences differ (R268). -/
def firstDiff : List Byte → List Byte → Nat
  | g :: gs, d :: ds => if g = d then firstDiff gs ds + 1 else 0
  | _, _ => 0

/-! ## What a link state permits (R316) -/

/-- A frame may go out: the link state is one in which raw link commands or `init` run, and nothing has failed. -/
def linkUp (ss : Session) : Bool :=
  ss.failed.isNone &&
    (match ss.linkState with
     | .cold => false
     | .syncPending => true
     | .synced => true
     | .unlocked => true
     | .progMode => true
     | .closed => false)

/-- HOST may ask for a raw link command, or for `leave_progmode`. -/
def hostLinkOk (ss : Session) : Bool :=
  ss.failed.isNone &&
    (match ss.linkState with
     | .synced => true
     | .unlocked => true
     | .progMode => true
     | _ => false)

/-- HOST may ask for `init`. -/
def hostInitOk (ss : Session) : Bool := ss.failed.isNone && decide (ss.linkState = .cold)

/-- HOST may ask for `unlock_erase` or `userrow_write`. -/
def hostUnlockOk (ss : Session) : Bool :=
  ss.failed.isNone && (decide (ss.linkState = .synced) || decide (ss.linkState = .unlocked))

/-- HOST may ask for an operation of the NVM controller. -/
def hostNvmOk (ss : Session) : Bool := ss.failed.isNone && decide (ss.linkState = .progMode)

/-- HOST may construct a session: none is live (R35, R342; log 23). -/
def hostSessionOk (ss : Session) : Bool := decide (ss.linkState = .cold) || decide (ss.linkState = .closed)

end Sys2Proof.Machine
end

