-- ==== Sys2Proof/Machine/Operands.lean ====
section
/-! DEFINITION. The operand forms: where a record's data goes (spec/40_hex_records.md), the geometry of pages
(spec/44_nvm.md rules R260 to R262), the word-aligned window (spec/41_hex_operations.md rule R176), the lines of
`serialize` (rules R171 to R174) and the scanner of `txt2hex` (rule R175), and the operands the session's frames carry. -/

namespace Sys2Proof.Machine

/-! ## Records -/

/-- `base = offset + AAAA`, a natural number: it does not wrap (R145, R77). -/
def recordBase (offset : BitVec 32) (aaaa : Word) : Nat := offset.toNat + aaaa.toNat

/-- `value = 256 * DD[0] + DD[1]` of an extended-address record, which must carry exactly two data bytes (R106). -/
def extValue (dd : List Byte) : Option Nat :=
  match dd with
  | [h, l] => some (256 * h.toNat + l.toNat)
  | _ => none

/-! ## Cutting lines (R141) -/

/-- `CR` or `LF` (R101). -/
def isTerminator (c : Byte) : Bool := c == Config.cr || c == Config.lf

/-- The line that begins at `pos` (R141). -/
def lineAt (file : List Byte) (pos : Nat) : List Byte := (file.drop pos).takeWhile (fun c => !isTerminator c)

/-- `pos` after a run of terminators. -/
def skipTerminators (file : List Byte) (pos : Nat) : Nat :=
  pos + ((file.drop pos).takeWhile isTerminator).length

/-- `pos` after the line at `pos` and the run of terminators that ends it (R141). -/
def nextLinePos (file : List Byte) (pos : Nat) : Nat := skipTerminators file (pos + (lineAt file pos).length)

/-! ## The window of `hex2c` and `hex2bin` (R176) -/

/-- `addrStart = low - (low mod 2)`. -/
def windowStart (r : Range) : Nat := r.low - r.low % 2
/-- `addrEnd = high + 1 - (high mod 2)`. -/
def windowEnd (r : Range) : Nat := r.high + 1 - r.high % 2

/-! ## `serialize` (R171 to R174), over a reader `get` of the image -/

/-- `CR LF`. -/
def crlf : List Byte := [Config.cr, Config.lf]

/-- The literal terminator `:00000001FF` with its `CR LF` (R174). -/
def terminatorLine : List Byte :=
  [0x3A, 0x30, 0x30, 0x30, 0x30, 0x30, 0x30, 0x30, 0x31, 0x46, 0x46] ++ crlf

/-- The bytes of chunk `k` that lie below `length` (R172). -/
def chunkBytes (get : Nat → Byte) (length k : Nat) : List Byte :=
  (List.range (min Config.serChunk (length - Config.serChunk * k))).map (fun j => get (Config.serChunk * k + j))

/-- A byte list without its trailing `0xFF` (R172). -/
def trimSentinel (bs : List Byte) : List Byte := (bs.reverse.dropWhile (fun b => b == Config.sentinel)).reverse

/-- A byte list made even by one `0xFF` (R173). -/
def padEven (bs : List Byte) : List Byte := if bs.length % 2 = 1 then bs ++ [Config.sentinel] else bs

/-- `chunk_line(image, length, k)` (R172). -/
def chunkLine (get : Nat → Byte) (length k : Nat) : List Byte :=
  match trimSentinel (chunkBytes get length k) with
  | [] => []
  | d :: ds => encodeLine 0x00 (BitVec.ofNat 16 (Config.serChunk * k)) (padEven (d :: ds)) ++ crlf

/-- `(length + 15) div 16` (R171). -/
def chunkCount (length : Nat) : Nat := (length + 15) / Config.serChunk

/-! ## `txt2hex` (R175) -/

/-- `ishex(c)`. -/
def isHex (c : Byte) : Bool := (hexVal c).isSome

/-- The scanner: the bytes found from index `i` up, or the index of a lone nibble. -/
def scanText (i : Nat) : List Byte → Except Nat (List Byte)
  | [] => .ok []
  | [c] => if isHex c then .error i else .ok []
  | c :: d :: rest =>
    if c = 0x30 ∧ (d = 0x78 ∨ d = 0x58) then scanText (i + 2) rest
    else
      match hexByte c d with
      | some b =>
        match scanText (i + 2) rest with
        | .ok bs => .ok (b :: bs)
        | .error e => .error e
      | none => if isHex c then .error i else scanText (i + 1) (d :: rest)

/-! ## Pages (R260 to R262) -/

/-- The region of a kind in a profile (R36). -/
def regionOf (pr : Profile) (k : RegionKind) : Region :=
  match k with
  | .flash => ⟨.flash, pr.flash⟩
  | .eeprom => ⟨.eeprom, pr.eeprom⟩

/-- `pageCount = max(1, regionSize / pageSize)` (R260). -/
def pageCount (d : RegionDims) : Nat := max 1 (d.size / d.pageSize)

/-- Bytes of one unit: a word for flash, a byte for EEPROM (R261). -/
def unitBytes (k : RegionKind) : Nat :=
  match k with
  | .flash => 2
  | .eeprom => 1

/-- `units(region) = pageSize div unit` (R261). -/
def pageUnits (r : Region) : Nat := r.dims.pageSize / unitBytes r.kind

/-- The data-space address of page `p` (R260). -/
def pageAddr (d : RegionDims) (p : Nat) : Nat := d.start + p * d.pageSize

/-- `page(src, p)`: a byte at or beyond the end of `src` is `0xFF` (R262). -/
def pageOf (src : List Byte) (pageSize p : Nat) : List Byte :=
  (List.range pageSize).map (fun j => src.getD (p * pageSize + j) Config.sentinel)

/-- `totalPagesWithData` (R269). -/
def pagesWithData (src : List Byte) (d : RegionDims) : Nat :=
  ((List.range (pageCount d)).filter (fun p => hasPageData (pageOf src d.pageSize p))).length

/-- A natural address as a data-space address (R63: 16 bits). An address above `0xFFFF`, such as that of a controller register
of a profile whose `nvmctrl` is near the end, is taken mod 65536: R8 gives the offsets no bound and R10 lets sums not wrap,
the spec does not say what such an address is (DESIGN CHOICE: log 20). -/
def dataAddr (a : Nat) : Word := BitVec.ofNat 16 a

/-- The burst load of one page's units (R272). -/
def burstLoad (r : Region) : Instr :=
  match r.kind with
  | .flash => .ldw (pageUnits r)
  | .eeprom => .ldb (pageUnits r)

/-- The burst store of one page (R267). -/
def burstStore (r : Region) (page : List Byte) : Instr :=
  match r.kind with
  | .flash => .stw page
  | .eeprom => .stb page

/-- The three frames of `read_page` (R272). -/
def readPageFrames (r : Region) (p : Nat) : List Micro :=
  [.cmd (.stPtr (dataAddr (pageAddr r.dims p))), .cmd (.rep (pageUnits r)), .cmd (burstLoad r)]

/-- The NVM command of a page commit (R267, R273, R274). -/
def commitInstr : PageCommand → Instr
  | .writePage => .writePage
  | .eraseWritePage => .eraseWritePage

/-- What `write` does for a page with data: ready poll, buffer clear, pointer, repeat, burst, commit (R267). -/
def writePageFrames (r : Region) (p : Nat) (page : List Byte) (c : PageCommand) : List Micro :=
  [.openPage (pageAddr r.dims p) r.dims.pageSize, .nvmWait, .cmd .pageBufferClr,
    .cmd (.stPtr (dataAddr (pageAddr r.dims p))), .cmd (.rep (pageUnits r)), .cmd (burstStore r page),
    .cmd (commitInstr c), .closePage]

/-! ## The session's frames -/

/-- `keycheck(k, b)` (R243). -/
def keycheckFrames (p : Params) (k : List Byte) (b : Nat) : List Micro :=
  [.cmd (.key k), .cmd (.ldcs p.csKeyStatus), .keyTest b]

/-- `RESET_TOGGLE` (R244). -/
def resetToggleFrames (p : Params) : List Micro :=
  [.cmd (.stcs p.csResetReq p.resetAssert), .cmd (.stcs p.csResetReq p.resetRelease)]

/-- One round of the handshake of `init` (R241). -/
def handshakeFrames (p : Params) : List Micro :=
  [.cmd .brk, .cmd (.stcs p.csCtrlA (bitMask p.ibdly)), .cmd (.stcs p.csCtrlB (bitMask p.ccdetdis)),
    .cmd (.ldcs p.csStatus), .initTest]

/-- The value `leave_progmode` writes to release the line (R247). -/
def releaseLine (p : Params) : Byte := bitMask p.updidis ||| bitMask p.ccdetdis

/-- The "final" commit marker of `userrow_write` (R46, R248). -/
def finalMarker (p : Params) : Byte := bitMask p.urowFinal ||| bitMask 0

/-- `unlock_erase` (R245). -/
def unlockFrames (p : Params) : List Micro :=
  keycheckFrames p p.keyChipErase p.ksChipErase ++ resetToggleFrames p ++
    [.poll ⟨p.csSysStatus, p.ssLockStatus, false, p.unlockPollAttempts, .unlockTimeout⟩, .unlocked]

/-- `enter_progmode` when the chip is not yet in programming mode (R246). -/
def enterFrames (p : Params) : List Micro :=
  keycheckFrames p p.keyNvmProg p.ksNvmProg ++ resetToggleFrames p ++
    [.poll ⟨p.csSysStatus, p.ssLockStatus, false, p.progmodePollAttempts, .lockedTimeout⟩,
      .cmd (.ldcs p.csSysStatus), .progConfirm]

/-- `leave_progmode` (R247). -/
def leaveFrames (p : Params) : List Micro :=
  resetToggleFrames p ++ [.cmd (.stcs p.csCtrlB (releaseLine p)), .left]

/-- `userrow_write` (R248). The row is in progress from its first page frame to the end (R293, R248; log 13). -/
def userrowFrames (p : Params) (userrow : Nat) (data : List Byte) : List Micro :=
  keycheckFrames p p.keyUrow p.ksUrowWrite ++
    [.poll ⟨p.csSysStatus, p.ssUrowProg, true, p.urowPollAttempts, .urowTimeout⟩,
      .openPage userrow data.length, .cmd (.stPtr (dataAddr userrow)), .cmd (.rep data.length), .cmd (.stb data),
      .cmd (.stcs p.csSysCtrlA (finalMarker p)),
      .poll ⟨p.csSysStatus, p.ssUrowProg, false, p.urowPollAttempts, .urowTimeout⟩,
      .cmd (.stcs p.csKeyStatus (bitMask p.ksUrowWrite))] ++
    resetToggleFrames p ++ [.closePage, .rowDone]

/-- `fuse_write` after a differing old value: the 4-register sequence and the read-back (R271). -/
def fuseWriteFrames (p : Params) (pr : Profile) (n : Nat) (value : Byte) : List Micro :=
  [.cmd (.stsb (dataAddr (pr.nvmctrl + p.nvmAddrL)) (lo8 (dataAddr (pr.fuses + n)))),
    .cmd (.stsb (dataAddr (pr.nvmctrl + p.nvmAddrH)) (hi8 (dataAddr (pr.fuses + n)))),
    .cmd (.stsb (dataAddr (pr.nvmctrl + p.nvmData)) value),
    .cmd .writeFuse, .cmd (.ldsb (dataAddr (pr.fuses + n))), .fuseVerify n value]

end Sys2Proof.Machine
end

