-- ==== Sys2Proof/Machine/Ops.lean ====
section
/-! DEFINITION. The shared operations: byte memories, the errors' entry and return (spec/60_exceptions.md rules R312 to
R315), the transport primitives and the phases of a frame (spec/42_updi_link.md rules R200 to R202). -/

namespace Sys2Proof.Machine

/-! ## Byte memories

One representation serves IMG, the target's data space and the page buffer. `drop` is the byte an unlisted address reads
as, where that is one fixed byte: such a byte is never listed, so equal memories are equal lists. -/

/-- The byte listed at an address. -/
def Memory.read (m : Memory) (a : Nat) : Option Byte := (m.find? (fun c => c.1 == a)).map (fun c => c.2)

/-- The cells of bytes at ascending addresses (R67). -/
def cellsFrom (drop : Option Byte) (a : Nat) : List Byte → Memory
  | [] => []
  | b :: bs => if drop = some b then cellsFrom drop (a + 1) bs else (a, b) :: cellsFrom drop (a + 1) bs

/-- `MemWrite(S, a, |bs|, bs)` (R12). -/
def Memory.write (drop : Option Byte) (m : Memory) (a : Nat) (bs : List Byte) : Memory :=
  m.filter (fun c => decide (c.1 < a)) ++ cellsFrom drop a bs ++ m.filter (fun c => decide (a + bs.length ≤ c.1))

/-- The canonical form: addresses strictly rising, no cell equal to what an unlisted address reads as. -/
def Memory.wf (drop : Option Byte) (m : Memory) : Bool :=
  decide (m.Pairwise (fun c d => c.1 < d.1)) && m.all (fun c => drop != some c.2)

/-- What an unlisted address of an image reads as (R22, R54). -/
def imgDrop : Option Byte := some Config.sentinel

/-- A byte of an image. -/
def Image.get (img : Image) (a : Nat) : Byte := (Memory.read img.cells a).getD Config.sentinel

/-- A byte of IMG. -/
def Codec.imgByte (c : Codec) (a : Nat) : Byte := (Memory.read c.img a).getD Config.sentinel

/-- IMG with a byte sequence at addresses 0, 1, 2, ... and `0xFF` elsewhere (R175). -/
def imgOf (bs : List Byte) : Memory := Memory.write imgDrop [] 0 bs

/-! ## Small updates -/

/-- The response of a frame (R126). -/
def State.setResp (s : State) (bs : List Byte) : State := { s with wire := { s.wire with resp := bs } }

/-- The next free value becomes another one. -/
def State.bump (s : State) : State := { s with wire := { s.wire with draws := s.wire.draws + 1 } }

/-- A change of the target. -/
def State.setTarget (s : State) (t : Target) : State := { s with target := t }

/-- What is left of the operation in progress. -/
def State.setTodo (s : State) (ms : List Micro) : State := { s with ctl := { s.ctl with todo := ms } }

/-- The link state (R240). -/
def State.setLink (s : State) (l : LinkState) : State := { s with session := { s.session with linkState := l } }

/-- A change of the codec. -/
def State.setCodec (s : State) (c : Codec) : State := { s with codec := c }

/-- A change of the NVM controller's working registers. -/
def State.setNvm (s : State) (n : Nvm) : State := { s with nvm := n }

/-- The first byte of the last response. -/
def State.respByte (s : State) : Byte := s.wire.resp.headD 0

/-! ## Errors: entry and return (R312 to R315) -/

/-- `close()`: the transport is released; nothing is sent (R249). -/
def closeLink (s : State) : State :=
  { s with session := { s.session with linkState := .closed, transportOpen := false } }

/-- The operation in progress ends, handing `r` to its caller. -/
def endWith (r : Option Result) (s : State) : State := { s with ctl := { s.ctl with todo := [], result := r } }

/-- A stop inside page `p`: "the bytes of page `p` in `T.mem` are any values" (R293, R74). A user row that reaches past the
16-bit data space is opened there without wrapping (DESIGN CHOICE: log 32). -/
def abandonPage (s : State) : State :=
  match s.nvm.openPage with
  | none => s
  | some (a, n) =>
    { s with
      target := { s.target with
        mem := Memory.write none s.target.mem a ((List.range n).map (Config.partialByte s.wire.draws)) }
      nvm := { s.nvm with openPage := none }
      wire := { s.wire with draws := s.wire.draws + 1 } }

/-- The error latch (R31). -/
def latchFailed (e : Error) (s : State) : State := { s with session := { s.session with failed := some e } }

/-- TAKING AN ERROR: the one entry of all five classes. `TransportError` and `ProtocolError` are fatal (R313): the latch is
set, the session closed, the page in progress left open. `FormatError` and `OverlapError` leave nothing of the codec
operation (R28). `VerifyError` changes nothing (R314). Then the operation ends with the error as its result. -/
def takeError (e : Error) (s : State) : State :=
  match e with
  | .transport _ => endWith (some (.error e)) (closeLink (abandonPage (latchFailed e s)))
  | .protocol _ => endWith (some (.error e)) (closeLink (abandonPage (latchFailed e s)))
  | .format _ => endWith (some (.error e)) (s.setCodec Codec.fresh)
  | .overlap _ _ => endWith (some (.error e)) (s.setCodec Codec.fresh)
  | .verify _ _ => endWith (some (.error e)) s

/-- THE RETURN: a value handed to the caller; there is no handler and no return instruction (R315). -/
def finish (r : Result) (s : State) : State := endWith (some r) s

/-- The external interruption (R312): `close()`, a codec operation ends with no result, then nothing more runs. -/
def interrupt (s : State) : State :=
  let s1 := endWith none ((closeLink (abandonPage s)).setCodec Codec.fresh)
  { s1 with
    wire := { s1.wire with irq := none }
    ctl := { s1.ctl with halted := true } }

/-! ## Communication: a computation that the first fatal error, or the interruption, ends -/

/-- The outcome of one phase on the wire: it goes on with a value, or everything has ended in this state. -/
inductive Comm (α : Type) where
  | ok (v : α) (s : State)
  | stop (s : State)

/-- Sequencing: nothing after a stop happens (R12, R313). -/
def Comm.bind {α β : Type} (c : Comm α) (f : α → State → Comm β) : Comm β :=
  match c with
  | .ok v s => f v s
  | .stop s => .stop s

/-- The state a communication leaves. -/
def Comm.final {α : Type} (c : Comm α) : State :=
  match c with
  | .ok _ s => s
  | .stop s => s

/-- `raise` inside a communication. -/
def raise {α : Type} (e : Error) (s : State) : Comm α := .stop (takeError e s)

/-- The point between two steps of an agent at which the external interruption may arrive (R312, U51). -/
def tick (s : State) : Comm Unit :=
  match s.wire.irq with
  | none => .ok () s
  | some 0 => .stop (interrupt s)
  | some (n + 1) => .ok () { s with wire := { s.wire with irq := some n } }

/-! ## Transport (R200, R201) -/

/-- Whether the next transmission is short: the script's word, else a free value (log 2). -/
def txDraw (s : State) : Bool × State :=
  match s.wire.script with
  | [] => (Config.txShort s.wire.draws, s.bump)
  | .shortWrite :: rest => (true, { s with wire := { s.wire with script := rest } })
  | _ :: _ => (false, s)

/-- The answer to the next receive attempt: the script's word, else a free value (log 2). -/
def rxDraw (s : State) : Answer × State :=
  match s.wire.script with
  | [] => (Config.rxEvent s.wire.draws, s.bump)
  | a :: rest => (a, { s with wire := { s.wire with script := rest } })

/-- The bytes of an answer when `asked` bytes are asked and a target keeping its contract still owes `owed`; none for an
error (R12, U52). -/
def answerBytes (a : Answer) (asked : Nat) (owed : List Byte) : Option (List Byte) :=
  match a with
  | .obey => some (owed.take asked)
  | .bytes bs => some (bs.take asked)
  | .error => none
  | .shortWrite => some []

/-- `tx(b)` (R12): the byte goes out under the link configuration of the moment, or the write is short. -/
def tx (b : Byte) (s : State) : Comm Unit :=
  (tick s).bind fun _ s =>
    match txDraw s with
    | (true, s1) => raise (.transport .shortWrite) s1
    | (false, s1) =>
      .ok () { s1 with wire := { s1.wire with sent := s1.wire.sent ++ [⟨b, s1.session.baud, s1.session.stopBits⟩] } }

/-- The loop of `recv` (R201), `fuel` attempts left. -/
def recvLoop : Nat → Nat → List Byte → List Byte → State → Comm (List Byte)
  | 0, _, _, got, s => .ok got s
  | fuel + 1, len, owed, got, s =>
    if len ≤ got.length then .ok got s
    else
      (tick s).bind fun _ s =>
        match answerBytes (rxDraw s).1 (len - got.length) (owed.drop got.length) with
        | none => .ok got (rxDraw s).2
        | some c =>
          recvLoop fuel len owed (got ++ c)
            { (rxDraw s).2 with wire := { (rxDraw s).2.wire with recvAttempt := (rxDraw s).2.wire.recvAttempt + 1 } }

/-- `recv(buf, len)` (R201). `owed` is what a target keeping its contract answers. -/
def recv (len : Nat) (owed : List Byte) (s : State) : Comm (List Byte) :=
  recvLoop s.params.recvAttempts len owed [] { s with wire := { s.wire with recvAttempt := 0 } }

/-- One byte of `send` with its echo checked (R200). -/
def sendByte (b : Byte) (s : State) : Comm Unit :=
  (tx b s).bind fun _ s =>
    (recv 1 [b] s).bind fun e s =>
      match e with
      | [] => raise (.transport .echoMissing) s
      | c :: _ => if c = b then .ok () s else raise (.transport .echoMismatch) s

/-- `send(bytes)` (R200). -/
def send : List Byte → State → Comm Unit
  | [], s => .ok () s
  | b :: bs, s => (sendByte b s).bind fun _ s => send bs s

/-! ## The phases of a frame (R202) -/

/-- `frame(insn, operands)`. -/
def frame (insn : Byte) (ops : List Byte) (s : State) : Comm Unit := send (Config.sync :: insn :: ops) s

/-- `expect(n)`: a short answer is `TransportError(ShortRead)`. -/
def expectBytes (n : Nat) (owed : List Byte) (s : State) : Comm (List Byte) :=
  (recv n owed s).bind fun r s => if r.length < n then raise (.transport .shortRead) s else .ok r s

/-- `expect_ack()`: a missing or wrong byte is `ProtocolError(MissingAck)`. `owed` is what a target keeping its contract
sends. -/
def expectAck (owed : List Byte) (s : State) : Comm Unit :=
  (recv 1 owed s).bind fun r s =>
    match r with
    | [] => raise (.protocol .missingAck) s
    | c :: _ => if c = Config.ack then .ok () s else raise (.protocol .missingAck) s

/-- A frame runs only on a link that is up (R306, R316); it always answers a next state then. -/
def onLink (s : State) (body : State → Comm Unit) : Host.Outcome State Fault Refusal :=
  if linkUp s.session then .next (body s).final else .refused .linkState

end Sys2Proof.Machine
end

