-- ==== Sys2Proof/Machine/HexRecords.lean ====
section
/-! DEFINITION. The HEX records (spec/40_hex_records.md): one meaning per record type. The line's checks stand in
Decode.lean and the cursor in Machine/Codec.lean; a meaning is what R146 to R154 give the type. A `FormatError` is taken,
so every meaning answers a next state. -/

namespace Sys2Proof.Machine

/-- The bytes of a DATA record stored in IMG with the range noted (R146, R147). -/
def Codec.store (c : Codec) (base : Nat) (dd : List Byte) : Codec :=
  { c with img := Memory.write imgDrop c.img base dd, range := noteBytes c.range base dd }

/-- An extended-address record: two data bytes set the running offset, any other count is `FormatError(ExtLength)` (R106,
R150, R152). -/
def extRecord (scale : Nat) (dd : List Byte) (s : State) : State :=
  match extValue dd with
  | none => takeError (.format (.extLength s.codec.pos)) s
  | some v => s.setCodec { s.codec with offset := BitVec.ofNat 32 (v * scale) }

/-- `DATA` (R145, R146). -/
def execData (aaaa : Word) (dd : List Byte) (s : State) : Host.Outcome State Fault Refusal :=
  .next
    (if s.params.imgCap < recordBase s.codec.offset aaaa + dd.length then
      takeError (.format (.overrun s.codec.pos (recordBase s.codec.offset aaaa))) s
    else s.setCodec (s.codec.store (recordBase s.codec.offset aaaa) dd))

/-- `EOF` (R148). -/
def execEof (_aaaa : Word) (_dd : List Byte) (s : State) : Host.Outcome State Fault Refusal :=
  .next (s.setCodec { s.codec with eofSeen := true })

/-- `ESA` (R150). -/
def execEsa (_aaaa : Word) (dd : List Byte) (s : State) : Host.Outcome State Fault Refusal :=
  .next (extRecord 16 dd s)

/-- `SSA`: no effect (R153). -/
def execSsa (_aaaa : Word) (_dd : List Byte) (s : State) : Host.Outcome State Fault Refusal := .next s

/-- `ELA` (R152). -/
def execEla (_aaaa : Word) (dd : List Byte) (s : State) : Host.Outcome State Fault Refusal :=
  .next (extRecord 65536 dd s)

/-- A record of a reserved type: `FormatError(RecordType)` (R154). -/
def execHexReserved (rr : Byte) (_aaaa : Word) (_dd : List Byte) (s : State) : Host.Outcome State Fault Refusal :=
  .next (takeError (.format (.recordType s.codec.pos rr)) s)

end Sys2Proof.Machine
end

