-- ==== Sys2Proof/Machine/Target.lean ====
section
/-! DEFINITION. The target's side of the wire: the contract of spec/44_nvm.md rules R290 to R293, with the side effects of
spec/20_memory.md rule R75 and the keys of spec/60_exceptions.md rule R317. What the contract leaves open is a free value,
named by the draw index `d` it is given. The programmer never depends on this file but through answers `obey`. -/

namespace Sys2Proof.Machine

/-- The bytes a page or a region of a profile covers: "that one page extends beyond the region" when it is larger (R260). -/
def regionExtent (r : RegionDims) : Nat := max r.size r.pageSize

/-- `a` lies in the `n` bytes from `start` up. -/
def within (start n a : Nat) : Bool := decide (start ≤ a) && decide (a < start + n)

/-- The page (start and length) a data-space address of the NVM belongs to; none when the address is not NVM-mapped (R63,
R291). Fuses count as NVM here (R75; log 16). Where blocks of a profile overlap, the first of flash, EEPROM, user row and
fuses has the address (DESIGN CHOICE: log 35). An address in the tail of a region that is not a whole number of pages belongs
to one more page of the region's page size, which reaches past the region, and past 0xFFFF where the region ends near it
(DESIGN CHOICE: log 36). -/
def nvmPage (p : Params) (pr : Profile) (a : Nat) : Option (Nat × Nat) :=
  if within pr.flash.start (regionExtent pr.flash) a then
    some (pr.flash.start + (a - pr.flash.start) / pr.flash.pageSize * pr.flash.pageSize, pr.flash.pageSize)
  else if within pr.eeprom.start (regionExtent pr.eeprom) a then
    some (pr.eeprom.start + (a - pr.eeprom.start) / pr.eeprom.pageSize * pr.eeprom.pageSize, pr.eeprom.pageSize)
  else if within pr.userrow p.urowLen a then some (pr.userrow, p.urowLen)
  else if within pr.fuses p.fuseCount a then some (pr.fuses, p.fuseCount)
  else none

/-- A byte of T.mem; one that nothing has written is a free value (log 4). -/
def Target.memByte (t : Target) (a : Nat) : Byte := (Memory.read t.mem a).getD (Config.chipByte t.memBase a)

/-- What an unlisted byte of the page buffer reads as. -/
def Target.bufDefault (t : Target) (a : Nat) : Byte :=
  match t.bufBase with
  | none => Config.sentinel
  | some n => Config.bufByte n a

/-- The byte an entry of the page buffer must not equal: `0xFF` after a clear. -/
def Target.bufDrop (t : Target) : Option Byte :=
  match t.bufBase with
  | none => some Config.sentinel
  | some _ => none

/-- A byte of T.buf. -/
def Target.bufByte (t : Target) (a : Nat) : Byte := (Memory.read t.buf a).getD (t.bufDefault a)

/-- The bytes of T.mem from `a` up. -/
def Target.memBytes (t : Target) (a n : Nat) : List Byte := (List.range n).map (fun j => t.memByte (a + j))

/-- The bytes of T.buf from `a` up. -/
def Target.bufBytes (t : Target) (a n : Nat) : List Byte := (List.range n).map (fun j => t.bufByte (a + j))

/-- Bytes written to T.mem at ascending addresses. -/
def Target.putMem (t : Target) (a : Nat) (bs : List Byte) : Target := { t with mem := Memory.write none t.mem a bs }

/-- A register of the control/status space; an index above 15 names none (R64). -/
def Target.csGet (t : Target) (r : Nat) : Byte := t.cs[r]?.getD 0

/-- A control/status register written. -/
def Target.csPut (t : Target) (r : Nat) (v : Byte) : Target := { t with cs := t.cs.setIfInBounds r v }

/-! ## Loads -/

/-- The NVM status register: busy flags and write-error flag (R48); its other bits are free. Of flags at one bit, which R8 does
not forbid, the write error hides the busy flags and the EEPROM's busy flag the flash's (DESIGN CHOICE: log 37). -/
def Target.nvmStatus (p : Params) (d : Nat) (t : Target) : Byte :=
  putBit (putBit (putBit (Config.loadByte d 65536) p.nstFlashBusy (decide (t.flashBusy ≠ 0)))
    p.nstEepromBusy (decide (t.eepromBusy ≠ 0))) p.nstWriteError t.writeError

/-- What the target answers to a load of one byte: the status register of the NVM controller (R48), T.mem of an NVM-mapped
address when the chip is unlocked and in programming mode and otherwise a draw (R290), the data-space byte elsewhere (R208).
The command, data and address registers answer the byte last stored there: the programmer only writes them (R47, R49) and
the spec does not say what a load of one answers (DEDUCED: log 17). The controller's registers come before any block of the
profile that covers them too (DESIGN CHOICE: log 35). -/
def Target.load (p : Params) (pr : Profile) (d : Nat) (t : Target) (a : Word) : Byte :=
  if a = dataAddr (pr.nvmctrl + p.nvmStatus) then t.nvmStatus p d
  else if a = dataAddr (pr.nvmctrl + p.nvmCtrlA) then t.ctrlA
  else if a = dataAddr (pr.nvmctrl + p.nvmData) then t.dataReg
  else if a = dataAddr (pr.nvmctrl + p.nvmAddrL) then t.addrL
  else if a = dataAddr (pr.nvmctrl + p.nvmAddrH) then t.addrH
  else
    match nvmPage p pr a.toNat with
    | some _ => if !t.locked && t.progMode then t.memByte a.toNat else Config.loadByte d a.toNat
    | none => t.memByte a.toNat

/-- The bytes a load of `n` bytes from `a` up answers; the 16-bit address wraps (log 20). A word at an odd address is the
bytes at `a` and `a + 1`, which the spec leaves open (R72, U47; DESIGN CHOICE: log 33). -/
def Target.loadBytes (p : Params) (pr : Profile) (d : Nat) (t : Target) (a : Word) (n : Nat) : List Byte :=
  (List.range n).map (fun j => t.load p pr d (a + BitVec.ofNat 16 j))

/-- A poll of the NVM status register passes: a busy flag reads 1 for one poll fewer (R292). -/
def Target.polled (p : Params) (pr : Profile) (t : Target) (a : Word) : Target :=
  if a = dataAddr (pr.nvmctrl + p.nvmStatus) then
    { t with flashBusy := t.flashBusy - 1, eepromBusy := t.eepromBusy - 1 }
  else t

/-- A load of `n` bytes from `a` up, by `LDS` or by `LD`: each byte of it that is the NVM status register is one poll (R292;
log 14). The whole load is answered from the state before it. -/
def Target.polledBytes (p : Params) (pr : Profile) (t : Target) (a : Word) : Nat → Target
  | 0 => t
  | n + 1 => (t.polledBytes p pr a n).polled p pr (a + BitVec.ofNat 16 n)

/-- What the target answers to a load from the control/status space. The system status shows the lock and the programming
mode (R46, R290); its user-row bit is a draw, the contract gives it no rule. Of two roles with one index, which R8 does not
forbid, the system status has it here, and of flags at one bit the lock hides the programming mode and both hide the user row
(DESIGN CHOICE: log 37). Every other bit and register answers what was last stored there, whether the spec calls the register
read only or write only (R41 to R46; DESIGN CHOICE: log 38). -/
def Target.csRead (p : Params) (d : Nat) (t : Target) (r : Nat) : Byte :=
  if r = p.csSysStatus then
    putBit (putBit (putBit (t.csGet r) p.ssUrowProg (Config.flag d 0)) p.ssNvmProg t.progMode) p.ssLockStatus t.locked
  else t.csGet r

/-! ## What the contract leaves open -/

/-- The UPDI side after a reset of "the UPDI state machine" (R341, R54): pointer, repeat counter and control/status
registers are free. A reset that is asserted stays asserted, keys, lock and programming mode stay: DEDUCED (log 11). -/
def Target.updiReset (d : Nat) (t : Target) : Target :=
  { t with
    ptr := Config.regWord d
    rep := Config.regByte d 16
    cs := Vector.ofFn (fun i : Fin 16 => Config.regByte d i.val) }

/-- The page buffer with every byte open (R292, U45). -/
def Target.bufOpen (d : Nat) (t : Target) : Target := { t with buf := [], bufBase := some d }

/-- The page last addressed, open (R52: the spec does not say what becomes of it; logs 12, 15). -/
def Target.pageOpen (d : Nat) (t : Target) : Target :=
  { t with pageStart := (Config.bufPage d).1, pageLen := (Config.bufPage d).2 }

/-- Busy flags and write-error flag after a command: draws (R292, U43). -/
def Target.busyOpen (d : Nat) (t : Target) : Target :=
  { t with
    flashBusy := Config.busyPolls d 0
    eepromBusy := Config.busyPolls d 1
    writeError := Config.flag d 1 }

/-- The target after bytes or a command code this hardware never sends (R123, R125, U46): everything of it is open (log
15). -/
def Target.lost (d : Nat) (t : Target) : Target :=
  let t1 := (((t.updiReset d).bufOpen d).pageOpen d).busyOpen d
  { t1 with
    mem := []
    memBase := d
    ctrlA := Config.regByte d 17
    dataReg := Config.regByte d 18
    addrL := Config.regByte d 19
    addrH := Config.regByte d 20
    locked := Config.flag d 2
    progMode := Config.flag d 3
    keyErase := Config.flag d 4
    keyProg := Config.flag d 5
    keyRow := Config.flag d 6
    resetHeld := Config.flag d 7 }

/-! ## NVM commands (R291, R292) -/

/-- The effect of a command code stored to the command register, one atomic step. A page that reaches past 0xFFFF is written
there without wrapping; no load or store by address reaches those cells (DESIGN CHOICE: log 36). -/
def Target.command (p : Params) (d : Nat) (t : Target) (c : Byte) : Target :=
  let t := { t with ctrlA := c }
  if c = p.cmdWritePage then
    ((t.putMem t.pageStart (List.zipWith (fun m b => m &&& b) (t.memBytes t.pageStart t.pageLen)
      (t.bufBytes t.pageStart t.pageLen))).bufOpen d).busyOpen d
  else if c = p.cmdEraseWritePage then
    ((t.putMem t.pageStart (t.bufBytes t.pageStart t.pageLen)).bufOpen d).busyOpen d
  else if c = p.cmdPageBufferClr then
    { t.busyOpen d with buf := [], bufBase := none }
  else if c = p.cmdWriteFuse then
    (t.putMem (256 * t.addrH.toNat + t.addrL.toNat) [t.dataReg]).busyOpen d
  else t.lost d

/-! ## Stores -/

/-- A store to an NVM-mapped address: it lands in the page buffer, combined by AND (R291, R75). -/
def Target.bufStore (t : Target) (page : Nat × Nat) (a : Nat) (v : Byte) : Target :=
  { t with
    buf := Memory.write t.bufDrop t.buf a [t.bufByte a &&& v]
    pageStart := page.1
    pageLen := page.2 }

/-- The target after one byte is stored to its data space (R209, R75). The controller's registers come before any block of the
profile that covers them too (DESIGN CHOICE: log 35). A store to the NVM status register, which is read only (R48), is no store
to a register: the byte goes where the address lies otherwise, and no load reads it there (DESIGN CHOICE: log 38). -/
def Target.store (p : Params) (pr : Profile) (d : Nat) (t : Target) (a : Word) (v : Byte) : Target :=
  if a = dataAddr (pr.nvmctrl + p.nvmCtrlA) then t.command p d v
  else if a = dataAddr (pr.nvmctrl + p.nvmData) then { t with dataReg := v }
  else if a = dataAddr (pr.nvmctrl + p.nvmAddrL) then { t with addrL := v }
  else if a = dataAddr (pr.nvmctrl + p.nvmAddrH) then { t with addrH := v }
  else
    match nvmPage p pr a.toNat with
    | some page => t.bufStore page a.toNat v
    | none => t.putMem a.toNat [v]

/-- Bytes stored at ascending addresses (R67, R68); the 16-bit address wraps (log 20). A word at an odd address goes to `a`
and `a + 1`, which the spec leaves open (R72, U47; DESIGN CHOICE: log 33). -/
def Target.storeBytes (p : Params) (pr : Profile) (d : Nat) (t : Target) (a : Word) : List Byte → Target
  | [] => t
  | b :: bs => (t.store p pr d a b).storeBytes p pr d (a + 1) bs

/-! ## Control/status stores, reset, keys -/

/-- The chip erase: every byte of flash and EEPROM becomes `0xFF`, the lock is cleared (R292). -/
def Target.chipErase (pr : Profile) (t : Target) : Target :=
  let t := t.putMem pr.flash.start (List.replicate pr.flash.size Config.sentinel)
  let t := t.putMem pr.eeprom.start (List.replicate pr.eeprom.size Config.sentinel)
  { t with locked := false }

/-- The release of an asserted reset: the keys take effect (R317, R292), then the chip has been reset (R341), which leaves
its registers, its page buffer and the page last addressed open (log 12). -/
def Target.resetToggle (pr : Profile) (d : Nat) (t : Target) : Target :=
  let t := if t.keyErase then t.chipErase pr else t
  let t := { t with progMode := t.keyProg && !t.locked, keyErase := false, keyProg := false, keyRow := false }
  let t := (((t.updiReset d).bufOpen d).pageOpen d).busyOpen d
  { t with
    ctrlA := Config.regByte d 17
    dataReg := Config.regByte d 18
    addrL := Config.regByte d 19
    addrH := Config.regByte d 20
    resetHeld := false }

/-- The "final" marker commits the user row: the page buffer's row becomes the row's contents (R248). The page buffer, the busy
flags and the write-error flag stay as they were, since R292 opens them after NVM commands only: DEDUCED (log 18). A row that
reaches past the 16-bit data space is written there without wrapping (DESIGN CHOICE: log 32). -/
def Target.commitRow (p : Params) (pr : Profile) (t : Target) : Target :=
  t.putMem pr.userrow (t.bufBytes pr.userrow p.urowLen)

/-- The target after a control/status store (R207, R75). What the spec leaves open here: a value of the reset-request register
that is neither of its two codes, and a release with no reset asserted, leave the reset as it was, and a target whose reset
is asserted takes and answers frames as any other; where `RESET_ASSERT` and `RESET_RELEASE` are one value, which R8 does not
forbid, the store asserts the reset and nothing releases it, so the keys never take effect (DESIGN CHOICE: log 12); of two
roles with one index the reset request has it (DESIGN CHOICE: log 37); a register that the spec calls read only, the system
status among them, holds the byte stored, and the lock, the programming mode and the user row do not follow it (DESIGN CHOICE:
log 38); the bit `UPDIDIS` is held and no more, a target that keeps its contract answers the frames after it too (DESIGN
CHOICE: log 39); a store to the key status, such as the completion marker of R248, leaves the set of accepted keys as it was
(DESIGN CHOICE: log 40). -/
def Target.csWrite (p : Params) (pr : Profile) (d : Nat) (t : Target) (r : Nat) (v : Byte) : Target :=
  let t := t.csPut r v
  if r = p.csResetReq then
    if v = p.resetAssert then { t with resetHeld := true }
    else if v = p.resetRelease ∧ t.resetHeld = true then t.resetToggle pr d
    else t
  else if r = p.csSysCtrlA then
    if bitSet v p.urowFinal && t.keyRow then t.commitRow p pr else t
  else t

/-- A key's status bit becomes 1 (R44, R216). -/
def Target.showKey (p : Params) (b : Nat) (t : Target) : Target :=
  t.csPut p.csKeyStatus (t.csGet p.csKeyStatus ||| bitMask b)

/-- The target after a key: one it knows is accepted and shown (R39, R216). Of two keys with one string, which R8 does not
forbid, the first of chip erase, programming and user row is accepted (DESIGN CHOICE: log 37). -/
def Target.acceptKey (p : Params) (t : Target) (k : List Byte) : Target :=
  if k = p.keyChipErase then { t.showKey p p.ksChipErase with keyErase := true }
  else if k = p.keyNvmProg then { t.showKey p p.ksNvmProg with keyProg := true }
  else if k = p.keyUrow then { t.showKey p p.ksUrowWrite with keyRow := true }
  else t

/-- Any frame but `REPEAT` leaves the repeat counter zero (R51, R354; log 19). -/
def Target.clearRep (t : Target) : Target := { t with rep := 0 }

end Sys2Proof.Machine
end

