-- ==== Sys2Proof/Machine/Link.lean ====
section
/-! DEFINITION. The UPDI frames (spec/42_updi_link.md rules R206 to R218): one meaning per frame, over three shared
operations: a frame that answers data, a frame that answers nothing, a store unit with its acknowledge. The target changes
when the frame, or the unit, has gone out whole and the echo of its last byte has come back right (log 21). -/

namespace Sys2Proof.Machine

/-- What a frame that has gone out, and been echoed, does to the target: a function of the draw index it may use. -/
def onTarget (s : State) (f : Nat → Target → Target) : State := (s.setTarget (f s.wire.draws s.target)).bump

/-- A frame with no response (R126): `STCS`, `REPEAT`, `KEY`. The target takes it when the echo of its last byte has come back
right; an echo that fails there, or the interruption between that byte and its echo, leaves the target as it was (DESIGN
CHOICE: log 21). -/
def silentFrame (insn : Byte) (ops : List Byte) (f : Nat → Target → Target) (s : State) : Comm Unit :=
  (frame insn ops s).bind fun _ s => .ok () ((onTarget s f).setResp [])

/-- A frame answered by `n` bytes of data (R126): the loads. `owed` is the contract's answer, `f` what the load does to the
target, which takes the frame as in `silentFrame` (DESIGN CHOICE: log 21). -/
def loadFrame (insn : Byte) (ops : List Byte) (n : Nat) (owed : Nat → Target → List Byte) (f : Target → Target)
    (s : State) : Comm Unit :=
  (frame insn ops s).bind fun _ s =>
    (expectBytes n (owed s.wire.draws s.target) (onTarget s fun _ t => f t)).bind fun v s => .ok () (s.setResp v)

/-- A data phase (R202): the bytes go out, the target takes them, one `ACK` follows. -/
def dataPhase (bs : List Byte) (f : Nat → Target → Target) (s : State) : Comm Unit :=
  (send bs s).bind fun _ s => expectAck [Config.ack] (onTarget s f)

/-- A direct store (R209, R210): the address phase and its `ACK`, then the data phase and its `ACK`. -/
def directStore (insn : Byte) (a : Word) (data : List Byte) (s : State) : Comm Unit :=
  (frame insn (wireWord a) s).bind fun _ s =>
    (expectAck [Config.ack] (onTarget s fun _ t => t.clearRep)).bind fun _ s =>
      (dataPhase data (fun d t => t.storeBytes s.params s.session.profile d a data) s).bind fun _ s =>
        .ok () (s.setResp [])

/-- One unit of a burst store taken by the target: the bytes go to the pointer, which advances (R213). A target whose repeat
count is used up takes them for instructions (R354; log 19). -/
def Target.takeUnit (p : Params) (pr : Profile) (d : Nat) (left : Nat) (unit : List Byte) (t : Target) : Target :=
  match left with
  | 0 => t.lost d
  | _ + 1 =>
    let t1 := t.storeBytes p pr d t.ptr unit
    { t1 with ptr := t.ptr + BitVec.ofNat 16 unit.length }

/-- The contract's answer to a unit: an `ACK`, or nothing once the repeat count is used up. -/
def unitAck (left : Nat) : List Byte :=
  match left with
  | 0 => []
  | _ + 1 => [Config.ack]

/-- The units of a burst store after the instruction byte: each is sent, taken, acknowledged (R213, R218). -/
def storeUnits : Nat → List (List Byte) → State → Comm Unit
  | _, [], s => .ok () s
  | left, u :: us, s =>
    (send u s).bind fun _ s =>
      (expectAck (unitAck left) (onTarget s fun d t => t.takeUnit s.params s.session.profile d left u)).bind fun _ s =>
        storeUnits (left - 1) us s

/-- The bytes of a burst as units of one byte. -/
def byteUnits (d : List Byte) : List (List Byte) := d.map (fun b => [b])

/-- The bytes of a burst as units of one word, in address order (R218). -/
def wordUnits : List Byte → List (List Byte)
  | b0 :: b1 :: rest => [b0, b1] :: wordUnits rest
  | _ => []

/-- A post-increment store (R213, R218): the instruction byte goes out with the first unit, and the repeat counter is zero
at the end. A burst that a fatal error or the interruption cuts short leaves the counter at the value it began with, neither
counted down nor cleared: R213 speaks of the end only (DESIGN CHOICE: log 19). A burst of fewer units than the counter covers
ends with its last unit: the counter is cleared and the next bytes are a frame (DESIGN CHOICE: log 19). -/
def burstStoreFrame (insn : Byte) (units : List (List Byte)) (s : State) : Comm Unit :=
  match units with
  | [] => .ok () s
  | u :: us =>
    (frame insn u s).bind fun _ s =>
      (expectAck (unitAck (s.target.rep.toNat + 1))
        (onTarget s fun d t => t.takeUnit s.params s.session.profile d (s.target.rep.toNat + 1) u)).bind fun _ s1 =>
          (storeUnits s.target.rep.toNat us s1).bind fun _ s2 =>
            .ok () ((s2.setTarget s2.target.clearRep).setResp [])

/-- The target after it answered `n` bytes from its pointer up: the pointer has passed them and the repeat is used up (R50,
R51); each byte of the NVM status register among them was one poll (R292; log 14). -/
def Target.passBytes (p : Params) (pr : Profile) (n : Nat) (t : Target) : Target :=
  { t.polledBytes p pr t.ptr n with
    ptr := t.ptr + BitVec.ofNat 16 n
    rep := 0 }

/-- A post-increment load (R212, R217) of `n` units of `size` bytes. The target moves the units its own repeat counter says
(R51, R354), the programmer expects `n`. -/
def burstLoadFrame (insn : Byte) (size n : Nat) (s : State) : Comm Unit :=
  loadFrame insn [] (size * n)
    (fun d t => t.loadBytes s.params s.session.profile d t.ptr (size * (t.rep.toNat + 1)))
    (fun t => t.passBytes s.params s.session.profile (size * (t.rep.toNat + 1)))
    s

/-- `LDCS r` (R206). -/
def execLdcs (r : Nat) (s : State) : Host.Outcome State Fault Refusal :=
  if 15 < r then .refused .registerIndex
  else onLink s (loadFrame (insnLdcs s.params.opc r) [] 1 (fun d t => [t.csRead s.params d r]) Target.clearRep)

/-- `STCS r, v` (R207). -/
def execStcs (r : Nat) (v : Byte) (s : State) : Host.Outcome State Fault Refusal :=
  if 15 < r then .refused .registerIndex
  else onLink s
    (silentFrame (insnStcs s.params.opc r) [v] (fun d t => t.clearRep.csWrite s.params s.session.profile d r v))

/-- `LDS.b a` (R208). -/
def execLdsb (a : Word) (s : State) : Host.Outcome State Fault Refusal :=
  onLink s
    (loadFrame (insnLds s.params.opc false) (wireWord a) 1
      (fun d t => t.loadBytes s.params s.session.profile d a 1)
      (fun t => t.clearRep.polledBytes s.params s.session.profile a 1))

/-- `LDS.w a` (R214). -/
def execLdsw (a : Word) (s : State) : Host.Outcome State Fault Refusal :=
  onLink s
    (loadFrame (insnLds s.params.opc true) (wireWord a) 2
      (fun d t => t.loadBytes s.params s.session.profile d a 2)
      (fun t => t.clearRep.polledBytes s.params s.session.profile a 2))

/-- `STS.b a, v` (R209). -/
def execStsb (a : Word) (v : Byte) (s : State) : Host.Outcome State Fault Refusal :=
  onLink s (directStore (insnSts s.params.opc false) a [v])

/-- `STS.w a, w` (R210). -/
def execStsw (a : Word) (w : Word) (s : State) : Host.Outcome State Fault Refusal :=
  onLink s (directStore (insnSts s.params.opc true) a (wireWord w))

/-- `ST.ptr a` (R211). -/
def execStPtr (a : Word) (s : State) : Host.Outcome State Fault Refusal :=
  onLink s fun s =>
    (frame (insnStPtr s.params.opc) (wireWord a) s).bind fun _ s =>
      (expectAck [Config.ack] (onTarget s fun _ t => { t.clearRep with ptr := a })).bind fun _ s => .ok () (s.setResp [])

/-- `LD.b *(ptr++)` (R212). -/
def execLdb (n : Nat) (s : State) : Host.Outcome State Fault Refusal :=
  if countOk n then onLink s (burstLoadFrame (insnLd s.params.opc false) 1 n) else .refused .repeatCount

/-- `LD.w *(ptr++)` (R217). -/
def execLdw (n : Nat) (s : State) : Host.Outcome State Fault Refusal :=
  if countOk n then onLink s (burstLoadFrame (insnLd s.params.opc true) 2 n) else .refused .repeatCount

/-- `ST.b *(ptr++), d` (R213). -/
def execStb (d : List Byte) (s : State) : Host.Outcome State Fault Refusal :=
  if countOk d.length then onLink s (burstStoreFrame (insnSt s.params.opc false) (byteUnits d))
  else .refused .repeatCount

/-- `ST.w *(ptr++), d` (R218). -/
def execStw (d : List Byte) (s : State) : Host.Outcome State Fault Refusal :=
  if d.length % 2 ≠ 0 then .refused .oddData
  else if countOk (d.length / 2) then onLink s (burstStoreFrame (insnSt s.params.opc true) (wordUnits d))
  else .refused .repeatCount

/-- `REPEAT n` (R215). -/
def execRep (n : Nat) (s : State) : Host.Outcome State Fault Refusal :=
  if countOk n then
    onLink s (silentFrame s.params.opc.rep [repOperand n] (fun _ t => { t with rep := repOperand n }))
  else .refused .repeatCount

/-- `KEY k` (R216). -/
def execKey (k : List Byte) (s : State) : Host.Outcome State Fault Refusal :=
  if k.length = Config.keyLen then
    onLink s (silentFrame s.params.opc.key k.reverse (fun _ t => t.clearRep.acceptKey s.params k))
  else .refused .keyLength

/-! ## Break characters -/

/-- `BREAK` (R204): sent like any byte, its echo checked (D23). The target takes it when that echo has come back right; a
wrong or missing echo, or the interruption between the two, leaves the target as it was (DESIGN CHOICE: log 11). -/
def execBrk (s : State) : Host.Outcome State Fault Refusal :=
  onLink s fun s =>
    (send [Config.breakChar] s).bind fun _ s => .ok () ((onTarget s Target.updiReset).setResp [])

/-- The link configuration (R203). -/
def State.setLine (s : State) (baud stopBits : Nat) : State :=
  { s with session := { s.session with baud := baud, stopBits := stopBits } }

/-- Double break (R205): two break characters at 300 baud and 1 stop bit, echoes read and discarded, the rate and 2 stop bits
restored. The target takes it when both characters have gone out; after the first one alone, the second write being short or
the interruption coming before it, the target is as it was (DESIGN CHOICE: log 11). -/
def execDoubleBreak (s : State) : Host.Outcome State Fault Refusal :=
  onLink s fun s0 =>
    (tx Config.breakChar (s0.setLine Config.baudFallback Config.stopBitsFallback)).bind fun _ s =>
      (tx Config.breakChar s).bind fun _ s =>
        (recv 2 [Config.breakChar, Config.breakChar] (onTarget s Target.updiReset)).bind fun _ s =>
          .ok () ((s.setLine s0.session.baud Config.stopBits).setResp [])

/-! ## What an instruction hands back -/

/-- The value an instruction hands to its caller, its response being `r`: a byte (R206, R208), a word with the first byte low
(R214), the bytes of a burst (R212, R217), nothing (R126). A HEX record is no raw command. -/
def answerOf (i : Instr) (r : List Byte) : Result :=
  match i with
  | .ldcs _ => .byte (r.headD 0)
  | .ldsb _ => .byte (r.headD 0)
  | .ldsw _ => .word (wordOf (r.getD 1 0) (r.headD 0))
  | .ldb _ => .bytes r
  | .ldw _ => .bytes r
  | .stcs _ _ => .ok
  | .stsb _ _ => .ok
  | .stsw _ _ => .ok
  | .stPtr _ => .ok
  | .stb _ => .ok
  | .stw _ => .ok
  | .rep _ => .ok
  | .key _ => .ok
  | .brk => .ok
  | .doubleBreak => .ok
  | .writePage => .ok
  | .eraseWritePage => .ok
  | .pageBufferClr => .ok
  | .writeFuse => .ok
  | .data _ _ => .ok
  | .eof _ _ => .ok
  | .esa _ _ => .ok
  | .ssa _ _ => .ok
  | .ela _ _ => .ok
  | .hexReserved _ _ _ => .ok

end Sys2Proof.Machine
end

