-- ==== Sys2Proof/Machine/NvmCommands.lean ====
section
/-! DEFINITION. The NVM controller's commands (spec/44_nvm.md rules R265, R273 to R276): each is one `STS.b` to the command
register. What the controller does with the code is `Target.command`. -/

namespace Sys2Proof.Machine

/-- The data-space address of the command register (R47). -/
def commandAddr (s : State) : Word := dataAddr (s.session.profile.nvmctrl + s.params.nvmCtrlA)

/-- `NVMCMD c` (R265). -/
def nvmCommand (c : Byte) (s : State) : Host.Outcome State Fault Refusal :=
  onLink s (directStore (insnSts s.params.opc false) (commandAddr s) [c])

/-- `WRITE_PAGE` (R273). -/
def execWritePage (s : State) : Host.Outcome State Fault Refusal := nvmCommand s.params.cmdWritePage s

/-- `ERASE_WRITE_PAGE` (R274). -/
def execEraseWritePage (s : State) : Host.Outcome State Fault Refusal := nvmCommand s.params.cmdEraseWritePage s

/-- `PAGE_BUFFER_CLR` (R275). -/
def execPageBufferClr (s : State) : Host.Outcome State Fault Refusal := nvmCommand s.params.cmdPageBufferClr s

/-- `WRITE_FUSE` (R276). -/
def execWriteFuse (s : State) : Host.Outcome State Fault Refusal := nvmCommand s.params.cmdWriteFuse s

end Sys2Proof.Machine
end

