-- ==== Sys2Proof/Machine/Dispatch.lean ====
section
/-! DEFINITION. The meaning of every instruction: one arm per constructor of `Instr`. -/

namespace Sys2Proof.Machine

def exec (i : Instr) (s : State) : Host.Outcome State Fault Refusal :=
  match i with
  | .data aaaa dd => Sys2Proof.Machine.execData aaaa dd s
  | .eof aaaa dd => Sys2Proof.Machine.execEof aaaa dd s
  | .esa aaaa dd => Sys2Proof.Machine.execEsa aaaa dd s
  | .ssa aaaa dd => Sys2Proof.Machine.execSsa aaaa dd s
  | .ela aaaa dd => Sys2Proof.Machine.execEla aaaa dd s
  | .hexReserved rr aaaa dd => Sys2Proof.Machine.execHexReserved rr aaaa dd s
  | .ldcs r => Sys2Proof.Machine.execLdcs r s
  | .stcs r v => Sys2Proof.Machine.execStcs r v s
  | .ldsb a => Sys2Proof.Machine.execLdsb a s
  | .ldsw a => Sys2Proof.Machine.execLdsw a s
  | .stsb a v => Sys2Proof.Machine.execStsb a v s
  | .stsw a w => Sys2Proof.Machine.execStsw a w s
  | .stPtr a => Sys2Proof.Machine.execStPtr a s
  | .ldb n => Sys2Proof.Machine.execLdb n s
  | .ldw n => Sys2Proof.Machine.execLdw n s
  | .stb d => Sys2Proof.Machine.execStb d s
  | .stw d => Sys2Proof.Machine.execStw d s
  | .rep n => Sys2Proof.Machine.execRep n s
  | .key k => Sys2Proof.Machine.execKey k s
  | .brk => Sys2Proof.Machine.execBrk s
  | .doubleBreak => Sys2Proof.Machine.execDoubleBreak s
  | .writePage => Sys2Proof.Machine.execWritePage s
  | .eraseWritePage => Sys2Proof.Machine.execEraseWritePage s
  | .pageBufferClr => Sys2Proof.Machine.execPageBufferClr s
  | .writeFuse => Sys2Proof.Machine.execWriteFuse s

end Sys2Proof.Machine
end

