-- ==== Sys2Proof/Machine/Codec.lean ====
section
/-! DEFINITION. The codec's operations (spec/41_hex_operations.md): one function per micro-operation. A function is given the
state whose `todo` is what stands AFTER the micro-operation. Every codec step is a point at which the interruption may have
come closer (spec/10_state.md rule R20). -/

namespace Sys2Proof.Machine

/-- One step of CODEC passes: the external interruption comes one step nearer (R312). -/
def codecTick (s : State) : State :=
  match s.wire.irq with
  | some (n + 1) => { s with wire := { s.wire with irq := some n } }
  | _ => s

/-! ## `parse` (R170) -/

/-- The codec at the start of `parse`: reset, but for the image and the captured range when `merge` reads its second file
(R170, R179); the cursor past leading terminators. -/
def Codec.start (c : Codec) (file : List Byte) (keep : Bool) : Codec :=
  let c0 := if keep then { Codec.fresh with img := c.img, rangeA := c.rangeA } else Codec.fresh
  { c0 with file := file, pos := skipTerminators file 0 }

/-- `parse`, its start (R170, R61). -/
def runParse (file : List Byte) (keep : Bool) (s : State) : State :=
  if file.length < Config.fileMin ∨ Config.fileMax < file.length then
    takeError (.format (.fileSize file.length)) s
  else (s.setCodec (s.codec.start file keep)).setTodo (.records :: s.ctl.todo)

/-- The cursor moves past the record that was executed (R141). An error has left an empty file and cursor 0. -/
def advancePos (s : State) : State :=
  s.setCodec { s.codec with pos := nextLinePos s.codec.file s.codec.pos }

/-- The error a failed line check raises, with the position of the line (R301). -/
def lineError (pos : Nat) : LineFault → FormatError
  | .lineLength => .lineLength pos
  | .startCode => .startCode pos
  | .hexDigit => .hexDigit pos
  | .byteCount => .byteCount pos
  | .checksum c st => .checksum pos c st

/-- One record at `pos` (R140): cut, checked, latched into the record registers (R27), executed, the cursor moved. -/
def runRecord (s : State) : Host.Outcome State Fault Refusal :=
  match decodeRecord (lineAt s.codec.file s.codec.pos) with
  | .error e => .next (takeError (.format (lineError s.codec.pos e)) s)
  | .ok r =>
    match exec (Instr.ofRecord r) (s.setCodec { s.codec with record := r }) with
    | .next s1 => .next (advancePos s1)
    | .fault f => .fault f
    | .refused f => .refused f

/-- `parse`, its loop (R170): the end after an `EOF`, the missing `EOF`, or one record. -/
def runRecords (s : State) : Host.Outcome State Fault Refusal :=
  if s.codec.eofSeen then .next s
  else if s.codec.file.length ≤ s.codec.pos then .next (takeError (.format .noEof) s)
  else runRecord (s.setTodo (.records :: s.ctl.todo))

/-- The image of a finished parse (R170). -/
def parsedImage (s : State) : Image := ⟨s.params.imgCap, s.codec.img⟩

/-- `parse`, its return (R170). -/
def runParsed (s : State) : State := finish (.image (parsedImage s) s.codec.range) s

/-! ## `hex2c`, `hex2bin` (R176 to R178) -/

/-- The bytes of the window (R178). -/
def windowBytes (c : Codec) (r : Range) : List Byte :=
  (List.range (windowEnd r - windowStart r + 1)).map (fun j => c.imgByte (windowStart r + j))

/-- The triple of `hex2c`, or the dump of `hex2bin`; refused on an empty range (R176). -/
def runWindow (asC : Bool) (s : State) : Host.Outcome State Fault Refusal :=
  match s.codec.range with
  | none => .refused .emptyRange
  | some r =>
    .next (finish
      (if asC then .window (windowStart r) (windowEnd r) (windowBytes s.codec r) else .dump (windowBytes s.codec r)) s)

/-! ## `merge` (R179, R180) -/

/-- Between the files: the first range is captured, the second file is parsed into the same image (R179). -/
def runMergeSecond (b : List Byte) (s : State) : State :=
  (s.setCodec { s.codec with rangeA := s.codec.range }).setTodo (.parse b true :: s.ctl.todo)

/-- The overlap test and the return (R179, R180). -/
def runMergeEnd (s : State) : State :=
  match s.codec.rangeA, s.codec.range with
  | some a, some b =>
    if rangesOverlap (some a) (some b) then takeError (.overlap a b) s
    else finish (.image (parsedImage s) (rangeUnion (some a) (some b))) s
  | a, b => finish (.image (parsedImage s) (rangeUnion a b)) s

/-! ## `serialize` (R171 to R174) -/

/-- `serialize`, its loop: the next chunk's line, or the terminator and the return (R171). -/
def runChunks (s : State) : State :=
  if s.codec.k < chunkCount s.codec.length then
    (s.setCodec
      { s.codec with
        out := s.codec.out ++ chunkLine s.codec.image.get s.codec.length s.codec.k
        k := s.codec.k + 1 }).setTodo (.chunks :: s.ctl.todo)
  else finish (.file (s.codec.out ++ terminatorLine)) (s.setCodec { s.codec with out := s.codec.out ++ terminatorLine })

/-- `serialize` of the first `length` bytes of `img`, on the codec `c`: refused beyond 64 KiB or beyond the image (R171). -/
def serializeFrom (c : Codec) (img : Image) (length : Nat) (s : State) : Host.Outcome State Fault Refusal :=
  if img.size < length ∨ Config.serMax < length then .refused .serializeLength
  else .next ((s.setCodec { c with image := img, length := length }).setTodo [.chunks])

/-- `serialize`, its start. -/
def startSerialize (img : Image) (length : Nat) (s : State) : Host.Outcome State Fault Refusal :=
  serializeFrom Codec.fresh img length s

/-- `txt2hex`: the scan, then IMG written from address 0 and `serialize` of it (R175, R22, R60). IMG has `IMG_CAP` bytes, so
more of them than that are refused by R171 (DEDUCED: log 34). -/
def startTxt2hex (text : List Byte) (s : State) : Host.Outcome State Fault Refusal :=
  match scanText 0 text with
  | .error i => .next (takeError (.format (.loneNibble i)) s)
  | .ok bs => serializeFrom { Codec.fresh with img := imgOf bs } ⟨s.params.imgCap, imgOf bs⟩ bs.length s

end Sys2Proof.Machine
end

