-- ==== Sys2Proof/Machine/Session.lean ====
section
/-! DEFINITION. The session's tests and returns between frames (spec/43_updi_session.md). A function is given the state whose
`todo` is what stands AFTER the micro-operation. -/

namespace Sys2Proof.Machine

/-- The attempt cursor of a poll (R25, R320). -/
def State.setPollAttempt (s : State) (n : Nat) : State := { s with ctl := { s.ctl with pollAttempt := n } }

/-- The attempt cursor of `init`: the rounds made (R25, R241, R320). -/
def State.setInitRound (s : State) (n : Nat) : State := { s with ctl := { s.ctl with initRound := n } }

/-- What `init` does after a round, the round counted (R241): a status that is not zero is `Synced`; zero is the one recovery
(R242) while a round is left, and fatal at the bound (R320). -/
def initNext (s : State) : State :=
  if s.respByte ≠ 0 then finish .ok (s.setLink .synced)
  else if s.ctl.initRound < Config.initRounds then
    s.setTodo (.cmd .doubleBreak :: (handshakeFrames s.params ++ s.ctl.todo))
  else takeError (.protocol .initFailed) s

/-- The test of the status in `init` (R241). -/
def runInitTest (s : State) : State := initNext (s.setInitRound (s.ctl.initRound + 1))

/-- The test of `keycheck` (R243). -/
def runKeyTest (bit : Nat) (s : State) : State :=
  if bitSet s.respByte bit then s else takeError (.protocol .keyRejected) s

/-- What a poll that has run out does (R245, R246, R248). -/
def pollTimeout (f : PollFailure) (s : State) : State :=
  match f with
  | .unlockTimeout => takeError (.protocol .unlockTimeout) s
  | .urowTimeout => takeError (.protocol .urowTimeout) s
  | .lockedTimeout => finish (.failure .lockedTimeout) s

/-- The next attempt of a poll, or its end (R250). -/
def pollNext (q : Poll) (s : State) : State :=
  if s.ctl.pollAttempt < q.attempts then s.setTodo (.cmd (.ldcs q.reg) :: .pollTest q :: s.ctl.todo)
  else pollTimeout q.onTimeout s

/-- The start of a poll (R250). -/
def runPoll (q : Poll) (s : State) : State := pollNext q (s.setPollAttempt 0)

/-- The test of one attempt (R250). -/
def runPollTest (q : Poll) (s : State) : State :=
  if bitSet s.respByte q.bit = q.want then s.setPollAttempt (s.ctl.pollAttempt + 1)
  else pollNext q (s.setPollAttempt (s.ctl.pollAttempt + 1))

/-- The return of `unlock_erase` (R245). -/
def runUnlocked (s : State) : State :=
  finish .ok { s with session := { s.session with chipEraseOk := true, linkState := .unlocked } }

/-- The first test of `enter_progmode`: already in programming mode, or the whole sequence (R246, D33). -/
def runProgTest (s : State) : State :=
  if bitSet s.respByte s.params.ssNvmProg then finish .ok (s.setLink .progMode)
  else s.setTodo (enterFrames s.params ++ s.ctl.todo)

/-- The last test of `enter_progmode` (R246). -/
def runProgConfirm (s : State) : State :=
  if bitSet s.respByte s.params.ssNvmProg then finish .ok (s.setLink .progMode)
  else finish (.failure .notInProgMode) s

/-- The return of `leave_progmode` (R247, D35). -/
def runLeft (s : State) : State := finish .ok (s.setLink .closed)

/-- The return of `userrow_write` (R248). -/
def runRowDone (s : State) : State := finish .ok s

/-- `send` as an operation of its own (R200). -/
def runSend (bs : List Byte) (s : State) : Host.Outcome State Fault Refusal :=
  onLink s fun s => (send bs s).bind fun _ s => .ok () (s.setResp [])

/-- `recv` as an operation of its own (R201): it raises nothing; its caller sees what it returned. -/
def runRecv (len : Nat) (s : State) : Host.Outcome State Fault Refusal :=
  onLink s fun s => (recv len [] s).bind fun r s => .ok () (s.setResp r)

/-- The return of a raw command (R126, R214). -/
def runAnswer (i : Instr) (s : State) : State := finish (answerOf i s.wire.resp) s

/-- The return of `recv` (R201). -/
def runReceived (s : State) : State := finish (.bytes s.wire.resp) s

/-- The return of `send` and of `wait_nvm_ready`, which hand back no value (R200, R264). -/
def runReady (s : State) : State := finish .ok s

end Sys2Proof.Machine
end

