-- ==== Sys2Proof/Machine/NvmOps.lean ====
section
/-! DEFINITION. The NVM controller's loops and tests between frames (spec/44_nvm.md rules R264 to R272). A function is given
the state whose `todo` is what stands AFTER the micro-operation. -/

namespace Sys2Proof.Machine

/-! ## `wait_nvm_ready` (R264) -/

/-- The next poll of the NVM status register, or the timeout. -/
def nvmNext (s : State) : State :=
  if s.ctl.pollAttempt < s.params.nvmReadyAttempts then
    s.setTodo (.cmd (.ldsb (dataAddr (s.session.profile.nvmctrl + s.params.nvmStatus))) :: .nvmTest :: s.ctl.todo)
  else takeError (.protocol .nvmTimeout) s

/-- The start of `wait_nvm_ready`. -/
def runNvmWait (s : State) : State := nvmNext (s.setPollAttempt 0)

/-- The test of one poll: the error bit before the busy bits. -/
def runNvmTest (s : State) : State :=
  if bitSet s.respByte s.params.nstWriteError then takeError (.protocol .nvmWriteError) s
  else if !bitSet s.respByte s.params.nstFlashBusy && !bitSet s.respByte s.params.nstEepromBusy then
    s.setPollAttempt (s.ctl.pollAttempt + 1)
  else nvmNext (s.setPollAttempt (s.ctl.pollAttempt + 1))

/-! ## Progress (R269) -/

/-- The page is done: its triple is handed over and the page cursor moves. -/
def Nvm.pageDone (n : Nvm) (hadData : Bool) : Nvm :=
  { n with progress := n.progress ++ [⟨n.p, n.total, hadData⟩], p := n.p + 1 }

/-- The page of the source buffer at the page cursor (R262). -/
def Nvm.page (n : Nvm) : List Byte := pageOf n.src n.region.dims.pageSize n.p

/-! ## The page in progress (R293) -/

/-- A page, or the user row, comes into progress. -/
def runOpenPage (start len : Nat) (s : State) : State := s.setNvm { s.nvm with openPage := some (start, len) }

/-- The page in progress is committed. -/
def runClosePage (s : State) : State := s.setNvm { s.nvm with openPage := none }

/-! ## `read` (R266) -/

/-- The loop of `read`. -/
def runReadPage (s : State) : State :=
  if s.nvm.p < pageCount s.nvm.region.dims then
    s.setTodo (readPageFrames s.nvm.region s.nvm.p ++ .readStore :: s.ctl.todo)
  else finish (.bytes s.nvm.dst) s

/-- After a page's burst: the bytes are appended, progress is handed over. -/
def runReadStore (s : State) : State :=
  (s.setNvm ({ s.nvm with dst := s.nvm.dst ++ s.wire.resp }.pageDone true)).setTodo (.readPage :: s.ctl.todo)

/-! ## `write` (R267) -/

/-- The loop of `write`: a page with data is written, a page without is skipped. -/
def runWritePage (s : State) : State :=
  if s.nvm.p < pageCount s.nvm.region.dims then
    if hasPageData s.nvm.page then
      s.setTodo (writePageFrames s.nvm.region s.nvm.p s.nvm.page s.nvm.cmd ++ .writeDone :: s.ctl.todo)
    else (s.setNvm (s.nvm.pageDone false)).setTodo (.writePage :: s.ctl.todo)
  else finish .ok s

/-- After a page with data. -/
def runWriteDone (s : State) : State := (s.setNvm (s.nvm.pageDone true)).setTodo (.writePage :: s.ctl.todo)

/-! ## `verify` (R268) -/

/-- The loop of `verify`: a page with data is re-read, a page without is not. -/
def runVerifyPage (s : State) : State :=
  if s.nvm.p < pageCount s.nvm.region.dims then
    if hasPageData s.nvm.page then
      s.setTodo (readPageFrames s.nvm.region s.nvm.p ++ .compare :: s.ctl.todo)
    else (s.setNvm (s.nvm.pageDone false)).setTodo (.verifyPage :: s.ctl.todo)
  else finish .ok s

/-- The comparison: the first mismatch stops the operation with its page and address (D40). -/
def runCompare (s : State) : State :=
  if s.wire.resp = s.nvm.page then (s.setNvm (s.nvm.pageDone true)).setTodo (.verifyPage :: s.ctl.todo)
  else
    takeError (.verify s.nvm.p (pageAddr s.nvm.region.dims s.nvm.p + firstDiff s.wire.resp s.nvm.page)) s

/-! ## Fuses (R270, R271) -/

/-- The return of `fuse_read`. -/
def runFuseDone (s : State) : State := finish (.byte s.respByte) s

/-- The old value: an equal one is a no-op success, any other starts the 4-register sequence. -/
def runFuseTest (n : Nat) (value : Byte) (s : State) : State :=
  if s.respByte = value then finish .fuseNoOp s
  else s.setTodo (fuseWriteFrames s.params s.session.profile n value ++ s.ctl.todo)

/-- The read-back. -/
def runFuseVerify (n : Nat) (value : Byte) (s : State) : State :=
  if s.respByte = value then finish .fuseWritten s
  else takeError (.verify n (s.session.profile.fuses + n)) s

end Sys2Proof.Machine
end

