-- ==== Sys2Proof/Machine/Requests.lean ====
section
/-! DEFINITION. HOST starts an operation (spec/10_state.md rule R20): the permission of its link state
(spec/60_exceptions.md rule R316), its other requirements, and the micro-operations it consists of. -/

namespace Sys2Proof.Machine

/-- A requirement that is false refuses the request (R12, R306). -/
def require (c : Bool) (r : Refusal) (k : Host.Outcome State Fault Refusal) : Host.Outcome State Fault Refusal :=
  if c then k else .refused r

/-- A HEX record executes only inside `parse` (R140). -/
def isLinkInstr (i : Instr) : Bool :=
  match i.format with
  | .hexLine => false
  | .updiFrame => true
  | .updiBreak => true
  | .nvmCommand => true

/-- The working registers at the start of `read`, `write` or `verify` (R36, R267, R269). -/
def startNvm (s : State) (k : RegionKind) (src : List Byte) (total : Nat) : State :=
  s.setNvm
    { region := regionOf s.session.profile k
      p := 0
      cmd := if s.session.chipEraseOk then .writePage else .eraseWritePage
      src := src
      dst := []
      progress := []
      total := total
      openPage := none }

/-- The profile is one the hardware accepts (R38, R72, U39). -/
def profileOk (s : State) : Bool := s.session.profile.legal s.params.fuseCount

/-- The address of fuse `n` (R270). -/
def fuseAddr (s : State) (n : Nat) : Word := dataAddr (s.session.profile.fuses + n)

/-- The number of pages with data of a source buffer for a region of the session's profile (R269). -/
def totalWithData (s : State) (k : RegionKind) (src : List Byte) : Nat :=
  pagesWithData src (regionOf s.session.profile k).dims

/-- The construction of a session on a transport the caller has opened (R340 (b), R342): every row of R54 that belongs to a
session, the page and attempt cursors among them; the target is untouched (R341). -/
def newSession (part : PartCode) (baud verbosity : Nat) (s : State) : State :=
  finish .ok
    { s with
      session := Session.fresh (s.params.catalog.entry part) baud verbosity
      nvm := Nvm.fresh
      wire := { s.wire with resp := [], recvAttempt := 0 }
      ctl := { s.ctl with pollAttempt := 0, initRound := 0 } }

/-- The start of an operation. A raw command may be any frame of spec/42_updi_link.md, the double break among them: R316
permits those commands, R242 and R29 speak of what the operations of a session do; the four commands of the NVM controller are
frames of that file too, an `STS.b` each (R265), so they may be asked for in `Synced` and `Unlocked` as well, though R273 to
R276 say that `write` and `fuse_write` issue them (DEDUCED: log 31). -/
def startRequest (r : Request) (s : State) : Host.Outcome State Fault Refusal :=
  match r with
  | .parse file => .next (s.setTodo [.parse file false, .parsed])
  | .serialize image length => startSerialize image length s
  | .txt2hex text => startTxt2hex text s
  | .hex2c file => .next (s.setTodo [.parse file false, .window true])
  | .hex2bin file => .next (s.setTodo [.parse file false, .window false])
  | .merge a b => .next (s.setTodo [.parse a false, .mergeSecond b, .mergeEnd])
  | .command i =>
    require (isLinkInstr i) .notLinkCommand
      (require (hostLinkOk s.session) .linkState (.next (s.setTodo [.cmd i, .answer i])))
  | .send bs => require (hostLinkOk s.session) .linkState (.next (s.setTodo [.sendBytes bs, .ready]))
  | .recv len => require (hostLinkOk s.session) .linkState (.next (s.setTodo [.recvBytes len, .received]))
  | .newSession part baud verbosity =>
    require (hostSessionOk s.session) .linkState
      (require (decide (baud ∈ Config.baudSet)) .baudRate
        (require ((s.params.catalog.entry part).legal s.params.fuseCount) .profile
          (.next (newSession part baud verbosity s))))
  | .initLink =>
    require (hostInitOk s.session) .linkState
      (.next (((s.setLink .syncPending).setInitRound 0).setTodo (handshakeFrames s.params)))
  | .unlockErase => require (hostUnlockOk s.session) .linkState (.next (s.setTodo (unlockFrames s.params)))
  | .enterProgmode =>
    require (hostLinkOk s.session) .linkState
      (.next (s.setTodo [.cmd (.ldcs s.params.csSysStatus), .progTest]))
  | .leaveProgmode => require (hostLinkOk s.session) .linkState (.next (s.setTodo (leaveFrames s.params)))
  | .userrowWrite data =>
    require (hostUnlockOk s.session) .linkState
      (require (decide (data.length = s.params.urowLen) && countOk data.length) .userRowLength
        (.next (s.setTodo (userrowFrames s.params s.session.profile.userrow data))))
  | .close => .next (finish .ok (closeLink s))
  | .waitNvmReady => require (hostNvmOk s.session) .linkState (.next (s.setTodo [.nvmWait, .ready]))
  | .read k =>
    require (hostNvmOk s.session) .linkState
      (require (profileOk s) .profile
        (.next ((startNvm s k [] (pageCount (regionOf s.session.profile k).dims)).setTodo [.readPage])))
  | .write k src =>
    require (hostNvmOk s.session) .linkState
      (require (profileOk s) .profile (.next ((startNvm s k src (totalWithData s k src)).setTodo [.writePage])))
  | .verify k src =>
    require (hostNvmOk s.session) .linkState
      (require (profileOk s) .profile (.next ((startNvm s k src (totalWithData s k src)).setTodo [.verifyPage])))
  | .fuseRead n =>
    require (hostNvmOk s.session) .linkState
      (require (decide (n < s.params.fuseCount)) .fuseIndex
        (.next (s.setTodo [.cmd (.ldsb (fuseAddr s n)), .fuseDone])))
  | .fuseWrite n value =>
    require (hostNvmOk s.session) .linkState
      (require (decide (n < s.params.fuseCount)) .fuseIndex
        (.next (s.setTodo [.cmd (.ldsb (fuseAddr s n)), .fuseTest n value])))

/-- HOST's turn: the next request starts, or nothing is asked and nothing changes (log 7). The result of the operation before
is gone once the next one starts. -/
def hostTurn (s : State) : Host.Outcome State Fault Refusal :=
  match s.ctl.requests with
  | [] => .next s
  | r :: rs => startRequest r { s with ctl := { s.ctl with requests := rs, result := none } }

end Sys2Proof.Machine
end

