-- ==== Sys2Proof/Machine/Control.lean ====
section
/-! DEFINITION. What a step does with the next micro-operation of the operation in progress, and where an instruction is
placed so that the next step runs it. -/

namespace Sys2Proof.Machine

/-- One micro-operation. `s.ctl.todo` is what stands after it. -/
def runMicro (m : Micro) (s : State) : Host.Outcome State Fault Refusal :=
  match m with
  | .parse file keep => .next (runParse file keep (codecTick s))
  | .records => runRecords (codecTick s)
  | .parsed => .next (runParsed s)
  | .window asC => runWindow asC s
  | .mergeSecond b => .next (runMergeSecond b s)
  | .mergeEnd => .next (runMergeEnd s)
  | .chunks => .next (runChunks (codecTick s))
  | .cmd i => exec i s
  | .sendBytes bs => runSend bs s
  | .recvBytes len => runRecv len s
  | .answer i => .next (runAnswer i s)
  | .received => .next (runReceived s)
  | .ready => .next (runReady s)
  | .initTest => .next (runInitTest s)
  | .keyTest bit => .next (runKeyTest bit s)
  | .poll q => .next (runPoll q s)
  | .pollTest q => .next (runPollTest q s)
  | .unlocked => .next (runUnlocked s)
  | .progTest => .next (runProgTest s)
  | .progConfirm => .next (runProgConfirm s)
  | .left => .next (runLeft s)
  | .rowDone => .next (runRowDone s)
  | .openPage start len => .next (runOpenPage start len s)
  | .closePage => .next (runClosePage s)
  | .nvmWait => .next (runNvmWait s)
  | .nvmTest => .next (runNvmTest s)
  | .readPage => .next (runReadPage s)
  | .readStore => .next (runReadStore s)
  | .writePage => .next (runWritePage s)
  | .writeDone => .next (runWriteDone s)
  | .verifyPage => .next (runVerifyPage s)
  | .compare => .next (runCompare s)
  | .fuseDone => .next (runFuseDone s)
  | .fuseTest n value => .next (runFuseTest n value s)
  | .fuseVerify n value => .next (runFuseVerify n value s)

/-- One step: nothing runs after the interruption (R312); an interruption that is due comes first; else the operation in
progress goes on, and when none is in progress HOST may start one (R20). -/
def stepBody (s : State) : Host.Outcome State Fault Refusal :=
  if s.ctl.halted then .fault .halted
  else if s.wire.irq = some 0 then .next (interrupt s)
  else
    match s.ctl.todo with
    | [] => hostTurn s
    | m :: rest => runMicro m (s.setTodo rest)

/-- The instruction placed as the whole file of a `parse` in progress: the line of its encoding, at cursor 0. -/
def placeRecord (s : State) (i : Instr) : State :=
  { s with
    codec := { s.codec with file := encode s.params i, pos := 0, eofSeen := false }
    wire := { s.wire with irq := none }
    ctl := { s.ctl with todo := [.records, .parsed], halted := false } }

/-- The link state in which a raw link command may go out: the one there is, or `Synced` (R316). -/
def usableLink (l : LinkState) : LinkState :=
  match l with
  | .cold => .synced
  | .closed => .synced
  | .syncPending => .syncPending
  | .synced => .synced
  | .unlocked => .unlocked
  | .progMode => .progMode

/-- The instruction placed as the raw command of an operation in progress on a usable link. -/
def placeCommand (s : State) (i : Instr) : State :=
  { s with
    session := { s.session with linkState := usableLink s.session.linkState, failed := none, transportOpen := true }
    wire := { s.wire with irq := none }
    ctl := { s.ctl with todo := [.cmd i, .answer i], halted := false } }

/-- The instruction of a table word where the next step fetches it (log 7). -/
def placeWord (s : State) (nbits w : Nat) : State :=
  match decodeTableWord nbits w with
  | none => s
  | some i => if isLinkInstr i then placeCommand s i else placeRecord s i

end Sys2Proof.Machine
end

