-- ==== Sys2Proof/Machine/Prog.lean ====
section
/-! DEFINITION. The steps of PROG itself (spec/10_state.md rule R20, spec/60_exceptions.md rule R312): one byte sent, or one
receive attempt. A step of the machine runs a whole frame; this file is the machine that stands between two of them, with the
states in the middle of a frame. A codec step, and a test between frames, is one step of both machines (log 8). -/

namespace Sys2Proof.Machine

/-- A point in a run: the state in which the step in progress began, and how many of PROG's own steps it has made since. -/
structure Prog where
  base : State
  made : Nat
deriving DecidableEq, Repr

/-- The state with the interruption due after `n` of PROG's own steps, and with no page in progress, so that the interruption
leaves all that the frame has done. -/
def cutState (s : State) (n : Nat) : State :=
  { s with
    nvm := { s.nvm with openPage := none }
    wire := { s.wire with irq := some n } }

/-- What the step of the machine that begins in `s` leaves when it is cut after `n` of PROG's own steps; none when it does not
make more than `n`. -/
def cutAt (s : State) (n : Nat) : Option State :=
  match step (cutState s n) with
  | .next t => if t.ctl.halted then some t else none
  | .fault _ => none
  | .refused _ => none

/-- The machine's state at a point: in the middle of a frame the wire, the target and the link configuration have moved, and
the frame is still what is left to do. -/
def Prog.state (g : Prog) : State :=
  match g.made with
  | 0 => g.base
  | n + 1 =>
    match cutAt g.base (n + 1) with
    | none => g.base
    | some t =>
      { g.base with
        session := { g.base.session with baud := t.session.baud, stopBits := t.session.stopBits }
        target := t.target
        wire := { t.wire with irq := g.base.wire.irq.map (fun m => m - (n + 1)) } }

/-- The interruption is not due within the first `n` of PROG's own steps. -/
def notDueWithin (s : State) (n : Nat) : Bool :=
  match s.wire.irq with
  | none => true
  | some m => decide (n ≤ m)

/-- One step of PROG: on to the next point of the frame in progress, or to the end of the machine's step, or to the
interruption that is due. -/
def progStep (g : Prog) : Host.Outcome Prog Fault Refusal :=
  if notDueWithin g.base (g.made + 1) && (cutAt g.base (g.made + 1)).isSome then .next ⟨g.base, g.made + 1⟩
  else
    match step g.base with
    | .next t => .next ⟨t, 0⟩
    | .fault f => .fault f
    | .refused r => .refused r

end Sys2Proof.Machine
end

