-- ==== Sys2Proof/Safety.lean ====
section
/-! DEFINITION. What counts as a safe run, and the words the statements are written in: runs of the machine, the invariants
of a state, and what it means that the environment answers a frame. -/

namespace Sys2Proof.Machine

/-! ## Runs -/

/-- `n` steps of the machine. -/
def run : Nat → State → Host.Outcome State Fault Refusal
  | 0, s => .next s
  | n + 1, s =>
    match step s with
    | .next t => run n t
    | .fault f => .fault f
    | .refused r => .refused r

/-- `n` of PROG's own steps (R20). -/
def progRun : Nat → Prog → Host.Outcome Prog Fault Refusal
  | 0, g => .next g
  | n + 1, g =>
    match progStep g with
    | .next h => progRun n h
    | .fault f => .fault f
    | .refused r => .refused r

/-! ## Errors (R313, R314) -/

/-- `TransportError` and `ProtocolError` are the fatal classes (R303, R304, R313). -/
def Error.fatal : Error → Bool
  | .transport _ => true
  | .protocol _ => true
  | .format _ => false
  | .overlap _ _ => false
  | .verify _ _ => false

/-- `t` is a state in which the fatal error `e` has been taken from an operation of `s`: latched, closed, transport
released, the operation ended with `e` as its result, everything of the codec and the queue of requests kept (R313). -/
structure FatalExit (e : Error) (s t : State) : Prop where
  failed : t.session.failed = some e
  closed : t.session.linkState = .closed
  released : t.session.transportOpen = false
  ended : t.ctl.todo = []
  result : t.ctl.result = some (.error e)
  chipEraseOk : t.session.chipEraseOk = s.session.chipEraseOk
  profile : t.session.profile = s.session.profile
  params : t.params = s.params
  codec : t.codec = s.codec
  requests : t.ctl.requests = s.ctl.requests

/-- `t` is a state in which the codec error `e` has been taken from an operation of `s`: the operation ended with `e` as its
result, nothing of the codec operation survives (R28), and nothing else has changed (R314). -/
structure FormatExit (e : Error) (s t : State) : Prop where
  ended : t.ctl.todo = []
  result : t.ctl.result = some (.error e)
  codec : t.codec = Codec.fresh
  session : t.session = s.session
  nvm : t.nvm = s.nvm
  target : t.target = s.target
  wire : t.wire = s.wire
  params : t.params = s.params
  requests : t.ctl.requests = s.ctl.requests

/-! ## Invariants of a state -/

/-- All byte memories are in their canonical form. -/
def State.memoriesOk (s : State) : Bool :=
  Memory.wf imgDrop s.codec.img && Memory.wf none s.target.mem && Memory.wf s.target.bufDrop s.target.buf

/-- `low <= high < IMG_CAP` (R23). -/
def Range.within (cap : Nat) (r : Option Range) : Bool :=
  match r with
  | none => true
  | some ⟨lo, hi⟩ => decide (lo ≤ hi) && decide (hi < cap)

/-- IMG and the ranges stay below `IMG_CAP` (R22, R23). -/
def State.imageOk (s : State) : Bool :=
  Range.within s.params.imgCap s.codec.range && Range.within s.params.imgCap s.codec.rangeA &&
    s.codec.img.all (fun c => decide (c.1 < s.params.imgCap))

/-- The micro-operations that stand inside the page at the page cursor. -/
def Micro.isInPage : Micro → Bool
  | .readStore => true
  | .writeDone => true
  | .compare => true
  | _ => false

/-- The micro-operations of the page loops of `read`, `write` and `verify`. -/
def Micro.isPageLoop : Micro → Bool
  | .readPage => true
  | .writePage => true
  | .verifyPage => true
  | m => m.isInPage

/-- The bound of the poll whose test this is. -/
def Micro.testBound (p : Params) : Micro → Option Nat
  | .pollTest q => some q.attempts
  | .nvmTest => some p.nvmReadyAttempts
  | _ => none

/-- The bound of the poll this belongs to. -/
def Micro.pollBound (p : Params) : Micro → Option Nat
  | .poll q => some q.attempts
  | m => m.testBound p

/-- The greatest bound of a poll of the hardware (R320). -/
def pollMax (p : Params) : Nat :=
  max (max p.unlockPollAttempts p.progmodePollAttempts) (max p.urowPollAttempts p.nvmReadyAttempts)

/-- What is left of an operation, past the frame that stands next. -/
def pastFrame : List Micro → List Micro
  | .cmd _ :: ms => ms
  | ms => ms

/-- What is left of an operation keeps the page cursor: one page loop at most, and a page that is being worked on is there
(R25, R266 to R268). -/
def pageLoopOk (pages p : Nat) (ms : List Micro) : Bool :=
  decide (p ≤ pages) && decide (ms.countP Micro.isPageLoop ≤ 1) && (!ms.any Micro.isInPage || decide (p < pages))

/-- What is left of an operation keeps the attempt cursor of the polls: a test stands next, or next after its frame, and only
while an attempt is left; no poll has a bound that is not one of R320's (R250, R264, R320). -/
def pollLoopOk (pr : Params) (attempt : Nat) (ms : List Micro) : Bool :=
  decide (attempt ≤ pollMax pr) &&
    ms.all (fun m => (m.pollBound pr).all (fun b => decide (b ≤ pollMax pr))) &&
    (pastFrame ms).tail.all (fun m => (m.testBound pr).isNone) &&
    ((pastFrame ms).head?.bind (Micro.testBound pr)).all (fun b => decide (attempt < b))

/-- What is left of an operation keeps the rounds of `init` (R241, R320). -/
def initLoopOk (round : Nat) (ms : List Micro) : Bool :=
  decide (round ≤ Config.initRounds) && decide (ms.count .initTest ≤ 1) &&
    (!ms.contains .initTest || decide (round < Config.initRounds))

/-- No cursor leaves what it walks: the file, the chunks, the pages, and the attempts of `recv`, of the polls and of `init`
(R25, R320). -/
def State.cursorsOk (s : State) : Bool :=
  decide (s.codec.pos ≤ s.codec.file.length) && decide (s.codec.k ≤ chunkCount s.codec.length) &&
    decide (s.wire.recvAttempt ≤ s.params.recvAttempts) &&
      pageLoopOk (pageCount s.nvm.region.dims) s.nvm.p s.ctl.todo && pollLoopOk s.params s.ctl.pollAttempt s.ctl.todo &&
        initLoopOk s.ctl.initRound s.ctl.todo

/-- The micro-operations of the operations of LINK, SESS and NVM; the others are the codec's. -/
def Micro.usesLink : Micro → Bool
  | .parse _ _ => false
  | .records => false
  | .parsed => false
  | .window _ => false
  | .mergeSecond _ => false
  | .mergeEnd => false
  | .chunks => false
  | .cmd _ => true
  | .sendBytes _ => true
  | .recvBytes _ => true
  | .answer _ => true
  | .received => true
  | .ready => true
  | .initTest => true
  | .keyTest _ => true
  | .poll _ => true
  | .pollTest _ => true
  | .unlocked => true
  | .progTest => true
  | .progConfirm => true
  | .left => true
  | .rowDone => true
  | .openPage _ _ => true
  | .closePage => true
  | .nvmWait => true
  | .nvmTest => true
  | .readPage => true
  | .readStore => true
  | .writePage => true
  | .writeDone => true
  | .verifyPage => true
  | .compare => true
  | .fuseDone => true
  | .fuseTest _ _ => true
  | .fuseVerify _ _ => true

/-- The session is consistent: a failed session is closed (R31) and has released its transport (R313), one that is not
closed owns its transport (R29), and what is left of an operation on the link stands only on a link that is up. -/
def State.sessionOk (s : State) : Bool :=
  (s.session.failed.isNone || (decide (s.session.linkState = .closed) && !s.session.transportOpen)) &&
    (decide (s.session.linkState = .closed) || s.session.transportOpen) &&
      (!s.ctl.todo.any Micro.usesLink || linkUp s.session)

/-! ## The environment's answers to a frame -/

/-- The link can carry a frame that nothing interrupts: it is up (R316), no interruption is on its way, and `recv` makes at
least one attempt. -/
structure Ready (s : State) : Prop where
  up : linkUp s.session = true
  quiet : s.wire.irq = none
  patient : 1 ≤ s.params.recvAttempts

/-- The answer `a` to the receive attempt after byte `b` was sent is its echo (R30). -/
def Echoes (a : Answer) (b : Byte) : Prop := a = .obey ∨ a = .bytes [b]

/-- The answer `a` delivers the bytes `got`, where a target keeping its contract owes `owed`. -/
def Delivers (a : Answer) (owed got : List Byte) : Prop := (a = .obey ∧ got = owed) ∨ a = .bytes got

/-- The answers `as` serve the phases of a store, down to `rest`: each byte of a phase is echoed, then one `ACK` comes
(R202, R209). -/
def Acked : List (List Byte) → List Answer → List Answer → Prop
  | [], as, rest => as = rest
  | ph :: phs, as, rest =>
    ∃ es a more, as = es ++ a :: more ∧ List.Forall₂ Echoes es ph ∧ Echoes a Config.ack ∧ Acked phs more rest

/-- The answers `as` serve one `recv` of `n` bytes whose bound is `bound`, piece by piece (R201): every attempt but the last
one leaves bytes wanting; what ends it is the last byte asked for, the bound, or an error of `rx` before either. -/
structure Receives (bound n : Nat) (pieces : List (List Byte)) (as : List Answer) : Prop where
  fits : pieces.flatten.length ≤ n
  wanting : pieces = [] ∨ pieces.dropLast.flatten.length < n
  bounded : pieces.length ≤ bound
  ends : (as = pieces.map .bytes ∧ (pieces.flatten.length = n ∨ pieces.length = bound)) ∨
    (as = pieces.map .bytes ++ [.error] ∧ pieces.flatten.length < n ∧ pieces.length < bound)

/-- `v` shows the flags of the NVM controller's status register (R48). Of two flags at one bit, which R8 does not forbid, the
write error has it, then the EEPROM's (log 37). -/
structure ShowsNvmStatus (p : Params) (t : Target) (v : Byte) : Prop where
  writeError : p.nstWriteError ≤ 7 → bitSet v p.nstWriteError = t.writeError
  eepromBusy : p.nstEepromBusy ≤ 7 → p.nstEepromBusy ≠ p.nstWriteError →
    bitSet v p.nstEepromBusy = decide (t.eepromBusy ≠ 0)
  flashBusy : p.nstFlashBusy ≤ 7 → p.nstFlashBusy ≠ p.nstEepromBusy → p.nstFlashBusy ≠ p.nstWriteError →
    bitSet v p.nstFlashBusy = decide (t.flashBusy ≠ 0)

/-- `v` shows the flags of the system status (R46, R290), its bits without a flag being the register's. Of two flags at one
bit, which R8 does not forbid, the lock has it, then the programming mode (log 37). -/
structure ShowsSysStatus (p : Params) (t : Target) (v : Byte) : Prop where
  locked : p.ssLockStatus ≤ 7 → bitSet v p.ssLockStatus = t.locked
  progMode : p.ssNvmProg ≤ 7 → p.ssNvmProg ≠ p.ssLockStatus → bitSet v p.ssNvmProg = t.progMode
  others : ∀ b, b ∉ [p.ssLockStatus, p.ssNvmProg, p.ssUrowProg] → bitSet v b = bitSet (t.csGet p.csSysStatus) b

/-- What a target that keeps its contract answers to a load of one byte, where the contract fixes it: the flags of the status
register (R48), the controller's other registers (log 17), the byte of T.mem outside the NVM, and inside it on an unlocked
chip in programming mode (R290, R208). The registers are tested in the order of log 35. -/
structure AnswersLoad (p : Params) (pr : Profile) (t : Target) (a : Word) (v : Byte) : Prop where
  status : a = dataAddr (pr.nvmctrl + p.nvmStatus) → ShowsNvmStatus p t v
  command : a ≠ dataAddr (pr.nvmctrl + p.nvmStatus) → a = dataAddr (pr.nvmctrl + p.nvmCtrlA) → v = t.ctrlA
  data : (∀ off ∈ [p.nvmStatus, p.nvmCtrlA], a ≠ dataAddr (pr.nvmctrl + off)) →
    a = dataAddr (pr.nvmctrl + p.nvmData) → v = t.dataReg
  addrL : (∀ off ∈ [p.nvmStatus, p.nvmCtrlA, p.nvmData], a ≠ dataAddr (pr.nvmctrl + off)) →
    a = dataAddr (pr.nvmctrl + p.nvmAddrL) → v = t.addrL
  addrH : (∀ off ∈ [p.nvmStatus, p.nvmCtrlA, p.nvmData, p.nvmAddrL], a ≠ dataAddr (pr.nvmctrl + off)) →
    a = dataAddr (pr.nvmctrl + p.nvmAddrH) → v = t.addrH
  memory : (∀ off ∈ [p.nvmStatus, p.nvmCtrlA, p.nvmData, p.nvmAddrL, p.nvmAddrH], a ≠ dataAddr (pr.nvmctrl + off)) →
    (nvmPage p pr a.toNat = none ∨ (t.locked = false ∧ t.progMode = true)) → v = t.memByte a.toNat

/-- Bytes as they stand on the transmit stream (R65, R203). -/
def State.onWire (s : State) (bs : List Byte) : List TxByte :=
  bs.map (fun b => ⟨b, s.session.baud, s.session.stopBits⟩)

/-- The state after a frame that ran to its end: the bytes `out` sent, `rest` of the script left, `n` free values passed,
the target `t`, the response `resp`; nothing else has changed. -/
def State.replied (s : State) (out : List Byte) (rest : List Answer) (n : Nat) (t : Target) (resp : List Byte) : State :=
  { s with
    target := t
    wire :=
      { s.wire with
        sent := s.wire.sent ++ s.onWire out
        script := rest
        draws := s.wire.draws + n
        resp := resp
        recvAttempt := 1 } }

/-- The target after it took the units of a burst, its repeat counter reaching that far (R213, R218, R354). -/
def Target.afterUnits (p : Params) (pr : Profile) (d : Nat) (t : Target) : List (List Byte) → Target
  | [] => t
  | u :: us => (t.takeUnit p pr d 1 u).afterUnits p pr (d + 1) us

/-- The bytes an instruction of the link sends, cut where an `ACK` is awaited; frames without `ACK` are one piece (R112,
R202, R204, R265). A HEX record sends nothing. -/
def phases (s : State) : Instr → List (List Byte)
  | .stsb a v => [Config.sync :: insnSts s.params.opc false :: wireWord a, [v]]
  | .stsw a w => [Config.sync :: insnSts s.params.opc true :: wireWord a, wireWord w]
  | .stPtr a => [encode s.params (.stPtr a)]
  | .stb d =>
    match byteUnits d with
    | [] => []
    | u :: us => (Config.sync :: insnSt s.params.opc false :: u) :: us
  | .stw d =>
    match wordUnits d with
    | [] => []
    | u :: us => (Config.sync :: insnSt s.params.opc true :: u) :: us
  | .writePage => commandPhases s s.params.cmdWritePage
  | .eraseWritePage => commandPhases s s.params.cmdEraseWritePage
  | .pageBufferClr => commandPhases s s.params.cmdPageBufferClr
  | .writeFuse => commandPhases s s.params.cmdWriteFuse
  | .ldcs r => [encode s.params (.ldcs r)]
  | .stcs r v => [encode s.params (.stcs r v)]
  | .ldsb a => [encode s.params (.ldsb a)]
  | .ldsw a => [encode s.params (.ldsw a)]
  | .ldb n => [encode s.params (.ldb n)]
  | .ldw n => [encode s.params (.ldw n)]
  | .rep n => [encode s.params (.rep n)]
  | .key k => [encode s.params (.key k)]
  | .brk => [encode s.params .brk]
  | .doubleBreak => [encode s.params .doubleBreak]
  | .data _ _ => []
  | .eof _ _ => []
  | .esa _ _ => []
  | .ssa _ _ => []
  | .ela _ _ => []
  | .hexReserved _ _ _ => []
where
  /-- The two phases of `NVMCMD c` (R265). -/
  commandPhases (s : State) (c : Byte) : List (List Byte) :=
    [Config.sync :: insnSts s.params.opc false :: wireWord (commandAddr s), [c]]

/-- `n` bytes from `a` up lie inside the data space, clear of the registers of the NVM controller that a store acts on. -/
def ClearOfRegisters (p : Params) (pr : Profile) (a n : Nat) : Prop :=
  a + n ≤ 65536 ∧
    ∀ j, j < n → ∀ off ∈ [p.nvmCtrlA, p.nvmData, p.nvmAddrL, p.nvmAddrH], dataAddr (a + j) ≠ dataAddr (pr.nvmctrl + off)

/-- The bytes `d`, stored from `a` up, have turned the target `t` into `u`: each stands in memory at its own address, or by AND
in the page buffer where the address is NVM-mapped (R291); every other byte of both is as before, and so is all else. -/
structure Landed (p : Params) (pr : Profile) (a : Nat) (d : List Byte) (t u : Target) : Prop where
  memory : ∀ j, j < d.length → nvmPage p pr (a + j) = none →
    u.memByte (a + j) = d.getD j 0 ∧ u.bufByte (a + j) = t.bufByte (a + j)
  buffer : ∀ j, j < d.length → (nvmPage p pr (a + j)).isSome = true →
    u.bufByte (a + j) = t.bufByte (a + j) &&& d.getD j 0 ∧ u.memByte (a + j) = t.memByte (a + j)
  outside : ∀ x, x < a ∨ a + d.length ≤ x → u.memByte x = t.memByte x ∧ u.bufByte x = t.bufByte x
  frame : u = { t with mem := u.mem, buf := u.buf, pageStart := u.pageStart, pageLen := u.pageLen }

/-- `t` is the state in which a `write` or `verify` of the source `src` to the region of kind `k`, asked in `s`, begins its
first page: the region of the session's profile (R36), the first page next, no progress yet, and the number of pages with data
among its `max 1 (size / pageSize)` pages (R260, R262, R263, R269). -/
structure StartsPages (s t : State) (k : RegionKind) (src : List Byte) : Prop where
  region : t.nvm.region = ⟨k, match k with | .flash => s.session.profile.flash | .eeprom => s.session.profile.eeprom⟩
  source : t.nvm.src = src
  page : t.nvm.p = 0
  progress : t.nvm.progress = []
  total : t.nvm.total =
    ((List.range (max 1 (t.nvm.region.dims.size / t.nvm.region.dims.pageSize))).filter fun p =>
      decide (∃ j, j < t.nvm.region.dims.pageSize ∧ src.getD (p * t.nvm.region.dims.pageSize + j) 0xFF ≠ 0xFF)).length

/-- Explicit answers to sent bytes: each byte comes back. -/
def echoed (bs : List Byte) : List Answer := bs.map (fun b => .bytes [b])

/-- Explicit answers to whole phases: each byte comes back, then one `ACK`. -/
def acked : List (List Byte) → List Answer
  | [] => []
  | ph :: phs => echoed ph ++ .bytes [Config.ack] :: acked phs

/-- Explicit answers to a frame that is sent again and again: its bytes come back, then one byte of response. -/
def pollAnswers (frame vs : List Byte) : List Answer := vs.flatMap (fun v => echoed frame ++ [.bytes [v]])

/-- A wrong answer to byte `b`, and the `TransportError` it is (R200, R303): a different echo, an error of `rx`, nothing within
the bound of `recv`, a short write. -/
inductive BadEcho (p : Params) (b : Byte) : List Answer → TransportError → Prop where
  | different (c : Byte) (h : c ≠ b) : BadEcho p b [.bytes [c]] .echoMismatch
  | error : BadEcho p b [.error] .echoMissing
  | silence : BadEcho p b (List.replicate p.recvAttempts (.bytes [])) .echoMissing
  | short : BadEcho p b [.shortWrite] .shortWrite

/-- A wrong answer where an `ACK` is awaited (R202): another byte, an error of `rx`, nothing within the bound of `recv`. -/
inductive BadAck (p : Params) : List Answer → Prop where
  | different (c : Byte) (h : c ≠ Config.ack) : BadAck p [.bytes [c]]
  | error : BadAck p [.error]
  | silence : BadAck p (List.replicate p.recvAttempts (.bytes []))

/-- The instructions that store with an `ACK` (R202: "`ST`/`STS` operations"). -/
def awaitsAck : Instr → Bool
  | .data _ _ => false
  | .eof _ _ => false
  | .esa _ _ => false
  | .ssa _ _ => false
  | .ela _ _ => false
  | .hexReserved _ _ _ => false
  | .ldcs _ => false
  | .stcs _ _ => false
  | .ldsb _ => false
  | .ldsw _ => false
  | .stsb _ _ => true
  | .stsw _ _ => true
  | .stPtr _ => true
  | .ldb _ => false
  | .ldw _ => false
  | .stb _ => true
  | .stw _ => true
  | .rep _ => false
  | .key _ => false
  | .brk => false
  | .doubleBreak => false
  | .writePage => true
  | .eraseWritePage => true
  | .pageBufferClr => true
  | .writeFuse => true

/-- How many bytes a load is answered with (R112); 0 for every other instruction. -/
def responseLen : Instr → Nat
  | .data _ _ => 0
  | .eof _ _ => 0
  | .esa _ _ => 0
  | .ssa _ _ => 0
  | .ela _ _ => 0
  | .hexReserved _ _ _ => 0
  | .ldcs _ => 1
  | .stcs _ _ => 0
  | .ldsb _ => 1
  | .ldsw _ => 2
  | .stsb _ _ => 0
  | .stsw _ _ => 0
  | .stPtr _ => 0
  | .ldb n => n
  | .ldw n => 2 * n
  | .stb _ => 0
  | .stw _ => 0
  | .rep _ => 0
  | .key _ => 0
  | .brk => 0
  | .doubleBreak => 0
  | .writePage => 0
  | .eraseWritePage => 0
  | .pageBufferClr => 0
  | .writeFuse => 0

/-! ## Permissions (R316) -/

/-- The table of R316, by operation and link state. `none` for what the table does not list: the codec's operations, and the
construction of a session. -/
def permits : Request → LinkState → Option Bool
  | .initLink, l => some (decide (l = .cold))
  | .command _, l => some (decide (l ∈ [LinkState.synced, .unlocked, .progMode]))
  | .send _, l => some (decide (l ∈ [LinkState.synced, .unlocked, .progMode]))
  | .recv _, l => some (decide (l ∈ [LinkState.synced, .unlocked, .progMode]))
  | .unlockErase, l => some (decide (l ∈ [LinkState.synced, .unlocked]))
  | .enterProgmode, l => some (decide (l ∈ [LinkState.synced, .unlocked, .progMode]))
  | .userrowWrite _, l => some (decide (l ∈ [LinkState.synced, .unlocked]))
  | .read _, l => some (decide (l = .progMode))
  | .write _ _, l => some (decide (l = .progMode))
  | .verify _ _, l => some (decide (l = .progMode))
  | .fuseRead _, l => some (decide (l = .progMode))
  | .fuseWrite _ _, l => some (decide (l = .progMode))
  | .waitNvmReady, l => some (decide (l = .progMode))
  | .leaveProgmode, l => some (decide (l ∈ [LinkState.synced, .unlocked, .progMode]))
  | .close, _ => some true
  | .parse _, _ => none
  | .serialize _ _, _ => none
  | .txt2hex _, _ => none
  | .hex2c _, _ => none
  | .hex2bin _, _ => none
  | .merge _ _, _ => none
  | .newSession _ _ _, _ => none

/-- The bytes of one handshake of `init` (R241). -/
def handshakeBytes (p : Params) : List Byte :=
  encode p .brk ++ encode p (.stcs p.csCtrlA (bitMask p.ibdly)) ++ encode p (.stcs p.csCtrlB (bitMask p.ccdetdis)) ++
    encode p (.ldcs p.csStatus)

/-- The machine can take its next step: not ended by the interruption, none due. -/
def State.running (s : State) : Prop := s.ctl.halted = false ∧ s.wire.irq ≠ some 0

end Sys2Proof.Machine
end

