-- ==== Sys2Proof/Certificates/Slice0/Obligations.lean ====
section
/-! DEFINITION. The statements for the provers. Each docstring says which rules of spec/ it rests on; a clause that rests on
a choice of the model names the log entry. -/

open Sys2Proof Sys2Proof.Machine

/-! ## Encodings -/

/-- Decoding gives back every well-formed instruction from its encoding, for all legal parameters (R100 to R126). -/
def Obligations.DecodeEncode : Prop :=
  ∀ (p : Params) (i : Instr), p.legal = true → i.wf = true → decode p i.format i.units (encode p i) = .ok i

/-- Under legal family codes and a legal repeat in force, a frame that decodes is exactly the encoding of the instruction it
decodes to, and that instruction is well-formed: no bit of a frame is ignored (R110 to R122). -/
def Obligations.FrameDecodesOnlyFromItsEncoding : Prop :=
  ∀ (p : Params) (units : Nat) (bs : List Byte) (i : Instr), p.opc.legal = true → countOk units = true →
    decode p .updiFrame units bs = .ok i → encode p i = bs ∧ i.wf = true

/-- A HEX line that decodes begins with the start code, and its characters spell the same bytes as the encoding of the
record it decodes to: only the case of the digits may differ (R100, R102). -/
def Obligations.LineDecodesOnlyFromItsBytes : Prop :=
  ∀ (p : Params) (units : Nat) (l : List Byte) (i : Instr), decode p .hexLine units l = .ok i →
    i.wf = true ∧ ∃ cs, l = Config.colon :: cs ∧ hexBytes cs = hexBytes (encode p i).tail

/-- For each row of the opcode table, the word of the example that the spec gives beside its rule decodes to the instruction
it stands for. The words of frames and commands hold under `Params.default` and the fixed field codes only, whose values the
spec itself takes from general knowledge (30_encoding.md section 3): log 1, PRESUMED (examples of R146, R148, R150, R153,
R152, R154, R206, R207, R208, R214, R209, R210, R211, R212, R217, R213, R218, R215, R216, R204, R205, R273, R274, R275, R276). -/
def Obligations.SpecExampleWordsDecode : Prop :=
  decode Params.default .hexLine 1
      [0x3A, 0x30, 0x34, 0x30, 0x31, 0x30, 0x30, 0x30, 0x30, 0x30, 0x43, 0x39, 0x34, 0x33, 0x34, 0x30, 0x30, 0x32, 0x37]
      = .ok (.data 0x0100 [0x0C, 0x94, 0x34, 0x00]) ∧
  decode Params.default .hexLine 1
      [0x3A, 0x30, 0x30, 0x30, 0x30, 0x30, 0x30, 0x30, 0x31, 0x46, 0x46]
      = .ok (.eof 0 []) ∧
  decode Params.default .hexLine 1
      [0x3A, 0x30, 0x32, 0x30, 0x30, 0x30, 0x30, 0x30, 0x32, 0x31, 0x30, 0x30, 0x30, 0x45, 0x43]
      = .ok (.esa 0 [0x10, 0x00]) ∧
  decode Params.default .hexLine 1
      [0x3A, 0x30, 0x34, 0x30, 0x30, 0x30, 0x30, 0x30, 0x33, 0x30, 0x30, 0x30, 0x30, 0x30, 0x30, 0x30, 0x30, 0x46, 0x39]
      = .ok (.ssa 0 [0x00, 0x00, 0x00, 0x00]) ∧
  decode Params.default .hexLine 1
      [0x3A, 0x30, 0x32, 0x30, 0x30, 0x30, 0x30, 0x30, 0x34, 0x30, 0x30, 0x30, 0x31, 0x46, 0x39]
      = .ok (.ela 0 [0x00, 0x01]) ∧
  decode Params.default .hexLine 1
      [0x3A, 0x30, 0x34, 0x30, 0x30, 0x30, 0x30, 0x30, 0x35, 0x30, 0x30, 0x30, 0x30, 0x30, 0x30, 0x30, 0x30, 0x46, 0x37]
      = .ok (.hexReserved 0x05 0 [0x00, 0x00, 0x00, 0x00]) ∧
  decode Params.default .updiFrame 1 [0x55, 0x8B] = .ok (.ldcs 0x0B) ∧
  decode Params.default .updiFrame 1 [0x55, 0xC3, 0x08] = .ok (.stcs 0x03 0x08) ∧
  decode Params.default .updiFrame 1 [0x55, 0x04, 0x02, 0x10] = .ok (.ldsb 0x1002) ∧
  decode Params.default .updiFrame 1 [0x55, 0x05, 0x00, 0x80] = .ok (.ldsw 0x8000) ∧
  decode Params.default .updiFrame 1 [0x55, 0x44, 0x00, 0x10, 0x04] = .ok (.stsb 0x1000 0x04) ∧
  decode Params.default .updiFrame 1 [0x55, 0x45, 0x00, 0x3F, 0xEF, 0xBE] = .ok (.stsw 0x3F00 0xBEEF) ∧
  decode Params.default .updiFrame 1 [0x55, 0x69, 0x40, 0x80] = .ok (.stPtr 0x8040) ∧
  decode Params.default .updiFrame 4 [0x55, 0x24] = .ok (.ldb 4) ∧
  decode Params.default .updiFrame 2 [0x55, 0x25] = .ok (.ldw 2) ∧
  decode Params.default .updiFrame 2 [0x55, 0x64, 0xAA, 0xBB] = .ok (.stb [0xAA, 0xBB]) ∧
  decode Params.default .updiFrame 2 [0x55, 0x65, 0x0C, 0x94, 0x34, 0x00] = .ok (.stw [0x0C, 0x94, 0x34, 0x00]) ∧
  decode Params.default .updiFrame 1 [0x55, 0xA0, 0x3F] = .ok (.rep 64) ∧
  decode Params.default .updiFrame 1 [0x55, 0xE0, 0x65, 0x73, 0x61, 0x72, 0x45, 0x4D, 0x56, 0x4E]
      = .ok (.key [0x4E, 0x56, 0x4D, 0x45, 0x72, 0x61, 0x73, 0x65]) ∧
  decode Params.default .updiBreak 1 [0x00] = .ok .brk ∧
  decode Params.default .updiBreak 1 [0x00, 0x00] = .ok .doubleBreak ∧
  decode Params.default .nvmCommand 1 [0x01] = .ok .writePage ∧
  decode Params.default .nvmCommand 1 [0x03] = .ok .eraseWritePage ∧
  decode Params.default .nvmCommand 1 [0x04] = .ok .pageBufferClr ∧
  decode Params.default .nvmCommand 1 [0x07] = .ok .writeFuse

/-- The checksum byte is the two's complement of the sum mod 256, `0x00` and not `0x100` when the sum is a multiple of 256,
and with it every line sums to 0 mod 256 (R103). -/
def Obligations.ChecksumLaw : Prop :=
  (∀ sum : Nat, (chk sum).toNat = (256 - sum % 256) % 256) ∧
  (∀ sum : Nat, sum % 256 = 0 → chk sum = 0x00) ∧
  (∀ (bb : Byte) (aaaa : Word) (rr : Byte) (dd : List Byte) (cc : Byte),
    cc = chk (lineSum bb aaaa rr dd) ↔
      (bb.toNat + (hi8 aaaa).toNat + (lo8 aaaa).toNat + rr.toNat + (dd.map BitVec.toNat).sum + cc.toNat) % 256 = 0)

/-- The checks of a line, in their order: length, start code, hexadecimal characters, byte count, checksum; a line that
passes them all is a record whose fields are the bytes it spells (R142, R143, R144, R155). -/
def Obligations.LineCheckOrder : Prop :=
  ∀ l : List Byte,
    ((l.length < 11 ∨ l.length % 2 = 0) → decodeRecord l = .error .lineLength) ∧
    (11 ≤ l.length → l.length % 2 = 1 →
      (l.head? ≠ some 0x3A → decodeRecord l = .error .startCode) ∧
      (∀ cs, l = 0x3A :: cs →
        ((∃ c ∈ cs, hexVal c = none) → decodeRecord l = .error .hexDigit) ∧
        ((∀ c ∈ cs, (hexVal c).isSome = true) →
          ∃ (bb ah al rr cc : Byte) (dd : List Byte), hexBytes cs = some (bb :: ah :: al :: rr :: (dd ++ [cc])) ∧
            2 * dd.length = l.length - 11 ∧
            (2 * bb.toNat ≠ l.length - 11 → decodeRecord l = .error .byteCount) ∧
            (2 * bb.toNat = l.length - 11 →
              (chk (lineSum bb (wordOf ah al) rr dd) ≠ cc →
                decodeRecord l = .error (.checksum (chk (lineSum bb (wordOf ah al) rr dd)) cc)) ∧
              (chk (lineSum bb (wordOf ah al) rr dd) = cc → decodeRecord l = .ok ⟨bb, wordOf ah al, rr, dd, cc⟩)))))

/-! ## HEX records -/

/-- `DATA` inside the buffer completes: its bytes stand at `offset + AAAA` and up, every other byte of IMG is as before, and
nothing but IMG and the range has changed; beyond the buffer, judged on the record as a whole and before any byte is stored,
it is `FormatError(Overrun)` with its position and address (R145, R146, R301). -/
def Obligations.DataStoresItsBytes : Prop :=
  ∀ (aaaa : Word) (dd : List Byte) (s : State),
    (s.codec.offset.toNat + aaaa.toNat + dd.length ≤ s.params.imgCap →
      ∃ t, exec (.data aaaa dd) s = .next t ∧
        (∀ x, t.codec.imgByte x =
          if s.codec.offset.toNat + aaaa.toNat ≤ x ∧ x < s.codec.offset.toNat + aaaa.toNat + dd.length then
            dd.getD (x - (s.codec.offset.toNat + aaaa.toNat)) 0xFF
          else s.codec.imgByte x) ∧
        t = { s with codec := { s.codec with img := t.codec.img, range := t.codec.range } }) ∧
    (s.params.imgCap < s.codec.offset.toNat + aaaa.toNat + dd.length →
      ∃ t, exec (.data aaaa dd) s = .next t ∧
        FormatExit (.format (.overrun s.codec.pos (s.codec.offset.toNat + aaaa.toNat))) s t)

/-- Range tracking over a `DATA` record: it stays `none` while no byte other than `0xFF` was stored, else its ends are the
least and the greatest of the old ends and the addresses of the record's bytes other than `0xFF` (R146, R147, R23). -/
def Obligations.DataTracksTheRange : Prop :=
  ∀ (aaaa : Word) (dd : List Byte) (s t : State),
    s.codec.offset.toNat + aaaa.toNat + dd.length ≤ s.params.imgCap → exec (.data aaaa dd) s = .next t →
    let marked := fun x => ∃ i, i < dd.length ∧ dd.getD i 0xFF ≠ 0xFF ∧ x = s.codec.offset.toNat + aaaa.toNat + i
    (t.codec.range = none ↔ s.codec.range = none ∧ ∀ x, ¬ marked x) ∧
    (∀ lo hi, t.codec.range = some ⟨lo, hi⟩ →
      (∀ x, marked x → lo ≤ x ∧ x ≤ hi) ∧
      (∀ lo0 hi0, s.codec.range = some ⟨lo0, hi0⟩ → lo ≤ lo0 ∧ hi0 ≤ hi) ∧
      (marked lo ∨ ∃ hi0, s.codec.range = some ⟨lo, hi0⟩) ∧
      (marked hi ∨ ∃ lo0, s.codec.range = some ⟨lo0, hi⟩))

/-- `EOF` completes whatever its operands: it sets `eofSeen` and nothing else, and the next step of `parse` reads no more of
the file (R148). -/
def Obligations.EofEndsTheRecords : Prop :=
  ∀ (aaaa : Word) (dd : List Byte) (s : State),
    exec (.eof aaaa dd) s = .next { s with codec := { s.codec with eofSeen := true } } ∧
    (∀ rest, s.running → s.wire.irq = none → s.codec.eofSeen = true → s.ctl.todo = .records :: .parsed :: rest →
      run 2 s = .next { s with ctl :=
        { s.ctl with todo := [], result := some (.image ⟨s.params.imgCap, s.codec.img⟩ s.codec.range) } })

/-- `ESA` and `ELA` with two data bytes complete: the offset is their value times 16 or times 65536, exactly, and nothing
else has changed; any other byte count is `FormatError(ExtLength)` with the record's position (R106, R150, R152, R301). -/
def Obligations.ExtendedAddressSetsTheOffset : Prop :=
  ∀ (aaaa : Word) (s : State),
    (∀ h l : Byte,
      (∃ t, exec (.esa aaaa [h, l]) s = .next t ∧ t.codec.offset.toNat = (256 * h.toNat + l.toNat) * 16 ∧
        t = { s with codec := { s.codec with offset := t.codec.offset } }) ∧
      (∃ t, exec (.ela aaaa [h, l]) s = .next t ∧ t.codec.offset.toNat = (256 * h.toNat + l.toNat) * 65536 ∧
        t = { s with codec := { s.codec with offset := t.codec.offset } })) ∧
    (∀ dd : List Byte, dd.length ≠ 2 →
      (∃ t, exec (.esa aaaa dd) s = .next t ∧ FormatExit (.format (.extLength s.codec.pos)) s t) ∧
      (∃ t, exec (.ela aaaa dd) s = .next t ∧ FormatExit (.format (.extLength s.codec.pos)) s t))

/-- `SSA` completes whatever its operands and changes nothing, the offset least of all; the step of `parse` that runs one only
latches the record and advances the cursor (R153). -/
def Obligations.SsaChangesNothing : Prop :=
  (∀ (aaaa : Word) (dd : List Byte) (s : State), exec (.ssa aaaa dd) s = .next s) ∧
  (∀ (s : State) (r : HexRecord) (rest : List Micro), s.running → s.wire.irq = none → s.ctl.todo = .records :: rest →
    s.codec.eofSeen = false → s.codec.pos < s.codec.file.length →
    decodeRecord (lineAt s.codec.file s.codec.pos) = .ok r → r.rr = 0x03 →
    step s = .next { s with codec := { s.codec with record := r, pos := nextLinePos s.codec.file s.codec.pos } })

/-- A record of a reserved type completes, whatever its operands, with `FormatError(RecordType)`, its position and its type:
the operation ends, nothing of it stays in the codec, nothing else changes; a line whose checksum is wrong reports `Checksum`
instead, whatever its type (R154, R155, R301, R28, R314). -/
def Obligations.ReservedTypeIsAFormatError : Prop :=
  (∀ (rr : Byte) (aaaa : Word) (dd : List Byte) (s : State),
    ∃ t, exec (.hexReserved rr aaaa dd) s = .next t ∧ FormatExit (.format (.recordType s.codec.pos rr)) s t) ∧
  (∀ (s : State) (rest : List Micro), s.running → s.wire.irq = none → s.ctl.todo = .records :: rest →
    s.codec.eofSeen = false → s.codec.pos < s.codec.file.length →
    (∀ r, decodeRecord (lineAt s.codec.file s.codec.pos) = .ok r → 5 ≤ r.rr.toNat →
      ∃ t, step s = .next t ∧ t.ctl.todo = [] ∧
        t.ctl.result = some (.error (.format (.recordType s.codec.pos r.rr)))) ∧
    (∀ c st, decodeRecord (lineAt s.codec.file s.codec.pos) = .error (.checksum c st) →
      ∃ t, step s = .next t ∧ t.ctl.todo = [] ∧ t.ctl.result = some (.error (.format (.checksum s.codec.pos c st)))))

/-! ## The codec's operations -/

/-- One step of `parse` runs the record at the cursor: when the line there passes its checks, the step is `exec` of the record
it decodes to, on the state with the record registers loaded, and then the cursor at the next line (R140, R141, R27). -/
def Obligations.ParseStepRunsTheDecodedRecord : Prop :=
  ∀ (s : State) (r : HexRecord) (rest : List Micro), s.running → s.wire.irq = none → s.ctl.todo = .records :: rest →
    s.codec.eofSeen = false → s.codec.pos < s.codec.file.length →
    decodeRecord (lineAt s.codec.file s.codec.pos) = .ok r →
    ∃ t, exec (Instr.ofRecord r) { s with codec := { s.codec with record := r } } = .next t ∧
      step s = .next { t with codec := { t.codec with pos := nextLinePos t.codec.file t.codec.pos } }

/-- The word of an opcode-table row, placed where the machine fetches, is run by the very next step: a command of the link
directly, a record as the line at the cursor of a `parse` (log 7 says what is placed). -/
def Obligations.PlacedWordRuns : Prop :=
  ∀ (s : State) (nbits w : Nat) (i : Instr), decodeTableWord nbits w = some i →
    (isLinkInstr i = true →
      step (s.withFetchWord nbits w) =
        exec i { s.withFetchWord nbits w with ctl := { (s.withFetchWord nbits w).ctl with todo := [.answer i] } }) ∧
    (isLinkInstr i = false →
      ∃ r t, Instr.ofRecord r = i ∧
        exec i { s.withFetchWord nbits w with codec := { (s.withFetchWord nbits w).codec with record := r } } = .next t ∧
        step (s.withFetchWord nbits w) =
          .next { t with codec := { t.codec with pos := nextLinePos t.codec.file t.codec.pos } })

/-- `parse` rejects: a file of fewer than 11 or more than 1048576 bytes before any line is read, a line that fails its checks
with the position of that line, a file that ends without an `EOF`; each leaves nothing of the codec operation and changes
nothing else (R170, R301, R28, R314). -/
def Obligations.ParseRejects : Prop :=
  ∀ (s : State) (rest : List Micro), s.running → s.wire.irq = none →
    (∀ file keep, s.ctl.todo = .parse file keep :: rest → (file.length < 11 ∨ 1048576 < file.length) →
      ∃ t, step s = .next t ∧ FormatExit (.format (.fileSize file.length)) s t) ∧
    (s.ctl.todo = .records :: rest → s.codec.eofSeen = false →
      (s.codec.file.length ≤ s.codec.pos → ∃ t, step s = .next t ∧ FormatExit (.format .noEof) s t) ∧
      (s.codec.pos < s.codec.file.length → ∀ e, decodeRecord (lineAt s.codec.file s.codec.pos) = .error e →
        ∃ t, step s = .next t ∧ FormatExit (.format (lineError s.codec.pos e)) s t))

/-- `parse` ends: from its first record on, at most as many steps as the file has bytes, and two, bring the operation to its
end with an image or an error (R157, R170). -/
def Obligations.ParseTerminates : Prop :=
  ∀ s : State, s.running → s.wire.irq = none → s.ctl.todo = [.records, .parsed] → s.codec.pos ≤ s.codec.file.length →
    ∃ n t, n ≤ s.codec.file.length + 2 ∧ run n s = .next t ∧ t.ctl.todo = [] ∧
      ((∃ img r, t.ctl.result = some (.image img r)) ∨ ∃ e, t.ctl.result = some (.error (.format e)))

/-- The round-trip law: serializing `N` bytes of an image and parsing the file gives an image equal to it below `N` and `0xFF`
elsewhere, with the range of its bytes other than `0xFF` (R181; the pad byte needs `N < IMG_CAP` when `N` is odd). -/
def Obligations.SerializeThenParse : Prop :=
  ∀ (s : State) (img : Image) (len : Nat), s.running → s.wire.irq = none → s.ctl.todo = [] →
    s.ctl.requests = [.serialize img len] → len ≤ img.size → len ≤ 65536 → len + len % 2 ≤ s.params.imgCap →
    ∃ n t file, run n s = .next t ∧ t.ctl.todo = [] ∧ t.ctl.result = some (.file file) ∧
      ∀ u : State, u.running → u.wire.irq = none → u.ctl.todo = [] → u.ctl.requests = [.parse file] →
        u.params = s.params →
        ∃ m v out range, run m u = .next v ∧ v.ctl.todo = [] ∧ v.ctl.result = some (.image out range) ∧
          out.size = s.params.imgCap ∧ (∀ a, out.get a = if a < len then img.get a else 0xFF) ∧
          (range = none ↔ ∀ a, a < len → img.get a = 0xFF) ∧
          (∀ lo hi, range = some ⟨lo, hi⟩ →
            lo < len ∧ hi < len ∧ img.get lo ≠ 0xFF ∧ img.get hi ≠ 0xFF ∧
            ∀ a, a < len → img.get a ≠ 0xFF → lo ≤ a ∧ a ≤ hi)

/-- One line of `serialize`: nothing for a chunk of `0xFF` only, else one line and `CR LF` that decodes to a `DATA` record at
`16 * k` with an even count of at most 16 bytes, which are the chunk's bytes up to its last byte other than `0xFF`, one more
to make them even (R172, R173, R107). -/
def Obligations.ChunkLineForm : Prop :=
  ∀ (p : Params) (img : Image) (len k : Nat), len ≤ 65536 → 16 * k < len →
    ((∀ a, 16 * k ≤ a → a < min (16 * k + 16) len → img.get a = 0xFF) → chunkLine img.get len k = []) ∧
    (∀ last, 16 * k + last < len → last < 16 → img.get (16 * k + last) ≠ 0xFF →
      (∀ j, last < j → j < 16 → 16 * k + j < len → img.get (16 * k + j) = 0xFF) →
      ∃ l dd, chunkLine img.get len k = l ++ [0x0D, 0x0A] ∧
        decode p .hexLine 1 l = .ok (.data (BitVec.ofNat 16 (16 * k)) dd) ∧
        dd.length = (last + 2) / 2 * 2 ∧ dd.length ≤ 16 ∧
        ∀ j, j < dd.length → dd.getD j 0 = if 16 * k + j < len then img.get (16 * k + j) else 0xFF)

/-- `serialize` ends with the terminator line whatever it wrote before, and is refused beyond 65536 bytes or beyond the image
(R171, R174). -/
def Obligations.SerializeEndsAndRefuses : Prop :=
  ∀ s : State, s.running →
    (∀ rest, s.ctl.todo = .chunks :: rest → s.wire.irq = none → chunkCount s.codec.length ≤ s.codec.k →
      ∃ t, step s = .next t ∧ t.ctl.todo = [] ∧
        t.ctl.result = some (.file (s.codec.out ++
          [0x3A, 0x30, 0x30, 0x30, 0x30, 0x30, 0x30, 0x30, 0x31, 0x46, 0x46, 0x0D, 0x0A]))) ∧
    (∀ img len rs, s.ctl.todo = [] → s.ctl.requests = .serialize img len :: rs → (img.size < len ∨ 65536 < len) →
      step s = .refused .serializeLength)

/-- The scanner of `txt2hex`: two hexadecimal characters, of either case, are the byte they spell; a prefix `0x` or `0X` and
any character that is neither hexadecimal nor part of one are passed over; a hexadecimal character that is not followed by
another one is a lone nibble, unless it begins a prefix. The step of `txt2hex`: a lone nibble is `FormatError(LoneNibble)`
with its index; bytes that were found stand in IMG from address 0, `0xFF` elsewhere, and `serialize` of them starts; more than
65536 bytes, or more than IMG holds, are refused (R175, R102, R22, R60, R171, R301, R314; log 34 for IMG's size). -/
def Obligations.ScannerFindsHexPairs : Prop :=
  (∀ (i : Nat) (c d : Byte) (h l : Nat) (text : List Byte), hexVal c = some h → hexVal d = some l →
    scanText i (c :: d :: text) = (scanText (i + 2) text).map (fun bs => BitVec.ofNat 8 (16 * h + l) :: bs)) ∧
  (∀ (i : Nat) (text : List Byte), scanText i [] = .ok [] ∧ scanText i ([0x30, 0x78] ++ text) = scanText (i + 2) text ∧
    scanText i ([0x30, 0x58] ++ text) = scanText (i + 2) text) ∧
  (∀ (i : Nat) (c : Byte) (text : List Byte), hexVal c = none → scanText i (c :: text) = scanText (i + 1) text) ∧
  (∀ (i : Nat) (c : Byte), (hexVal c).isSome = true → scanText i [c] = .error i) ∧
  (∀ (i : Nat) (c d : Byte) (text : List Byte), (hexVal c).isSome = true → hexVal d = none →
    ¬ (c = 0x30 ∧ (d = 0x78 ∨ d = 0x58)) → scanText i (c :: d :: text) = .error i) ∧
  (∀ (s : State) (text : List Byte) (rs : List Request), s.running → s.ctl.todo = [] →
    s.ctl.requests = .txt2hex text :: rs →
    (∀ i, scanText 0 text = .error i →
      ∃ t, step s = .next t ∧ FormatExit (.format (.loneNibble i)) { s with ctl := { s.ctl with requests := rs } } t) ∧
    (∀ bs, scanText 0 text = .ok bs →
      (bs.length ≤ 65536 → bs.length ≤ s.params.imgCap →
        ∃ t, step s = .next t ∧ t.ctl.todo = [.chunks] ∧ t.ctl.requests = rs ∧ t.codec.length = bs.length ∧
          t.codec.k = 0 ∧ t.codec.out = [] ∧ t.codec.range = none ∧
          (∀ a, t.codec.imgByte a = bs.getD a 0xFF ∧ t.codec.image.get a = bs.getD a 0xFF) ∧
          t.session = s.session ∧ t.nvm = s.nvm ∧ t.target = s.target ∧ t.wire = s.wire ∧ t.params = s.params) ∧
      ((65536 < bs.length ∨ s.params.imgCap < bs.length) → step s = .refused .serializeLength)))

/-- `merge`: it begins as the parse of its first file, the second file after it; after its first file the range is captured
and the second file is parsed into the same IMG, its range, offset and `eofSeen` from the start again; at the end ranges that
intersect are `OverlapError` with both ranges, any others give the shared image with the union of the ranges (R179, R180,
R302). -/
def Obligations.MergeComparesRanges : Prop :=
  ∀ (s : State) (rest : List Micro), s.running →
    (∀ a b rs, s.ctl.todo = [] → s.ctl.requests = .merge a b :: rs →
      step s = .next { s with ctl :=
        { s.ctl with requests := rs, result := none, todo := [.parse a false, .mergeSecond b, .mergeEnd] } }) ∧
    (∀ b, s.ctl.todo = .mergeSecond b :: rest →
      step s = .next { s with
        codec := { s.codec with rangeA := s.codec.range }
        ctl := { s.ctl with todo := .parse b true :: rest } }) ∧
    (∀ file, s.ctl.todo = .parse file true :: rest → 11 ≤ file.length → file.length ≤ 1048576 →
      ∃ t, step s = .next t ∧ t.ctl.todo = .records :: rest ∧
        t.codec = { Codec.fresh with
          img := s.codec.img, rangeA := s.codec.rangeA, file := file, pos := skipTerminators file 0 }) ∧
    (s.ctl.todo = .mergeEnd :: rest →
      (∀ a b : Range, s.codec.rangeA = some a → s.codec.range = some b → a.low ≤ a.high → b.low ≤ b.high →
        (a.low ≤ b.high ∧ b.low ≤ a.high → ∃ t, step s = .next t ∧ FormatExit (.overlap a b) s t) ∧
        (¬ (a.low ≤ b.high ∧ b.low ≤ a.high) →
          ∃ t, step s = .next t ∧ t.ctl.todo = [] ∧ t.ctl.result =
            some (.image ⟨s.params.imgCap, s.codec.img⟩ (some ⟨min a.low b.low, max a.high b.high⟩)))) ∧
      (s.codec.rangeA = none → ∃ t, step s = .next t ∧ t.ctl.todo = [] ∧
        t.ctl.result = some (.image ⟨s.params.imgCap, s.codec.img⟩ s.codec.range)) ∧
      (s.codec.range = none → ∃ t, step s = .next t ∧ t.ctl.todo = [] ∧
        t.ctl.result = some (.image ⟨s.params.imgCap, s.codec.img⟩ s.codec.rangeA)))

/-- `hex2c` and `hex2bin` begin as the parse of their file, the window after it. The window: from the even address at or below
the least to the odd address at or above the greatest, every byte of the image in between in ascending order; refused on an
empty range (R176, R177, R178). -/
def Obligations.WindowIsWordAligned : Prop :=
  (∀ (s : State) (file : List Byte) (rs : List Request), s.running → s.ctl.todo = [] →
    (s.ctl.requests = .hex2c file :: rs →
      step s = .next { s with ctl :=
        { s.ctl with requests := rs, result := none, todo := [.parse file false, .window true] } }) ∧
    (s.ctl.requests = .hex2bin file :: rs →
      step s = .next { s with ctl :=
        { s.ctl with requests := rs, result := none, todo := [.parse file false, .window false] } })) ∧
  ∀ (s : State) (asC : Bool) (rest : List Micro), s.running → s.ctl.todo = .window asC :: rest →
    (s.codec.range = none → step s = .refused .emptyRange) ∧
    (∀ lo hi, s.codec.range = some ⟨lo, hi⟩ → lo ≤ hi →
      ∃ t a b bs, step s = .next t ∧ t.ctl.todo = [] ∧
        t.ctl.result = some (if asC then .window a b bs else .dump bs) ∧
        a % 2 = 0 ∧ b % 2 = 1 ∧ a ≤ lo ∧ lo ≤ a + 1 ∧ hi ≤ b ∧ b ≤ hi + 1 ∧ bs.length = b - a + 1 ∧
        ∀ j, j < bs.length → bs.getD j 0 = s.codec.imgByte (a + j))

/-! ## Frames, on a link that is up, whose answers all come

Each conclusion gives the whole next state: `State.replied` changes the target, the wire and the response, nothing else. The
bytes sent are the instruction's encoding. -/

/-- A step with an instruction of the link next is `exec` of that instruction on the state whose operation is what stands
after it: the micro-operation holds the instruction itself (R82, R140 does the same for records). -/
def Obligations.StepRunsTheNextCommand : Prop :=
  ∀ (s : State) (i : Instr) (rest : List Micro), s.running → s.ctl.todo = .cmd i :: rest →
    step s = exec i { s with ctl := { s.ctl with todo := rest } }

/-- `LDCS` completes: two bytes out, one byte back, which is its value, whatever it is; a target keeping its contract answers
its register, and for the system status a byte whose lock bit and programming-mode bit are the chip's; the target loses only a
pending repeat (R206, R114, R41, R46, R290; R354 and log 19 for the repeat counter, log 37 for two roles with one index and two
flags at one bit, log 38 for a register that is write only, and for the bits of the system status without a flag). -/
def Obligations.LdcsReads : Prop :=
  ∀ (r : Nat) (s : State) (es : List Answer) (a : Answer) (rest : List Answer) (v : Byte), Ready s → r ≤ 15 →
    List.Forall₂ Echoes es (encode s.params (.ldcs r)) → Delivers a [s.target.csRead s.params s.wire.draws r] [v] →
    s.wire.script = es ++ a :: rest →
    exec (.ldcs r) s =
      .next (s.replied (encode s.params (.ldcs r)) rest 1 { s.target with rep := 0 } [v]) ∧
    (a = .obey →
      (r ≠ s.params.csSysStatus → v = s.target.csGet r) ∧
      (r = s.params.csSysStatus → ShowsSysStatus s.params s.target v))

/-- `STCS` completes: three bytes out, no response; the target's register holds the value, and of the target nothing else has
changed but a pending repeat, except: the assert value in the reset-request register makes the reset held; the system control
register commits the user row when the final bit is set and the user-row key was accepted, each byte of the row becoming the
page buffer's. Any other value in the reset-request register, and the release value with no reset held, leave the reset as it
was. The release of a held reset, which this one leaves out, is ResetReleaseAppliesTheKeys (R207, R64, R75, R244, R248; log 12
for the values of the reset request that change nothing, log 18 for the row, log 19 for the repeat, log 32 for a row that
reaches past 0xFFFF, log 37 for two roles with one index, log 38 for a register that is read only, log 39 for the bit UPDIDIS,
log 40 for the accepted keys after a store to the key status). -/
def Obligations.StcsWrites : Prop :=
  ∀ (r : Nat) (v : Byte) (s : State) (es rest : List Answer), Ready s → r ≤ 15 →
    List.Forall₂ Echoes es (encode s.params (.stcs r v)) → s.wire.script = es ++ rest →
    ∃ t, exec (.stcs r v) s = .next (s.replied (encode s.params (.stcs r v)) rest 1 t []) ∧
      (¬ (r = s.params.csResetReq ∧ v = s.params.resetRelease ∧ v ≠ s.params.resetAssert ∧ s.target.resetHeld = true) →
        t.csGet r = v ∧ (∀ x, x ≠ r → t.csGet x = s.target.csGet x) ∧
        t = { s.target with rep := 0, cs := t.cs, mem := t.mem, resetHeld := t.resetHeld } ∧
        t.resetHeld = (s.target.resetHeld || decide (r = s.params.csResetReq ∧ v = s.params.resetAssert)) ∧
        (∀ x, t.memByte x =
          if r = s.params.csSysCtrlA ∧ r ≠ s.params.csResetReq ∧ bitSet v s.params.urowFinal = true ∧
              s.target.keyRow = true ∧ s.session.profile.userrow ≤ x ∧ x < s.session.profile.userrow + s.params.urowLen then
            s.target.bufByte x
          else s.target.memByte x))

/-- `LDS.b` and `LDS.w` complete: four bytes out, one or two bytes back, low byte first; a target keeping its contract answers
what it holds at the address: the byte of its memory, outside the NVM or inside it on an unlocked chip in programming mode,
the flags of the NVM status register, the other registers of the controller; the load writes no memory, and of the target
nothing else changes but a pending repeat and, when one of the bytes is the NVM status register, the polls for which the busy
flags still read 1. As raw commands they hand their caller the byte, and the word whose value is the first byte plus 256 times
the second (R208, R214, R113, R290, R48, R292; log 14 for the polls, logs 16, 17, 35, 36, 37 for what is answered, log 19 for
the repeat, log 20 for an address above 0xFFFF, log 33 for an odd address). -/
def Obligations.DirectLoadsRead : Prop :=
  ∀ (addr : Word) (s : State) (es : List Answer) (a : Answer) (rest : List Answer), Ready s →
    let status := dataAddr (s.session.profile.nvmctrl + s.params.nvmStatus)
    (∀ v : Byte, List.Forall₂ Echoes es (encode s.params (.ldsb addr)) →
      Delivers a (s.target.loadBytes s.params s.session.profile s.wire.draws addr 1) [v] → s.wire.script = es ++ a :: rest →
      exec (.ldsb addr) s =
        .next (s.replied (encode s.params (.ldsb addr)) rest 1
          { s.target with
            rep := 0
            flashBusy := if addr = status then s.target.flashBusy - 1 else s.target.flashBusy
            eepromBusy := if addr = status then s.target.eepromBusy - 1 else s.target.eepromBusy } [v]) ∧
      (a = .obey → AnswersLoad s.params s.session.profile s.target addr v)) ∧
    (∀ lo hi : Byte, List.Forall₂ Echoes es (encode s.params (.ldsw addr)) →
      Delivers a (s.target.loadBytes s.params s.session.profile s.wire.draws addr 2) [lo, hi] → s.wire.script = es ++ a :: rest →
      exec (.ldsw addr) s =
        .next (s.replied (encode s.params (.ldsw addr)) rest 1
          { s.target with
            rep := 0
            flashBusy := if addr = status ∨ addr + 1 = status then s.target.flashBusy - 1 else s.target.flashBusy
            eepromBusy := if addr = status ∨ addr + 1 = status then s.target.eepromBusy - 1 else s.target.eepromBusy }
          [lo, hi]) ∧
      (a = .obey → AnswersLoad s.params s.session.profile s.target addr lo ∧
        AnswersLoad s.params s.session.profile s.target (addr + 1) hi)) ∧
    (∀ (u : State) (more : List Micro) (lo hi : Byte), u.running →
      (u.ctl.todo = .answer (.ldsb addr) :: more → u.wire.resp = [lo] →
        step u = .next { u with ctl := { u.ctl with todo := [], result := some (.byte lo) } }) ∧
      (u.ctl.todo = .answer (.ldsw addr) :: more → u.wire.resp = [lo, hi] →
        ∃ w, step u = .next { u with ctl := { u.ctl with todo := [], result := some (.word w) } } ∧
          w.toNat = lo.toNat + 256 * hi.toNat))

/-- `STS.b` and `STS.w` complete: the address phase and its `ACK`, the data phase, low byte first, and its one `ACK`; the
target takes the bytes at the address and the one after it, and a pending repeat is cleared (R209, R210, R113, R68; log 19 for
the repeat, log 20 for the wrap of the second address and a register's address above 0xFFFF, log 33 for an odd address, logs
35, 36, 38 for where a byte goes). -/
def Obligations.DirectStoresWrite : Prop :=
  ∀ (addr : Word) (s : State) (as rest : List Answer), Ready s → s.wire.script = as →
    (∀ v : Byte, Acked (phases s (.stsb addr v)) as rest →
      exec (.stsb addr v) s =
        .next (s.replied (encode s.params (.stsb addr v)) rest 2
          ({ s.target with rep := 0 }.store s.params s.session.profile (s.wire.draws + 1) addr v) [])) ∧
    (∀ w : Word, Acked (phases s (.stsw addr w)) as rest →
      exec (.stsw addr w) s =
        .next (s.replied (encode s.params (.stsw addr w)) rest 2
          (({ s.target with rep := 0 }.store s.params s.session.profile (s.wire.draws + 1) addr (lo8 w)).store s.params
            s.session.profile (s.wire.draws + 1) (addr + 1) (hi8 w)) []))

/-- `ST.ptr` completes: four bytes out, one `ACK`; the target's pointer holds the address, and a pending repeat is cleared
(R211, R50; log 19 for the repeat). -/
def Obligations.SetPointerWrites : Prop :=
  ∀ (addr : Word) (s : State) (as rest : List Answer), Ready s → s.wire.script = as →
    Acked (phases s (.stPtr addr)) as rest →
    exec (.stPtr addr) s =
      .next (s.replied (encode s.params (.stPtr addr)) rest 1 { s.target with ptr := addr, rep := 0 } [])

/-- `LD.b` and `LD.w` with the count of the repeat in force complete: two bytes out, that many units back in ascending order;
a target keeping its contract answers what it holds from its pointer up; the pointer passes them and the repeat is used up; no
memory changes, and of the target nothing else does but, when one of the bytes is the NVM status register, the polls for which
the busy flags still read 1 (R212, R217, R50, R51, R290, R292; log 14 for the polls, logs 16, 17, 35, 36, 37 for what is
answered, log 20 for the wrap of the pointer, log 33 for an odd address). -/
def Obligations.BurstLoadsRead : Prop :=
  ∀ (n : Nat) (s : State) (es : List Answer) (a : Answer) (rest : List Answer) (got : List Byte), Ready s →
    n = s.target.rep.toNat + 1 →
    let status := dataAddr (s.session.profile.nvmctrl + s.params.nvmStatus)
    let passed := fun k =>
      { s.target with
        ptr := s.target.ptr + BitVec.ofNat 16 k
        rep := 0
        flashBusy := if ∃ j, j < k ∧ s.target.ptr + BitVec.ofNat 16 j = status then s.target.flashBusy - 1
          else s.target.flashBusy
        eepromBusy := if ∃ j, j < k ∧ s.target.ptr + BitVec.ofNat 16 j = status then s.target.eepromBusy - 1
          else s.target.eepromBusy }
    let answered := fun bs : List Byte => a = .obey → ∀ j, j < bs.length →
      AnswersLoad s.params s.session.profile s.target (s.target.ptr + BitVec.ofNat 16 j) (bs.getD j 0)
    (List.Forall₂ Echoes es (encode s.params (.ldb n)) →
      Delivers a (s.target.loadBytes s.params s.session.profile s.wire.draws s.target.ptr n) got → got.length = n →
      s.wire.script = es ++ a :: rest →
      exec (.ldb n) s = .next (s.replied (encode s.params (.ldb n)) rest 1 (passed n) got) ∧ answered got) ∧
    (List.Forall₂ Echoes es (encode s.params (.ldw n)) →
      Delivers a (s.target.loadBytes s.params s.session.profile s.wire.draws s.target.ptr (2 * n)) got →
      got.length = 2 * n → s.wire.script = es ++ a :: rest →
      exec (.ldw n) s = .next (s.replied (encode s.params (.ldw n)) rest 1 (passed (2 * n)) got) ∧ answered got)

/-- `ST.b` and `ST.w` with as many units as the repeat in force complete: the instruction byte with the first unit, one `ACK`
after each unit; the target takes the units one after another at its pointer, and the repeat is used up (R213, R218; log 20 for
the wrap of the pointer, log 33 for an odd address, logs 35, 36, 38 for where a byte goes). -/
def Obligations.BurstStoresWrite : Prop :=
  ∀ (d : List Byte) (s : State) (as rest : List Answer), Ready s → s.wire.script = as →
    (d.length = s.target.rep.toNat + 1 → Acked (phases s (.stb d)) as rest →
      exec (.stb d) s =
        .next (s.replied (encode s.params (.stb d)) rest d.length
          { s.target.afterUnits s.params s.session.profile s.wire.draws (byteUnits d) with rep := 0 } [])) ∧
    (d.length = 2 * (s.target.rep.toNat + 1) → Acked (phases s (.stw d)) as rest →
      exec (.stw d) s =
        .next (s.replied (encode s.params (.stw d)) rest (s.target.rep.toNat + 1)
          { s.target.afterUnits s.params s.session.profile s.wire.draws (wordUnits d) with rep := 0 } []))

/-- `REPEAT` completes for every count from 1 to 256: three bytes out, the last one the count less one, which is the target's
repeat counter; no response (R215, R115, R51). -/
def Obligations.RepeatSetsTheCounter : Prop :=
  ∀ (n : Nat) (s : State) (es rest : List Answer), Ready s → 1 ≤ n → n ≤ 256 →
    List.Forall₂ Echoes es [0x55, s.params.opc.rep, BitVec.ofNat 8 (n - 1)] → s.wire.script = es ++ rest →
    exec (.rep n) s =
      .next (s.replied [0x55, s.params.opc.rep, BitVec.ofNat 8 (n - 1)] rest 1
        { s.target with rep := BitVec.ofNat 8 (n - 1) } [])

/-- `KEY` completes for every key of 8 bytes: its bytes out in reverse, no response; a key the target knows is accepted and its
status bit reads 1, the other accepted keys and the other bits of the key status being as before; any other key changes nothing
but a pending repeat (R216, R116, R44, R39; log 19 for the repeat, log 37 for two keys with one string). -/
def Obligations.KeySendsReversed : Prop :=
  ∀ (k : List Byte) (s : State) (es rest : List Answer), Ready s → s.params.legal = true → k.length = 8 →
    List.Forall₂ Echoes es (0x55 :: s.params.opc.key :: k.reverse) → s.wire.script = es ++ rest →
    ∃ t, exec (.key k) s = .next (s.replied (0x55 :: s.params.opc.key :: k.reverse) rest 1 t []) ∧
      (∀ x, x ≠ s.params.csKeyStatus → t.csGet x = s.target.csGet x) ∧
      let shown := fun bit => ∀ b, bitSet (t.csGet s.params.csKeyStatus) b =
        if b = bit then true else bitSet (s.target.csGet s.params.csKeyStatus) b
      (k = s.params.keyChipErase → shown s.params.ksChipErase ∧ t = { s.target with rep := 0, cs := t.cs, keyErase := true }) ∧
      (k = s.params.keyNvmProg → k ≠ s.params.keyChipErase →
        shown s.params.ksNvmProg ∧ t = { s.target with rep := 0, cs := t.cs, keyProg := true }) ∧
      (k = s.params.keyUrow → k ≠ s.params.keyChipErase → k ≠ s.params.keyNvmProg →
        shown s.params.ksUrowWrite ∧ t = { s.target with rep := 0, cs := t.cs, keyRow := true }) ∧
      (k ∉ [s.params.keyChipErase, s.params.keyNvmProg, s.params.keyUrow] → t = { s.target with rep := 0 })

/-- `BREAK` completes: one byte `0x00` out, its echo checked, no response; pointer, repeat counter and control/status
registers of the target are free afterwards, the rest of it is as before (R204, R110; log 11 for the target). -/
def Obligations.BreakSendsOneByte : Prop :=
  ∀ (s : State) (a : Answer) (rest : List Answer), Ready s → Echoes a 0x00 → s.wire.script = a :: rest →
    ∃ t, exec .brk s = .next (s.replied [0x00] rest 1 t []) ∧
      t = { s.target with ptr := t.ptr, rep := t.rep, cs := t.cs }

/-- The double break completes: two bytes `0x00` at 300 baud with 1 stop bit, whatever comes back of their echoes, two bytes,
fewer, none or an error, the previous rate and 2 stop bits afterwards. A short write is `TransportError(ShortWrite)`, fatal
(R205, R203, R201, R303; log 11 for the target, log 29 for the line after a short write). -/
def Obligations.DoubleBreakSendsAtTheSlowRate : Prop :=
  ∀ (s : State) (as rest : List Answer), Ready s →
    (∀ attempts, (as = [.obey] ∧ attempts = 1 ∨
        ∃ pieces, Receives s.params.recvAttempts 2 pieces as ∧ attempts = pieces.length) →
      s.wire.script = as ++ rest →
      ∃ t, exec .doubleBreak s = .next
          { s with
            session := { s.session with stopBits := 2 }
            target := t
            wire := { s.wire with
              sent := s.wire.sent ++ [⟨0x00, 300, 1⟩, ⟨0x00, 300, 1⟩]
              script := rest
              draws := s.wire.draws + 1
              resp := []
              recvAttempt := attempts } } ∧
        t = { s.target with ptr := t.ptr, rep := t.rep, cs := t.cs }) ∧
    (s.wire.script = .shortWrite :: rest →
      ∃ t, exec .doubleBreak s = .next t ∧ FatalExit (.transport .shortWrite) s t ∧ t.wire.sent = s.wire.sent ∧
        t.session.baud = 300 ∧ t.session.stopBits = 1)

/-! ## The NVM controller's commands -/

/-- `WRITE_PAGE` completes: one `STS.b` of its code to the command register; every byte of the page last addressed becomes the
AND of what it held and the page buffer, every other byte of the target's memory is as before; the page buffer, the busy
flags and the write-error flag are free afterwards. The command acts whatever the lock, the mode and the busy flags are, and a
pending repeat is cleared (R265, R273, R292, R350; logs 14, 19 for the last sentence, log 20 for a command register above
0xFFFF, log 36 for a page that reaches past its region or past 0xFFFF). -/
def Obligations.WritePageAndsTheBuffer : Prop :=
  ∀ (s : State) (as rest : List Answer), Ready s → s.wire.script = as → Acked (phases s .writePage) as rest →
    ∃ t, exec .writePage s =
        .next (s.replied (encode s.params (.stsb (commandAddr s) s.params.cmdWritePage)) rest 2 t []) ∧
      (∀ x, t.memByte x =
        if s.target.pageStart ≤ x ∧ x < s.target.pageStart + s.target.pageLen then s.target.memByte x &&& s.target.bufByte x
        else s.target.memByte x) ∧
      t = { s.target with
        mem := t.mem, buf := t.buf, bufBase := t.bufBase, flashBusy := t.flashBusy, eepromBusy := t.eepromBusy,
        writeError := t.writeError, ctrlA := s.params.cmdWritePage, rep := 0 }

/-- `ERASE_WRITE_PAGE` completes: every byte of the page last addressed becomes the page buffer's, every other byte of the
target's memory is as before. The command acts whatever the lock, the mode and the busy flags are, and a pending repeat is
cleared (R265, R274, R292; logs 14, 19 for the last sentence, log 20 for a command register above 0xFFFF, log 36 for a page
that reaches past its region or past 0xFFFF). -/
def Obligations.EraseWritePageReplacesThePage : Prop :=
  ∀ (s : State) (as rest : List Answer), Ready s → s.params.legal = true → s.wire.script = as →
    Acked (phases s .eraseWritePage) as rest →
    ∃ t, exec .eraseWritePage s =
        .next (s.replied (encode s.params (.stsb (commandAddr s) s.params.cmdEraseWritePage)) rest 2 t []) ∧
      (∀ x, t.memByte x =
        if s.target.pageStart ≤ x ∧ x < s.target.pageStart + s.target.pageLen then s.target.bufByte x
        else s.target.memByte x) ∧
      t = { s.target with
        mem := t.mem, buf := t.buf, bufBase := t.bufBase, flashBusy := t.flashBusy, eepromBusy := t.eepromBusy,
        writeError := t.writeError, ctrlA := s.params.cmdEraseWritePage, rep := 0 }

/-- `PAGE_BUFFER_CLR` completes: every byte of the page buffer is `0xFF`, the target's memory is as before. The command acts
whatever the lock, the mode and the busy flags are, and a pending repeat is cleared (R265, R275, R291; logs 14, 19 for the
last sentence, log 20 for a command register above 0xFFFF). -/
def Obligations.PageBufferClrFillsWithFF : Prop :=
  ∀ (s : State) (as rest : List Answer), Ready s → s.params.legal = true → s.wire.script = as →
    Acked (phases s .pageBufferClr) as rest →
    ∃ t, exec .pageBufferClr s =
        .next (s.replied (encode s.params (.stsb (commandAddr s) s.params.cmdPageBufferClr)) rest 2 t []) ∧
      (∀ x, t.bufByte x = 0xFF) ∧ (∀ x, t.memByte x = s.target.memByte x) ∧
      t = { s.target with
        buf := t.buf, bufBase := t.bufBase, flashBusy := t.flashBusy, eepromBusy := t.eepromBusy,
        writeError := t.writeError, ctrlA := s.params.cmdPageBufferClr, rep := 0 }

/-- `WRITE_FUSE` completes: the byte of the data register stands at the address in the two address registers, every other byte
of the target's memory and the page buffer are as before. The command acts whatever the lock, the mode and the busy flags are,
and a pending repeat is cleared (R265, R276, R292; logs 14, 19 for the last sentence, log 20 for a
command register above 0xFFFF). -/
def Obligations.WriteFuseWritesOneByte : Prop :=
  ∀ (s : State) (as rest : List Answer), Ready s → s.params.legal = true → s.wire.script = as →
    Acked (phases s .writeFuse) as rest →
    ∃ t, exec .writeFuse s =
        .next (s.replied (encode s.params (.stsb (commandAddr s) s.params.cmdWriteFuse)) rest 2 t []) ∧
      (∀ x, t.memByte x =
        if x = 256 * s.target.addrH.toNat + s.target.addrL.toNat then s.target.dataReg else s.target.memByte x) ∧
      t = { s.target with
        mem := t.mem, flashBusy := t.flashBusy, eepromBusy := t.eepromBusy, writeError := t.writeError,
        ctrlA := s.params.cmdWriteFuse, rep := 0 }

/-! ## What stores do to the target -/

/-- A byte stored to an NVM-mapped address lands in the page buffer, combined by AND with what the buffer holds there, and
makes its page the one last addressed; every other byte of the buffer and all of the target's memory are as before. A byte
stored to an address that is neither NVM-mapped nor one of the four registers of the controller that a store writes stands in
memory there. A byte stored to the data register or to one of the two address registers is what that register holds, and
nothing else changes. The fuses count as NVM-mapped here, and a pending repeat is cleared (R291, R75, R209, R49; logs 16, 19
for the last sentence, log 20 for a register above 0xFFFF, log 35 for blocks that overlap and two registers at one address,
log 36 for the tail of a region, log 38 for the status register). -/
def Obligations.StoresLandInThePageBuffer : Prop :=
  ∀ (addr : Word) (v : Byte) (s : State) (as rest : List Answer), Ready s → s.wire.script = as →
    Acked (phases s (.stsb addr v)) as rest →
    let reg := fun off => dataAddr (s.session.profile.nvmctrl + off)
    let stored := fun t => exec (.stsb addr v) s = .next (s.replied (encode s.params (.stsb addr v)) rest 2 t [])
    ((∀ off ∈ [s.params.nvmCtrlA, s.params.nvmData, s.params.nvmAddrL, s.params.nvmAddrH], addr ≠ reg off) →
      ∃ t, stored t ∧
        (∀ start len, nvmPage s.params s.session.profile addr.toNat = some (start, len) →
          (∀ x, t.bufByte x = if x = addr.toNat then s.target.bufByte x &&& v else s.target.bufByte x) ∧
          t = { s.target with buf := t.buf, pageStart := start, pageLen := len, rep := 0 }) ∧
        (nvmPage s.params s.session.profile addr.toNat = none →
          (∀ x, t.memByte x = if x = addr.toNat then v else s.target.memByte x) ∧
          t = { s.target with mem := t.mem, rep := 0 })) ∧
    (addr ≠ reg s.params.nvmCtrlA → addr = reg s.params.nvmData → stored { s.target with dataReg := v, rep := 0 }) ∧
    (addr ≠ reg s.params.nvmCtrlA → addr ≠ reg s.params.nvmData → addr = reg s.params.nvmAddrL →
      stored { s.target with addrL := v, rep := 0 }) ∧
    (addr ≠ reg s.params.nvmCtrlA → addr ≠ reg s.params.nvmData → addr ≠ reg s.params.nvmAddrL →
      addr = reg s.params.nvmAddrH → stored { s.target with addrH := v, rep := 0 })

/-- The page write on an obedient target: clear the buffer, set the pointer, set the repeat, store the units of one page,
`ERASE_WRITE_PAGE`: five steps after which the page in the target's memory is the data, whatever it and the buffer held
before, and every other byte of memory is as before. The commands act in every mode of the chip, the page may be the user row
or the block of fuses, and words may be stored from an odd address (R267, R274, R291, R292, R293; log 14 for the modes, log 16
for the fuses, log 20 for a register above 0xFFFF, log 33 for an odd address, logs 35, 36 for which page an address belongs
to). -/
def Obligations.PageWriteReplacesThePage : Prop :=
  ∀ (s : State) (kind : RegionKind) (start n : Nat) (page : List Byte) (rest : List Micro) (more : List Answer),
    Ready s → s.running → s.params.legal = true → page.length = n → start + n ≤ 65536 →
    n % unitBytes kind = 0 → 1 ≤ n → n / unitBytes kind ≤ 256 →
    (∀ j, j < n → nvmPage s.params s.session.profile (start + j) = some (start, n) ∧
      ∀ off ∈ [s.params.nvmCtrlA, s.params.nvmData, s.params.nvmAddrL, s.params.nvmAddrH],
        dataAddr (start + j) ≠ dataAddr (s.session.profile.nvmctrl + off)) →
    s.ctl.todo = [.cmd .pageBufferClr, .cmd (.stPtr (dataAddr start)), .cmd (.rep (n / unitBytes kind)),
      .cmd (burstStore ⟨kind, ⟨start, n, n⟩⟩ page), .cmd .eraseWritePage] ++ rest →
    s.wire.script = List.replicate 1024 .obey ++ more →
    ∃ t, run 5 s = .next t ∧ t.ctl.todo = rest ∧ t.session = s.session ∧
      ∀ x, t.target.memByte x = if start ≤ x ∧ x < start + n then page.getD (x - start) 0 else s.target.memByte x

/-- The reset toggle: releasing an asserted reset makes the keys take effect. The chip-erase key leaves every byte of flash and
EEPROM `0xFF` and the chip unlocked; programming mode follows the programming key on an unlocked chip; the keys are used up.
Without the chip-erase key no memory changes (R244, R292, R317, R290; log 12). -/
def Obligations.ResetReleaseAppliesTheKeys : Prop :=
  ∀ (s : State) (es rest : List Answer), Ready s → s.params.csResetReq ≤ 15 → s.params.resetRelease ≠ s.params.resetAssert →
    s.target.resetHeld = true →
    List.Forall₂ Echoes es (encode s.params (.stcs s.params.csResetReq s.params.resetRelease)) →
    s.wire.script = es ++ rest →
    ∃ t, exec (.stcs s.params.csResetReq s.params.resetRelease) s =
        .next (s.replied (encode s.params (.stcs s.params.csResetReq s.params.resetRelease)) rest 1 t []) ∧
      t.resetHeld = false ∧ t.keyErase = false ∧ t.keyProg = false ∧ t.keyRow = false ∧
      t.locked = (s.target.locked && !s.target.keyErase) ∧
      t.progMode = (s.target.keyProg && !t.locked) ∧
      (s.target.keyErase = false → ∀ x, t.memByte x = s.target.memByte x) ∧
      (s.target.keyErase = true → ∀ x, t.memByte x =
        if within s.session.profile.flash.start s.session.profile.flash.size x ||
            within s.session.profile.eeprom.start s.session.profile.eeprom.size x then 0xFF
        else s.target.memByte x)

/-- The stores of several bytes, clear of the controller's registers and of the end of the data space, a burst with as many
units as the repeat in force: each byte lands at its own address, every other byte of the target is as before, and the pointer
passes the bytes of a burst. The fuses count as NVM-mapped here, and a pending repeat is cleared (R210, R213, R218, R291, R68;
logs 16, 19 for the last sentence, log 20 for a register above 0xFFFF, log 33 for a word at an odd address, logs 35, 36, 38
for where a byte goes). -/
def Obligations.StoresTouchOnlyTheirBytes : Prop :=
  ∀ (s : State) (as rest : List Answer), Ready s → s.wire.script = as →
    (∀ (a : Word) (w : Word), Acked (phases s (.stsw a w)) as rest → ClearOfRegisters s.params s.session.profile a.toNat 2 →
      ∃ t, exec (.stsw a w) s = .next (s.replied (encode s.params (.stsw a w)) rest 2 t []) ∧
        Landed s.params s.session.profile a.toNat (wireWord w) { s.target with rep := 0 } t) ∧
    (∀ d : List Byte, ClearOfRegisters s.params s.session.profile s.target.ptr.toNat d.length →
      (d.length = s.target.rep.toNat + 1 → Acked (phases s (.stb d)) as rest →
        ∃ t, exec (.stb d) s = .next (s.replied (encode s.params (.stb d)) rest d.length t []) ∧
          Landed s.params s.session.profile s.target.ptr.toNat d
            { s.target with ptr := s.target.ptr + BitVec.ofNat 16 d.length, rep := 0 } t) ∧
      (d.length = 2 * (s.target.rep.toNat + 1) → Acked (phases s (.stw d)) as rest →
        ∃ t, exec (.stw d) s = .next (s.replied (encode s.params (.stw d)) rest (s.target.rep.toNat + 1) t []) ∧
          Landed s.params s.session.profile s.target.ptr.toNat d
            { s.target with ptr := s.target.ptr + BitVec.ofNat 16 d.length, rep := 0 } t))

/-! ## When an answer is wrong, when something interrupts, when a frame may not go out -/

/-- A wrong echo anywhere in any frame but the double break is fatal at once: the session is closed with the `TransportError`
of what came back, and the last byte on the wire is the one whose echo failed, or the one before it when its own write was
short (R200, R303, R310, R313; log 27 for the byte of a short write). -/
def Obligations.WrongEchoIsFatal : Prop :=
  ∀ (i : Instr) (s : State) (done more : List (List Byte)) (pre post : List Byte) (b : Byte) (bad rest : List Answer)
    (err : TransportError), Ready s → i.wf = true → i ≠ .doubleBreak →
    phases s i = done ++ (pre ++ b :: post) :: more → BadEcho s.params b bad err →
    s.wire.script = acked done ++ echoed pre ++ bad ++ rest →
    ∃ t, exec i s = .next t ∧ FatalExit (.transport err) s t ∧
      t.wire.sent = s.wire.sent ++ s.onWire (done.flatten ++ pre ++ if err = .shortWrite then [] else [b])

/-- A missing or wrong acknowledge after any phase of any store is fatal at once: `ProtocolError(MissingAck)`, and no later
phase is sent (R202, R304, R310, R313). -/
def Obligations.MissingAckIsFatal : Prop :=
  ∀ (i : Instr) (s : State) (done more : List (List Byte)) (phase : List Byte) (bad rest : List Answer), Ready s →
    i.wf = true → awaitsAck i = true → phases s i = done ++ phase :: more → BadAck s.params bad →
    s.wire.script = acked done ++ echoed phase ++ bad ++ rest →
    ∃ t, exec i s = .next t ∧ FatalExit (.protocol .missingAck) s t ∧
      t.wire.sent = s.wire.sent ++ s.onWire (done.flatten ++ phase)

/-- On a link that is up, with no interruption on its way: the response of a load comes in pieces, over as many attempts as
the bound of `recv` allows. When they stay shorter than the load asked, whether `rx` then reports an error or the attempts run
out, that is fatal: `TransportError(ShortRead)`, after the whole frame was sent. When they are as long, the load completes as
it does with the whole response in one attempt, all but the count of attempts. `send` and `recv` as operations, started in
`Synced`, `Unlocked` or `ProgMode`: `send` ends well once every byte has come back as its echo; `recv` raises nothing and
hands back what it got, whole or short (R200, R201, R202, R303, R313; log 27 for the transmit stream). -/
def Obligations.ShortReadIsFatal : Prop :=
  (∀ (i : Instr) (s : State) (pieces : List (List Byte)) (as rest : List Answer), Ready s → i.wf = true →
    Receives s.params.recvAttempts (responseLen i) pieces as →
    s.wire.script = echoed (encode s.params i) ++ (as ++ rest) →
    (pieces.flatten.length < responseLen i →
      ∃ t, exec i s = .next t ∧ FatalExit (.transport .shortRead) s t ∧
        t.wire.sent = s.wire.sent ++ s.onWire (encode s.params i) ∧ t.wire.script = rest) ∧
    (0 < responseLen i → pieces.flatten.length = responseLen i →
      ∃ t, exec i { s with wire :=
          { s.wire with script := echoed (encode s.params i) ++ .bytes pieces.flatten :: rest } } = .next t ∧
        t.wire.resp = pieces.flatten ∧ t.wire.script = rest ∧ t.session = s.session ∧
        exec i s = .next { t with wire := { t.wire with recvAttempt := pieces.length } })) ∧
  (∀ (s : State) (todo : List Micro), Ready s → s.running →
    (∀ bs es more, s.ctl.todo = .sendBytes bs :: todo → List.Forall₂ Echoes es bs → s.wire.script = es ++ more →
      step s = .next { s with
        ctl := { s.ctl with todo := todo }
        wire := { s.wire with
          sent := s.wire.sent ++ s.onWire bs
          script := more
          resp := []
          recvAttempt := if bs = [] then s.wire.recvAttempt else 1 } }) ∧
    (∀ n pieces as more, s.ctl.todo = .recvBytes n :: todo → Receives s.params.recvAttempts n pieces as →
      s.wire.script = as ++ more →
      step s = .next { s with
        ctl := { s.ctl with todo := todo }
        wire := { s.wire with script := more, resp := pieces.flatten, recvAttempt := pieces.length } })) ∧
  (∀ (s : State) (todo : List Micro), s.running →
    let ends := fun r => Host.Outcome.next { s with ctl := { s.ctl with todo := [], result := some r } }
    (∀ rs, s.ctl.todo = [] → s.session.failed = none →
      s.session.linkState = .synced ∨ s.session.linkState = .unlocked ∨ s.session.linkState = .progMode →
      let starts := fun ms => Host.Outcome.next
        { s with ctl := { s.ctl with requests := rs, result := none, todo := ms } }
      (∀ bs, s.ctl.requests = .send bs :: rs → step s = starts [.sendBytes bs, .ready]) ∧
      (∀ n, s.ctl.requests = .recv n :: rs → step s = starts [.recvBytes n, .received])) ∧
    (s.ctl.todo = .ready :: todo → step s = ends .ok) ∧
    (s.ctl.todo = .received :: todo → step s = ends (.bytes s.wire.resp)))

/-- Whatever the environment answers, an instruction of the link but the double break sends a part of its own bytes from their
start, in order, all of them when it does not end the session, and it never changes the parameters, the profile,
`chipEraseOk` or the requests; the codec only when the interruption has ended everything (R82, R202, R312, R313). -/
def Obligations.SendsOnlyItsBytes : Prop :=
  ∀ (i : Instr) (s t : State), isLinkInstr i = true → i ≠ .doubleBreak → exec i s = .next t →
    (∃ k, t.wire.sent = s.wire.sent ++ s.onWire ((phases s i).flatten.take k)) ∧
    (linkUp t.session = true → t.session = s.session ∧ t.ctl = s.ctl ∧ t.nvm = s.nvm ∧
      t.wire.sent = s.wire.sent ++ s.onWire (phases s i).flatten) ∧
    t.params = s.params ∧ t.session.profile = s.session.profile ∧ t.session.chipEraseOk = s.session.chipEraseOk ∧
    t.ctl.requests = s.ctl.requests ∧ (t.codec = s.codec ∨ t.ctl.halted = true)

/-- The external interruption: where it is due, at a step or before the first byte of a frame, the transport is released and
the session closed, the operation ends with no result, nothing is sent, and every later step stops; the step that takes it
answers a next state (log 5). And it may come between any two of PROG's own steps: every step of the machine is so many of
them, one at least, each moving to the next point of the frame and doing one thing at most on the wire, a byte sent or a
receive attempt made, which uses one answer of the environment at most and moves the cursor of attempts by one at most; and an
interruption that is due at such a point leaves what the frame has done until then (R20, R312, R249; log 5 for the step that
takes it and the later ones, log 8 for the points of a step). -/
def Obligations.InterruptionEndsEverything : Prop :=
  (∀ s : State, s.wire.irq = some 0 →
    (s.ctl.halted = false →
      ∃ t, step s = .next t ∧ t.session.linkState = .closed ∧ t.session.transportOpen = false ∧
        t.session.failed = s.session.failed ∧ t.ctl.todo = [] ∧ t.ctl.result = none ∧ t.codec = Codec.fresh ∧
        t.wire.sent = s.wire.sent ∧ step t = .fault .halted) ∧
    (∀ i, isLinkInstr i = true → i.wf = true → linkUp s.session = true →
      ∃ t, exec i s = .next t ∧ t.session.linkState = .closed ∧ t.session.transportOpen = false ∧ t.ctl.todo = [] ∧
        t.ctl.result = none ∧ t.wire.sent = s.wire.sent ∧ step t = .fault .halted)) ∧
  (∀ s t : State, s.running → s.wire.irq = none → step s = .next t →
    let oneMore := fun u v : State => ∃ (b : List TxByte) (a : List Answer), b.length + a.length ≤ 1 ∧
      v.wire.sent = u.wire.sent ++ b ∧ u.wire.script = a ++ v.wire.script ∧ v.wire.recvAttempt ≤ u.wire.recvAttempt + 1
    ∃ n, 1 ≤ n ∧ progRun n ⟨s, 0⟩ = .next ⟨t, 0⟩ ∧ oneMore (Prog.state ⟨s, n - 1⟩) t ∧
      ∀ k, k < n →
        progRun k ⟨s, 0⟩ = .next ⟨s, k⟩ ∧
        step { s with wire := { s.wire with irq := some k } } = .next (interrupt (Prog.state ⟨s, k⟩)) ∧
        (k + 1 < n → oneMore (Prog.state ⟨s, k⟩) (Prog.state ⟨s, k + 1⟩)))

/-- What is refused: a frame in a link state that does not permit it, and the operands the spec refuses, by name (R306, R316,
R114, R115, R216, R218). -/
def Obligations.LinkRefusals : Prop :=
  (∀ (i : Instr) (s : State), isLinkInstr i = true → i.wf = true → linkUp s.session = false →
    exec i s = .refused .linkState) ∧
  (∀ (r : Nat) (v : Byte) (s : State), 15 < r →
    exec (.ldcs r) s = .refused .registerIndex ∧ exec (.stcs r v) s = .refused .registerIndex) ∧
  (∀ (n : Nat) (s : State), (n = 0 ∨ 256 < n) →
    exec (.rep n) s = .refused .repeatCount ∧ exec (.ldb n) s = .refused .repeatCount ∧
      exec (.ldw n) s = .refused .repeatCount) ∧
  (∀ (d : List Byte) (s : State),
    ((d = [] ∨ 256 < d.length) → exec (.stb d) s = .refused .repeatCount) ∧
    (d.length % 2 = 1 → exec (.stw d) s = .refused .oddData) ∧
    (d.length % 2 = 0 → (d = [] ∨ 512 < d.length) → exec (.stw d) s = .refused .repeatCount) ∧
    (d.length ≠ 8 → exec (.key d) s = .refused .keyLength))

/-! ## The session -/

/-- Which operation which link state permits: an operation the table of R316 does not mark is refused, and one it marks is not
refused for the link state. The raw commands of the table take in the double break, which R242 and R29 give to the recovery of
`init`, and the four commands of the NVM controller, which R273 to R276 give to `write` and `fuse_write` (R316, R306, R31; log
31 for the last sentence, log 26 for `close` in Closed). -/
def Obligations.HostPermissions : Prop :=
  ∀ (s : State) (r : Request) (rs : List Request) (ok : Bool), s.running → s.sessionOk = true → s.ctl.todo = [] →
    s.ctl.requests = r :: rs → (∀ i, r = .command i → isLinkInstr i = true) → permits r s.session.linkState = some ok →
    (ok = false → step s = .refused .linkState) ∧ (ok = true → step s ≠ .refused .linkState)

/-- A poll is bounded and stops at the first value it wants: reads that all miss end it after exactly its number of attempts
with the failure of its operation, fatal for `unlock_erase` and `userrow_write`, a mere signal for `enter_progmode`; a read
that hits within the bound lets the operation go on (R250, R320, R245, R246, R248). -/
def Obligations.PollIsBounded : Prop :=
  ∀ (s : State) (q : Poll) (rest : List Micro) (misses : List Byte) (more : List Answer), Ready s → s.running →
    q.reg ≤ 15 → s.ctl.todo = .poll q :: rest → (∀ v ∈ misses, bitSet v q.bit ≠ q.want) →
    let frame := encode s.params (.ldcs q.reg)
    (misses.length = q.attempts → s.wire.script = pollAnswers frame misses ++ more →
      ∃ t, run (1 + 2 * misses.length) s = .next t ∧
        t.wire.sent = s.wire.sent ++ s.onWire (List.replicate misses.length frame).flatten ∧
        (q.onTimeout = .unlockTimeout → FatalExit (.protocol .unlockTimeout) s t) ∧
        (q.onTimeout = .urowTimeout → FatalExit (.protocol .urowTimeout) s t) ∧
        (q.onTimeout = .lockedTimeout →
          t.ctl.todo = [] ∧ t.ctl.result = some (.failure .lockedTimeout) ∧ t.session = s.session)) ∧
    (∀ hit : Byte, misses.length < q.attempts → bitSet hit q.bit = q.want →
      s.wire.script = pollAnswers frame (misses ++ [hit]) ++ more →
      ∃ t, run (1 + 2 * (misses.length + 1)) s = .next t ∧ t.ctl.todo = rest ∧ t.session = s.session ∧
        t.wire.sent = s.wire.sent ++ s.onWire (List.replicate (misses.length + 1) frame).flatten)

/-- `init`: a first status that is not zero makes the session `Synced` after one handshake; a zero brings exactly one double
break and one more handshake, whose status decides: not zero is `Synced`, zero is `ProtocolError(InitFailed)` and the session
is closed; the rounds are counted from 0 (R241, R242, R205, R304, R320). -/
def Obligations.InitHandshake : Prop :=
  ∀ (s : State) (v x y w : Byte) (rs : List Request) (more : List Answer), s.running → s.wire.irq = none →
    1 ≤ s.params.recvAttempts → s.params.legal = true → s.ctl.todo = [] → s.ctl.requests = .initLink :: rs →
    s.session.linkState = .cold → s.session.failed = none → s.session.stopBits = 2 →
    let round := handshakeBytes s.params
    (v ≠ 0 → s.wire.script = echoed round ++ .bytes [v] :: more →
      ∃ t, run 6 s = .next t ∧ t.session = { s.session with linkState := .synced } ∧ t.ctl.result = some .ok ∧
        t.ctl.todo = [] ∧ t.ctl.initRound = 1 ∧ t.wire.sent = s.wire.sent ++ s.onWire round) ∧
    (s.wire.script = echoed round ++ .bytes [0] :: .bytes [x, y] :: (echoed round ++ .bytes [w] :: more) →
      ∃ t, run 12 s = .next t ∧ t.ctl.todo = [] ∧ t.ctl.initRound = 2 ∧
        t.wire.sent = s.wire.sent ++ s.onWire round ++ [⟨0x00, 300, 1⟩, ⟨0x00, 300, 1⟩] ++ s.onWire round ∧
        (w ≠ 0 → t.session = { s.session with linkState := .synced } ∧ t.ctl.result = some .ok) ∧
        (w = 0 → t.session.linkState = .closed ∧ t.session.failed = some (.protocol .initFailed) ∧
          t.session.transportOpen = false ∧ t.ctl.result = some (.error (.protocol .initFailed))))

/-- `chipEraseOk` becomes true in no way but the return of `unlock_erase`, and that return stands only in an operation that
`unlock_erase` began. The operations of the session, each by its micro-operations: what `unlock_erase`, `enter_progmode`,
`leave_progmode` and `userrow_write` send and test, in order; the return of `unlock_erase` sets `chipEraseOk` and `Unlocked`;
a key whose status bit reads 0 is the fatal `KeyRejected` and nothing more is sent, one whose bit reads 1 goes on;
`enter_progmode` is a success in `ProgMode` when the first or the last status says so, else goes through its sequence, or ends
in the failure `NotInProgMode` with the session as it was; `leave_progmode` ends in `Closed` and `userrow_write` where it was,
and none of them changes anything else of the session; `close` ends in `Closed` in any link state, releases the transport,
sends nothing and ends well (R34, R240, R243, R244, R245, R246, R247, R248, R249; log 13 for where the row comes into
progress, log 26 for `close` in Closed). -/
def Obligations.ChipEraseOkOnlyByUnlock : Prop :=
  (∀ s t : State, step s = .next t →
    (t.session.chipEraseOk = true → s.session.chipEraseOk = true ∨ s.ctl.todo.head? = some .unlocked) ∧
    (.unlocked ∈ t.ctl.todo → .unlocked ∈ s.ctl.todo ∨ s.ctl.requests.head? = some .unlockErase)) ∧
  (∀ (s : State) (rs : List Request), s.running → s.ctl.todo = [] → s.session.failed = none →
    let p := s.params
    let starts := fun todo => Host.Outcome.next
      { s with ctl := { s.ctl with requests := rs, result := none, todo := todo } }
    let toggle : List Micro := [.cmd (.stcs p.csResetReq p.resetAssert), .cmd (.stcs p.csResetReq p.resetRelease)]
    (s.session.linkState = .synced ∨ s.session.linkState = .unlocked →
      (s.ctl.requests = .unlockErase :: rs →
        step s = starts ([.cmd (.key p.keyChipErase), .cmd (.ldcs p.csKeyStatus), .keyTest p.ksChipErase] ++ toggle ++
          [.poll ⟨p.csSysStatus, p.ssLockStatus, false, p.unlockPollAttempts, .unlockTimeout⟩, .unlocked])) ∧
      (∀ data, s.ctl.requests = .userrowWrite data :: rs → data.length = p.urowLen → 1 ≤ data.length → data.length ≤ 256 →
        step s = starts ([.cmd (.key p.keyUrow), .cmd (.ldcs p.csKeyStatus), .keyTest p.ksUrowWrite,
          .poll ⟨p.csSysStatus, p.ssUrowProg, true, p.urowPollAttempts, .urowTimeout⟩,
          .openPage s.session.profile.userrow data.length, .cmd (.stPtr (dataAddr s.session.profile.userrow)),
          .cmd (.rep data.length), .cmd (.stb data),
          .cmd (.stcs p.csSysCtrlA (bitMask p.urowFinal ||| bitMask 0)),
          .poll ⟨p.csSysStatus, p.ssUrowProg, false, p.urowPollAttempts, .urowTimeout⟩,
          .cmd (.stcs p.csKeyStatus (bitMask p.ksUrowWrite))] ++ toggle ++ [.closePage, .rowDone]))) ∧
    (s.session.linkState = .synced ∨ s.session.linkState = .unlocked ∨ s.session.linkState = .progMode →
      (s.ctl.requests = .enterProgmode :: rs → step s = starts [.cmd (.ldcs p.csSysStatus), .progTest]) ∧
      (s.ctl.requests = .leaveProgmode :: rs →
        step s = starts (toggle ++ [.cmd (.stcs p.csCtrlB (bitMask p.updidis ||| bitMask p.ccdetdis)), .left])))) ∧
  (∀ (s : State) (rs : List Request), s.running → s.ctl.todo = [] → s.ctl.requests = .close :: rs →
    step s = .next
      { s with
        session := { s.session with linkState := .closed, transportOpen := false }
        ctl := { s.ctl with requests := rs, todo := [], result := some .ok } }) ∧
  (∀ (s : State) (v : Byte) (rest : List Micro), s.running → s.wire.resp = [v] →
    let p := s.params
    let progMode := Host.Outcome.next
      { s with session := { s.session with linkState := .progMode }, ctl := { s.ctl with todo := [], result := some .ok } }
    (∀ b, s.ctl.todo = .keyTest b :: rest →
      (bitSet v b = true → step s = .next { s with ctl := { s.ctl with todo := rest } }) ∧
      (bitSet v b = false →
        ∃ t, step s = .next t ∧ FatalExit (.protocol .keyRejected) s t ∧ t.wire.sent = s.wire.sent)) ∧
    (s.ctl.todo = .progTest :: rest →
      (bitSet v p.ssNvmProg = true → step s = progMode) ∧
      (bitSet v p.ssNvmProg = false →
        step s = .next { s with ctl := { s.ctl with todo :=
          [.cmd (.key p.keyNvmProg), .cmd (.ldcs p.csKeyStatus), .keyTest p.ksNvmProg,
            .cmd (.stcs p.csResetReq p.resetAssert), .cmd (.stcs p.csResetReq p.resetRelease),
            .poll ⟨p.csSysStatus, p.ssLockStatus, false, p.progmodePollAttempts, .lockedTimeout⟩,
            .cmd (.ldcs p.csSysStatus), .progConfirm] ++ rest } })) ∧
    (s.ctl.todo = .progConfirm :: rest →
      (bitSet v p.ssNvmProg = true → step s = progMode) ∧
      (bitSet v p.ssNvmProg = false →
        step s = .next { s with ctl := { s.ctl with todo := [], result := some (.failure .notInProgMode) } }))) ∧
  (∀ (s : State) (rest : List Micro), s.running →
    let ok := { s.ctl with todo := [], result := some Result.ok }
    (s.ctl.todo = .unlocked :: rest →
      step s = .next { s with session := { s.session with chipEraseOk := true, linkState := .unlocked }, ctl := ok }) ∧
    (s.ctl.todo = .left :: rest → step s = .next { s with session := { s.session with linkState := .closed }, ctl := ok }) ∧
    (s.ctl.todo = .rowDone :: rest → step s = .next { s with ctl := ok }))

/-! ## The NVM controller's operations -/

/-- `wait_nvm_ready` as an operation begins with its first poll. On a link that is up, with no interruption on its way, polls
that all find the chip busy end it after `NVM_READY_ATTEMPTS` with `ProtocolError(NvmTimeout)`; a poll within the bound that
finds the write-error bit is `ProtocolError(NvmWriteError)` whatever the busy bits say, one that finds neither lets the
operation go on, and an operation that is nothing else ends well (R264, R310, R320; log 20 for a status register above
0xFFFF). -/
def Obligations.NvmWaitIsBounded : Prop :=
  (∀ (s : State) (rs : List Request), s.running → s.ctl.todo = [] → s.ctl.requests = .waitNvmReady :: rs →
    s.session.linkState = .progMode → s.session.failed = none →
    step s = .next { s with ctl := { s.ctl with requests := rs, result := none, todo := [.nvmWait, .ready] } }) ∧
  ∀ (s : State) (rest : List Micro) (busy : List Byte) (more : List Answer), Ready s → s.running →
    s.ctl.todo = .nvmWait :: rest →
    (∀ v ∈ busy, bitSet v s.params.nstWriteError = false ∧
      (bitSet v s.params.nstFlashBusy = true ∨ bitSet v s.params.nstEepromBusy = true)) →
    let frame := encode s.params (.ldsb (dataAddr (s.session.profile.nvmctrl + s.params.nvmStatus)))
    (busy.length = s.params.nvmReadyAttempts → s.wire.script = pollAnswers frame busy ++ more →
      ∃ t, run (1 + 2 * busy.length) s = .next t ∧ FatalExit (.protocol .nvmTimeout) s t ∧
        t.wire.sent = s.wire.sent ++ s.onWire (List.replicate busy.length frame).flatten) ∧
    (∀ last : Byte, busy.length < s.params.nvmReadyAttempts → s.wire.script = pollAnswers frame (busy ++ [last]) ++ more →
      ∃ t, run (1 + 2 * (busy.length + 1)) s = .next t ∧
        t.wire.sent = s.wire.sent ++ s.onWire (List.replicate (busy.length + 1) frame).flatten ∧
        (bitSet last s.params.nstWriteError = true → FatalExit (.protocol .nvmWriteError) s t) ∧
        (bitSet last s.params.nstWriteError = false → bitSet last s.params.nstFlashBusy = false →
          bitSet last s.params.nstEepromBusy = false → t.ctl.todo = rest ∧ t.session = s.session ∧
            (rest = [.ready] → step t = .next { t with ctl := { t.ctl with todo := [], result := some .ok } })))

/-- `write`: the command is chosen once, by `chipEraseOk`, and the pages with data are counted once, at the start; a page with
data brings the ready poll, the buffer clear, the pointer, the repeat, the burst of its units and the command, in that order,
and then counts as done with data; a page without data sends nothing and counts as done without; past the last page the
operation ends well; a source that is all `0xFF` sends nothing at all. Page `p` begins at `start + p * pageSize`, holds the
source's bytes from `p * pageSize` up with `0xFF` beyond its end, and is `pageSize / 2` words of flash or `pageSize` bytes of
EEPROM; there are `max 1 (size / pageSize)` of them (R260, R261, R262, R263, R267, R269; log 13 for where a page comes into
progress, log 20 for an address above 0xFFFF). -/
def Obligations.WriteSkipsEmptyPages : Prop :=
  ∀ s : State, s.running →
    let dims := s.nvm.region.dims
    let start := dims.start + s.nvm.p * dims.pageSize
    let page := (List.range dims.pageSize).map fun j => s.nvm.src.getD (s.nvm.p * dims.pageSize + j) 0xFF
    let burst := match s.nvm.region.kind with
      | .flash => [.cmd (.rep (dims.pageSize / 2)), .cmd (.stw page)]
      | .eeprom => [.cmd (.rep dims.pageSize), .cmd (.stb page)]
    let commit := match s.nvm.cmd with
      | .writePage => Instr.writePage
      | .eraseWritePage => Instr.eraseWritePage
    let count := max 1 (dims.size / dims.pageSize)
    let done := fun hadData rest => Host.Outcome.next
      { s with
        nvm := { s.nvm with p := s.nvm.p + 1, progress := s.nvm.progress ++ [⟨s.nvm.p, s.nvm.total, hadData⟩] }
        ctl := { s.ctl with todo := .writePage :: rest } }
    (∀ k src rs, s.ctl.todo = [] → s.ctl.requests = .write k src :: rs → s.session.linkState = .progMode →
      s.session.failed = none → s.session.profile.legal s.params.fuseCount = true →
      ∃ t, step s = .next t ∧ t.ctl.todo = [.writePage] ∧ t.wire = s.wire ∧
        (t.nvm.cmd = if s.session.chipEraseOk then .writePage else .eraseWritePage) ∧ StartsPages s t k src) ∧
    (∀ rest, s.ctl.todo = .writePage :: rest →
      (s.nvm.p < count → (∃ b ∈ page, b ≠ 0xFF) →
        step s = .next { s with ctl := { s.ctl with todo :=
          [.openPage start dims.pageSize, .nvmWait, .cmd .pageBufferClr, .cmd (.stPtr (dataAddr start))] ++ burst ++
            [.cmd commit, .closePage, .writeDone] ++ rest } }) ∧
      (s.nvm.p < count → (∀ b ∈ page, b = 0xFF) → step s = done false rest) ∧
      (count ≤ s.nvm.p → step s = .next { s with ctl := { s.ctl with todo := [], result := some .ok } })) ∧
    (∀ rest, s.ctl.todo = .writeDone :: rest → step s = done true rest) ∧
    (s.ctl.todo = [.writePage] → (∀ b ∈ s.nvm.src, b = 0xFF) → s.nvm.p ≤ count → s.wire.irq = none →
      ∃ t, run (count - s.nvm.p + 1) s = .next t ∧ t.ctl.todo = [] ∧ t.ctl.result = some .ok ∧
        t.wire = s.wire ∧ t.target = s.target ∧ t.session = s.session)

/-- `verify`: the pages with data are counted at the start; a page with data brings the pointer, the repeat and the burst load
of that page's units, in that order, and then its comparison; a page without data is not read and counts as done without data;
past the last page the operation ends well. A page that compares equal is done; one that differs ends the operation with
`VerifyError`, its page and the address of the first byte that differs, and the session, the wire and the target are as they
were. `read` brings the same three frames for every page and hands back all their bytes in order. Page `p` begins at `start +
p * pageSize` and is `pageSize / 2` words of flash or `pageSize` bytes of EEPROM; there are `max 1 (size / pageSize)` of them
(R260, R261, R262, R263, R266, R268, R269, R272, R305, R314; log 20 for an address above 0xFFFF, log 28 for the page total of
`read`). -/
def Obligations.VerifyReportsTheFirstMismatch : Prop :=
  ∀ (s : State) (rest : List Micro), s.running →
    let dims := s.nvm.region.dims
    let start := dims.start + s.nvm.p * dims.pageSize
    let page := (List.range dims.pageSize).map fun j => s.nvm.src.getD (s.nvm.p * dims.pageSize + j) 0xFF
    let load := .cmd (.stPtr (dataAddr start)) :: match s.nvm.region.kind with
      | .flash => [.cmd (.rep (dims.pageSize / 2)), .cmd (.ldw (dims.pageSize / 2))]
      | .eeprom => [.cmd (.rep dims.pageSize), .cmd (.ldb dims.pageSize)]
    let count := max 1 (dims.size / dims.pageSize)
    let goesOn := fun todo => Host.Outcome.next { s with ctl := { s.ctl with todo := todo } }
    let ends := fun r => Host.Outcome.next { s with ctl := { s.ctl with todo := [], result := some r } }
    let done := fun hadData next dst => Host.Outcome.next
      { s with
        nvm := { s.nvm with p := s.nvm.p + 1, dst := dst, progress := s.nvm.progress ++ [⟨s.nvm.p, s.nvm.total, hadData⟩] }
        ctl := { s.ctl with todo := next :: rest } }
    (∀ k rs, s.ctl.todo = [] → s.session.linkState = .progMode → s.session.failed = none →
      s.session.profile.legal s.params.fuseCount = true →
      (∀ src, s.ctl.requests = .verify k src :: rs →
        ∃ t, step s = .next t ∧ t.ctl.todo = [.verifyPage] ∧ t.wire = s.wire ∧ StartsPages s t k src) ∧
      (s.ctl.requests = .read k :: rs →
        ∃ t, step s = .next t ∧ t.ctl.todo = [.readPage] ∧ t.wire = s.wire ∧ t.nvm.p = 0 ∧ t.nvm.dst = [] ∧
          t.nvm.region = ⟨k, match k with | .flash => s.session.profile.flash | .eeprom => s.session.profile.eeprom⟩ ∧
          t.nvm.total = max 1 (t.nvm.region.dims.size / t.nvm.region.dims.pageSize) ∧ t.nvm.progress = [])) ∧
    (s.ctl.todo = .verifyPage :: rest →
      (s.nvm.p < count → (∃ b ∈ page, b ≠ 0xFF) → step s = goesOn (load ++ .compare :: rest)) ∧
      (s.nvm.p < count → (∀ b ∈ page, b = 0xFF) → step s = done false .verifyPage s.nvm.dst) ∧
      (count ≤ s.nvm.p → step s = ends .ok)) ∧
    (s.ctl.todo = .compare :: rest →
      (s.wire.resp = page → step s = done true .verifyPage s.nvm.dst) ∧
      (s.wire.resp.length = page.length → s.wire.resp ≠ page →
        ∃ j, step s = ends (.error (.verify s.nvm.p (start + j))) ∧ j < page.length ∧
          s.wire.resp.getD j 0 ≠ page.getD j 0 ∧ ∀ k, k < j → s.wire.resp.getD k 0 = page.getD k 0)) ∧
    (s.ctl.todo = .readPage :: rest →
      (s.nvm.p < count → step s = goesOn (load ++ .readStore :: rest)) ∧
      (count ≤ s.nvm.p → step s = ends (.bytes s.nvm.dst))) ∧
    (s.ctl.todo = .readStore :: rest → step s = done true .readPage (s.nvm.dst ++ s.wire.resp))

/-- `fuse_read` and `fuse_write` begin with one `LDS.b` at the fuse's address and are refused for a fuse that is not there;
`fuse_read` hands back the byte. `fuse_write`: an old value equal to the requested one ends it as a no-op success with no
frame sent; any other brings the low address, the high address, the data and the command, in that order, and a read-back; a
read-back that differs is `VerifyError` of the fuse and its address, which changes nothing else (R270, R271, R305, R306, R314;
log 20 for an address above 0xFFFF). -/
def Obligations.FuseWriteComparesFirst : Prop :=
  (∀ (s : State) (n : Nat) (rs : List Request), s.running → s.ctl.todo = [] → s.session.linkState = .progMode →
    s.session.failed = none →
    let starts := fun last => Host.Outcome.next { s with ctl := { s.ctl with
      requests := rs, result := none, todo := [.cmd (.ldsb (dataAddr (s.session.profile.fuses + n))), last] } }
    (s.ctl.requests = .fuseRead n :: rs →
      (n < s.params.fuseCount → step s = starts .fuseDone) ∧ (s.params.fuseCount ≤ n → step s = .refused .fuseIndex)) ∧
    (∀ v, s.ctl.requests = .fuseWrite n v :: rs →
      (n < s.params.fuseCount → step s = starts (.fuseTest n v)) ∧ (s.params.fuseCount ≤ n → step s = .refused .fuseIndex))) ∧
  ∀ (s : State) (n : Nat) (v old : Byte) (rest : List Micro), s.running → s.wire.resp = [old] →
    (s.ctl.todo = .fuseDone :: rest →
      step s = .next { s with ctl := { s.ctl with todo := [], result := some (.byte old) } }) ∧
    let fuse := s.session.profile.fuses + n
    let reg := fun off => dataAddr (s.session.profile.nvmctrl + off)
    (s.ctl.todo = .fuseTest n v :: rest →
      (old = v → ∃ t, step s = .next t ∧ t.ctl.todo = [] ∧ t.ctl.result = some .fuseNoOp ∧ t.wire = s.wire ∧
        t.target = s.target ∧ t.session = s.session) ∧
      (old ≠ v → step s = .next { s with ctl := { s.ctl with todo :=
        [.cmd (.stsb (reg s.params.nvmAddrL) (lo8 (dataAddr fuse))), .cmd (.stsb (reg s.params.nvmAddrH) (hi8 (dataAddr fuse))),
          .cmd (.stsb (reg s.params.nvmData) v), .cmd .writeFuse, .cmd (.ldsb (dataAddr fuse)), .fuseVerify n v] ++ rest } })) ∧
    (s.ctl.todo = .fuseVerify n v :: rest →
      ∃ t, step s = .next t ∧ t.ctl.todo = [] ∧ t.wire = s.wire ∧ t.target = s.target ∧ t.session = s.session ∧
        t.ctl.result = some (if old = v then .fuseWritten else .error (.verify n fuse)))

/-! ## Invariants: every step of every state keeps them -/

/-- Every byte memory keeps its canonical form. -/
def Obligations.MemoriesKept : Prop :=
  ∀ s t : State, s.memoriesOk = true → step s = .next t → t.memoriesOk = true

/-- IMG and the ranges stay below `IMG_CAP`, and every cursor inside what it walks: the place in the file, the chunk, the page,
the attempts of `recv`, of the polls and of `init` up to their bounds (R22, R23, R25, R320). -/
def Obligations.CodecKept : Prop :=
  ∀ s t : State, s.imageOk = true → s.cursorsOk = true → step s = .next t → t.imageOk = true ∧ t.cursorsOk = true

/-- The session stays consistent: a failed session stays closed and released, one that is not closed owns its transport, what
is left of an operation on the link stands on a link that is up; and no step changes the parameters (R29, R31, R313, R8). -/
def Obligations.SessionKept : Prop :=
  ∀ s t : State, step s = .next t → t.params = s.params ∧ (s.sessionOk = true → t.sessionOk = true)

/-- The machine right after reset: the values the spec gives, every invariant holds, and with nothing asked a step changes
nothing. The construction of a session, which is the reset of LINK, SESS and NVM: the same values on the catalog entry and
the rate that were asked, the codec and the target untouched (R54, R340, R341; log 7 for the step with nothing asked, log 23
for when a session can be constructed). -/
def Obligations.ResetIsConsistent : Prop :=
  (∀ s : State, s = State.reset →
    s.session.linkState = .cold ∧ s.session.failed = none ∧ s.session.chipEraseOk = false ∧ s.session.baud = 115200 ∧
    s.session.stopBits = 2 ∧ (∀ a, s.codec.imgByte a = 0xFF) ∧ s.codec.range = none ∧ s.codec.offset = 0 ∧
    s.codec.eofSeen = false ∧ s.codec.pos = 0 ∧ s.codec.k = 0 ∧ s.nvm.p = 0 ∧ s.wire.recvAttempt = 0 ∧
    s.ctl.pollAttempt = 0 ∧ s.ctl.initRound = 0 ∧ s.ctl.halted = false ∧ s.memoriesOk = true ∧ s.imageOk = true ∧
    s.cursorsOk = true ∧ s.sessionOk = true ∧ s.params.legal = true ∧ step s = .next s) ∧
  (∀ (s : State) (part : PartCode) (baud verbosity : Nat) (rs : List Request), s.running → s.ctl.todo = [] →
    s.ctl.requests = .newSession part baud verbosity :: rs →
    (s.session.linkState = .cold ∨ s.session.linkState = .closed) → baud ∈ Config.baudSet →
    (s.params.catalog.entry part).legal s.params.fuseCount = true →
    ∃ t, step s = .next t ∧ t.ctl.todo = [] ∧ t.ctl.result = some .ok ∧ t.ctl.requests = rs ∧
      t.session = ⟨.cold, none, s.params.catalog.entry part, false, true, baud, 2, verbosity⟩ ∧ t.nvm.p = 0 ∧
      t.wire.recvAttempt = 0 ∧ t.ctl.pollAttempt = 0 ∧ t.ctl.initRound = 0 ∧ t.wire.sent = s.wire.sent ∧
      t.codec = s.codec ∧ t.target = s.target ∧ t.params = s.params)
end

