-- ==== Sys2Proof/Laws/Decode.lean ====
section
/-! SUPPORT. The hexadecimal characters, the fields of a line, and the instruction bytes of a frame. -/

namespace Sys2Proof

/-! ## Bytes of words -/

@[simp] theorem wordOf_hi8_lo8 (w : Word) : wordOf (hi8 w) (lo8 w) = w := by
  unfold wordOf hi8 lo8
  apply BitVec.eq_of_getLsbD_eq
  intro i hi
  rw [BitVec.getLsbD_append, BitVec.getLsbD_extractLsb', BitVec.getLsbD_extractLsb']
  split
  · simp [*]
  · rw [show 8 + (i - 8) = i by omega]; simp; omega

@[simp] theorem hi8_wordOf (h l : Byte) : hi8 (wordOf h l) = h := by
  unfold wordOf hi8
  apply BitVec.eq_of_getLsbD_eq
  intro i hi
  rw [BitVec.getLsbD_extractLsb', BitVec.getLsbD_append]
  simp [hi]

@[simp] theorem lo8_wordOf (h l : Byte) : lo8 (wordOf h l) = l := by
  unfold wordOf lo8
  apply BitVec.eq_of_getLsbD_eq
  intro i hi
  rw [BitVec.getLsbD_extractLsb', BitVec.getLsbD_append]
  simp [hi]

/-! ## Hexadecimal characters -/

theorem hexVal_hexDigit {n : Nat} (h : n < 16) : hexVal (hexDigit n) = some n := by
  interval_cases n <;> decide

theorem hexByte_hex2 (b : Byte) : hexByte (hexDigit (b.toNat / 16)) (hexDigit (b.toNat % 16)) = some b := by
  unfold hexByte
  rw [hexVal_hexDigit (by have := b.isLt; omega), hexVal_hexDigit (Nat.mod_lt _ (by omega))]
  simp only [Nat.div_add_mod, BitVec.ofNat_toNat, BitVec.setWidth_eq]

theorem hexBytes_hex2_append (b : Byte) (cs : List Byte) :
    hexBytes (hex2 b ++ cs) = (hexBytes cs).map (fun bs => b :: bs) := by
  show hexBytes (hexDigit (b.toNat / 16) :: hexDigit (b.toNat % 16) :: cs) = _
  rw [hexBytes, hexByte_hex2]
  cases hexBytes cs <;> rfl

/-- Characters spelled from bytes spell those bytes. -/
theorem hexBytes_flatMap_append (bs : List Byte) (cs : List Byte) :
    hexBytes (bs.flatMap hex2 ++ cs) = (hexBytes cs).map (fun ds => bs ++ ds) := by
  induction bs with
  | nil => cases h : hexBytes cs <;> simp [h]
  | cons b bs ih =>
    rw [List.flatMap_cons, List.append_assoc, hexBytes_hex2_append, ih]
    cases hexBytes cs <;> rfl

theorem hexBytes_flatMap (bs : List Byte) : hexBytes (bs.flatMap hex2) = some bs := by
  have := hexBytes_flatMap_append bs []
  simpa [hexBytes] using this

theorem hex2_length (b : Byte) : (hex2 b).length = 2 := rfl

theorem flatMap_hex2_length (bs : List Byte) : (bs.flatMap hex2).length = 2 * bs.length := by
  induction bs with
  | nil => rfl
  | cons b bs ih => rw [List.flatMap_cons, List.length_append, ih, hex2_length, List.length_cons]; omega

/-- A run of characters that spells bytes has two for each. -/
theorem hexBytes_length : ∀ {cs bs : List Byte}, hexBytes cs = some bs → cs.length = 2 * bs.length
  | [], bs, h => by simp [hexBytes] at h; subst h; rfl
  | [_], _, h => by simp [hexBytes] at h
  | c1 :: c2 :: cs, bs, h => by
    unfold hexBytes at h
    cases hb : hexByte c1 c2 <;> cases hc : hexBytes cs <;> rw [hb, hc] at h <;> simp at h
    subst h
    have := hexBytes_length hc
    simp; omega

/-- An even run of hexadecimal characters spells bytes. -/
theorem hexBytes_isSome : ∀ {cs : List Byte}, cs.length % 2 = 0 → (∀ c ∈ cs, (hexVal c).isSome = true) →
    (hexBytes cs).isSome = true
  | [], _, _ => rfl
  | [_], h, _ => by simp at h
  | c1 :: c2 :: cs, h, hc => by
    obtain ⟨x, hx⟩ := Option.isSome_iff_exists.1 (hc c1 (by simp))
    obtain ⟨y, hy⟩ := Option.isSome_iff_exists.1 (hc c2 (by simp))
    obtain ⟨bs, hb⟩ := Option.isSome_iff_exists.1
      (hexBytes_isSome (cs := cs) (by simp at h; omega) fun c hm => hc c (by simp [hm]))
    simp [hexBytes, hexByte, hx, hy, hb]

/-- One character that is not hexadecimal spoils the run. -/
theorem hexBytes_eq_none : ∀ {cs : List Byte}, (∃ c ∈ cs, hexVal c = none) → hexBytes cs = none
  | [], h => by simp at h
  | [_], _ => rfl
  | c1 :: c2 :: cs, ⟨c, hc, hn⟩ => by
    unfold hexBytes
    by_cases h1 : hexVal c1 = none
    · simp [hexByte, h1]
    by_cases h2 : hexVal c2 = none
    · cases h : hexVal c1 <;> simp [hexByte, h2, h]
    have : hexBytes cs = none := hexBytes_eq_none ⟨c, by
      rcases List.mem_cons.1 hc with rfl | hc
      · exact absurd hn h1
      · rcases List.mem_cons.1 hc with rfl | hc
        · exact absurd hn h2
        · exact hc, hn⟩
    rw [this]; cases hexByte c1 c2 <;> rfl

/-! ## Fields of a line -/

theorem recordOfBytes_append (bb ah al rr cc : Byte) (dd : List Byte) :
    recordOfBytes (bb :: ah :: al :: rr :: (dd ++ [cc])) = some ⟨bb, wordOf ah al, rr, dd, cc⟩ := by
  cases dd with
  | nil => rfl
  | cons d ds =>
    simp only [recordOfBytes, List.cons_append]
    rw [← List.cons_append, List.dropLast_concat, List.getLastD_concat]

/-- The bytes of a record are its fields, in order. -/
theorem recordOfBytes_eq {bs : List Byte} {r : HexRecord} (h : recordOfBytes bs = some r) :
    bs = r.bb :: hi8 r.aaaa :: lo8 r.aaaa :: r.rr :: (r.dd ++ [r.cc]) := by
  match bs, h with
  | bb :: ah :: al :: rr :: c :: rest, h =>
    simp only [recordOfBytes, Option.some.injEq] at h
    subst h
    rcases List.eq_nil_or_concat (c :: rest) with h | ⟨ds, x, hx⟩
    · simp at h
    · simp [hx]

/-! ## The checksum -/

theorem xor_ff {n : Nat} (h : n < 256) : n ^^^ 0xFF = 255 - n := by
  interval_cases n <;> decide

theorem chk_toNat (sum : Nat) : (chk sum).toNat = (256 - sum % 256) % 256 := by
  unfold chk
  rw [xor_ff (Nat.mod_lt _ (by omega)), BitVec.toNat_ofNat]
  have := Nat.mod_lt sum (show 256 > 0 by omega)
  omega

/-! ## Instruction bytes -/

/-- A family code has its low five bits zero (R111). -/
theorem familyCode_iff {c : Byte} : c &&& 0x1F = 0 ↔ c.toNat % 32 = 0 := by
  constructor
  · intro h
    have : (c &&& 0x1F).toNat = 0 := by rw [h]; rfl
    rw [BitVec.toNat_and] at this
    have h2 : c.toNat &&& 0x1F = c.toNat % 32 := Nat.and_two_pow_sub_one_eq_mod c.toNat 5
    simpa [h2] using this
  · intro h
    apply BitVec.eq_of_toNat_eq
    rw [BitVec.toNat_and]
    have h2 : c.toNat &&& 0x1F = c.toNat % 32 := Nat.and_two_pow_sub_one_eq_mod c.toNat 5
    simpa [h2] using h

/-- A field below the family code is added to it. -/
theorem or_field_toNat {c f : Byte} (hc : c.toNat % 32 = 0) (hf : f.toNat < 32) : (c ||| f).toNat = c.toNat + f.toNat := by
  rw [BitVec.toNat_or]
  have h1 : c.toNat = 2 ^ 5 * (c.toNat / 32) := by omega
  rw [h1, ← Nat.two_pow_add_eq_or_of_lt (by omega : f.toNat < 2 ^ 5)]

theorem toNat_and_f0 (b : Byte) : (b &&& 0xF0).toNat = b.toNat / 16 * 16 := by
  have := b.isLt
  rw [BitVec.toNat_and]
  generalize b.toNat = n at *
  interval_cases n <;> rfl

theorem toNat_and_0f (b : Byte) : (b &&& 0x0F).toNat = b.toNat % 16 := by
  rw [BitVec.toNat_and]
  exact Nat.and_two_pow_sub_one_eq_mod b.toNat 4

/-- The family codes of legal parameters, as numbers: multiples of 32, all different (R111). -/
structure Opcodes.Sound (o : Opcodes) : Prop where
  lds : o.lds.toNat % 32 = 0
  ld : o.ld.toNat % 32 = 0
  sts : o.sts.toNat % 32 = 0
  st : o.st.toNat % 32 = 0
  ldcs : o.ldcs.toNat % 32 = 0
  rep : o.rep.toNat % 32 = 0
  stcs : o.stcs.toNat % 32 = 0
  key : o.key.toNat % 32 = 0
  nodup : [o.lds.toNat, o.ld.toNat, o.sts.toNat, o.st.toNat, o.ldcs.toNat, o.rep.toNat, o.stcs.toNat,
    o.key.toNat].Nodup

theorem Opcodes.sound {o : Opcodes} (h : o.legal = true) : o.Sound := by
  simp only [Opcodes.legal, Bool.and_eq_true, List.all_cons, List.all_nil, beq_iff_eq, decide_eq_true_eq, and_true,
    familyCode_iff] at h
  obtain ⟨⟨h1, h2, h3, h4, h5, h6, h7, h8⟩, hn⟩ := h
  refine ⟨h1, h2, h3, h4, h5, h6, h7, h8, ?_⟩
  have := hn.map (f := BitVec.toNat) fun a b h => BitVec.eq_of_toNat_eq h
  simpa using this

theorem insnWide_toNat {c : Byte} (hc : c.toNat % 32 = 0) (w : Bool) :
    (c ||| (Config.fieldAddr16 ||| (if w then Config.fieldWord else 0))).toNat = c.toNat + 4 + w.toNat := by
  rw [or_field_toNat hc (by cases w <;> decide)]; cases w <;> rfl

theorem insnStPtr_toNat {o : Opcodes} (h : o.Sound) : (insnStPtr o).toNat = o.st.toNat + 9 := by
  unfold insnStPtr; rw [or_field_toNat h.st (by decide)]; rfl

theorem insnIndex_toNat {c : Byte} (hc : c.toNat % 32 = 0) {r : Nat} (hr : r ≤ 15) :
    (c ||| BitVec.ofNat 8 (r % 16)).toNat = c.toNat + r := by
  have h2 : (BitVec.ofNat 8 (r % 16)).toNat = r := by rw [BitVec.toNat_ofNat]; omega
  rw [or_field_toNat hc (by omega), h2]

theorem ne_of_toNat {a b : Byte} (h : a.toNat ≠ b.toNat) : a ≠ b := fun e => h (e ▸ rfl)

/-- The numbers of all the instruction bytes. -/
theorem insn_toNat {o : Opcodes} (h : o.Sound) :
    (insnLds o false).toNat = o.lds.toNat + 4 ∧ (insnLds o true).toNat = o.lds.toNat + 5 ∧
    (insnSts o false).toNat = o.sts.toNat + 4 ∧ (insnSts o true).toNat = o.sts.toNat + 5 ∧
    (insnLd o false).toNat = o.ld.toNat + 4 ∧ (insnLd o true).toNat = o.ld.toNat + 5 ∧
    (insnSt o false).toNat = o.st.toNat + 4 ∧ (insnSt o true).toNat = o.st.toNat + 5 ∧
    (insnStPtr o).toNat = o.st.toNat + 9 :=
  ⟨insnWide_toNat h.lds false, insnWide_toNat h.lds true, insnWide_toNat h.sts false, insnWide_toNat h.sts true,
    insnWide_toNat h.ld false, insnWide_toNat h.ld true, insnWide_toNat h.st false, insnWide_toNat h.st true,
    insnStPtr_toNat h⟩

/-- Bytes of different families differ. -/
theorem insn_ne {a b c d : Byte} {f g : Nat} (ha : a.toNat = c.toNat + f) (hb : b.toNat = d.toNat + g)
    (hc : c.toNat % 32 = 0) (hd : d.toNat % 32 = 0) (hf : f < 32) (hg : g < 32) (h : c.toNat ≠ d.toNat) : a ≠ b :=
  fun e => h (by subst e; omega)

/-- The family codes differ. -/
theorem Opcodes.Sound.distinct {o : Opcodes} (h : o.Sound) :
    (o.lds.toNat ≠ o.ld.toNat ∧ o.lds.toNat ≠ o.sts.toNat ∧ o.lds.toNat ≠ o.st.toNat ∧ o.lds.toNat ≠ o.ldcs.toNat ∧
      o.lds.toNat ≠ o.rep.toNat ∧ o.lds.toNat ≠ o.stcs.toNat ∧ o.lds.toNat ≠ o.key.toNat) ∧
    (o.ld.toNat ≠ o.sts.toNat ∧ o.ld.toNat ≠ o.st.toNat ∧ o.ld.toNat ≠ o.ldcs.toNat ∧ o.ld.toNat ≠ o.rep.toNat ∧
      o.ld.toNat ≠ o.stcs.toNat ∧ o.ld.toNat ≠ o.key.toNat) ∧
    (o.sts.toNat ≠ o.st.toNat ∧ o.sts.toNat ≠ o.ldcs.toNat ∧ o.sts.toNat ≠ o.rep.toNat ∧ o.sts.toNat ≠ o.stcs.toNat ∧
      o.sts.toNat ≠ o.key.toNat) ∧
    (o.st.toNat ≠ o.ldcs.toNat ∧ o.st.toNat ≠ o.rep.toNat ∧ o.st.toNat ≠ o.stcs.toNat ∧ o.st.toNat ≠ o.key.toNat) ∧
    (o.ldcs.toNat ≠ o.rep.toNat ∧ o.ldcs.toNat ≠ o.stcs.toNat ∧ o.ldcs.toNat ≠ o.key.toNat) ∧
    (o.rep.toNat ≠ o.stcs.toNat ∧ o.rep.toNat ≠ o.key.toNat) ∧ o.stcs.toNat ≠ o.key.toNat := by
  have := h.nodup
  simp only [List.nodup_cons, List.mem_cons, List.not_mem_nil, not_or, or_false, not_false_eq_true, List.nodup_nil,
    and_true] at this
  exact this

/-! ## Decoding each instruction byte -/

/-- The instruction bytes of legal parameters as numbers, and that the family codes differ both ways round. -/
structure Opcodes.Facts (o : Opcodes) : Prop where
  s : o.Sound
  dlds_ld : o.lds.toNat ≠ o.ld.toNat
  dlds_sts : o.lds.toNat ≠ o.sts.toNat
  dlds_st : o.lds.toNat ≠ o.st.toNat
  dlds_ldcs : o.lds.toNat ≠ o.ldcs.toNat
  dlds_rep : o.lds.toNat ≠ o.rep.toNat
  dlds_stcs : o.lds.toNat ≠ o.stcs.toNat
  dlds_key : o.lds.toNat ≠ o.key.toNat
  dld_lds : o.ld.toNat ≠ o.lds.toNat
  dld_sts : o.ld.toNat ≠ o.sts.toNat
  dld_st : o.ld.toNat ≠ o.st.toNat
  dld_ldcs : o.ld.toNat ≠ o.ldcs.toNat
  dld_rep : o.ld.toNat ≠ o.rep.toNat
  dld_stcs : o.ld.toNat ≠ o.stcs.toNat
  dld_key : o.ld.toNat ≠ o.key.toNat
  dsts_lds : o.sts.toNat ≠ o.lds.toNat
  dsts_ld : o.sts.toNat ≠ o.ld.toNat
  dsts_st : o.sts.toNat ≠ o.st.toNat
  dsts_ldcs : o.sts.toNat ≠ o.ldcs.toNat
  dsts_rep : o.sts.toNat ≠ o.rep.toNat
  dsts_stcs : o.sts.toNat ≠ o.stcs.toNat
  dsts_key : o.sts.toNat ≠ o.key.toNat
  dst_lds : o.st.toNat ≠ o.lds.toNat
  dst_ld : o.st.toNat ≠ o.ld.toNat
  dst_sts : o.st.toNat ≠ o.sts.toNat
  dst_ldcs : o.st.toNat ≠ o.ldcs.toNat
  dst_rep : o.st.toNat ≠ o.rep.toNat
  dst_stcs : o.st.toNat ≠ o.stcs.toNat
  dst_key : o.st.toNat ≠ o.key.toNat
  dldcs_lds : o.ldcs.toNat ≠ o.lds.toNat
  dldcs_ld : o.ldcs.toNat ≠ o.ld.toNat
  dldcs_sts : o.ldcs.toNat ≠ o.sts.toNat
  dldcs_st : o.ldcs.toNat ≠ o.st.toNat
  dldcs_rep : o.ldcs.toNat ≠ o.rep.toNat
  dldcs_stcs : o.ldcs.toNat ≠ o.stcs.toNat
  dldcs_key : o.ldcs.toNat ≠ o.key.toNat
  drep_lds : o.rep.toNat ≠ o.lds.toNat
  drep_ld : o.rep.toNat ≠ o.ld.toNat
  drep_sts : o.rep.toNat ≠ o.sts.toNat
  drep_st : o.rep.toNat ≠ o.st.toNat
  drep_ldcs : o.rep.toNat ≠ o.ldcs.toNat
  drep_stcs : o.rep.toNat ≠ o.stcs.toNat
  drep_key : o.rep.toNat ≠ o.key.toNat
  dstcs_lds : o.stcs.toNat ≠ o.lds.toNat
  dstcs_ld : o.stcs.toNat ≠ o.ld.toNat
  dstcs_sts : o.stcs.toNat ≠ o.sts.toNat
  dstcs_st : o.stcs.toNat ≠ o.st.toNat
  dstcs_ldcs : o.stcs.toNat ≠ o.ldcs.toNat
  dstcs_rep : o.stcs.toNat ≠ o.rep.toNat
  dstcs_key : o.stcs.toNat ≠ o.key.toNat
  dkey_lds : o.key.toNat ≠ o.lds.toNat
  dkey_ld : o.key.toNat ≠ o.ld.toNat
  dkey_sts : o.key.toNat ≠ o.sts.toNat
  dkey_st : o.key.toNat ≠ o.st.toNat
  dkey_ldcs : o.key.toNat ≠ o.ldcs.toNat
  dkey_rep : o.key.toNat ≠ o.rep.toNat
  dkey_stcs : o.key.toNat ≠ o.stcs.toNat
  eLdsB : (insnLds o false).toNat = o.lds.toNat + 4
  eLdsW : (insnLds o true).toNat = o.lds.toNat + 5
  eStsB : (insnSts o false).toNat = o.sts.toNat + 4
  eStsW : (insnSts o true).toNat = o.sts.toNat + 5
  eStP : (insnStPtr o).toNat = o.st.toNat + 9
  eLdB : (insnLd o false).toNat = o.ld.toNat + 4
  eLdW : (insnLd o true).toNat = o.ld.toNat + 5
  eStB : (insnSt o false).toNat = o.st.toNat + 4
  eStW : (insnSt o true).toNat = o.st.toNat + 5
  eRep : (o.rep).toNat = o.rep.toNat + 0
  eKey : (o.key).toNat = o.key.toNat + 0

theorem Opcodes.Sound.facts {o : Opcodes} (h : o.Sound) : Opcodes.Facts o := by
  obtain ⟨e1,e2,e3,e4,e5,e6,e7,e8,e9⟩ := insn_toNat h
  obtain ⟨⟨a1,a2,a3,a4,a5,a6,a7⟩,⟨b2,b3,b4,b5,b6,b7⟩,⟨c3,c4,c5,c6,c7⟩,⟨d4,d5,d6,d7⟩,⟨f5,f6,f7⟩,⟨g6,g7⟩,i7⟩ := h.distinct
  constructor <;> first | assumption | (apply Ne.symm; assumption) | rfl

theorem decodeInsn_ldsb {o : Opcodes} (_ : Opcodes.Facts o) (u : Nat) (ops : List Byte) :
    decodeInsn o u (insnLds o false) ops =
      (match ops with | [l, h] => .ok (.ldsb (wordOf h l)) | _ => .error .operands) := by
  unfold decodeInsn
  rw [if_pos rfl]
  try rfl

theorem decodeInsn_ldsw {o : Opcodes} (F : Opcodes.Facts o) (u : Nat) (ops : List Byte) :
    decodeInsn o u (insnLds o true) ops =
      (match ops with | [l, h] => .ok (.ldsw (wordOf h l)) | _ => .error .operands) := by
  unfold decodeInsn
  rw [if_neg (ne_of_toNat (by rw [F.eLdsW, F.eLdsB]; simp))]
  rw [if_pos rfl]
  try rfl

theorem decodeInsn_stsb {o : Opcodes} (F : Opcodes.Facts o) (u : Nat) (ops : List Byte) :
    decodeInsn o u (insnSts o false) ops =
      (match ops with | [l, h, v] => .ok (.stsb (wordOf h l) v) | _ => .error .operands) := by
  unfold decodeInsn
  rw [if_neg (insn_ne F.eStsB F.eLdsB F.s.sts F.s.lds (by decide) (by decide) F.dsts_lds)]
  rw [if_neg (insn_ne F.eStsB F.eLdsW F.s.sts F.s.lds (by decide) (by decide) F.dsts_lds)]
  rw [if_pos rfl]
  try rfl

theorem decodeInsn_stsw {o : Opcodes} (F : Opcodes.Facts o) (u : Nat) (ops : List Byte) :
    decodeInsn o u (insnSts o true) ops =
      (match ops with | [l, h, vl, vh] => .ok (.stsw (wordOf h l) (wordOf vh vl)) | _ => .error .operands) := by
  unfold decodeInsn
  rw [if_neg (insn_ne F.eStsW F.eLdsB F.s.sts F.s.lds (by decide) (by decide) F.dsts_lds)]
  rw [if_neg (insn_ne F.eStsW F.eLdsW F.s.sts F.s.lds (by decide) (by decide) F.dsts_lds)]
  rw [if_neg (ne_of_toNat (by rw [F.eStsW, F.eStsB]; simp))]
  rw [if_pos rfl]
  try rfl

theorem decodeInsn_stPtr {o : Opcodes} (F : Opcodes.Facts o) (u : Nat) (ops : List Byte) :
    decodeInsn o u (insnStPtr o) ops =
      (match ops with | [l, h] => .ok (.stPtr (wordOf h l)) | _ => .error .operands) := by
  unfold decodeInsn
  rw [if_neg (insn_ne F.eStP F.eLdsB F.s.st F.s.lds (by decide) (by decide) F.dst_lds)]
  rw [if_neg (insn_ne F.eStP F.eLdsW F.s.st F.s.lds (by decide) (by decide) F.dst_lds)]
  rw [if_neg (insn_ne F.eStP F.eStsB F.s.st F.s.sts (by decide) (by decide) F.dst_sts)]
  rw [if_neg (insn_ne F.eStP F.eStsW F.s.st F.s.sts (by decide) (by decide) F.dst_sts)]
  rw [if_pos rfl]
  try rfl

theorem decodeInsn_ldb {o : Opcodes} (F : Opcodes.Facts o) (u : Nat) (ops : List Byte) :
    decodeInsn o u (insnLd o false) ops =
      (match ops with | [] => .ok (.ldb u) | _ => .error .operands) := by
  unfold decodeInsn
  rw [if_neg (insn_ne F.eLdB F.eLdsB F.s.ld F.s.lds (by decide) (by decide) F.dld_lds)]
  rw [if_neg (insn_ne F.eLdB F.eLdsW F.s.ld F.s.lds (by decide) (by decide) F.dld_lds)]
  rw [if_neg (insn_ne F.eLdB F.eStsB F.s.ld F.s.sts (by decide) (by decide) F.dld_sts)]
  rw [if_neg (insn_ne F.eLdB F.eStsW F.s.ld F.s.sts (by decide) (by decide) F.dld_sts)]
  rw [if_neg (insn_ne F.eLdB F.eStP F.s.ld F.s.st (by decide) (by decide) F.dld_st)]
  rw [if_pos rfl]
  try rfl

theorem decodeInsn_ldw {o : Opcodes} (F : Opcodes.Facts o) (u : Nat) (ops : List Byte) :
    decodeInsn o u (insnLd o true) ops =
      (match ops with | [] => .ok (.ldw u) | _ => .error .operands) := by
  unfold decodeInsn
  rw [if_neg (insn_ne F.eLdW F.eLdsB F.s.ld F.s.lds (by decide) (by decide) F.dld_lds)]
  rw [if_neg (insn_ne F.eLdW F.eLdsW F.s.ld F.s.lds (by decide) (by decide) F.dld_lds)]
  rw [if_neg (insn_ne F.eLdW F.eStsB F.s.ld F.s.sts (by decide) (by decide) F.dld_sts)]
  rw [if_neg (insn_ne F.eLdW F.eStsW F.s.ld F.s.sts (by decide) (by decide) F.dld_sts)]
  rw [if_neg (insn_ne F.eLdW F.eStP F.s.ld F.s.st (by decide) (by decide) F.dld_st)]
  rw [if_neg (ne_of_toNat (by rw [F.eLdW, F.eLdB]; simp))]
  rw [if_pos rfl]
  try rfl

theorem decodeInsn_stb {o : Opcodes} (F : Opcodes.Facts o) (u : Nat) (ops : List Byte) :
    decodeInsn o u (insnSt o false) ops =
      (if countOk ops.length then .ok (.stb ops) else .error .operands) := by
  unfold decodeInsn
  rw [if_neg (insn_ne F.eStB F.eLdsB F.s.st F.s.lds (by decide) (by decide) F.dst_lds)]
  rw [if_neg (insn_ne F.eStB F.eLdsW F.s.st F.s.lds (by decide) (by decide) F.dst_lds)]
  rw [if_neg (insn_ne F.eStB F.eStsB F.s.st F.s.sts (by decide) (by decide) F.dst_sts)]
  rw [if_neg (insn_ne F.eStB F.eStsW F.s.st F.s.sts (by decide) (by decide) F.dst_sts)]
  rw [if_neg (ne_of_toNat (by rw [F.eStB, F.eStP]; simp))]
  rw [if_neg (insn_ne F.eStB F.eLdB F.s.st F.s.ld (by decide) (by decide) F.dst_ld)]
  rw [if_neg (insn_ne F.eStB F.eLdW F.s.st F.s.ld (by decide) (by decide) F.dst_ld)]
  rw [if_pos rfl]
  try rfl

theorem decodeInsn_stw {o : Opcodes} (F : Opcodes.Facts o) (u : Nat) (ops : List Byte) :
    decodeInsn o u (insnSt o true) ops =
      (if ops.length % 2 = 0 ∧ countOk (ops.length / 2) then .ok (.stw ops) else .error .operands) := by
  unfold decodeInsn
  rw [if_neg (insn_ne F.eStW F.eLdsB F.s.st F.s.lds (by decide) (by decide) F.dst_lds)]
  rw [if_neg (insn_ne F.eStW F.eLdsW F.s.st F.s.lds (by decide) (by decide) F.dst_lds)]
  rw [if_neg (insn_ne F.eStW F.eStsB F.s.st F.s.sts (by decide) (by decide) F.dst_sts)]
  rw [if_neg (insn_ne F.eStW F.eStsW F.s.st F.s.sts (by decide) (by decide) F.dst_sts)]
  rw [if_neg (ne_of_toNat (by rw [F.eStW, F.eStP]; simp))]
  rw [if_neg (insn_ne F.eStW F.eLdB F.s.st F.s.ld (by decide) (by decide) F.dst_ld)]
  rw [if_neg (insn_ne F.eStW F.eLdW F.s.st F.s.ld (by decide) (by decide) F.dst_ld)]
  rw [if_neg (ne_of_toNat (by rw [F.eStW, F.eStB]; simp))]
  rw [if_pos rfl]
  try rfl

theorem decodeInsn_rep {o : Opcodes} (F : Opcodes.Facts o) (u : Nat) (ops : List Byte) :
    decodeInsn o u (o.rep) ops =
      (match ops with | [n] => .ok (.rep (n.toNat + 1)) | _ => .error .operands) := by
  unfold decodeInsn
  rw [if_neg (insn_ne F.eRep F.eLdsB F.s.rep F.s.lds (by decide) (by decide) F.drep_lds)]
  rw [if_neg (insn_ne F.eRep F.eLdsW F.s.rep F.s.lds (by decide) (by decide) F.drep_lds)]
  rw [if_neg (insn_ne F.eRep F.eStsB F.s.rep F.s.sts (by decide) (by decide) F.drep_sts)]
  rw [if_neg (insn_ne F.eRep F.eStsW F.s.rep F.s.sts (by decide) (by decide) F.drep_sts)]
  rw [if_neg (insn_ne F.eRep F.eStP F.s.rep F.s.st (by decide) (by decide) F.drep_st)]
  rw [if_neg (insn_ne F.eRep F.eLdB F.s.rep F.s.ld (by decide) (by decide) F.drep_ld)]
  rw [if_neg (insn_ne F.eRep F.eLdW F.s.rep F.s.ld (by decide) (by decide) F.drep_ld)]
  rw [if_neg (insn_ne F.eRep F.eStB F.s.rep F.s.st (by decide) (by decide) F.drep_st)]
  rw [if_neg (insn_ne F.eRep F.eStW F.s.rep F.s.st (by decide) (by decide) F.drep_st)]
  rw [if_pos rfl]
  try rfl

theorem decodeInsn_key {o : Opcodes} (F : Opcodes.Facts o) (u : Nat) (ops : List Byte) :
    decodeInsn o u (o.key) ops =
      (if ops.length = Config.keyLen then .ok (.key ops.reverse) else .error .operands) := by
  unfold decodeInsn
  rw [if_neg (insn_ne F.eKey F.eLdsB F.s.key F.s.lds (by decide) (by decide) F.dkey_lds)]
  rw [if_neg (insn_ne F.eKey F.eLdsW F.s.key F.s.lds (by decide) (by decide) F.dkey_lds)]
  rw [if_neg (insn_ne F.eKey F.eStsB F.s.key F.s.sts (by decide) (by decide) F.dkey_sts)]
  rw [if_neg (insn_ne F.eKey F.eStsW F.s.key F.s.sts (by decide) (by decide) F.dkey_sts)]
  rw [if_neg (insn_ne F.eKey F.eStP F.s.key F.s.st (by decide) (by decide) F.dkey_st)]
  rw [if_neg (insn_ne F.eKey F.eLdB F.s.key F.s.ld (by decide) (by decide) F.dkey_ld)]
  rw [if_neg (insn_ne F.eKey F.eLdW F.s.key F.s.ld (by decide) (by decide) F.dkey_ld)]
  rw [if_neg (insn_ne F.eKey F.eStB F.s.key F.s.st (by decide) (by decide) F.dkey_st)]
  rw [if_neg (insn_ne F.eKey F.eStW F.s.key F.s.st (by decide) (by decide) F.dkey_st)]
  rw [if_neg (insn_ne F.eKey F.eRep F.s.key F.s.rep (by decide) (by decide) F.dkey_rep)]
  rw [if_pos rfl]
  try rfl

theorem decodeInsn_ldcs {o : Opcodes} (F : Opcodes.Facts o) (u r : Nat) (hr : r ≤ 15) (ops : List Byte) :
    decodeInsn o u (insnLdcs o r) ops =
      (match ops with | [] => .ok (.ldcs r) | _ => .error .operands) := by
  have e : (insnLdcs o r).toNat = o.ldcs.toNat + r := insnIndex_toNat F.s.ldcs hr
  have hm := F.s.ldcs
  unfold decodeInsn
  rw [if_neg (insn_ne e F.eLdsB F.s.ldcs F.s.lds (by omega) (by decide) F.dldcs_lds)]
  rw [if_neg (insn_ne e F.eLdsW F.s.ldcs F.s.lds (by omega) (by decide) F.dldcs_lds)]
  rw [if_neg (insn_ne e F.eStsB F.s.ldcs F.s.sts (by omega) (by decide) F.dldcs_sts)]
  rw [if_neg (insn_ne e F.eStsW F.s.ldcs F.s.sts (by omega) (by decide) F.dldcs_sts)]
  rw [if_neg (insn_ne e F.eStP F.s.ldcs F.s.st (by omega) (by decide) F.dldcs_st)]
  rw [if_neg (insn_ne e F.eLdB F.s.ldcs F.s.ld (by omega) (by decide) F.dldcs_ld)]
  rw [if_neg (insn_ne e F.eLdW F.s.ldcs F.s.ld (by omega) (by decide) F.dldcs_ld)]
  rw [if_neg (insn_ne e F.eStB F.s.ldcs F.s.st (by omega) (by decide) F.dldcs_st)]
  rw [if_neg (insn_ne e F.eStW F.s.ldcs F.s.st (by omega) (by decide) F.dldcs_st)]
  rw [if_neg (insn_ne e F.eRep F.s.ldcs F.s.rep (by omega) (by decide) F.dldcs_rep)]
  rw [if_neg (insn_ne e F.eKey F.s.ldcs F.s.key (by omega) (by decide) F.dldcs_key)]
  rw [if_pos (BitVec.eq_of_toNat_eq (by rw [toNat_and_f0, e]; omega))]
  have : ((insnLdcs o r) &&& 0x0F).toNat = r := by rw [toNat_and_0f, e]; omega
  cases ops <;> first | rfl | simp only [this]

theorem decodeInsn_stcs {o : Opcodes} (F : Opcodes.Facts o) (u r : Nat) (hr : r ≤ 15) (ops : List Byte) :
    decodeInsn o u (insnStcs o r) ops =
      (match ops with | [v] => .ok (.stcs r v) | _ => .error .operands) := by
  have e : (insnStcs o r).toNat = o.stcs.toNat + r := insnIndex_toNat F.s.stcs hr
  have hm := F.s.stcs
  unfold decodeInsn
  rw [if_neg (insn_ne e F.eLdsB F.s.stcs F.s.lds (by omega) (by decide) F.dstcs_lds)]
  rw [if_neg (insn_ne e F.eLdsW F.s.stcs F.s.lds (by omega) (by decide) F.dstcs_lds)]
  rw [if_neg (insn_ne e F.eStsB F.s.stcs F.s.sts (by omega) (by decide) F.dstcs_sts)]
  rw [if_neg (insn_ne e F.eStsW F.s.stcs F.s.sts (by omega) (by decide) F.dstcs_sts)]
  rw [if_neg (insn_ne e F.eStP F.s.stcs F.s.st (by omega) (by decide) F.dstcs_st)]
  rw [if_neg (insn_ne e F.eLdB F.s.stcs F.s.ld (by omega) (by decide) F.dstcs_ld)]
  rw [if_neg (insn_ne e F.eLdW F.s.stcs F.s.ld (by omega) (by decide) F.dstcs_ld)]
  rw [if_neg (insn_ne e F.eStB F.s.stcs F.s.st (by omega) (by decide) F.dstcs_st)]
  rw [if_neg (insn_ne e F.eStW F.s.stcs F.s.st (by omega) (by decide) F.dstcs_st)]
  rw [if_neg (insn_ne e F.eRep F.s.stcs F.s.rep (by omega) (by decide) F.dstcs_rep)]
  rw [if_neg (insn_ne e F.eKey F.s.stcs F.s.key (by omega) (by decide) F.dstcs_key)]
  rw [if_neg (fun h => F.dstcs_ldcs (by have := congrArg BitVec.toNat h; rw [toNat_and_f0, e] at this; have := F.s.ldcs; omega))]
  rw [if_pos (BitVec.eq_of_toNat_eq (by rw [toNat_and_f0, e]; omega))]
  have : ((insnStcs o r) &&& 0x0F).toNat = r := by rw [toNat_and_0f, e]; omega
  rcases ops with _ | ⟨v, _ | _⟩ <;> first | rfl | simp only [this]

end Sys2Proof
end

