-- ==== Sys2Proof/Laws/Memory.lean ====
section
/-! SUPPORT. Byte memories: a read after a write, and the canonical form that every write keeps. -/

namespace Sys2Proof.Machine

@[simp] theorem Memory.read_nil (a : Nat) : Memory.read [] a = none := rfl

theorem Memory.read_cons (c : Host.Cell) (m : Memory) (a : Nat) :
    Memory.read (c :: m) a = if c.1 = a then some c.2 else Memory.read m a := by
  by_cases h : c.1 = a <;> simp [Memory.read, h]

theorem Memory.read_append (m n : Memory) (a : Nat) :
    Memory.read (m ++ n) a = (Memory.read m a).or (Memory.read n a) := by
  induction m with
  | nil => simp
  | cons c m ih => rw [List.cons_append, read_cons, read_cons, ih]; split <;> simp

theorem Memory.read_eq_none {m : Memory} {a : Nat} (h : ∀ c ∈ m, c.1 ≠ a) : Memory.read m a = none := by
  induction m with
  | nil => rfl
  | cons c m ih => rw [read_cons, if_neg (h c (by simp)), ih fun d hd => h d (by simp [hd])]

theorem Memory.read_filter (m : Memory) (p : Nat → Bool) (a : Nat) :
    Memory.read (m.filter (fun c => p c.1)) a = if p a then Memory.read m a else none := by
  induction m with
  | nil => simp
  | cons c m ih =>
    by_cases hp : p c.1
    · rw [List.filter_cons_of_pos (by simpa using hp), read_cons, read_cons, ih]
      by_cases h : c.1 = a
      · subst h; simp [hp]
      · simp [h]
    · rw [List.filter_cons_of_neg (by simpa using hp), ih, read_cons]
      by_cases h : c.1 = a
      · subst h; simp [hp]
      · simp [h]

theorem cellsFrom_bounds {drop : Option Byte} : ∀ {bs : List Byte} {a : Nat} {c : Host.Cell},
    c ∈ cellsFrom drop a bs → a ≤ c.1 ∧ c.1 < a + bs.length
  | b :: bs, a, c, h => by
    unfold cellsFrom at h
    split at h
    · have := cellsFrom_bounds h; simp only [List.length_cons]; omega
    · rcases List.mem_cons.1 h with rfl | h
      · simp
      · have := cellsFrom_bounds h; simp only [List.length_cons]; omega

/-- What the cells of written bytes read as. -/
theorem cellsFrom_read {drop : Option Byte} : ∀ {bs : List Byte} {a i : Nat} {b : Byte}, bs[i]? = some b →
    Memory.read (cellsFrom drop a bs) (a + i) = if drop = some b then none else some b
  | b :: bs, a, 0, x, h => by
    obtain rfl : b = x := by simpa using h
    unfold cellsFrom
    split
    · exact Memory.read_eq_none fun c hc => by have := cellsFrom_bounds hc; omega
    · rw [Memory.read_cons, if_pos (by rfl)]
  | b :: bs, a, i + 1, x, h => by
    have ih := cellsFrom_read (drop := drop) (bs := bs) (a := a + 1) (i := i) (b := x) (by simpa using h)
    rw [show a + 1 + i = a + (i + 1) by omega] at ih
    unfold cellsFrom
    split
    · exact ih
    · rw [Memory.read_cons, if_neg (by simp), ih]

/-- A write leaves every other address alone. -/
theorem Memory.read_write_other {drop : Option Byte} {m : Memory} {a x : Nat} {bs : List Byte}
    (h : x < a ∨ a + bs.length ≤ x) : Memory.read (Memory.write drop m a bs) x = Memory.read m x := by
  have hmid : Memory.read (cellsFrom drop a bs) x = none :=
    Memory.read_eq_none fun c hc => by have := cellsFrom_bounds hc; omega
  unfold Memory.write
  rw [Memory.read_append, Memory.read_append, hmid, Memory.read_filter m (fun n => decide (n < a)),
    Memory.read_filter m (fun n => decide (a + bs.length ≤ n))]
  rcases h with h | h
  · simp [h, show ¬ a + bs.length ≤ x by omega]
  · simp [h, show ¬ x < a by omega]

/-- A read after a write to the same address gives the byte written. -/
theorem Memory.read_write_same {drop : Option Byte} {m : Memory} {a i : Nat} {bs : List Byte} {b : Byte}
    (h : bs[i]? = some b) :
    Memory.read (Memory.write drop m a bs) (a + i) = if drop = some b then none else some b := by
  have hi : i < bs.length := by
    by_contra hn
    rw [List.getElem?_eq_none (by omega)] at h
    simp at h
  unfold Memory.write
  rw [Memory.read_append, Memory.read_append, cellsFrom_read h, Memory.read_filter m (fun n => decide (n < a)),
    Memory.read_filter m (fun n => decide (a + bs.length ≤ n))]
  simp [show ¬ bs.length ≤ i by omega]

theorem Memory.wf_iff {drop : Option Byte} {m : Memory} :
    Memory.wf drop m = true ↔ m.Pairwise (fun c d => c.1 < d.1) ∧ ∀ c ∈ m, drop ≠ some c.2 := by
  simp [Memory.wf]

@[simp] theorem Memory.wf_nil (drop : Option Byte) : Memory.wf drop [] = true := by simp [Memory.wf_iff]

theorem cellsFrom_pairwise (drop : Option Byte) : ∀ (bs : List Byte) (a : Nat),
    (cellsFrom drop a bs).Pairwise (fun c d => c.1 < d.1) ∧ ∀ c ∈ cellsFrom drop a bs, drop ≠ some c.2
  | [], _ => by simp [cellsFrom]
  | b :: bs, a => by
    have ih := cellsFrom_pairwise drop bs (a + 1)
    unfold cellsFrom
    split
    · exact ih
    · rename_i hb
      refine ⟨List.pairwise_cons.2 ⟨fun c hc => by have := cellsFrom_bounds hc; simp; omega, ih.1⟩, fun c hc => ?_⟩
      rcases List.mem_cons.1 hc with rfl | hc
      · exact hb
      · exact ih.2 c hc

/-- Every write keeps the canonical form. -/
theorem Memory.write_wf {drop : Option Byte} {m : Memory} (h : Memory.wf drop m = true) (a : Nat) (bs : List Byte) :
    Memory.wf drop (Memory.write drop m a bs) = true := by
  rw [wf_iff] at *
  obtain ⟨hp, hd⟩ := h
  obtain ⟨kp, kd⟩ := cellsFrom_pairwise drop bs a
  unfold Memory.write
  refine ⟨?_, fun c hc => ?_⟩
  · rw [List.pairwise_append, List.pairwise_append]
    refine ⟨⟨hp.filter _, kp, fun c hc d hd => ?_⟩, hp.filter _, fun c hc d hd => ?_⟩
    · have := cellsFrom_bounds hd
      have := (List.mem_filter.1 hc).2
      simp at this; omega
    · have h2 := (List.mem_filter.1 hd).2
      simp at h2
      rcases List.mem_append.1 hc with hc | hc
      · have := (List.mem_filter.1 hc).2
        simp at this; omega
      · have := cellsFrom_bounds hc
        omega
  · rcases List.mem_append.1 hc with hc | hc
    · rcases List.mem_append.1 hc with hc | hc
      · exact hd c (List.mem_filter.1 hc).1
      · exact kd c hc
    · exact hd c (List.mem_filter.1 hc).1

/-- The addresses of a written memory: old ones, or those written. -/
theorem Memory.mem_write {drop : Option Byte} {m : Memory} {a : Nat} {bs : List Byte} {c : Host.Cell}
    (h : c ∈ Memory.write drop m a bs) : c ∈ m ∨ (a ≤ c.1 ∧ c.1 < a + bs.length) := by
  unfold Memory.write at h
  rcases List.mem_append.1 h with h | h
  · rcases List.mem_append.1 h with h | h
    · exact .inl (List.mem_filter.1 h).1
    · exact .inr (cellsFrom_bounds h)
  · exact .inl (List.mem_filter.1 h).1

/-! ## Views of the memories -/

/-- IMG after a store: the stored bytes, and every other byte as before. -/
theorem Codec.imgByte_write (c : Codec) (a x : Nat) (bs : List Byte) :
    (Memory.read (Memory.write imgDrop c.img a bs) x).getD Config.sentinel =
      if a ≤ x ∧ x < a + bs.length then bs.getD (x - a) Config.sentinel else c.imgByte x := by
  split
  · rename_i h
    obtain ⟨b, hb⟩ : ∃ b, bs[x - a]? = some b := ⟨_, List.getElem?_eq_getElem (by omega)⟩
    have := Memory.read_write_same (drop := imgDrop) (m := c.img) (a := a) hb
    rw [show a + (x - a) = x by omega] at this
    rw [this, List.getD_eq_getElem?_getD, hb]
    unfold imgDrop
    split
    · rename_i hs; simpa using hs
    · simp
  · rw [Memory.read_write_other (by omega)]; rfl

/-- Every byte of the IMG that `txt2hex` writes (R175). -/
theorem imgOf_read (bs : List Byte) (a : Nat) : (Memory.read (imgOf bs) a).getD 0xFF = bs.getD a 0xFF := by
  have h := Codec.imgByte_write Codec.fresh 0 a bs
  have h0 : Codec.fresh.imgByte a = 0xFF := rfl
  rw [h0] at h
  refine Eq.trans h ?_
  split
  · simp only [Nat.sub_zero]; rfl
  · rw [List.getD_eq_getElem?_getD, List.getElem?_eq_none (by omega)]; rfl

/-- T.mem after a store. -/
theorem Target.memByte_putMem (t : Target) (a x : Nat) (bs : List Byte) :
    (t.putMem a bs).memByte x = if a ≤ x ∧ x < a + bs.length then bs.getD (x - a) 0 else t.memByte x := by
  unfold Target.memByte Target.putMem
  split
  · rename_i h
    obtain ⟨b, hb⟩ : ∃ b, bs[x - a]? = some b := ⟨_, List.getElem?_eq_getElem (by omega)⟩
    have := Memory.read_write_same (drop := none) (m := t.mem) (a := a) hb
    rw [show a + (x - a) = x by omega] at this
    simp [this, List.getD_eq_getElem?_getD, hb]
  · rw [Memory.read_write_other (by omega)]

/-- The page buffer after one byte is loaded: AND at its address, every other byte as before (R291). -/
theorem Target.bufByte_bufStore (t : Target) (page : Nat × Nat) (a x : Nat) (v : Byte) :
    (t.bufStore page a v).bufByte x = if x = a then t.bufByte a &&& v else t.bufByte x := by
  have hd : ∀ y, (t.bufStore page a v).bufDefault y = t.bufDefault y := fun _ => rfl
  unfold Target.bufByte
  rw [hd]
  show (Memory.read (Memory.write t.bufDrop t.buf a [t.bufByte a &&& v]) x).getD _ = _
  by_cases h : x = a
  · subst h
    have := Memory.read_write_same (drop := t.bufDrop) (m := t.buf) (a := x) (i := 0)
      (bs := [t.bufByte x &&& v]) (b := t.bufByte x &&& v) rfl
    rw [Nat.add_zero] at this
    rw [this, if_pos rfl]
    unfold Target.bufByte Target.bufDrop Target.bufDefault at *
    cases hb : t.bufBase
    · simp_all
      split
      · assumption
      · rfl
    · simp_all
  · rw [Memory.read_write_other (by simp; omega), if_neg h]

/-! ## The canonical form is kept by every operation of the target -/

/-- The target's memories are in canonical form. -/
def Target.memOk (t : Target) : Prop := Memory.wf none t.mem = true ∧ Memory.wf t.bufDrop t.buf = true

theorem Target.putMem_memOk {t : Target} (h : t.memOk) (a : Nat) (bs : List Byte) : (t.putMem a bs).memOk :=
  ⟨Memory.write_wf h.1 a bs, h.2⟩

theorem Target.bufStore_memOk {t : Target} (h : t.memOk) (page : Nat × Nat) (a : Nat) (v : Byte) :
    (t.bufStore page a v).memOk := ⟨h.1, Memory.write_wf h.2 a _⟩

theorem Target.updiReset_memOk {t : Target} (h : t.memOk) (d : Nat) : (t.updiReset d).memOk := h

theorem Target.polledBytes_memOk {p : Params} {pr : Profile} {t : Target} {a : Word} {n : Nat} (h : t.memOk) :
    (t.polledBytes p pr a n).memOk := by
  induction n with
  | zero => exact h
  | succ n ih => unfold polledBytes polled; split <;> exact ih

theorem Target.lost_memOk (d : Nat) (t : Target) : (t.lost d).memOk := ⟨Memory.wf_nil _, Memory.wf_nil _⟩

theorem Target.command_memOk {p : Params} {d : Nat} {t : Target} {c : Byte} (h : t.memOk) : (t.command p d c).memOk := by
  unfold Target.command
  simp only
  repeat' split
  · exact ⟨Memory.write_wf h.1 _ _, Memory.wf_nil _⟩
  · exact ⟨Memory.write_wf h.1 _ _, Memory.wf_nil _⟩
  · exact ⟨h.1, Memory.wf_nil _⟩
  · exact ⟨Memory.write_wf h.1 _ _, h.2⟩
  · exact Target.lost_memOk _ _

theorem Target.store_memOk {p : Params} {pr : Profile} {d : Nat} {t : Target} {a : Word} {v : Byte} (h : t.memOk) :
    (t.store p pr d a v).memOk := by
  unfold Target.store
  repeat' split
  · exact Target.command_memOk h
  · exact h
  · exact h
  · exact h
  · exact Target.bufStore_memOk h _ _ _
  · exact Target.putMem_memOk h _ _

theorem Target.storeBytes_memOk {p : Params} {pr : Profile} {d : Nat} : ∀ {bs : List Byte} {t : Target} {a : Word},
    t.memOk → (t.storeBytes p pr d a bs).memOk
  | [], _, _, h => h
  | b :: bs, t, a, h => by
    unfold Target.storeBytes
    exact Target.storeBytes_memOk (Target.store_memOk h)

theorem Target.resetToggle_memOk {pr : Profile} {d : Nat} {t : Target} (h : t.memOk) : (t.resetToggle pr d).memOk := by
  refine ⟨?_, Memory.wf_nil _⟩
  unfold Target.resetToggle
  by_cases hk : t.keyErase
  · simp only [hk, if_true]
    exact Memory.write_wf (Memory.write_wf h.1 _ _) _ _
  · simp only [hk]
    exact h.1

theorem Target.csWrite_memOk {p : Params} {pr : Profile} {d : Nat} {t : Target} {r : Nat} {v : Byte} (h : t.memOk) :
    (t.csWrite p pr d r v).memOk := by
  unfold Target.csWrite
  simp only
  repeat' split
  · exact h
  · exact Target.resetToggle_memOk h
  · exact h
  · exact Target.putMem_memOk (t := t.csPut r v) h _ _
  · exact h
  · exact h

theorem Target.acceptKey_memOk {p : Params} {t : Target} {k : List Byte} (h : t.memOk) : (t.acceptKey p k).memOk := by
  unfold Target.acceptKey
  repeat' split
  all_goals exact h

end Sys2Proof.Machine
end

