-- ==== Sys2Proof/Laws/State.lean ====
section
/-! SUPPORT. One lemma per field of State per small update, true by unfolding, so that no proof unfolds a record update. -/

namespace Sys2Proof.Machine

@[simp] theorem State.setResp_params (s : State) (bs : List Byte) : (s.setResp bs).params = s.params := rfl
@[simp] theorem State.setResp_codec (s : State) (bs : List Byte) : (s.setResp bs).codec = s.codec := rfl
@[simp] theorem State.setResp_session (s : State) (bs : List Byte) : (s.setResp bs).session = s.session := rfl
@[simp] theorem State.setResp_nvm (s : State) (bs : List Byte) : (s.setResp bs).nvm = s.nvm := rfl
@[simp] theorem State.setResp_target (s : State) (bs : List Byte) : (s.setResp bs).target = s.target := rfl
@[simp] theorem State.setResp_wire (s : State) (bs : List Byte) : (s.setResp bs).wire = { s.wire with resp := bs } := rfl
@[simp] theorem State.setResp_ctl (s : State) (bs : List Byte) : (s.setResp bs).ctl = s.ctl := rfl
@[simp] theorem State.bump_params (s : State) : (s.bump).params = s.params := rfl
@[simp] theorem State.bump_codec (s : State) : (s.bump).codec = s.codec := rfl
@[simp] theorem State.bump_session (s : State) : (s.bump).session = s.session := rfl
@[simp] theorem State.bump_nvm (s : State) : (s.bump).nvm = s.nvm := rfl
@[simp] theorem State.bump_target (s : State) : (s.bump).target = s.target := rfl
@[simp] theorem State.bump_wire (s : State) : (s.bump).wire = { s.wire with draws := s.wire.draws + 1 } := rfl
@[simp] theorem State.bump_ctl (s : State) : (s.bump).ctl = s.ctl := rfl
@[simp] theorem State.setTarget_params (s : State) (t : Target) : (s.setTarget t).params = s.params := rfl
@[simp] theorem State.setTarget_codec (s : State) (t : Target) : (s.setTarget t).codec = s.codec := rfl
@[simp] theorem State.setTarget_session (s : State) (t : Target) : (s.setTarget t).session = s.session := rfl
@[simp] theorem State.setTarget_nvm (s : State) (t : Target) : (s.setTarget t).nvm = s.nvm := rfl
@[simp] theorem State.setTarget_target (s : State) (t : Target) : (s.setTarget t).target = t := rfl
@[simp] theorem State.setTarget_wire (s : State) (t : Target) : (s.setTarget t).wire = s.wire := rfl
@[simp] theorem State.setTarget_ctl (s : State) (t : Target) : (s.setTarget t).ctl = s.ctl := rfl
@[simp] theorem State.setTodo_params (s : State) (ms : List Micro) : (s.setTodo ms).params = s.params := rfl
@[simp] theorem State.setTodo_codec (s : State) (ms : List Micro) : (s.setTodo ms).codec = s.codec := rfl
@[simp] theorem State.setTodo_session (s : State) (ms : List Micro) : (s.setTodo ms).session = s.session := rfl
@[simp] theorem State.setTodo_nvm (s : State) (ms : List Micro) : (s.setTodo ms).nvm = s.nvm := rfl
@[simp] theorem State.setTodo_target (s : State) (ms : List Micro) : (s.setTodo ms).target = s.target := rfl
@[simp] theorem State.setTodo_wire (s : State) (ms : List Micro) : (s.setTodo ms).wire = s.wire := rfl
@[simp] theorem State.setTodo_ctl (s : State) (ms : List Micro) : (s.setTodo ms).ctl = { s.ctl with todo := ms } := rfl
@[simp] theorem State.setLink_params (s : State) (l : LinkState) : (s.setLink l).params = s.params := rfl
@[simp] theorem State.setLink_codec (s : State) (l : LinkState) : (s.setLink l).codec = s.codec := rfl
@[simp] theorem State.setLink_session (s : State) (l : LinkState) : (s.setLink l).session = { s.session with linkState := l } := rfl
@[simp] theorem State.setLink_nvm (s : State) (l : LinkState) : (s.setLink l).nvm = s.nvm := rfl
@[simp] theorem State.setLink_target (s : State) (l : LinkState) : (s.setLink l).target = s.target := rfl
@[simp] theorem State.setLink_wire (s : State) (l : LinkState) : (s.setLink l).wire = s.wire := rfl
@[simp] theorem State.setLink_ctl (s : State) (l : LinkState) : (s.setLink l).ctl = s.ctl := rfl
@[simp] theorem State.setCodec_params (s : State) (c : Codec) : (s.setCodec c).params = s.params := rfl
@[simp] theorem State.setCodec_codec (s : State) (c : Codec) : (s.setCodec c).codec = c := rfl
@[simp] theorem State.setCodec_session (s : State) (c : Codec) : (s.setCodec c).session = s.session := rfl
@[simp] theorem State.setCodec_nvm (s : State) (c : Codec) : (s.setCodec c).nvm = s.nvm := rfl
@[simp] theorem State.setCodec_target (s : State) (c : Codec) : (s.setCodec c).target = s.target := rfl
@[simp] theorem State.setCodec_wire (s : State) (c : Codec) : (s.setCodec c).wire = s.wire := rfl
@[simp] theorem State.setCodec_ctl (s : State) (c : Codec) : (s.setCodec c).ctl = s.ctl := rfl
@[simp] theorem State.setNvm_params (s : State) (n : Nvm) : (s.setNvm n).params = s.params := rfl
@[simp] theorem State.setNvm_codec (s : State) (n : Nvm) : (s.setNvm n).codec = s.codec := rfl
@[simp] theorem State.setNvm_session (s : State) (n : Nvm) : (s.setNvm n).session = s.session := rfl
@[simp] theorem State.setNvm_nvm (s : State) (n : Nvm) : (s.setNvm n).nvm = n := rfl
@[simp] theorem State.setNvm_target (s : State) (n : Nvm) : (s.setNvm n).target = s.target := rfl
@[simp] theorem State.setNvm_wire (s : State) (n : Nvm) : (s.setNvm n).wire = s.wire := rfl
@[simp] theorem State.setNvm_ctl (s : State) (n : Nvm) : (s.setNvm n).ctl = s.ctl := rfl
@[simp] theorem State.setPollAttempt_params (s : State) (n : Nat) : (s.setPollAttempt n).params = s.params := rfl
@[simp] theorem State.setPollAttempt_codec (s : State) (n : Nat) : (s.setPollAttempt n).codec = s.codec := rfl
@[simp] theorem State.setPollAttempt_session (s : State) (n : Nat) : (s.setPollAttempt n).session = s.session := rfl
@[simp] theorem State.setPollAttempt_nvm (s : State) (n : Nat) : (s.setPollAttempt n).nvm = s.nvm := rfl
@[simp] theorem State.setPollAttempt_target (s : State) (n : Nat) : (s.setPollAttempt n).target = s.target := rfl
@[simp] theorem State.setPollAttempt_wire (s : State) (n : Nat) : (s.setPollAttempt n).wire = s.wire := rfl
@[simp] theorem State.setPollAttempt_ctl (s : State) (n : Nat) : (s.setPollAttempt n).ctl = { s.ctl with pollAttempt := n } := rfl
@[simp] theorem State.setInitRound_params (s : State) (n : Nat) : (s.setInitRound n).params = s.params := rfl
@[simp] theorem State.setInitRound_codec (s : State) (n : Nat) : (s.setInitRound n).codec = s.codec := rfl
@[simp] theorem State.setInitRound_session (s : State) (n : Nat) : (s.setInitRound n).session = s.session := rfl
@[simp] theorem State.setInitRound_nvm (s : State) (n : Nat) : (s.setInitRound n).nvm = s.nvm := rfl
@[simp] theorem State.setInitRound_target (s : State) (n : Nat) : (s.setInitRound n).target = s.target := rfl
@[simp] theorem State.setInitRound_wire (s : State) (n : Nat) : (s.setInitRound n).wire = s.wire := rfl
@[simp] theorem State.setInitRound_ctl (s : State) (n : Nat) : (s.setInitRound n).ctl = { s.ctl with initRound := n } := rfl
@[simp] theorem State.setLine_params (s : State) (b n : Nat) : (s.setLine b n).params = s.params := rfl
@[simp] theorem State.setLine_codec (s : State) (b n : Nat) : (s.setLine b n).codec = s.codec := rfl
@[simp] theorem State.setLine_session (s : State) (b n : Nat) : (s.setLine b n).session = { s.session with baud := b, stopBits := n } := rfl
@[simp] theorem State.setLine_nvm (s : State) (b n : Nat) : (s.setLine b n).nvm = s.nvm := rfl
@[simp] theorem State.setLine_target (s : State) (b n : Nat) : (s.setLine b n).target = s.target := rfl
@[simp] theorem State.setLine_wire (s : State) (b n : Nat) : (s.setLine b n).wire = s.wire := rfl
@[simp] theorem State.setLine_ctl (s : State) (b n : Nat) : (s.setLine b n).ctl = s.ctl := rfl
@[simp] theorem onTarget_params (s : State) (f : Nat → Target → Target) : (onTarget s f).params = s.params := rfl
@[simp] theorem onTarget_codec (s : State) (f : Nat → Target → Target) : (onTarget s f).codec = s.codec := rfl
@[simp] theorem onTarget_session (s : State) (f : Nat → Target → Target) : (onTarget s f).session = s.session := rfl
@[simp] theorem onTarget_nvm (s : State) (f : Nat → Target → Target) : (onTarget s f).nvm = s.nvm := rfl
@[simp] theorem onTarget_target (s : State) (f : Nat → Target → Target) : (onTarget s f).target = f s.wire.draws s.target := rfl
@[simp] theorem onTarget_wire (s : State) (f : Nat → Target → Target) : (onTarget s f).wire = { s.wire with draws := s.wire.draws + 1 } := rfl
@[simp] theorem onTarget_ctl (s : State) (f : Nat → Target → Target) : (onTarget s f).ctl = s.ctl := rfl
@[simp] theorem closeLink_params (s : State) : (closeLink s).params = s.params := rfl
@[simp] theorem closeLink_codec (s : State) : (closeLink s).codec = s.codec := rfl
@[simp] theorem closeLink_session (s : State) : (closeLink s).session = { s.session with linkState := .closed, transportOpen := false } := rfl
@[simp] theorem closeLink_nvm (s : State) : (closeLink s).nvm = s.nvm := rfl
@[simp] theorem closeLink_target (s : State) : (closeLink s).target = s.target := rfl
@[simp] theorem closeLink_wire (s : State) : (closeLink s).wire = s.wire := rfl
@[simp] theorem closeLink_ctl (s : State) : (closeLink s).ctl = s.ctl := rfl
@[simp] theorem endWith_params (r : Option Result) (s : State) : (endWith r s).params = s.params := rfl
@[simp] theorem endWith_codec (r : Option Result) (s : State) : (endWith r s).codec = s.codec := rfl
@[simp] theorem endWith_session (r : Option Result) (s : State) : (endWith r s).session = s.session := rfl
@[simp] theorem endWith_nvm (r : Option Result) (s : State) : (endWith r s).nvm = s.nvm := rfl
@[simp] theorem endWith_target (r : Option Result) (s : State) : (endWith r s).target = s.target := rfl
@[simp] theorem endWith_wire (r : Option Result) (s : State) : (endWith r s).wire = s.wire := rfl
@[simp] theorem endWith_ctl (r : Option Result) (s : State) : (endWith r s).ctl = { s.ctl with todo := [], result := r } := rfl
@[simp] theorem finish_params (r : Result) (s : State) : (finish r s).params = s.params := rfl
@[simp] theorem finish_codec (r : Result) (s : State) : (finish r s).codec = s.codec := rfl
@[simp] theorem finish_session (r : Result) (s : State) : (finish r s).session = s.session := rfl
@[simp] theorem finish_nvm (r : Result) (s : State) : (finish r s).nvm = s.nvm := rfl
@[simp] theorem finish_target (r : Result) (s : State) : (finish r s).target = s.target := rfl
@[simp] theorem finish_wire (r : Result) (s : State) : (finish r s).wire = s.wire := rfl
@[simp] theorem finish_ctl (r : Result) (s : State) : (finish r s).ctl = { s.ctl with todo := [], result := some r } := rfl
@[simp] theorem latchFailed_params (e : Error) (s : State) : (latchFailed e s).params = s.params := rfl
@[simp] theorem latchFailed_codec (e : Error) (s : State) : (latchFailed e s).codec = s.codec := rfl
@[simp] theorem latchFailed_session (e : Error) (s : State) : (latchFailed e s).session = { s.session with failed := some e } := rfl
@[simp] theorem latchFailed_nvm (e : Error) (s : State) : (latchFailed e s).nvm = s.nvm := rfl
@[simp] theorem latchFailed_target (e : Error) (s : State) : (latchFailed e s).target = s.target := rfl
@[simp] theorem latchFailed_wire (e : Error) (s : State) : (latchFailed e s).wire = s.wire := rfl
@[simp] theorem latchFailed_ctl (e : Error) (s : State) : (latchFailed e s).ctl = s.ctl := rfl

/-! ## Entries of the errors -/

@[simp] theorem abandonPage_params (s : State) : (abandonPage s).params = s.params := by
  unfold abandonPage; split <;> rfl
@[simp] theorem abandonPage_codec (s : State) : (abandonPage s).codec = s.codec := by
  unfold abandonPage; split <;> rfl
@[simp] theorem abandonPage_session (s : State) : (abandonPage s).session = s.session := by
  unfold abandonPage; split <;> rfl
@[simp] theorem abandonPage_ctl (s : State) : (abandonPage s).ctl = s.ctl := by
  unfold abandonPage; split <;> rfl
@[simp] theorem abandonPage_sent (s : State) : (abandonPage s).wire.sent = s.wire.sent := by
  unfold abandonPage; split <;> rfl
@[simp] theorem abandonPage_script (s : State) : (abandonPage s).wire.script = s.wire.script := by
  unfold abandonPage; split <;> rfl
@[simp] theorem abandonPage_recvAttempt (s : State) : (abandonPage s).wire.recvAttempt = s.wire.recvAttempt := by
  unfold abandonPage; split <;> rfl
@[simp] theorem abandonPage_region (s : State) : (abandonPage s).nvm.region = s.nvm.region := by
  unfold abandonPage; split <;> rfl
@[simp] theorem abandonPage_p (s : State) : (abandonPage s).nvm.p = s.nvm.p := by
  unfold abandonPage; split <;> rfl
@[simp] theorem abandonPage_buf (s : State) : (abandonPage s).target.buf = s.target.buf := by
  unfold abandonPage; split <;> rfl
@[simp] theorem abandonPage_bufBase (s : State) : (abandonPage s).target.bufBase = s.target.bufBase := by
  unfold abandonPage; split <;> rfl

/-- Outside a page in progress an abandoned operation leaves everything. -/
theorem abandonPage_of_none {s : State} (h : s.nvm.openPage = none) : abandonPage s = s := by
  unfold abandonPage; rw [h]

@[simp] theorem codecTick_params (s : State) : (codecTick s).params = s.params := by
  unfold codecTick; split <;> rfl
@[simp] theorem codecTick_codec (s : State) : (codecTick s).codec = s.codec := by
  unfold codecTick; split <;> rfl
@[simp] theorem codecTick_session (s : State) : (codecTick s).session = s.session := by
  unfold codecTick; split <;> rfl
@[simp] theorem codecTick_nvm (s : State) : (codecTick s).nvm = s.nvm := by
  unfold codecTick; split <;> rfl
@[simp] theorem codecTick_target (s : State) : (codecTick s).target = s.target := by
  unfold codecTick; split <;> rfl
@[simp] theorem codecTick_ctl (s : State) : (codecTick s).ctl = s.ctl := by
  unfold codecTick; split <;> rfl
@[simp] theorem codecTick_sent (s : State) : (codecTick s).wire.sent = s.wire.sent := by
  unfold codecTick; split <;> rfl
@[simp] theorem codecTick_recvAttempt (s : State) : (codecTick s).wire.recvAttempt = s.wire.recvAttempt := by
  unfold codecTick; split <;> rfl

/-- No interruption is on its way: a codec step leaves the wire. -/
theorem codecTick_of_none {s : State} (h : s.wire.irq = none) : codecTick s = s := by
  unfold codecTick; rw [h]

/-- The fatal entry, whole (R313). -/
theorem takeError_of_fatal {e : Error} (h : e.fatal = true) (s : State) :
    takeError e s = endWith (some (.error e)) (closeLink (abandonPage (latchFailed e s))) := by
  cases e <;> first | rfl | simp [Error.fatal] at h

@[simp] theorem takeError_params (e : Error) (s : State) : (takeError e s).params = s.params := by
  cases e <;> simp [takeError]
@[simp] theorem takeError_todo (e : Error) (s : State) : (takeError e s).ctl.todo = [] := by
  cases e <;> simp [takeError]
@[simp] theorem takeError_result (e : Error) (s : State) : (takeError e s).ctl.result = some (.error e) := by
  cases e <;> simp [takeError]
@[simp] theorem takeError_script (e : Error) (s : State) : (takeError e s).wire.script = s.wire.script := by
  cases e <;> simp [takeError, latchFailed]

@[simp] theorem takeError_recvAttempt (e : Error) (s : State) : (takeError e s).wire.recvAttempt = s.wire.recvAttempt := by
  cases e <;> simp [takeError, latchFailed]

@[simp] theorem takeError_sent (e : Error) (s : State) : (takeError e s).wire.sent = s.wire.sent := by
  cases e <;> simp [takeError, latchFailed]

end Sys2Proof.Machine
end

