-- ==== Sys2Proof/Laws/Codec.lean ====
section
/-! SUPPORT. Steps of an operation in progress, the cursor over lines, and what the meanings of records can do. -/

namespace Sys2Proof.Machine

/-- A step with an operation in progress runs its next micro-operation. -/
theorem step_micro {s : State} {m : Micro} {rest : List Micro} (h : s.running) (ht : s.ctl.todo = m :: rest) :
    step s = runMicro m (s.setTodo rest) := by simp [step, stepBody, h.1, h.2, ht]

/-- A step with no operation in progress is HOST's turn. -/
theorem step_host {s : State} (h : s.running) (ht : s.ctl.todo = []) : step s = hostTurn s := by
  simp [step, stepBody, h.1, h.2, ht]

theorem run_succ {s t : State} (h : step s = .next t) (n : Nat) : run (n + 1) s = run n t := by
  conv_lhs => unfold run
  rw [h]

theorem run_add {m n : Nat} {s t : State} (h : run m s = .next t) : run (m + n) s = run n t := by
  induction m generalizing s with
  | zero => injection h with h; subst h; simp
  | succ m ih =>
    unfold run at h
    rw [show m + 1 + n = (m + n) + 1 by omega]
    conv_lhs => unfold run
    split at h
    · exact ih h
    · simp at h
    · simp at h

theorem setTodo_setTodo {s : State} {ms : List Micro} (h : s.ctl.todo = ms) (rest : List Micro) :
    (s.setTodo rest).setTodo ms = s := by subst h; rfl

/-! ## The cursor -/

theorem takeWhile_length_le {α : Type} (p : α → Bool) (l : List α) : (l.takeWhile p).length ≤ l.length :=
  (List.takeWhile_sublist p).length_le

theorem lineAt_length_le (f : List Byte) (pos : Nat) (h : pos ≤ f.length) : pos + (lineAt f pos).length ≤ f.length := by
  have := takeWhile_length_le (fun c => !isTerminator c) (f.drop pos)
  rw [List.length_drop] at this
  unfold lineAt; omega

theorem skipTerminators_le {f : List Byte} {pos : Nat} (h : pos ≤ f.length) : skipTerminators f pos ≤ f.length := by
  have := takeWhile_length_le isTerminator (f.drop pos)
  rw [List.length_drop] at this
  unfold skipTerminators; omega

/-- The cursor never leaves the file (R25). -/
theorem nextLinePos_le {f : List Byte} {pos : Nat} (h : pos ≤ f.length) : nextLinePos f pos ≤ f.length :=
  skipTerminators_le (lineAt_length_le f pos h)

/-- The cursor moves past the line (R157). -/
theorem nextLinePos_gt {f : List Byte} {pos : Nat} (h : lineAt f pos ≠ []) : pos < nextLinePos f pos := by
  have : 0 < (lineAt f pos).length := List.length_pos_iff.2 h
  unfold nextLinePos skipTerminators; omega

theorem lineAt_ne_nil {f : List Byte} {pos : Nat} {r : HexRecord} (h : decodeRecord (lineAt f pos) = .ok r) :
    lineAt f pos ≠ [] := by
  intro hn
  rw [hn] at h
  simp [decodeRecord, decodeFields, Config.lineMin] at h

/-! ## Meanings of records -/

/-- A record either ends the operation with a `FormatError` or changes the codec only, and not its file and cursor. -/
theorem exec_record (r : HexRecord) (s : State) :
    (∃ e, exec (Instr.ofRecord r) s = .next (takeError (.format e) s)) ∨
      ∃ c, exec (Instr.ofRecord r) s = .next (s.setCodec c) ∧ c.file = s.codec.file ∧ c.pos = s.codec.pos ∧
        c.rangeA = s.codec.rangeA ∧ c.k = s.codec.k ∧ c.length = s.codec.length := by
  unfold Instr.ofRecord
  repeat' split
  · by_cases h : s.params.imgCap < recordBase s.codec.offset r.aaaa + r.dd.length
    · exact .inl ⟨_, by simp only [exec, execData]; rw [if_pos h]⟩
    · exact .inr ⟨s.codec.store (recordBase s.codec.offset r.aaaa) r.dd, by simp only [exec, execData]; rw [if_neg h], rfl,
        rfl, rfl, rfl, rfl⟩
  · exact .inr ⟨_, rfl, rfl, rfl, rfl, rfl, rfl⟩
  · cases h : extValue r.dd with
    | none => exact .inl ⟨_, by simp only [exec, execEsa, extRecord, h]; rfl⟩
    | some v =>
      exact .inr ⟨{ s.codec with offset := BitVec.ofNat 32 (v * 16) }, by simp only [exec, execEsa, extRecord, h], rfl, rfl,
        rfl, rfl, rfl⟩
  · exact .inr ⟨s.codec, rfl, rfl, rfl, rfl, rfl, rfl⟩
  · cases h : extValue r.dd with
    | none => exact .inl ⟨_, by simp only [exec, execEla, extRecord, h]; rfl⟩
    | some v =>
      exact .inr ⟨{ s.codec with offset := BitVec.ofNat 32 (v * 65536) }, by simp only [exec, execEla, extRecord, h], rfl, rfl,
        rfl, rfl, rfl⟩
  · exact .inl ⟨_, rfl⟩

/-- `runRecord` on a line that passes its checks. -/
theorem runRecord_ok {s t : State} {r : HexRecord} (h : decodeRecord (lineAt s.codec.file s.codec.pos) = .ok r)
    (ht : exec (Instr.ofRecord r) (s.setCodec { s.codec with record := r }) = .next t) :
    runRecord s = .next (advancePos t) := by
  unfold runRecord
  rw [h]
  simp only
  rw [ht]

/-! ## A line written by the encoder -/

theorem isTerminator_hexDigit : ∀ n < 16, isTerminator (hexDigit n) = false := by decide

theorem isTerminator_hex2 {b c : Byte} (hc : c ∈ hex2 b) : isTerminator c = false := by
  simp only [hex2, List.mem_cons, List.not_mem_nil, or_false] at hc
  rcases hc with rfl | rfl
  · exact isTerminator_hexDigit _ (by have := b.isLt; omega)
  · exact isTerminator_hexDigit _ (Nat.mod_lt _ (by omega))

/-- No character of an encoded line is a terminator. -/
theorem isTerminator_encodeLine {rr : Byte} {a : Word} {dd : List Byte} {c : Byte} (hc : c ∈ encodeLine rr a dd) :
    isTerminator c = false := by
  simp only [encodeLine, hex4, List.mem_cons, List.mem_append, List.mem_flatMap] at hc
  rcases hc with rfl | (((hc | hc | hc) | hc) | ⟨b, -, hc⟩) | hc
  · decide
  all_goals exact isTerminator_hex2 hc

theorem encodeLine_length (rr : Byte) (a : Word) (dd : List Byte) : (encodeLine rr a dd).length = 11 + 2 * dd.length := by
  simp only [encodeLine, hex4, hex2_length, flatMap_hex2_length, List.length_append, List.length_cons]; omega

end Sys2Proof.Machine
end

