-- ==== Sys2Proof/Laws/Comm.lean ====
section
/-! SUPPORT. What the transport primitives and the phases of a frame do (spec/42_updi_link.md rules R200 to R202): once for
an environment that answers rightly, once for one that answers wrongly, once for any environment. -/

namespace Sys2Proof.Machine

@[simp] theorem Comm.bind_ok {α β : Type} (v : α) (s : State) (f : α → State → Comm β) : (Comm.ok v s).bind f = f v s := rfl
@[simp] theorem Comm.bind_stop {α β : Type} (s : State) (f : α → State → Comm β) :
    (Comm.stop s : Comm α).bind f = .stop s := rfl
@[simp] theorem Comm.final_ok {α : Type} (v : α) (s : State) : (Comm.ok v s).final = s := rfl
@[simp] theorem Comm.final_stop {α : Type} (s : State) : (Comm.stop s : Comm α).final = s := rfl

theorem Comm.bind_assoc {α β γ : Type} (c : Comm α) (f : α → State → Comm β) (g : β → State → Comm γ) :
    (c.bind f).bind g = c.bind fun v s => (f v s).bind g := by cases c <;> rfl

/-- On a link that is up a frame is its communication's end state. -/
theorem onLink_up {s : State} (h : linkUp s.session = true) (body : State → Comm Unit) :
    onLink s body = .next (body s).final := by simp [onLink, h]

theorem tick_none {s : State} (h : s.wire.irq = none) : tick s = .ok () s := by simp [tick, h]

/-- The wire after bytes went out and the answers to them came in. -/
def State.sentOut (s : State) (bs : List Byte) (rest : List Answer) : State :=
  { s with wire := { s.wire with sent := s.wire.sent ++ s.onWire bs, script := rest, recvAttempt := 1 } }

/-- The wire after one receive attempt was answered. -/
def State.received (s : State) (rest : List Answer) : State :=
  { s with wire := { s.wire with script := rest, recvAttempt := 1 } }

@[simp] theorem sentOut_params (s : State) (bs : List Byte) (r : List Answer) : (s.sentOut bs r).params = s.params := rfl
@[simp] theorem sentOut_session (s : State) (bs : List Byte) (r : List Answer) : (s.sentOut bs r).session = s.session := rfl
@[simp] theorem sentOut_codec (s : State) (bs : List Byte) (r : List Answer) : (s.sentOut bs r).codec = s.codec := rfl
@[simp] theorem sentOut_nvm (s : State) (bs : List Byte) (r : List Answer) : (s.sentOut bs r).nvm = s.nvm := rfl
@[simp] theorem sentOut_target (s : State) (bs : List Byte) (r : List Answer) : (s.sentOut bs r).target = s.target := rfl
@[simp] theorem sentOut_ctl (s : State) (bs : List Byte) (r : List Answer) : (s.sentOut bs r).ctl = s.ctl := rfl
@[simp] theorem sentOut_wire (s : State) (bs : List Byte) (r : List Answer) :
    (s.sentOut bs r).wire = { s.wire with sent := s.wire.sent ++ s.onWire bs, script := r, recvAttempt := 1 } := rfl
@[simp] theorem received_params (s : State) (r : List Answer) : (s.received r).params = s.params := rfl
@[simp] theorem received_session (s : State) (r : List Answer) : (s.received r).session = s.session := rfl
@[simp] theorem received_codec (s : State) (r : List Answer) : (s.received r).codec = s.codec := rfl
@[simp] theorem received_nvm (s : State) (r : List Answer) : (s.received r).nvm = s.nvm := rfl
@[simp] theorem received_target (s : State) (r : List Answer) : (s.received r).target = s.target := rfl
@[simp] theorem received_ctl (s : State) (r : List Answer) : (s.received r).ctl = s.ctl := rfl
@[simp] theorem received_wire (s : State) (r : List Answer) :
    (s.received r).wire = { s.wire with script := r, recvAttempt := 1 } := rfl

/-! ## Right answers -/

/-- One attempt that delivers all that was asked ends `recv`. -/
theorem recv_delivers {s : State} {a : Answer} {owed got : List Byte} {rest : List Answer} {len : Nat}
    (hq : s.wire.irq = none) (hp : 1 ≤ s.params.recvAttempts) (hs : s.wire.script = a :: rest)
    (hd : Delivers a owed got) (hl : got.length = len) (h1 : 1 ≤ len) :
    recv len owed s = .ok got (s.received rest) := by
  obtain ⟨n, hn⟩ : ∃ n, s.params.recvAttempts = n + 1 := ⟨_, (Nat.sub_add_cancel hp).symm⟩
  have hb : answerBytes a len owed = some got := by
    rcases hd with ⟨rfl, rfl⟩ | rfl <;> simp [answerBytes, ← hl]
  have h0 : ¬ len ≤ 0 := by omega
  unfold recv
  rw [hn]
  unfold recvLoop
  rw [if_neg (by simpa using h0), tick_none (by simpa using hq)]
  simp only [Comm.bind_ok, rxDraw, hs, List.length_nil, Nat.sub_zero, List.drop_zero, hb, List.nil_append]
  unfold recvLoop
  cases n <;> simp [hl, State.received]

/-- The loop of `recv` over pieces that all come, down to what ends it. -/
theorem recvLoop_pieces : ∀ (pieces : List (List Byte)) (fuel len : Nat) (owed got : List Byte) (ended rest : List Answer)
    (s : State), s.wire.irq = none → s.wire.script = pieces.map .bytes ++ ended →
    (pieces = [] ∨ got.length + pieces.dropLast.flatten.length < len) → got.length + pieces.flatten.length ≤ len →
    pieces.length ≤ fuel →
    ((ended = rest ∧ (got.length + pieces.flatten.length = len ∨ pieces.length = fuel)) ∨
      (ended = .error :: rest ∧ got.length + pieces.flatten.length < len ∧ pieces.length < fuel)) →
    recvLoop fuel len owed got s =
      .ok (got ++ pieces.flatten)
        { s with wire := { s.wire with script := rest, recvAttempt := s.wire.recvAttempt + pieces.length } }
  | [], fuel, len, owed, got, ended, rest, s, hq, hs, _, _, _, he => by
    simp only [List.map_nil, List.nil_append] at hs
    simp only [List.flatten_nil, List.length_nil, Nat.add_zero, List.append_nil] at he ⊢
    rcases he with ⟨rfl, he⟩ | ⟨rfl, hl, hf⟩
    · have : recvLoop fuel len owed got s = .ok got s := by
        cases fuel with
        | zero => rfl
        | succ n => unfold recvLoop; rw [if_pos (by omega)]
      rw [this, ← hs]
    · obtain ⟨n, rfl⟩ : ∃ n, fuel = n + 1 := ⟨fuel - 1, by omega⟩
      unfold recvLoop
      rw [if_neg (by omega), tick_none hq]
      simp [rxDraw, hs, answerBytes]
  | p :: ps, fuel, len, owed, got, ended, rest, s, hq, hs, hw, hf, hb, he => by
    obtain ⟨n, rfl⟩ : ∃ n, fuel = n + 1 := ⟨fuel - 1, by simp at hb; omega⟩
    have hw' : got.length < len := by
      rcases hw with h | h
      · simp at h
      · omega
    have hp : got.length + p.length ≤ len := by simp at hf; omega
    unfold recvLoop
    rw [if_neg (by omega), tick_none hq]
    have hs' : s.wire.script = .bytes p :: (ps.map .bytes ++ ended) := by simpa using hs
    simp only [Comm.bind_ok, rxDraw, hs', answerBytes, List.take_of_length_le (show p.length ≤ len - got.length by omega)]
    rw [recvLoop_pieces ps n len owed (got ++ p) ended rest _ (by exact hq) rfl ?_ ?_ ?_ ?_]
    · simp [Nat.add_assoc, Nat.add_comm 1]
    · cases ps with
      | nil => exact .inl rfl
      | cons q qs =>
        right
        rcases hw with h | h
        · simp at h
        · simpa [Nat.add_assoc] using h
    · simpa [Nat.add_assoc] using hf
    · simpa using hb
    · simpa [Nat.add_assoc] using he

/-- `recv` from an environment that answers in pieces: what came, after as many attempts (R201). -/
theorem recv_receives {s : State} {n : Nat} {owed : List Byte} {pieces : List (List Byte)} {as rest : List Answer}
    (hq : s.wire.irq = none) (h : Receives s.params.recvAttempts n pieces as) (hs : s.wire.script = as ++ rest) :
    recv n owed s =
      .ok pieces.flatten { s with wire := { s.wire with script := rest, recvAttempt := pieces.length } } := by
  unfold recv
  rcases h.ends with ⟨rfl, he⟩ | ⟨rfl, hl, hf⟩
  · rw [recvLoop_pieces pieces _ n owed [] rest rest _ (by exact hq) (by exact hs) (by simpa using h.wanting)
      (by simpa using h.fits) h.bounded (.inl ⟨rfl, by simpa using he⟩)]
    simp
  · rw [recvLoop_pieces pieces _ n owed [] (.error :: rest) rest _ (by exact hq) (by simpa using hs) (by simpa using h.wanting)
      (by simpa using h.fits) h.bounded (.inr ⟨rfl, by simpa using hl, hf⟩)]
    simp

theorem delivers_of_echoes {a : Answer} {b : Byte} (h : Echoes a b) : Delivers a [b] [b] := by
  rcases h with rfl | rfl
  · exact .inl ⟨rfl, rfl⟩
  · exact .inr rfl

theorem not_shortWrite_of_echoes {a : Answer} {b : Byte} (h : Echoes a b) : a ≠ .shortWrite := by
  rcases h with rfl | rfl <;> simp

/-- A byte whose turn it is to be sent goes out, when the next answer is no short write. -/
theorem tx_ok {s : State} {b : Byte} {a : Answer} {rest : List Answer} (hq : s.wire.irq = none)
    (hs : s.wire.script = a :: rest) (ha : a ≠ .shortWrite) :
    tx b s = .ok () { s with wire := { s.wire with sent := s.wire.sent ++ s.onWire [b] } } := by
  have : txDraw s = (false, s) := by
    unfold txDraw; rw [hs]; cases a <;> first | rfl | exact absurd rfl ha
  simp [tx, tick_none hq, this, State.onWire]

theorem sendByte_ok {s : State} {b : Byte} {a : Answer} {rest : List Answer} (hq : s.wire.irq = none)
    (hp : 1 ≤ s.params.recvAttempts) (hs : s.wire.script = a :: rest) (ha : Echoes a b) :
    sendByte b s = .ok () (s.sentOut [b] rest) := by
  unfold sendByte
  rw [tx_ok hq hs (not_shortWrite_of_echoes ha), Comm.bind_ok,
    recv_delivers (len := 1) (a := a) (rest := rest) (got := [b]) (by exact hq) (by exact hp) (by exact hs)
      (delivers_of_echoes ha) rfl (le_refl 1)]
  simp [State.sentOut, State.received]

/-- Bytes whose echoes all come back go out. -/
theorem send_ok : ∀ {bs : List Byte} {es rest : List Answer} {s : State}, s.wire.irq = none → 1 ≤ s.params.recvAttempts →
    List.Forall₂ Echoes es bs → s.wire.script = es ++ rest → bs ≠ [] → send bs s = .ok () (s.sentOut bs rest)
  | [], _, _, _, _, _, _, _, h => absurd rfl h
  | b :: bs, _, rest, s, hq, hp, hf, hs, _ => by
    cases hf with
    | cons ha ht =>
      rename_i e es
      unfold send
      rw [sendByte_ok (rest := es ++ rest) hq hp (by simpa using hs) ha, Comm.bind_ok]
      cases bs with
      | nil => cases ht; rfl
      | cons c cs =>
        rw [send_ok (es := es) (rest := rest) (by exact hq) (by exact hp) ht rfl (by simp)]
        simp [State.sentOut, State.onWire]

/-- The bytes of a response that come at once are the frame's value. -/
theorem expectBytes_ok {s : State} {a : Answer} {owed got : List Byte} {rest : List Answer} {n : Nat}
    (hq : s.wire.irq = none) (hp : 1 ≤ s.params.recvAttempts) (hs : s.wire.script = a :: rest)
    (hd : Delivers a owed got) (hl : got.length = n) (h1 : 1 ≤ n) :
    expectBytes n owed s = .ok got (s.received rest) := by
  unfold expectBytes
  rw [recv_delivers hq hp hs hd hl h1, Comm.bind_ok, if_neg (by omega)]

theorem expectAck_ok {s : State} {a : Answer} {rest : List Answer} (hq : s.wire.irq = none)
    (hp : 1 ≤ s.params.recvAttempts) (hs : s.wire.script = a :: rest) (ha : Echoes a Config.ack) :
    expectAck [Config.ack] s = .ok () (s.received rest) := by
  unfold expectAck
  rw [recv_delivers (len := 1) (got := [Config.ack]) hq hp hs (delivers_of_echoes ha) rfl (le_refl 1)]
  simp

/-! ## Wrong answers -/

/-- A short write ends the session before the byte is on the wire. -/
theorem tx_short {s : State} {b : Byte} {rest : List Answer} (hq : s.wire.irq = none)
    (hs : s.wire.script = .shortWrite :: rest) :
    tx b s = .stop (takeError (.transport .shortWrite) { s with wire := { s.wire with script := rest } }) := by
  simp [tx, tick_none hq, txDraw, hs, raise]

/-- An error of `rx` ends `recv` with nothing. -/
theorem recv_error {s : State} {owed : List Byte} {rest : List Answer} {len : Nat} (hq : s.wire.irq = none)
    (hp : 1 ≤ s.params.recvAttempts) (hs : s.wire.script = .error :: rest) (h1 : 1 ≤ len) :
    recv len owed s = .ok [] { s with wire := { s.wire with script := rest, recvAttempt := 0 } } :=
  recv_receives (pieces := []) (as := [.error]) hq
    ⟨Nat.zero_le _, .inl rfl, Nat.zero_le _, .inr ⟨rfl, h1, hp⟩⟩ hs

/-- Attempts that all come back empty use the bound up and give nothing. -/
theorem recv_empty {s : State} {owed : List Byte} {rest : List Answer} {len : Nat} (hq : s.wire.irq = none)
    (hs : s.wire.script = List.replicate s.params.recvAttempts (.bytes []) ++ rest) (h1 : 1 ≤ len) :
    recv len owed s =
      .ok [] { s with wire := { s.wire with script := rest, recvAttempt := s.params.recvAttempts } } := by
  rw [recv_receives (pieces := List.replicate s.params.recvAttempts [])
    (as := List.replicate s.params.recvAttempts (.bytes [])) hq
    ⟨by simp, .inr (by simp; omega), by simp, .inl ⟨by simp, .inr (by simp)⟩⟩ hs]
  simp

/-- Two runs of bytes go out one after the other. -/
theorem send_append (xs ys : List Byte) (s : State) : send (xs ++ ys) s = (send xs s).bind fun _ s => send ys s := by
  induction xs generalizing s with
  | nil => rfl
  | cons x xs ih => simp only [List.cons_append, send, Comm.bind_assoc, ih]

/-- As `send_ok`, for an empty run too. -/
theorem send_ok' {bs : List Byte} {es rest : List Answer} {s : State} (hq : s.wire.irq = none)
    (hp : 1 ≤ s.params.recvAttempts) (hf : List.Forall₂ Echoes es bs) (hs : s.wire.script = es ++ rest) :
    ∃ n, send bs s =
      .ok () { s with wire := { s.wire with sent := s.wire.sent ++ s.onWire bs, script := rest, recvAttempt := n } } := by
  cases bs with
  | nil =>
    cases hf
    obtain rfl : s.wire.script = rest := by simpa using hs
    exact ⟨s.wire.recvAttempt, by simp [send, State.onWire]⟩
  | cons b bs => exact ⟨1, send_ok hq hp hf hs (by simp)⟩

/-- The state in which a run of bytes stops on the way: the wire has moved, nothing else has. -/
def State.wireAt (s : State) (bs : List Byte) (rest : List Answer) (n : Nat) : State :=
  { s with wire := { s.wire with sent := s.wire.sent ++ s.onWire bs, script := rest, recvAttempt := n } }

/-- A wrong echo (R200). -/
theorem send_mismatch {pre post : List Byte} {b c : Byte} {es rest : List Answer} {s : State} (hq : s.wire.irq = none)
    (hp : 1 ≤ s.params.recvAttempts) (hf : List.Forall₂ Echoes es pre) (hs : s.wire.script = es ++ .bytes [c] :: rest)
    (hc : c ≠ b) :
    ∃ n, send (pre ++ b :: post) s = .stop (takeError (.transport .echoMismatch) (s.wireAt (pre ++ [b]) rest n)) := by
  obtain ⟨n, hn⟩ := send_ok' hq hp hf hs
  refine ⟨1, ?_⟩
  rw [send_append, hn, Comm.bind_ok]
  simp only [send, sendByte]
  rw [tx_ok (a := .bytes [c]) (rest := rest) (by exact hq) (by rfl) (by simp), Comm.bind_ok,
    recv_delivers (len := 1) (a := .bytes [c]) (rest := rest) (got := [c]) (by exact hq) (by exact hp) (by rfl) (.inr rfl) rfl
      (le_refl 1)]
  simp [hc, raise, State.received, State.wireAt, State.onWire]

/-- No echo: an error of `rx`, or every attempt comes back empty (R200). -/
theorem send_missing {pre post : List Byte} {b : Byte} {es bad rest : List Answer} {s : State} (hq : s.wire.irq = none)
    (hp : 1 ≤ s.params.recvAttempts) (hf : List.Forall₂ Echoes es pre) (hs : s.wire.script = es ++ (bad ++ rest))
    (hb : bad = [.error] ∨ bad = List.replicate s.params.recvAttempts (.bytes [])) :
    ∃ n, send (pre ++ b :: post) s = .stop (takeError (.transport .echoMissing) (s.wireAt (pre ++ [b]) rest n)) := by
  obtain ⟨n, hn⟩ := send_ok' hq hp hf hs
  obtain ⟨k, hk⟩ : ∃ k, s.params.recvAttempts = k + 1 := ⟨_, (Nat.sub_add_cancel hp).symm⟩
  rcases hb with rfl | rfl
  · refine ⟨0, ?_⟩
    rw [send_append, hn, Comm.bind_ok]
    simp only [send, sendByte]
    rw [tx_ok (a := .error) (rest := rest) (by exact hq) (by rfl) (by simp), Comm.bind_ok,
      recv_error (rest := rest) (by exact hq) (by exact hp) (by rfl) (le_refl 1)]
    simp [raise, State.wireAt, State.onWire]
  · refine ⟨s.params.recvAttempts, ?_⟩
    rw [send_append, hn, Comm.bind_ok]
    simp only [send, sendByte]
    rw [tx_ok (a := .bytes []) (rest := List.replicate k (.bytes []) ++ rest) (by exact hq)
        (by simp [hk, List.replicate_succ]) (by simp), Comm.bind_ok,
      recv_empty (rest := rest) (by exact hq) (by rfl) (le_refl 1)]
    simp [raise, State.wireAt, State.onWire]

/-- A short write: the byte is not on the wire (R200). -/
theorem send_short {pre post : List Byte} {b : Byte} {es rest : List Answer} {s : State} (hq : s.wire.irq = none)
    (hp : 1 ≤ s.params.recvAttempts) (hf : List.Forall₂ Echoes es pre) (hs : s.wire.script = es ++ .shortWrite :: rest) :
    ∃ n, send (pre ++ b :: post) s = .stop (takeError (.transport .shortWrite) (s.wireAt pre rest n)) := by
  obtain ⟨n, hn⟩ := send_ok' hq hp hf hs
  refine ⟨n, ?_⟩
  rw [send_append, hn, Comm.bind_ok]
  simp only [send, sendByte]
  rw [tx_short (rest := rest) (by exact hq) (by rfl)]
  simp [State.wireAt]

/-! ## Any answers -/

/-- How a communication ends everything: by a fatal error, or by the interruption. -/
inductive Stopped (u t : State) : Prop where
  | error (e : Error) (hf : e.fatal = true) (ht : t = takeError e u)
  | irq (ht : t = interrupt u)

/-- `u` is `s` but for the target, on which `P` still holds, and the wire. -/
structure OnlyWire (P : Target → Prop) (s u : State) : Prop where
  params : u.params = s.params
  codec : u.codec = s.codec
  session : u.session = s.session
  nvm : u.nvm = s.nvm
  ctl : u.ctl = s.ctl
  target : P s.target → P u.target
  attempts : s.wire.recvAttempt ≤ s.params.recvAttempts → u.wire.recvAttempt ≤ u.params.recvAttempts

theorem OnlyWire.refl (P : Target → Prop) (s : State) : OnlyWire P s s :=
  ⟨rfl, rfl, rfl, rfl, rfl, id, id⟩

theorem OnlyWire.trans {P : Target → Prop} {s t u : State} (h : OnlyWire P s t) (k : OnlyWire P t u) : OnlyWire P s u :=
  ⟨k.params.trans h.params, k.codec.trans h.codec, k.session.trans h.session, k.nvm.trans h.nvm, k.ctl.trans h.ctl,
    fun p => k.target (h.target p), fun p => k.attempts (h.attempts p)⟩

/-- Whatever the environment answers: a communication that goes on has sent exactly `bs`, one that stops has sent a part of
`bs` from its start, and nothing but the wire and the target has changed before the stop. -/
def Comm.Sends {α : Type} (P : Target → Prop) (bs : List Byte) (s : State) : Comm α → Prop
  | .ok _ t => OnlyWire P s t ∧ t.wire.sent = s.wire.sent ++ s.onWire bs
  | .stop t => ∃ u k, OnlyWire P s u ∧ u.wire.sent = s.wire.sent ++ s.onWire (bs.take k) ∧ Stopped u t

theorem onWire_congr {s t : State} (h : t.session = s.session) (bs : List Byte) : t.onWire bs = s.onWire bs := by
  simp [State.onWire, h]

theorem onWire_append (s : State) (xs ys : List Byte) : s.onWire (xs ++ ys) = s.onWire xs ++ s.onWire ys := by
  simp [State.onWire]

theorem Comm.Sends.bind {α β : Type} {P : Target → Prop} {xs ys : List Byte} {s : State} {c : Comm α}
    {f : α → State → Comm β} (hc : c.Sends P xs s)
    (hf : ∀ v t, c = .ok v t → OnlyWire P s t → (f v t).Sends P ys t) : (c.bind f).Sends P (xs ++ ys) s := by
  cases c with
  | stop t =>
    obtain ⟨u, k, ho, hs, hst⟩ := hc
    refine ⟨u, min k xs.length, ho, ?_, hst⟩
    rw [hs, List.take_append_of_le_length (by omega)]
    congr 2
    rw [List.take_eq_take_iff]; omega
  | ok v t =>
    obtain ⟨ho, hs⟩ := hc
    have h2 := hf v t rfl ho
    simp only [Comm.bind_ok]
    cases hd : f v t with
    | ok w u =>
      rw [hd] at h2
      exact ⟨ho.trans h2.1, by rw [h2.2, hs, onWire_append, onWire_congr ho.session, List.append_assoc]⟩
    | stop u =>
      rw [hd] at h2
      obtain ⟨u', k, ho', hs', hst⟩ := h2
      refine ⟨u', xs.length + k, ho.trans ho', ?_, hst⟩
      rw [hs', hs, List.take_length_add_append, onWire_append, onWire_congr ho.session, List.append_assoc]

theorem sends_raise {α : Type} (P : Target → Prop) (bs : List Byte) {e : Error} (he : e.fatal = true) (s : State) :
    (raise e s : Comm α).Sends P bs s :=
  ⟨s, 0, OnlyWire.refl P s, by simp [State.onWire], .error e he rfl⟩

theorem tick_sends (P : Target → Prop) (s : State) : (tick s).Sends P [] s := by
  unfold tick
  split
  · exact ⟨OnlyWire.refl P s, by simp [State.onWire]⟩
  · exact ⟨s, 0, OnlyWire.refl P s, by simp [State.onWire], .irq rfl⟩
  · exact ⟨⟨rfl, rfl, rfl, rfl, rfl, id, id⟩, by simp [State.onWire]⟩

theorem txDraw_only (P : Target → Prop) (s : State) :
    OnlyWire P s (txDraw s).2 ∧ (txDraw s).2.wire.sent = s.wire.sent := by
  unfold txDraw; split <;> exact ⟨⟨rfl, rfl, rfl, rfl, rfl, id, id⟩, rfl⟩

theorem rxDraw_only (P : Target → Prop) (s : State) :
    OnlyWire P s (rxDraw s).2 ∧ (rxDraw s).2.wire.sent = s.wire.sent ∧
      (rxDraw s).2.wire.recvAttempt = s.wire.recvAttempt := by
  unfold rxDraw; split <;> exact ⟨⟨rfl, rfl, rfl, rfl, rfl, id, id⟩, rfl, rfl⟩

theorem Comm.Sends.of_only {α : Type} {P : Target → Prop} {bs : List Byte} {s u : State} {c : Comm α}
    (ho : OnlyWire P s u) (hs : u.wire.sent = s.wire.sent) (hc : c.Sends P bs u) : c.Sends P bs s := by
  cases c with
  | ok v t => exact ⟨ho.trans hc.1, by rw [hc.2, hs, onWire_congr ho.session]⟩
  | stop t =>
    obtain ⟨w, k, h1, h2, h3⟩ := hc
    exact ⟨w, k, ho.trans h1, by rw [h2, hs, onWire_congr ho.session], h3⟩

theorem tx_sends (P : Target → Prop) (b : Byte) (s : State) : (tx b s).Sends P [b] s := by
  unfold tx
  refine (tick_sends P s).bind (xs := []) (ys := [b]) fun _ t _ _ => ?_
  have h := txDraw_only P t
  generalize hd : txDraw t = d at *
  obtain ⟨_ | _, u⟩ := d
  · refine Comm.Sends.of_only h.1 h.2 ⟨⟨rfl, rfl, rfl, rfl, rfl, id, id⟩, by simp [State.onWire]⟩
  · exact Comm.Sends.of_only h.1 h.2 (sends_raise P [b] rfl u)

theorem recvLoop_sends (P : Target → Prop) : ∀ (fuel len : Nat) (owed got : List Byte) (s : State),
    s.wire.recvAttempt + fuel ≤ s.params.recvAttempts → (recvLoop fuel len owed got s).Sends P [] s
  | 0, _, _, _, s, _ => ⟨OnlyWire.refl P s, by simp [State.onWire]⟩
  | fuel + 1, len, owed, got, s, hb => by
    unfold recvLoop
    split
    · exact ⟨OnlyWire.refl P s, by simp [State.onWire]⟩
    · refine (tick_sends P s).bind (xs := []) (ys := []) fun _ t ht ho => ?_
      have hta : t.wire.recvAttempt = s.wire.recvAttempt := by
        unfold tick at ht; split at ht <;> simp at ht <;> rw [← ht]
      obtain ⟨h1, h2, h3⟩ := rxDraw_only P t
      split
      · exact ⟨h1, by simp [h2, State.onWire]⟩
      · refine Comm.Sends.of_only (u := { (rxDraw t).2 with
            wire := { (rxDraw t).2.wire with recvAttempt := (rxDraw t).2.wire.recvAttempt + 1 } })
          ⟨h1.params, h1.codec, h1.session, h1.nvm, h1.ctl, h1.target, fun _ => ?_⟩ h2
          (recvLoop_sends P fuel len owed _ _ ?_)
        · simp only [h3, hta, h1.params, ho.params]; omega
        · simp only [h3, hta, h1.params, ho.params]; omega

theorem recv_sends (P : Target → Prop) (len : Nat) (owed : List Byte) (s : State) : (recv len owed s).Sends P [] s := by
  unfold recv
  refine Comm.Sends.of_only (u := { s with wire := { s.wire with recvAttempt := 0 } })
    ⟨rfl, rfl, rfl, rfl, rfl, id, fun _ => Nat.zero_le _⟩ rfl (recvLoop_sends P _ len owed [] _ ?_)
  simp

theorem sendByte_sends (P : Target → Prop) (b : Byte) (s : State) : (sendByte b s).Sends P [b] s := by
  unfold sendByte
  refine (tx_sends P b s).bind (ys := []) fun _ t _ _ => ?_
  refine (recv_sends P 1 [b] t).bind (xs := []) (ys := []) fun e u _ _ => ?_
  split
  · exact sends_raise P [] rfl u
  · split
    · exact ⟨OnlyWire.refl P u, by simp [State.onWire]⟩
    · exact sends_raise P [] rfl u

theorem send_sends (P : Target → Prop) : ∀ (bs : List Byte) (s : State), (send bs s).Sends P bs s
  | [], s => ⟨OnlyWire.refl P s, by simp [State.onWire]⟩
  | b :: bs, s => (sendByte_sends P b s).bind (xs := [b]) fun _ t _ _ => send_sends P bs t

theorem expectBytes_sends (P : Target → Prop) (n : Nat) (owed : List Byte) (s : State) :
    (expectBytes n owed s).Sends P [] s := by
  unfold expectBytes
  refine (recv_sends P n owed s).bind (xs := []) (ys := []) fun r u _ _ => ?_
  split
  · exact sends_raise P [] rfl u
  · exact ⟨OnlyWire.refl P u, by simp [State.onWire]⟩

theorem expectAck_sends (P : Target → Prop) (owed : List Byte) (s : State) : (expectAck owed s).Sends P [] s := by
  unfold expectAck
  refine (recv_sends P 1 owed s).bind (xs := []) (ys := []) fun r u _ _ => ?_
  split
  · exact sends_raise P [] rfl u
  · split
    · exact ⟨OnlyWire.refl P u, by simp [State.onWire]⟩
    · exact sends_raise P [] rfl u

/-- A change of the target that keeps `P` is no more than that. -/
theorem onTarget_only {P : Target → Prop} {f : Nat → Target → Target} (hf : ∀ d t, P t → P (f d t)) (s : State) :
    OnlyWire P s (onTarget s f) := ⟨rfl, rfl, rfl, rfl, rfl, hf _ _, id⟩

end Sys2Proof.Machine
end

