-- ==== Sys2Proof/Laws/Link.lean ====
section
/-! SUPPORT. What the shared frame operations of Machine/Link.lean do: once when every answer comes, once for any
environment. -/

namespace Sys2Proof.Machine

theorem onWire_nil (s : State) : s.onWire [] = [] := rfl

theorem frame_eq (insn : Byte) (ops : List Byte) (s : State) : frame insn ops s = send (Config.sync :: insn :: ops) s := rfl

/-! ## Every answer comes -/

/-- A frame with no response. -/
theorem silentFrame_ok {insn : Byte} {ops : List Byte} {f : Nat → Target → Target} {s : State} {es rest : List Answer}
    (hr : Ready s) (hf : List.Forall₂ Echoes es (Config.sync :: insn :: ops)) (hs : s.wire.script = es ++ rest) :
    silentFrame insn ops f s =
      .ok () (s.replied (Config.sync :: insn :: ops) rest 1 (f s.wire.draws s.target) []) := by
  unfold silentFrame
  rw [frame_eq, send_ok hr.quiet hr.patient hf hs (by simp)]
  rfl

/-- A load: its value is what was delivered. -/
theorem loadFrame_ok {insn : Byte} {ops : List Byte} {n : Nat} {owed : Nat → Target → List Byte} {f : Target → Target}
    {s : State} {es rest : List Answer} {a : Answer} {got : List Byte} (hr : Ready s)
    (hf : List.Forall₂ Echoes es (Config.sync :: insn :: ops)) (hd : Delivers a (owed s.wire.draws s.target) got)
    (hl : got.length = n) (h1 : 1 ≤ n) (hs : s.wire.script = es ++ a :: rest) :
    loadFrame insn ops n owed f s = .ok () (s.replied (Config.sync :: insn :: ops) rest 1 (f s.target) got) := by
  unfold loadFrame
  rw [frame_eq, send_ok hr.quiet hr.patient hf hs (by simp), Comm.bind_ok,
    expectBytes_ok (a := a) (got := got) (rest := rest) (by exact hr.quiet) (by exact hr.patient) (by rfl) (by exact hd) hl h1]
  rfl

/-- A direct store: both phases acknowledged. -/
theorem directStore_ok {insn : Byte} {a : Word} {data : List Byte} {s : State} {as rest : List Answer} (hr : Ready s)
    (hd : data ≠ []) (hk : Acked [Config.sync :: insn :: wireWord a, data] as rest) (hs : s.wire.script = as) :
    directStore insn a data s =
      .ok () (s.replied (Config.sync :: insn :: wireWord a ++ data) rest 2
        (s.target.clearRep.storeBytes s.params s.session.profile (s.wire.draws + 1) a data) []) := by
  obtain ⟨es, a1, m1, rfl, hf1, ha1, es2, a2, m2, rfl, hf2, ha2, rfl⟩ := hk
  unfold directStore
  rw [frame_eq, send_ok (by exact hr.quiet) (by exact hr.patient) hf1 hs (by simp), Comm.bind_ok,
    expectAck_ok (a := a1) (rest := es2 ++ a2 :: m2) (by exact hr.quiet) (by exact hr.patient) (by rfl) ha1, Comm.bind_ok]
  unfold dataPhase
  rw [send_ok (es := es2) (rest := a2 :: m2) (by exact hr.quiet) (by exact hr.patient) hf2 (by rfl) hd, Comm.bind_ok,
    expectAck_ok (a := a2) (rest := m2) (by exact hr.quiet) (by exact hr.patient) (by rfl) ha2, Comm.bind_ok]
  simp [State.replied, State.received, State.sentOut, onTarget, State.setTarget, State.bump, State.setResp, State.onWire]

/-- The later units of a burst store, the repeat counter reaching as far as they do. -/
theorem storeUnits_ok : ∀ {us : List (List Byte)} {left : Nat} {s : State} {as rest : List Answer}, s.wire.irq = none →
    1 ≤ s.params.recvAttempts → us.length ≤ left → (∀ u ∈ us, u ≠ []) → Acked us as rest → s.wire.script = as →
    us ≠ [] →
    storeUnits left us s =
      .ok () { s with
        target := s.target.afterUnits s.params s.session.profile s.wire.draws us
        wire := { s.wire with
          sent := s.wire.sent ++ s.onWire us.flatten
          script := rest
          draws := s.wire.draws + us.length
          recvAttempt := 1 } }
  | [], _, _, _, _, _, _, _, _, _, _, h => absurd rfl h
  | u :: us, left, s, as, rest, hq, hp, hl, hne, hk, hs, _ => by
    obtain ⟨n, rfl⟩ : ∃ n, left = n + 1 := ⟨left - 1, by simp at hl; omega⟩
    obtain ⟨es, a, more, rfl, hf, ha, hk⟩ := hk
    unfold storeUnits
    rw [send_ok hq hp hf hs (hne u (by simp)), Comm.bind_ok]
    simp only [unitAck]
    rw [expectAck_ok (a := a) (rest := more) (by exact hq) (by exact hp) (by rfl) ha, Comm.bind_ok]
    have htake : ∀ d t, Target.takeUnit s.params s.session.profile d (n + 1) u t =
        Target.takeUnit s.params s.session.profile d 1 u t := fun _ _ => rfl
    cases us with
    | nil =>
      obtain rfl : more = rest := hk
      simp [storeUnits, onTarget, State.setTarget, State.bump, State.received, State.sentOut, Target.afterUnits, htake,
        State.onWire]
    | cons v vs =>
      rw [show n + 1 - 1 = n by omega,
        storeUnits_ok (as := more) (rest := rest) (by exact hq) (by exact hp) (by simp at hl ⊢; omega)
          (fun w hw => hne w (by simp [hw])) hk (by rfl) (by simp)]
      simp [onTarget, State.setTarget, State.bump, State.received, State.sentOut, Target.afterUnits, htake, State.onWire]
      omega

/-- A burst store, the repeat counter reaching as far as its units do. -/
theorem burstStoreFrame_ok {insn : Byte} {u : List Byte} {us : List (List Byte)} {s : State} {as rest : List Answer}
    (hr : Ready s) (hl : us.length ≤ s.target.rep.toNat) (hne : ∀ v ∈ us, v ≠ [])
    (hk : Acked ((Config.sync :: insn :: u) :: us) as rest) (hs : s.wire.script = as) :
    burstStoreFrame insn (u :: us) s =
      .ok () (s.replied (Config.sync :: insn :: (u ++ us.flatten)) rest (us.length + 1)
        (s.target.afterUnits s.params s.session.profile s.wire.draws (u :: us)).clearRep []) := by
  obtain ⟨es, a, more, rfl, hf, ha, hk⟩ := hk
  have htake : ∀ d t, Target.takeUnit s.params s.session.profile d (s.target.rep.toNat + 1) u t =
      Target.takeUnit s.params s.session.profile d 1 u t := fun _ _ => rfl
  unfold burstStoreFrame
  simp only
  rw [frame_eq, send_ok hr.quiet hr.patient hf hs (by simp), Comm.bind_ok]
  simp only [unitAck]
  rw [expectAck_ok (a := a) (rest := more) (by exact hr.quiet) (by exact hr.patient) (by rfl) ha, Comm.bind_ok]
  cases us with
  | nil =>
    obtain rfl : more = rest := hk
    simp [storeUnits, onTarget, State.setTarget, State.bump, State.received, State.sentOut, Target.afterUnits, htake,
      State.replied, State.setResp, State.onWire]
  | cons v vs =>
    rw [storeUnits_ok (as := more) (rest := rest) (by exact hr.quiet) (by exact hr.patient) (by exact hl) hne hk (by rfl)
      (by simp), Comm.bind_ok]
    simp [onTarget, State.setTarget, State.bump, State.received, State.sentOut, Target.afterUnits, htake, State.onWire,
      State.replied, State.setResp]
    omega

/-! ## Any environment -/

theorem Comm.sends_done {P : Target → Prop} {s u : State} {v : Unit} (h : OnlyWire P s u) (hs : u.wire.sent = s.wire.sent) :
    (Comm.ok v u).Sends P [] s := ⟨h, by simp [hs, State.onWire]⟩

theorem setResp_only (P : Target → Prop) (s : State) (bs : List Byte) : OnlyWire P s (s.setResp bs) :=
  ⟨rfl, rfl, rfl, rfl, rfl, id, id⟩

theorem silentFrame_sends {P : Target → Prop} {insn : Byte} {ops : List Byte} {f : Nat → Target → Target}
    (hf : ∀ d t, P t → P (f d t)) (s : State) :
    (silentFrame insn ops f s).Sends P (Config.sync :: insn :: ops) s := by
  unfold silentFrame
  rw [frame_eq]
  refine (send_sends P _ s).bind (xs := Config.sync :: insn :: ops) (ys := []) (fun _ t _ _ => ?_) |> fun h => by simpa using h
  exact Comm.sends_done ((onTarget_only hf t).trans (setResp_only P _ _)) rfl

theorem loadFrame_sends {P : Target → Prop} {insn : Byte} {ops : List Byte} {n : Nat} {owed : Nat → Target → List Byte}
    {f : Target → Target} (hf : ∀ t, P t → P (f t)) (s : State) :
    (loadFrame insn ops n owed f s).Sends P (Config.sync :: insn :: ops) s := by
  unfold loadFrame
  rw [frame_eq]
  refine (send_sends P _ s).bind (xs := Config.sync :: insn :: ops) (ys := []) (fun _ t _ _ => ?_) |> fun h => by simpa using h
  refine Comm.Sends.of_only (onTarget_only (fun _ t => hf t) t) rfl ?_
  refine (expectBytes_sends P n _ _).bind (xs := []) (ys := []) fun v u _ _ => ?_
  exact Comm.sends_done (setResp_only P _ _) rfl

/-- A burst load sends its two bytes. -/
theorem burstLoadFrame_sends {P : Target → Prop} {insn : Byte} {size n : Nat} (s : State)
    (hf : ∀ m t, P t → P (t.passBytes s.params s.session.profile m)) :
    (burstLoadFrame insn size n s).Sends P [Config.sync, insn] s :=
  loadFrame_sends (fun t ht => hf (size * (t.rep.toNat + 1)) t ht) s

theorem ackPhase_sends {P : Target → Prop} {f : Nat → Target → Target} (hf : ∀ d t, P t → P (f d t)) (owed : List Byte)
    (s : State) : (expectAck owed (onTarget s f)).Sends P [] s :=
  Comm.Sends.of_only (onTarget_only hf s) rfl (expectAck_sends P owed _)

theorem dataPhase_sends {P : Target → Prop} {bs : List Byte} {f : Nat → Target → Target} (hf : ∀ d t, P t → P (f d t))
    (s : State) : (dataPhase bs f s).Sends P bs s := by
  unfold dataPhase
  exact (send_sends P bs s).bind (xs := bs) (ys := []) (fun _ t _ _ => ackPhase_sends hf _ t) |> fun h => by simpa using h

theorem directStore_sends {P : Target → Prop} {insn : Byte} {a : Word} {data : List Byte} {s : State}
    (hc : ∀ t, P t → P t.clearRep)
    (hst : ∀ d t, P t → P (t.storeBytes s.params s.session.profile d a data)) :
    (directStore insn a data s).Sends P (Config.sync :: insn :: wireWord a ++ data) s := by
  unfold directStore
  rw [frame_eq]
  refine (send_sends P _ s).bind (xs := Config.sync :: insn :: wireWord a) (ys := data) fun _ t _ ho => ?_
  refine (ackPhase_sends (fun _ => hc) _ t).bind (xs := []) (ys := data) fun _ u _ ho2 => ?_
  refine (dataPhase_sends ?_ u).bind (xs := data) (ys := []) (fun _ v _ _ => ?_) |> fun h => by simpa using h
  · rw [ho2.params, ho2.session, ho.params, ho.session]; exact hst
  · exact Comm.sends_done (setResp_only P _ _) rfl

theorem storeUnits_sends {P : Target → Prop} : ∀ (us : List (List Byte)) (left : Nat) (s : State),
    (∀ u ∈ us, ∀ l d t, P t → P (Target.takeUnit s.params s.session.profile d l u t)) →
    (storeUnits left us s).Sends P us.flatten s
  | [], _, s, _ => Comm.sends_done (OnlyWire.refl P s) rfl
  | u :: us, left, s, hu => by
    unfold storeUnits
    rw [List.flatten_cons]
    refine (send_sends P u s).bind (xs := u) fun _ t _ ho => ?_
    refine (ackPhase_sends ?_ _ t).bind (xs := []) fun _ v _ ho2 => ?_
    · rw [ho.params, ho.session]; exact hu u (by simp) left
    · refine storeUnits_sends us _ v ?_
      rw [ho2.params, ho2.session, ho.params, ho.session]
      exact fun w hw => hu w (by simp [hw])

theorem burstStoreFrame_sends {P : Target → Prop} {insn : Byte} {u : List Byte} {us : List (List Byte)} {s : State}
    (hc : ∀ t, P t → P t.clearRep)
    (hu : ∀ w ∈ u :: us, ∀ l d t, P t → P (Target.takeUnit s.params s.session.profile d l w t)) :
    (burstStoreFrame insn (u :: us) s).Sends P (Config.sync :: insn :: (u ++ us.flatten)) s := by
  unfold burstStoreFrame
  simp only [frame_eq]
  refine (send_sends P _ s).bind (xs := Config.sync :: insn :: u) (ys := us.flatten) fun _ t _ ho => ?_
  refine (ackPhase_sends ?_ _ t).bind (xs := []) fun _ v _ ho2 => ?_
  · rw [ho.params, ho.session]; exact hu u (by simp) _
  · refine (storeUnits_sends us _ v ?_).bind (ys := []) (fun _ w _ _ => ?_) |> fun h => by simpa using h
    · rw [ho2.params, ho2.session, ho.params, ho.session]
      exact fun w hw => hu w (by simp [hw])
    · exact Comm.sends_done ⟨rfl, rfl, rfl, rfl, rfl, fun h => hc _ h, id⟩ rfl

theorem Target.passBytes_memOk {p : Params} {pr : Profile} {n : Nat} {t : Target} (h : t.memOk) : (t.passBytes p pr n).memOk :=
  Target.polledBytes_memOk (a := t.ptr) (n := n) h

theorem takeUnit_memOk {p : Params} {pr : Profile} {d l : Nat} {u : List Byte} {t : Target} (h : t.memOk) :
    (t.takeUnit p pr d l u).memOk := by
  unfold Target.takeUnit
  cases l with
  | zero => exact Target.lost_memOk d t
  | succ n => exact Target.storeBytes_memOk (a := t.ptr) (bs := u) h

/-- A frame on a link: refused when it is down, else its communication's end state. -/
theorem onLink_next {s t : State} {body : State → Comm Unit} (h : onLink s body = .next t) :
    linkUp s.session = true ∧ t = (body s).final := by
  unfold onLink at h
  split at h
  · rename_i hu
    exact ⟨hu, by injection h with h; exact h.symm⟩
  · simp at h

end Sys2Proof.Machine
end

