-- ==== Sys2Proof/Laws/Exec.lean ====
section
/-! SUPPORT. What any instruction can do to the machine, whatever the environment answers: said once for `exec`. -/

namespace Sys2Proof.Machine

/-! ## IMG and the ranges -/

/-- A range below a bound, as a proposition. -/
theorem Range.within_some {cap lo hi : Nat} : Range.within cap (some ⟨lo, hi⟩) = true ↔ lo ≤ hi ∧ hi < cap := by
  simp [Range.within]

theorem noteAddr_within {cap a : Nat} {r : Option Range} (h : Range.within cap r = true) (ha : a < cap) :
    Range.within cap (noteAddr r a) = true := by
  cases r with
  | none => simp [noteAddr, Range.within, ha]
  | some r =>
    obtain ⟨lo, hi⟩ := r
    rw [Range.within_some] at h
    simp only [noteAddr, Range.within_some]; omega

theorem noteBytes_within {cap : Nat} : ∀ (bs : List Byte) (a : Nat) (r : Option Range), Range.within cap r = true →
    a + bs.length ≤ cap → Range.within cap (noteBytes r a bs) = true
  | [], _, _, h, _ => h
  | b :: bs, a, r, h, hl => by
    rw [List.length_cons] at hl
    unfold noteBytes
    refine noteBytes_within bs (a + 1) _ ?_ (by omega)
    split
    · exact h
    · exact noteAddr_within h (by omega)

theorem State.imageOk_iff {s : State} : s.imageOk = true ↔ Range.within s.params.imgCap s.codec.range = true ∧
    Range.within s.params.imgCap s.codec.rangeA = true ∧ ∀ c ∈ s.codec.img, c.1 < s.params.imgCap := by
  simp [State.imageOk, and_assoc]

theorem State.memoriesOk_iff {s : State} :
    s.memoriesOk = true ↔ Memory.wf imgDrop s.codec.img = true ∧ s.target.memOk := by
  simp [State.memoriesOk, Target.memOk, and_assoc]

/-- What the loops between frames keep of the cursors (R25, R320). -/
def State.loopsOk (s : State) : Prop :=
  pageLoopOk (pageCount s.nvm.region.dims) s.nvm.p s.ctl.todo = true ∧ pollLoopOk s.params s.ctl.pollAttempt s.ctl.todo = true ∧
    initLoopOk s.ctl.initRound s.ctl.todo = true

/-- What a record, a line or a frame keeps of the cursors (R25, R320). -/
def State.placesOk (s : State) : Prop :=
  s.codec.pos ≤ s.codec.file.length ∧ s.codec.k ≤ chunkCount s.codec.length ∧ s.wire.recvAttempt ≤ s.params.recvAttempts

theorem State.cursorsOk_iff {s : State} : s.cursorsOk = true ↔ s.placesOk ∧ s.loopsOk := by
  simp only [State.cursorsOk, State.placesOk, State.loopsOk, Bool.and_eq_true, decide_eq_true_eq, and_assoc]

/-- An operation that has ended keeps every cursor it left. -/
theorem State.loopsOk.nil {s t : State} (h : s.loopsOk) (hr : t.nvm.region = s.nvm.region) (hp : t.nvm.p = s.nvm.p)
    (hx : t.params = s.params) (ha : t.ctl.pollAttempt = s.ctl.pollAttempt) (hi : t.ctl.initRound = s.ctl.initRound)
    (ht : t.ctl.todo = []) : t.loopsOk := by
  unfold State.loopsOk at *
  rw [hr, hp, hx, ha, hi, ht]
  simp only [pageLoopOk, pollLoopOk, initLoopOk, Bool.and_eq_true, decide_eq_true_eq] at h ⊢
  simp [pastFrame, h.1.1.1, h.2.1.1.1.1, h.2.2.1.1]

/-! ## The effect of any instruction -/

/-- What every next state of an instruction has in common with the state before. -/
structure Effect (s t : State) : Prop where
  params : t.params = s.params
  requests : t.ctl.requests = s.ctl.requests
  todo : t.ctl.todo = s.ctl.todo ∨ t.ctl.todo = []
  profile : t.session.profile = s.session.profile
  chipEraseOk : t.session.chipEraseOk = s.session.chipEraseOk
  link : (t.session.linkState = s.session.linkState ∧ t.session.failed = s.session.failed ∧
      t.session.transportOpen = s.session.transportOpen) ∨
    (t.session.linkState = .closed ∧ t.session.transportOpen = false ∧ t.ctl.todo = [])
  memories : s.memoriesOk = true → t.memoriesOk = true
  image : s.imageOk = true → t.imageOk = true
  places : s.placesOk → t.placesOk
  loops : s.loopsOk → t.loopsOk

/-- The cursors of every kind. -/
theorem Effect.cursors {s t : State} (h : Effect s t) (hc : s.cursorsOk = true) : t.cursorsOk = true := by
  rw [State.cursorsOk_iff] at *
  exact ⟨h.places hc.1, h.loops hc.2⟩

theorem Effect.refl (s : State) : Effect s s :=
  ⟨rfl, rfl, .inl rfl, rfl, rfl, .inl ⟨rfl, rfl, rfl⟩, id, id, id, id⟩

theorem OnlyWire.effect {s t : State} (h : OnlyWire Target.memOk s t) : Effect s t where
  params := h.params
  requests := by rw [h.ctl]
  todo := .inl (by rw [h.ctl])
  profile := by rw [h.session]
  chipEraseOk := by rw [h.session]
  link := .inl (by rw [h.session]; exact ⟨rfl, rfl, rfl⟩)
  memories hm := by
    rw [State.memoriesOk_iff] at *
    rw [h.codec]
    exact ⟨hm.1, h.target hm.2⟩
  image hm := by
    rw [State.imageOk_iff] at *
    rw [h.codec, h.params]; exact hm
  places hm := by
    unfold State.placesOk at *
    rw [h.codec]
    exact ⟨hm.1, hm.2.1, h.attempts hm.2.2⟩
  loops hm := by
    unfold State.loopsOk
    rw [h.nvm, h.params, h.ctl]; exact hm

theorem fresh_imageOk {s : State} (h : s.codec = Codec.fresh) : s.imageOk = true := by
  simp [State.imageOk, h, Codec.fresh, Range.within]

theorem abandonPage_memoriesOk {s : State} (h : s.memoriesOk = true) : (abandonPage s).memoriesOk = true := by
  rw [State.memoriesOk_iff] at *
  unfold abandonPage
  split
  · exact h
  · exact ⟨h.1, Memory.write_wf h.2.1 _ _, h.2.2⟩

/-- The fatal entry (R313). -/
theorem takeError_effect {e : Error} (he : e.fatal = true) (s : State) : Effect s (takeError e s) := by
  have hm : s.memoriesOk = true → (abandonPage (latchFailed e s)).memoriesOk = true := fun h =>
    abandonPage_memoriesOk (s := latchFailed e s) h
  have hc : (abandonPage (latchFailed e s)).codec = s.codec := by simp
  have hp : (abandonPage (latchFailed e s)).params = s.params := by simp
  cases e <;> simp only [Error.fatal, Bool.false_eq_true] at he
  all_goals
    refine ⟨by simp [takeError], by simp [takeError], .inr (by simp [takeError]), by simp [takeError], by simp [takeError],
      .inr ⟨by simp [takeError], by simp [takeError], by simp [takeError]⟩, hm, fun h => ?_, fun h => ?_, fun h =>
        h.nil (by simp [takeError]) (by simp [takeError]) (by simp [takeError]) (by simp [takeError])
          (by simp [takeError]) (by simp [takeError])⟩
    · rw [State.imageOk_iff] at *; simpa [takeError] using h
    · simpa [State.placesOk, takeError] using h

/-- The interruption (R312). -/
theorem interrupt_effect (s : State) : Effect s (interrupt s) := by
  refine ⟨by simp [interrupt], by simp [interrupt], .inr (by simp [interrupt]), by simp [interrupt], by simp [interrupt],
    .inr ⟨by simp [interrupt], by simp [interrupt], by simp [interrupt]⟩, fun h => ?_, fun _ => fresh_imageOk rfl,
    fun h => ⟨Nat.zero_le _, Nat.zero_le _, by simpa [interrupt] using h.2.2⟩,
    fun h => h.nil (by simp [interrupt]) (by simp [interrupt]) (by simp [interrupt]) (by simp [interrupt])
      (by simp [interrupt]) (by simp [interrupt])⟩
  · have := abandonPage_memoriesOk h
    rw [State.memoriesOk_iff] at *
    exact ⟨Memory.wf_nil _, this.2⟩

/-- A codec error (R28, R314). -/
theorem formatError_effect (e : FormatError) (s : State) : Effect s (takeError (.format e) s) := by
  refine ⟨rfl, rfl, .inr rfl, rfl, rfl, .inl ⟨rfl, rfl, rfl⟩, fun h => ?_, fun _ => fresh_imageOk rfl,
    fun h => ⟨Nat.zero_le _, Nat.zero_le _, h.2.2⟩, fun h => h.nil rfl rfl rfl rfl rfl rfl⟩
  rw [State.memoriesOk_iff] at *; exact ⟨Memory.wf_nil _, h.2⟩

theorem Effect.trans {s t u : State} (h : Effect s t) (k : Effect t u) : Effect s u where
  params := k.params.trans h.params
  requests := k.requests.trans h.requests
  todo := by
    rcases k.todo with e | e
    · rw [e]; exact h.todo
    · exact .inr e
  profile := k.profile.trans h.profile
  chipEraseOk := k.chipEraseOk.trans h.chipEraseOk
  link := by
    rcases k.link with ⟨a, b, c⟩ | e
    · rcases h.link with ⟨a', b', c'⟩ | ⟨a', b', c'⟩
      · exact .inl ⟨a.trans a', b.trans b', c.trans c'⟩
      · exact .inr ⟨a.trans a', c.trans b', by rcases k.todo with e | e <;> simp [e, c']⟩
    · exact .inr e
  memories := fun x => k.memories (h.memories x)
  image := fun x => k.image (h.image x)
  places := fun x => k.places (h.places x)
  loops := fun x => k.loops (h.loops x)

/-- The end state of a communication. -/
theorem Comm.Sends.effect {α : Type} {bs : List Byte} {s : State} {c : Comm α} (h : c.Sends Target.memOk bs s) :
    Effect s c.final := by
  cases c with
  | ok v t => exact h.1.effect
  | stop t =>
    obtain ⟨u, k, ho, -, hst⟩ := h
    refine ho.effect.trans ?_
    cases hst with
    | error e hf ht => subst ht; exact takeError_effect hf u
    | irq ht => subst ht; exact interrupt_effect u

theorem onLink_effect {bs : List Byte} {s t : State} {body : State → Comm Unit} (hs : (body s).Sends Target.memOk bs s)
    (h : onLink s body = .next t) : Effect s t := by
  obtain ⟨-, rfl⟩ := onLink_next h
  exact hs.effect

theorem setLine_effect (s : State) (b n : Nat) : Effect s (s.setLine b n) :=
  ⟨rfl, rfl, .inl rfl, rfl, rfl, .inl ⟨rfl, rfl, rfl⟩, id, id, id, id⟩

theorem setResp_effect (s : State) (bs : List Byte) : Effect s (s.setResp bs) :=
  (setResp_only Target.memOk s bs).effect

/-- The double break, whatever the environment answers. -/
theorem execDoubleBreak_effect {s t : State} (h : execDoubleBreak s = .next t) : Effect s t := by
  obtain ⟨-, rfl⟩ := onLink_next h
  have h1 := (tx_sends Target.memOk Config.breakChar (s.setLine Config.baudFallback Config.stopBitsFallback)).effect
  generalize tx Config.breakChar (s.setLine Config.baudFallback Config.stopBitsFallback) = c1 at *
  cases c1 with
  | stop u => exact (setLine_effect s _ _).trans h1
  | ok v u =>
    simp only [Comm.bind_ok]
    have h2 := (tx_sends Target.memOk Config.breakChar u).effect
    generalize tx Config.breakChar u = c2 at *
    cases c2 with
    | stop w => exact ((setLine_effect s _ _).trans h1).trans h2
    | ok v w =>
      simp only [Comm.bind_ok]
      have h3 := (Comm.Sends.of_only (onTarget_only (fun d t (ht : t.memOk) => Target.updiReset_memOk ht d) w) rfl
        (recv_sends Target.memOk 2 [Config.breakChar, Config.breakChar] (onTarget w Target.updiReset))).effect
      generalize recv 2 [Config.breakChar, Config.breakChar] (onTarget w Target.updiReset) = c3 at *
      have h4 := (((setLine_effect s _ _).trans h1).trans h2).trans h3
      cases c3 with
      | stop x => exact h4
      | ok v x => exact h4.trans ((setLine_effect _ _ _).trans (setResp_effect _ _))

theorem codec_effect {s : State} {c : Codec} (hm : s.memoriesOk = true → Memory.wf imgDrop c.img = true)
    (hi : s.imageOk = true → Range.within s.params.imgCap c.range = true ∧ Range.within s.params.imgCap c.rangeA = true ∧
      ∀ x ∈ c.img, x.1 < s.params.imgCap)
    (hc : s.placesOk → c.pos ≤ c.file.length ∧ c.k ≤ chunkCount c.length) : Effect s (s.setCodec c) := by
  refine ⟨rfl, rfl, .inl rfl, rfl, rfl, .inl ⟨rfl, rfl, rfl⟩, fun h => ?_, fun h => ?_,
    fun h => ⟨(hc h).1, (hc h).2, h.2.2⟩, id⟩
  · rw [State.memoriesOk_iff]; exact ⟨hm h, (State.memoriesOk_iff.1 h).2⟩
  · rw [State.imageOk_iff]; exact hi h

theorem execData_effect {aaaa : Word} {dd : List Byte} {s t : State} (h : execData aaaa dd s = .next t) : Effect s t := by
  unfold execData at h
  injection h with h
  subst h
  split
  · exact formatError_effect _ s
  · rename_i hn
    refine codec_effect (fun h => Memory.write_wf (State.memoriesOk_iff.1 h).1 _ _) (fun h => ?_) (fun h => ?_)
    · rw [State.imageOk_iff] at h
      refine ⟨noteBytes_within _ _ _ h.1 (by omega), h.2.1, fun x hx => ?_⟩
      rcases Memory.mem_write hx with hx | hx
      · exact h.2.2 x hx
      · omega
    · exact ⟨h.1, h.2.1⟩

theorem extRecord_effect (k : Nat) (dd : List Byte) (s : State) : Effect s (extRecord k dd s) := by
  unfold extRecord
  split
  · exact formatError_effect _ s
  · exact codec_effect (fun h => (State.memoriesOk_iff.1 h).1) (fun h => State.imageOk_iff.1 h)
      (fun h => ⟨h.1, h.2.1⟩)

/-- The effect of any instruction that answers a next state. -/
theorem exec_effect {i : Instr} {s t : State} (h : exec i s = .next t) : Effect s t := by
  have clr : ∀ u : Target, u.memOk → u.clearRep.memOk := fun _ hu => hu
  have dir : ∀ (insn : Byte) (a : Word) (data : List Byte),
      (directStore insn a data s).Sends Target.memOk (Config.sync :: insn :: wireWord a ++ data) s := fun _ _ _ =>
    directStore_sends clr (fun _ _ hu => Target.storeBytes_memOk hu)
  cases i with
  | data aaaa dd => exact execData_effect h
  | eof aaaa dd =>
    injection h with h; subst h
    exact codec_effect (fun h => (State.memoriesOk_iff.1 h).1) (fun h => State.imageOk_iff.1 h)
      (fun h => ⟨h.1, h.2.1⟩)
  | esa aaaa dd => injection h with h; subst h; exact extRecord_effect _ _ _
  | ssa aaaa dd => injection h with h; subst h; exact Effect.refl s
  | ela aaaa dd => injection h with h; subst h; exact extRecord_effect _ _ _
  | hexReserved rr aaaa dd => injection h with h; subst h; exact formatError_effect _ s
  | ldcs r =>
    simp only [exec, execLdcs] at h; split at h
    · simp at h
    · exact onLink_effect (loadFrame_sends clr s) h
  | stcs r v =>
    simp only [exec, execStcs] at h; split at h
    · simp at h
    · exact onLink_effect (silentFrame_sends (fun d u hu => Target.csWrite_memOk (clr u hu)) s) h
  | ldsb a => exact onLink_effect (loadFrame_sends (fun u hu => Target.polledBytes_memOk (clr u hu)) s) h
  | ldsw a => exact onLink_effect (loadFrame_sends (fun u hu => Target.polledBytes_memOk (clr u hu)) s) h
  | stsb a v => exact onLink_effect (dir _ _ _) h
  | stsw a w => exact onLink_effect (dir _ _ _) h
  | stPtr a =>
    simp only [exec, execStPtr] at h
    refine onLink_effect (bs := Config.sync :: insnStPtr s.params.opc :: wireWord a ++ ([] ++ [])) ?_ h
    simp only [frame_eq]
    refine (send_sends Target.memOk _ s).bind fun _ u _ _ => ?_
    refine (ackPhase_sends (fun _ v hv => ?_) _ u).bind fun _ v _ _ => Comm.sends_done (setResp_only _ _ _) rfl
    exact hv
  | ldb n =>
    simp only [exec, execLdb] at h; split at h
    · exact onLink_effect (burstLoadFrame_sends s fun _ _ => Target.passBytes_memOk) h
    · simp at h
  | ldw n =>
    simp only [exec, execLdw] at h; split at h
    · exact onLink_effect (burstLoadFrame_sends s fun _ _ => Target.passBytes_memOk) h
    · simp at h
  | stb d =>
    simp only [exec, execStb] at h; split at h
    · cases hu : byteUnits d with
      | nil =>
        rw [hu] at h
        exact onLink_effect (body := burstStoreFrame _ []) (Comm.sends_done (OnlyWire.refl _ s) rfl) h
      | cons u us =>
        rw [hu] at h
        exact onLink_effect (burstStoreFrame_sends clr (fun _ _ _ _ _ hv => takeUnit_memOk hv)) h
    · simp at h
  | stw d =>
    simp only [exec, execStw] at h; split at h
    · simp at h
    split at h
    · cases hu : wordUnits d with
      | nil =>
        rw [hu] at h
        exact onLink_effect (body := burstStoreFrame _ []) (Comm.sends_done (OnlyWire.refl _ s) rfl) h
      | cons u us =>
        rw [hu] at h
        exact onLink_effect (burstStoreFrame_sends clr (fun _ _ _ _ _ hv => takeUnit_memOk hv)) h
    · simp at h
  | rep n =>
    simp only [exec, execRep] at h; split at h
    · exact onLink_effect (silentFrame_sends (P := Target.memOk) (fun _ _ hu => by exact hu) s) h
    · simp at h
  | key k =>
    simp only [exec, execKey] at h; split at h
    · exact onLink_effect (silentFrame_sends (fun _ u hu => Target.acceptKey_memOk (clr u hu)) s) h
    · simp at h
  | brk =>
    simp only [exec, execBrk] at h
    refine onLink_effect (bs := [Config.breakChar] ++ []) ?_ h
    exact (send_sends Target.memOk _ s).bind fun _ u _ _ =>
      Comm.sends_done ((onTarget_only (P := Target.memOk) (f := Target.updiReset) (fun d _ hv => Target.updiReset_memOk hv d) u).trans (setResp_only _ _ _)) rfl
  | doubleBreak => exact execDoubleBreak_effect h
  | writePage => exact onLink_effect (dir _ _ _) h
  | eraseWritePage => exact onLink_effect (dir _ _ _) h
  | pageBufferClr => exact onLink_effect (dir _ _ _) h
  | writeFuse => exact onLink_effect (dir _ _ _) h

end Sys2Proof.Machine
end

