-- ==== Sys2Proof/Laws/Cursors.lean ====
section
/-! SUPPORT. What a micro-operation does to the cursors of the loops between frames: the page, the attempts of the polls, the
rounds of `init` (R25, R320). -/

namespace Sys2Proof.Machine

/-- No test of an attempt stands in what is left. -/
def NoTest (pr : Params) (ms : List Micro) : Prop := ∀ m ∈ ms, m.testBound pr = none

/-- What the loops between frames keep of the cursors (R25, R320), field by field. -/
structure LoopsIn (s : State) : Prop where
  p : s.nvm.p ≤ pageCount s.nvm.region.dims
  cnt : s.ctl.todo.countP Micro.isPageLoop ≤ 1
  inp : (∃ m ∈ s.ctl.todo, m.isInPage = true) → s.nvm.p < pageCount s.nvm.region.dims
  pa : s.ctl.pollAttempt ≤ pollMax s.params
  pb : ∀ m ∈ s.ctl.todo, ∀ b, m.pollBound s.params = some b → b ≤ pollMax s.params
  tail : NoTest s.params (pastFrame s.ctl.todo).tail
  head : ∀ m b, (pastFrame s.ctl.todo).head? = some m → m.testBound s.params = some b → s.ctl.pollAttempt < b
  ir : s.ctl.initRound ≤ 2
  ic : s.ctl.todo.count .initTest ≤ 1
  ii : .initTest ∈ s.ctl.todo → s.ctl.initRound < 2

theorem option_all_iff {α} {o : Option α} {f : α → Bool} : o.all f = true ↔ ∀ b, o = some b → f b = true := by
  cases o <;> simp

theorem loopsOk_iff {s : State} : s.loopsOk ↔ LoopsIn s := by
  unfold State.loopsOk pageLoopOk pollLoopOk initLoopOk
  simp only [Bool.and_eq_true, decide_eq_true_eq, List.all_eq_true, Option.isNone_iff_eq_none, option_all_iff,
    Bool.or_eq_true, Bool.not_eq_true']
  constructor
  · rintro ⟨⟨⟨a, b⟩, c⟩, ⟨⟨⟨d, e⟩, f⟩, g⟩, ⟨h, i⟩, j⟩
    refine ⟨a, b, ?_, d, e, f, ?_, h, i, ?_⟩
    · rintro ⟨m, hm, hi⟩
      rcases c with c | c
      · exact absurd (List.any_eq_true.2 ⟨m, hm, hi⟩) (by simp [c])
      · exact c
    · intro m b hm ht
      exact g b (by rw [hm]; exact ht)
    · intro hi
      rcases j with j | j
      · have := List.contains_iff_mem.2 hi; rw [j] at this; cases this
      · exact j
  · rintro ⟨a, b, c, d, e, f, g, h, i, j⟩
    refine ⟨⟨⟨a, b⟩, ?_⟩, ⟨⟨⟨d, e⟩, f⟩, ?_⟩, ⟨h, i⟩, ?_⟩
    · by_cases hx : ∃ m ∈ s.ctl.todo, m.isInPage = true
      · exact .inr (c hx)
      · refine .inl ?_
        rw [Bool.eq_false_iff]
        intro hy; exact hx (List.any_eq_true.1 hy)
    · intro b hb
      obtain ⟨m, hm, ht⟩ := Option.bind_eq_some_iff.1 hb
      exact g m b hm ht
    · by_cases hx : .initTest ∈ s.ctl.todo
      · exact .inr (j hx)
      · refine .inl ?_
        rw [Bool.eq_false_iff]
        intro hy; exact hx (List.contains_iff_mem.1 hy)

theorem pastFrame_sub {ms : List Micro} {m} (h : m ∈ pastFrame ms) : m ∈ ms := by
  unfold pastFrame at h
  split at h
  · exact List.mem_cons_of_mem _ h
  · exact h

theorem pastFrame_noCmd {m : Micro} {ms} (h : ∀ i, m ≠ .cmd i) : pastFrame (m :: ms) = m :: ms := by
  unfold pastFrame
  split
  · rename_i i _ heq; injection heq with h1; exact absurd h1 (h _)
  · rfl

/-- What is left after the micro-operation that stands next, which is no frame, holds no test of an attempt. -/
structure Popped (s : State) : Prop where
  loops : LoopsIn s
  quiet : NoTest s.params s.ctl.todo

theorem LoopsIn.tail_of_todo {s : State} {m rest} (ht : s.ctl.todo = m :: rest) (h : LoopsIn s) : LoopsIn (s.setTodo rest) where
  p := h.p
  cnt := by have := h.cnt; rw [ht, List.countP_cons] at this; show List.countP _ rest ≤ 1; omega
  inp := by
    rintro ⟨x, hx, hi⟩
    exact h.inp ⟨x, by rw [ht]; exact List.mem_cons_of_mem _ hx, hi⟩
  pa := h.pa
  pb := fun x hx => h.pb x (by rw [ht]; exact List.mem_cons_of_mem _ hx)
  tail := by
    show NoTest s.params (pastFrame rest).tail
    have := h.tail
    rw [ht] at this
    by_cases hc : ∃ i, m = .cmd i
    · obtain ⟨i, rfl⟩ := hc
      have h1 : NoTest s.params rest.tail := this
      intro x hx
      unfold pastFrame at hx
      split at hx
      · exact h1 x (List.mem_of_mem_tail hx)
      · exact h1 x hx
    · rw [pastFrame_noCmd (fun i e => hc ⟨i, e⟩)] at this
      intro x hx; exact this x (pastFrame_sub (List.mem_of_mem_tail hx))
  head := by
    intro x b hx hb
    have hx' : (pastFrame rest).head? = some x := hx
    have h1 := h.tail
    have h2 := h.head
    rw [ht] at h1 h2
    by_cases hc : ∃ i, m = .cmd i
    · obtain ⟨i, rfl⟩ := hc
      unfold pastFrame at hx'
      split at hx'
      · have := h1 x (by show x ∈ _; exact List.mem_of_head? hx')
        rw [show x.testBound s.params = some b from hb] at this; cases this
      · exact h2 x b (by exact hx') hb
    · rw [pastFrame_noCmd (fun i e => hc ⟨i, e⟩)] at h1
      have := h1 x (pastFrame_sub (List.mem_of_head? hx'))
      rw [show x.testBound s.params = some b from hb] at this; cases this
  ir := h.ir
  ic := by have := h.ic; rw [ht, List.count_cons] at this; show List.count _ rest ≤ 1; omega
  ii := fun hx => h.ii (by rw [ht]; exact List.mem_cons_of_mem _ hx)

theorem Popped.of_todo {s : State} {m rest} (ht : s.ctl.todo = m :: rest) (h : LoopsIn s) (hm : ∀ i, m ≠ .cmd i) :
    Popped (s.setTodo rest) :=
  ⟨LoopsIn.tail_of_todo ht h, by have := h.tail; rw [ht, pastFrame_noCmd hm] at this; exact this⟩

theorem noTest_tail {pr ms} (h : NoTest pr ms) : NoTest pr (pastFrame ms).tail :=
  fun x hx => h x (pastFrame_sub (List.mem_of_mem_tail hx))
theorem noTest_head {pr ms} (h : NoTest pr ms) {m b} (hm : (pastFrame ms).head? = some m)
    (hb : m.testBound pr = some b) : False := by
  have := h m (pastFrame_sub (List.mem_of_head? hm)); rw [this] at hb; cases hb

/-- The micro-operation puts these before what is left. -/
theorem LoopsIn.of_frames {s t : State} (hs : Popped s) (frames : List Micro) (hx : t.params = s.params)
    (hr : t.nvm.region = s.nvm.region)
    (ht : t.ctl.todo = frames ++ s.ctl.todo) (hp : t.nvm.p ≤ pageCount s.nvm.region.dims)
    (hc : frames.countP Micro.isPageLoop + s.ctl.todo.countP Micro.isPageLoop ≤ 1)
    (hi : (∃ m ∈ frames ++ s.ctl.todo, m.isInPage = true) → t.nvm.p < pageCount s.nvm.region.dims)
    (hb : ∀ m ∈ frames, m.testBound s.params = none ∧ ∀ b, m.pollBound s.params = some b → b ≤ pollMax s.params)
    (ha : t.ctl.pollAttempt ≤ pollMax s.params) (hir : t.ctl.initRound ≤ 2)
    (hic : frames.count .initTest + s.ctl.todo.count .initTest ≤ 1)
    (hii : .initTest ∈ frames ++ s.ctl.todo → t.ctl.initRound < 2) : LoopsIn t := by
  have hN : NoTest t.params t.ctl.todo := by
    rw [ht, hx]; intro m hm
    rcases List.mem_append.1 hm with h | h
    · exact (hb m h).1
    · exact hs.quiet m h
  refine ⟨by rw [hr]; exact hp, by rw [ht, List.countP_append]; exact hc, by rw [ht, hr]; exact hi,
    by rw [hx]; exact ha, ?_, noTest_tail hN, fun m b h1 h2 => (noTest_head hN h1 h2).elim, hir,
    by rw [ht, List.count_append]; exact hic, by rw [ht]; exact hii⟩
  rw [ht, hx]; intro m hm
  rcases List.mem_append.1 hm with h | h
  · exact (hb m h).2
  · exact hs.loops.pb m h

/-- The micro-operation puts frames before what is left that belong to no loop. -/
theorem LoopsIn.push {s t : State} (hs : Popped s) (frames : List Micro) (hx : t.params = s.params)
    (hn : t.nvm.region = s.nvm.region) (hp : t.nvm.p = s.nvm.p)
    (ht : t.ctl.todo = frames ++ s.ctl.todo) (ha : t.ctl.pollAttempt ≤ pollMax s.params)
    (hr : t.ctl.initRound = s.ctl.initRound)
    (hf : ∀ m ∈ frames, m.isPageLoop = false ∧ m ≠ .initTest ∧ m.testBound s.params = none ∧
      ∀ b, m.pollBound s.params = some b → b ≤ pollMax s.params) :
    LoopsIn t := by
  have hin : ∀ m ∈ frames, m.isInPage = false := by
    intro m hm; have := (hf m hm).1; cases m <;> simp_all [Micro.isPageLoop, Micro.isInPage]
  refine LoopsIn.of_frames hs frames hx hn ht (by rw [hp]; exact hs.loops.p) ?_ ?_
    (fun m hm => (hf m hm).2.2) ha (by rw [hr]; exact hs.loops.ir) ?_ ?_
  · rw [List.countP_eq_zero.2 (fun m hm => by simp [(hf m hm).1])]; simpa using hs.loops.cnt
  · rintro ⟨m, hm, hi⟩
    rw [hp]
    rcases List.mem_append.1 hm with h | h
    · rw [hin m h] at hi; cases hi
    · exact hs.loops.inp ⟨m, h, hi⟩
  · rw [List.count_eq_zero.2 (fun h => (hf _ h).2.1 rfl)]; simpa using hs.loops.ic
  · intro hm
    rw [hr]
    rcases List.mem_append.1 hm with h | h
    · exact absurd rfl (hf _ h).2.1
    · exact hs.loops.ii h

/-- The micro-operation leaves what is left as it is. -/
theorem LoopsIn.stay {s t : State} (hs : Popped s) (hx : t.params = s.params)
    (hn : t.nvm.region = s.nvm.region) (hp : t.nvm.p = s.nvm.p)
    (ht : t.ctl.todo = s.ctl.todo) (ha : t.ctl.pollAttempt ≤ pollMax s.params)
    (hr : t.ctl.initRound = s.ctl.initRound) : LoopsIn t :=
  LoopsIn.push hs [] hx hn hp ht ha hr (by simp)

/-- The operation has ended. -/
theorem LoopsIn.ended {s t : State} (hs : LoopsIn s) (hx : t.params = s.params)
    (hn : t.nvm.region = s.nvm.region) (hp : t.nvm.p = s.nvm.p)
    (ht : t.ctl.todo = []) (ha : t.ctl.pollAttempt ≤ pollMax s.params) (hr : t.ctl.initRound ≤ 2) : LoopsIn t := by
  refine ⟨by rw [hp, hn]; exact hs.p, by simp [ht], by simp [ht], by rw [hx]; exact ha, by simp [ht],
    by simp [ht, pastFrame, NoTest], by simp [ht, pastFrame], hr, by simp [ht], by simp [ht]⟩

theorem LoopsIn.of_takeError {s : State} {e : Error} (hs : LoopsIn s) : LoopsIn (takeError e s) := by
  refine LoopsIn.ended hs (by cases e <;> simp [takeError]) ?_ ?_ (by simp) ?_ ?_
  all_goals cases e <;> simp [takeError, hs.pa, hs.ir]

theorem LoopsIn.of_finish {s : State} {r} (hs : LoopsIn s) : LoopsIn (finish r s) := LoopsIn.ended hs rfl rfl rfl rfl hs.pa hs.ir

theorem LoopsIn.same {s t : State} (hs : LoopsIn s) (hx : t.params = s.params)
    (hn : t.nvm.region = s.nvm.region) (hp : t.nvm.p = s.nvm.p) (hc : t.ctl.todo = s.ctl.todo)
    (ha : t.ctl.pollAttempt = s.ctl.pollAttempt) (hr : t.ctl.initRound = s.ctl.initRound) : LoopsIn t := by
  constructor <;> simp only [hx, hn, hp, hc, ha, hr]
  · exact hs.p
  · exact hs.cnt
  · exact hs.inp
  · exact hs.pa
  · exact hs.pb
  · exact hs.tail
  · exact hs.head
  · exact hs.ir
  · exact hs.ic
  · exact hs.ii

/-- The micro-operation puts the next attempt of a poll before what is left. -/
theorem LoopsIn.pushAttempt {s t : State} (hs : Popped s) (i : Instr) (test : Micro) (b : Nat)
    (hx : t.params = s.params) (hn : t.nvm = s.nvm)
    (ht : t.ctl.todo = .cmd i :: test :: s.ctl.todo) (ha : t.ctl.pollAttempt < b)
    (hb : b ≤ pollMax s.params) (hr : t.ctl.initRound = s.ctl.initRound)
    (h1 : test.testBound s.params = some b) (h2 : test.pollBound s.params = some b) : LoopsIn t := by
  have hp : test.isPageLoop = false := by cases test <;> simp_all [Micro.isPageLoop, Micro.testBound, Micro.isInPage]
  have hi : test.isInPage = false := by cases test <;> simp_all [Micro.isPageLoop, Micro.testBound, Micro.isInPage]
  have he : test ≠ .initTest := by rintro rfl; simp [Micro.testBound] at h1
  have hpast : pastFrame t.ctl.todo = test :: s.ctl.todo := by rw [ht]; rfl
  refine ⟨by rw [hn]; exact hs.loops.p, ?_, ?_, by rw [hx]; omega, ?_, ?_, ?_, by rw [hr]; exact hs.loops.ir, ?_, ?_⟩
  · rw [ht, List.countP_cons, List.countP_cons]; rw [hp]
    have : Micro.isPageLoop (.cmd i) = false := rfl
    rw [this]; simpa using hs.loops.cnt
  · rw [ht, hn]
    rintro ⟨m, hm, hi'⟩
    simp only [List.mem_cons] at hm
    rcases hm with rfl | rfl | hm
    · simp [Micro.isInPage] at hi'
    · rw [hi] at hi'; cases hi'
    · exact hs.loops.inp ⟨m, hm, hi'⟩
  · rw [ht, hx]
    intro m hm c hc
    simp only [List.mem_cons] at hm
    rcases hm with rfl | rfl | hm
    · simp [Micro.pollBound, Micro.testBound] at hc
    · rw [h2] at hc; injection hc with hc; omega
    · exact hs.loops.pb m hm c hc
  · rw [hpast, hx]; exact hs.quiet
  · intro m c hm hc
    rw [hpast] at hm; injection hm with hm; subst hm
    rw [hx, h1] at hc; injection hc with hc; omega
  · rw [ht, List.count_cons, List.count_cons]; simpa [he] using hs.loops.ic
  · rw [ht, hr]; intro hm
    simp only [List.mem_cons] at hm
    rcases hm with h | h | h
    · cases h
    · exact absurd h.symm he
    · exact hs.loops.ii h

theorem LoopsIn.of_codecTick (s : State) (h : LoopsIn s) : LoopsIn (codecTick s) :=
  LoopsIn.same h (by simp) (by simp) (by simp) (by simp) (by simp) (by simp)

theorem Popped.noPageLoop {s0 : State} {m rest} (ht : s0.ctl.todo = m :: rest) (h : LoopsIn s0) (hm : m.isPageLoop = true) :
    rest.countP Micro.isPageLoop = 0 := by
  have := h.cnt; rw [ht, List.countP_cons, if_pos hm] at this; omega

theorem noInPage {ms : List Micro} (h : ms.countP Micro.isPageLoop = 0) : ¬ ∃ m ∈ ms, m.isInPage = true := by
  rintro ⟨m, hm, hi⟩
  have := List.countP_eq_zero.1 h m hm
  cases m <;> simp_all [Micro.isPageLoop, Micro.isInPage]

theorem LoopsIn.of_cursorsOk {s : State} (h : s.cursorsOk = true) : LoopsIn s := loopsOk_iff.1 (State.cursorsOk_iff.1 h).2
theorem cursorsOk_of_loopsIn {s t : State} (h : s.cursorsOk = true) (hc : t.codec = s.codec)
    (hw : t.wire.recvAttempt = s.wire.recvAttempt) (hp : t.params = s.params)
    (hl : LoopsIn t) : t.cursorsOk = true := by
  rw [State.cursorsOk_iff] at *
  exact ⟨by simpa [State.placesOk, hc, hw, hp] using h.1, loopsOk_iff.2 hl⟩

theorem LoopsIn.of_pollNext {s : State} {q : Poll} {n : Nat} (hs : Popped s) (hq : q.attempts ≤ pollMax s.params)
    (hn : n ≤ q.attempts) :
    LoopsIn (pollNext q (s.setPollAttempt n)) := by
  unfold pollNext
  split
  · rename_i hlt
    exact LoopsIn.pushAttempt hs _ (.pollTest q) q.attempts rfl rfl rfl hlt hq rfl rfl rfl
  · have h0 : LoopsIn (s.setPollAttempt n) := LoopsIn.stay hs rfl rfl rfl rfl (by show n ≤ _; omega) rfl
    cases q.onTimeout
    · exact LoopsIn.of_takeError (e := .protocol .unlockTimeout) h0
    · exact LoopsIn.of_takeError (e := .protocol .urowTimeout) h0
    · exact LoopsIn.of_finish h0

theorem LoopsIn.of_nvmNext {s : State} {n : Nat} (hs : Popped s) (hn : n ≤ s.params.nvmReadyAttempts) :
    LoopsIn (nvmNext (s.setPollAttempt n)) := by
  have hm : s.params.nvmReadyAttempts ≤ pollMax s.params := by unfold pollMax; omega
  unfold nvmNext
  split
  · rename_i hlt
    exact LoopsIn.pushAttempt hs _ .nvmTest s.params.nvmReadyAttempts rfl rfl rfl hlt hm rfl rfl rfl
  · exact LoopsIn.of_takeError (LoopsIn.stay hs rfl rfl rfl rfl (by show n ≤ _; omega) rfl)

end Sys2Proof.Machine
end

