-- ==== Sys2Proof/Laws/Loop.lean ====
section
/-! SUPPORT. Runs of several steps on the link: a loop that sends one frame again and again until it is answered or its bound is
reached, and the exits of fatal errors. -/

namespace Sys2Proof.Machine

theorem forall2_echoed (bs : List Byte) : List.Forall₂ Echoes (echoed bs) bs := by
  induction bs with
  | nil => exact .nil
  | cons b bs ih => exact .cons (.inr rfl) ih

/-- Explicit answers serve the phases of a store. -/
theorem acked_acked : ∀ (phs : List (List Byte)) (rest : List Answer), Acked phs (acked phs ++ rest) rest
  | [], _ => rfl
  | p :: ps, rest =>
    ⟨echoed p, .bytes [Config.ack], acked ps ++ rest, by simp [acked], forall2_echoed p, .inr rfl, acked_acked ps rest⟩

/-- `t` differs from `s` in nothing but the wire, the target and the cursors of the operation in progress. -/
structure Near (s t : State) : Prop where
  params : t.params = s.params
  codec : t.codec = s.codec
  session : t.session = s.session
  nvm : t.nvm = s.nvm
  irq : t.wire.irq = s.wire.irq
  halted : t.ctl.halted = s.ctl.halted
  requests : t.ctl.requests = s.ctl.requests

theorem Near.trans {s t u} (h : Near s t) (k : Near t u) : Near s u :=
  ⟨k.params.trans h.params, k.codec.trans h.codec, k.session.trans h.session,
    k.nvm.trans h.nvm, k.irq.trans h.irq, k.halted.trans h.halted, k.requests.trans h.requests⟩
theorem Near.ready {s t} (h : Near s t) (r : Ready s) : Ready t := ⟨h.session ▸ r.up, h.irq ▸ r.quiet, h.params ▸ r.patient⟩
theorem Near.running {s t} (h : Near s t) (r : s.running) : t.running := ⟨h.halted ▸ r.1, h.irq ▸ r.2⟩

/-- A fatal error taken near `s` is a fatal exit of `s`. -/
theorem exit_near {e : Error} {s u : State} (he : e.fatal = true) (h : Near s u) : FatalExit e s (takeError e u) := by
  cases e <;> simp [Error.fatal] at he <;>
  exact ⟨by simp [takeError], by simp [takeError], by simp [takeError], by simp [takeError], by simp [takeError],
    by simp [takeError, h.session], by simp [takeError, h.session], by simp [takeError, h.params], by simp [takeError, h.codec], by simp [takeError, h.requests]⟩

theorem fatal_sent {e : Error} {u : State} (he : e.fatal = true) : (takeError e u).wire.sent = u.wire.sent := by
  cases e <;> simp [Error.fatal] at he <;> simp [takeError]

/-- A step that sends one frame and is answered by one byte. -/
theorem read_step {s : State} {i : Instr} {frame : List Byte} {v : Byte} {rest : List Micro} {more : List Answer}
    (hr : Ready s) (hrun : s.running)
    (hx : ∀ u : State, Ready u → u.params = s.params → u.session = s.session →
      u.wire.script = echoed frame ++ .bytes [v] :: more → ∃ t, exec i u = .next (u.replied frame more 1 t [v]))
    (ht : s.ctl.todo = .cmd i :: rest)
    (hs : s.wire.script = echoed frame ++ .bytes [v] :: more) :
    ∃ t, step s = .next t ∧ Near s t ∧ t.ctl.todo = rest ∧ t.ctl.pollAttempt = s.ctl.pollAttempt ∧ t.wire.resp = [v] ∧
      t.wire.script = more ∧ t.wire.sent = s.wire.sent ++ s.onWire frame := by
  obtain ⟨t, h⟩ := hx (s.setTodo rest) ⟨hr.up, hr.quiet, hr.patient⟩ rfl rfl hs
  refine ⟨_, (step_micro hrun ht).trans h, ⟨rfl, rfl, rfl, rfl, rfl, rfl, rfl⟩, rfl, rfl, rfl, rfl, rfl⟩

theorem flat_succ (s : State) (n : Nat) (frame : List Byte) :
    s.onWire (List.replicate (n + 1) frame).flatten = s.onWire frame ++ s.onWire (List.replicate n frame).flatten := by
  rw [List.replicate_succ, List.flatten_cons, onWire_append]

theorem run_two {s t u : State} {n : Nat} {x} (h1 : step s = .next t) (h2 : step t = .next u) (h3 : run n u = x) :
    run (2 + n) s = x := by
  rw [show 2 + n = (n + 1) + 1 by omega, run_succ h1, run_succ h2, h3]

/-- The loop of the polls: after each answer `test` asks again while the answer is a miss, and does `stopped` at the bound `N`. -/
theorem poll_loop {s0 : State} (cmd : Instr) (test : Micro) (frame : List Byte) (rest : List Micro) (N : Nat)
    (stopped : State → State) (more : List Answer) (miss : Byte → Prop)
    (hx : ∀ (v : Byte) (m : List Answer) (u : State), Ready u → u.params = s0.params → u.session = s0.session →
      u.wire.script = echoed frame ++ .bytes [v] :: m → ∃ t, exec cmd u = .next (u.replied frame m 1 t [v]))
    (hmiss : ∀ (u : State) (v : Byte), Near s0 u → u.running → u.ctl.todo = test :: rest → u.wire.resp = [v] → miss v →
      step u = .next (if u.ctl.pollAttempt + 1 < N then
          ((u.setTodo rest).setPollAttempt (u.ctl.pollAttempt + 1)).setTodo (.cmd cmd :: test :: rest)
        else stopped ((u.setTodo rest).setPollAttempt (u.ctl.pollAttempt + 1)))) :
    ∀ (misses : List Byte) (s : State), Near s0 s → Ready s → s.running → s.ctl.todo = .cmd cmd :: test :: rest →
      (∀ v ∈ misses, miss v) →
      s.ctl.pollAttempt + misses.length ≤ N → 1 ≤ misses.length →
      s.wire.script = pollAnswers frame misses ++ more →
      ∃ u, Near s0 u ∧ u.wire.script = more ∧
        u.wire.sent = s.wire.sent ++ s.onWire (List.replicate misses.length frame).flatten ∧
        u.ctl.pollAttempt = s.ctl.pollAttempt + misses.length ∧
        run (2 * misses.length) s = .next (if s.ctl.pollAttempt + misses.length < N then
          u.setTodo (.cmd cmd :: test :: rest) else stopped u) := by
  intro misses
  induction misses with
  | nil => intro s _ _ _ _ _ _ h; simp at h
  | cons v vs ih =>
    intro s hn hr hrun ht hm hN _ hs
    have hs' : s.wire.script = echoed frame ++ .bytes [v] :: (pollAnswers frame vs ++ more) := by
      rw [hs]; simp [pollAnswers]
    obtain ⟨t, e1, n1, t1, p1, r1, c1, s1⟩ := read_step hr hrun (fun u a b c d => hx v _ u a (b.trans hn.params) (c.trans hn.session) d) ht hs'
    have e2 := hmiss t v (hn.trans n1) (n1.running hrun) t1 r1 (hm v (by simp))
    rw [p1] at e2
    simp only [List.length_cons] at hN ⊢
    set w := (t.setTodo rest).setPollAttempt (s.ctl.pollAttempt + 1) with hw
    have nw : Near s w := n1.trans ⟨rfl, rfl, rfl, rfl, rfl, rfl, rfl⟩
    cases vs with
    | nil =>
      refine ⟨w, hn.trans nw, c1, ?_, rfl, ?_⟩
      · show t.wire.sent = _
        rw [s1]; simp
      · show run (2 + 0) s = _
        rw [run_two e1 e2 rfl]; rfl
    | cons x xs =>
      rw [if_pos (by simp at hN; omega)] at e2
      obtain ⟨u, a1, a2, a3, a4, a5⟩ := ih (w.setTodo (.cmd cmd :: test :: rest)) (hn.trans (nw.trans ⟨rfl, rfl, rfl, rfl, rfl, rfl, rfl⟩))
        (Near.ready (s := s) (nw.trans ⟨rfl, rfl, rfl, rfl, rfl, rfl, rfl⟩) hr) (Near.running (s := s) (nw.trans ⟨rfl, rfl, rfl, rfl, rfl, rfl, rfl⟩) hrun) rfl (fun v hv => hm v (by simp [hv])) (by show s.ctl.pollAttempt + 1 + _ ≤ N; omega) (by simp) c1
      refine ⟨u, a1, a2, ?_, ?_, ?_⟩
      · rw [a3, flat_succ]
        show t.wire.sent ++ (w.setTodo _).onWire _ = _
        rw [s1, List.append_assoc]; congr 1
        exact congrArg _ (onWire_congr (s := s) (t := w.setTodo (.cmd cmd :: test :: rest)) nw.session _)
      · rw [a4]; show s.ctl.pollAttempt + 1 + _ = _; omega
      · rw [show 2 * ((x :: xs).length + 1) = 2 + 2 * (x :: xs).length by omega, run_two e1 e2 a5]
        show (Host.Outcome.next (if s.ctl.pollAttempt + 1 + _ < N then _ else _) : Host.Outcome State Fault Refusal) = _
        rw [show s.ctl.pollAttempt + 1 + (x :: xs).length = s.ctl.pollAttempt + ((x :: xs).length + 1) by omega]

end Sys2Proof.Machine
end

