-- ==== Sys2Proof/Laws/Prog.lean ====
section
/-! SUPPORT. Where the interruption can cut a step (R20, R312): what each shared operation of the wire does when the interruption
is due inside it, and that the steps between frames send nothing and receive nothing. -/

namespace Sys2Proof.Machine

/-! ## Communications that an interruption can cut -/

/-- The state with the interruption due after `i` of PROG's own steps, and with the page `pg` in progress. -/
def State.withIrq (s : State) (i : Option Nat) (pg : Option (Nat × Nat)) : State :=
  { s with nvm := { s.nvm with openPage := pg }, wire := { s.wire with irq := i } }

theorem withIrq_self {s : State} (h : s.wire.irq = none) : s.withIrq none s.nvm.openPage = s := by
  obtain ⟨_, _, _, _, _, ⟨_, _, _, i, _, _⟩, _⟩ := s
  simp only at h; subst h; rfl

/-- What the inside of a frame keeps: all but the link configuration's rate and stop bits, the wire, the target and the codec. -/
structure SameOperation (s u : State) : Prop where
  params : u.params = s.params
  nvm : u.nvm = s.nvm
  ctl : u.ctl = s.ctl
  session : ∃ b n, u.session = { s.session with baud := b, stopBits := n }

theorem SameOperation.refl (s : State) : SameOperation s s := ⟨rfl, rfl, rfl, _, _, rfl⟩
theorem SameOperation.trans {s t u : State} (h : SameOperation s t) (k : SameOperation t u) : SameOperation s u := by
  obtain ⟨b, n, e⟩ := h.session
  obtain ⟨b', n', e'⟩ := k.session
  exact ⟨k.params.trans h.params, k.nvm.trans h.nvm, k.ctl.trans h.ctl, b', n', by rw [e', e]⟩

/-- The interruption is not due within the first `K` of PROG's own steps. -/
def notWithin (K : Nat) (i : Option Nat) : Prop := ∀ n, i = some n → K ≤ n
/-- Nothing sent and no receive attempt made between `s` and `t`. -/
structure Idle (s t : State) : Prop where
  sent : t.wire.sent = s.wire.sent
  script : t.wire.script = s.wire.script
  attempt : t.wire.recvAttempt ≤ s.wire.recvAttempt

theorem Idle.refl (s : State) : Idle s s := ⟨rfl, rfl, Nat.le_refl _⟩
theorem Idle.trans {s t u : State} (h : Idle s t) (k : Idle t u) : Idle s u :=
  ⟨k.sent.trans h.sent, k.script.trans h.script, Nat.le_trans k.attempt h.attempt⟩

/-- At most one byte sent, or one answer of the script used and one receive attempt made, between `s` and `t` (R20). -/
def OneMore (s t : State) : Prop :=
  ∃ (b : List TxByte) (a : List Answer), b.length + a.length ≤ 1 ∧ t.wire.sent = s.wire.sent ++ b ∧
    s.wire.script = a ++ t.wire.script ∧ t.wire.recvAttempt ≤ s.wire.recvAttempt + 1

theorem Idle.oneMore {s t : State} (h : Idle s t) : OneMore s t :=
  ⟨[], [], by simp, by simp [h.sent], by simp [h.script], Nat.le_succ_of_le h.attempt⟩
theorem OneMore.idle {s t u : State} (h : OneMore s t) (k : Idle t u) : OneMore s u := by
  obtain ⟨b, a, hl, hs, ha, hr⟩ := h
  exact ⟨b, a, hl, k.sent.trans hs, by rw [ha, k.script], Nat.le_trans k.attempt hr⟩
theorem Idle.then_oneMore {s t u : State} (h : Idle s t) (k : OneMore t u) : OneMore s u := by
  obtain ⟨b, a, hl, hs, ha, hr⟩ := k
  exact ⟨b, a, hl, by rw [hs, h.sent], by rw [← h.script, ha], by have := h.attempt; omega⟩

/-- What the state `t` after the last of `K` points `c` shows, from the state `s` on. -/
def AfterLast (s : State) (K : Nat) (c : Nat → State) (t : State) : Prop :=
  if K = 0 then Idle s t else OneMore (c (K - 1)) t

theorem AfterLast.idle {s : State} {K : Nat} {c : Nat → State} {t u : State} (h : AfterLast s K c t) (k : Idle t u) :
    AfterLast s K c u := by
  unfold AfterLast at *
  split at h
  · rw [if_pos (by assumption)]; exact h.trans k
  · rw [if_neg (by assumption)]; exact h.idle k

/-- The points `c` of a communication that begins in `s`: `K` of PROG's own steps, each one byte sent or one receive attempt
at most. -/
structure CutPoints (s : State) (K : Nat) (c : Nat → State) : Prop where
  line : ∀ n < K, SameOperation s (c n)
  first : 0 < K → Idle s (c 0)
  grow : ∀ n, n + 1 < K → OneMore (c n) (c (n + 1))

/-- What a communication does under an interruption, said once: it passes `K` points; an interruption due at one of them leaves
what was done until then; one that is due later lets it end as it does without, with a value or with a fatal error. -/
def Cuttable {α : Type} (f : State → Comm α) (s : State) : Prop :=
  ∃ (K : Nat) (c : Nat → State), CutPoints s K c ∧
    (∀ n < K, ∀ pg, f (s.withIrq (some n) pg) = .stop (interrupt ((c n).withIrq (some 0) pg))) ∧
    ((∃ v u, SameOperation s u ∧ AfterLast s K c u ∧
        ∀ i pg, notWithin K i → f (s.withIrq i pg) = .ok v (u.withIrq (i.map (fun n => n - K)) pg)) ∨
      (∀ i pg, notWithin K i →
        ∃ t, f (s.withIrq i pg) = .stop t ∧ t.ctl.halted = s.ctl.halted ∧ AfterLast s K c t))

/-- A communication that takes no step. -/
theorem Cuttable.pure {α} {f : State → Comm α} {s u : State} (v : α) (hl : SameOperation s u) (hs : Idle s u)
    (hf : ∀ i pg, f (s.withIrq i pg) = .ok v (u.withIrq i pg)) : Cuttable f s := by
  refine ⟨0, fun _ => s, ⟨nofun, nofun, nofun⟩, nofun, .inl ⟨v, u, hl, hs, fun i pg _ => ?_⟩⟩
  rw [hf]; cases i <;> rfl

/-- The end of a frame, a change of the state that takes no step. -/
theorem Cuttable.done {g : State → State} {s : State} (hl : SameOperation s (g s)) (hs : Idle s (g s))
    (hg : ∀ i pg, g (s.withIrq i pg) = (g s).withIrq i pg) : Cuttable (fun s => .ok () (g s)) s :=
  Cuttable.pure () hl hs fun i pg => by rw [hg]

/-- A fatal error that takes no step. -/
theorem Cuttable.raise {α} {e : Error} {f : State → Comm α} {s u : State}
    (hh : u.ctl.halted = s.ctl.halted) (hs : Idle s u)
    (hf : ∀ i pg, f (s.withIrq i pg) = Machine.raise e (u.withIrq i pg)) : Cuttable f s := by
  refine ⟨0, fun _ => s, ⟨nofun, nofun, nofun⟩, nofun, .inr fun i pg _ => ⟨_, hf i pg, ?_, ?_⟩⟩
  · rw [← hh]; cases e <;> simp [takeError] <;> rfl
  · show Idle s _
    exact hs.trans ⟨by simp [State.withIrq], by simp [State.withIrq], by simp [State.withIrq]⟩

/-- A communication after a change that takes no step. -/
theorem Cuttable.map {α} {f g : State → Comm α} {s u : State} (hl : SameOperation s u) (hs : Idle s u)
    (hf : ∀ i pg, f (s.withIrq i pg) = g (u.withIrq i pg)) (h : Cuttable g u) : Cuttable f s := by
  obtain ⟨K, c, hp, h1, h2⟩ := h
  have hll : ∀ l, AfterLast u K c l → AfterLast s K c l := by
    unfold AfterLast; intro l; split
    · exact hs.trans
    · exact id
  refine ⟨K, c, ⟨fun n hn => hl.trans (hp.line n hn), fun h0 => hs.trans (hp.first h0), hp.grow⟩,
    fun n hn pg => by rw [hf]; exact h1 n hn pg, ?_⟩
  rcases h2 with ⟨v, w, a, b, d⟩ | h2
  · exact .inl ⟨v, w, hl.trans a, hll _ b, fun i pg hi => by rw [hf]; exact d i pg hi⟩
  · refine .inr fun i pg hi => ?_
    obtain ⟨t, a, b, d⟩ := h2 i pg hi
    exact ⟨t, by rw [hf]; exact a, by rw [b, hl.ctl], hll _ d⟩

theorem Cuttable.congr {α} {f g : State → Comm α} {s : State} (hf : ∀ i pg, f (s.withIrq i pg) = g (s.withIrq i pg))
    (h : Cuttable g s) : Cuttable f s :=
  Cuttable.map (SameOperation.refl s) (Idle.refl s) hf h

/-- A communication that begins with one of PROG's own steps: an interruption that is due comes before it. -/
theorem Cuttable.own {α} {f g : State → Comm α} {s u : State} (hl : SameOperation s u) (ho : OneMore s u)
    (hstart : ∀ pg, f (s.withIrq (some 0) pg) = .stop (interrupt (s.withIrq (some 0) pg)))
    (hgo : ∀ i pg, notWithin 1 i → f (s.withIrq i pg) = g (u.withIrq (i.map (fun n => n - 1)) pg))
    (h : Cuttable g u) : Cuttable f s := by
  obtain ⟨K, c, hp, h1, h2⟩ := h
  have hll : ∀ t, AfterLast u K c t → AfterLast s (K + 1) (fun n => if n = 0 then s else c (n - 1)) t := by
    intro t ht
    unfold AfterLast at ht ⊢
    rw [if_neg (by omega), Nat.add_sub_cancel]
    beta_reduce
    split at ht
    · rw [if_pos (by assumption)]; exact ho.idle ht
    · rw [if_neg (by assumption)]; exact ht
  have hpk : ∀ i : Option Nat, notWithin (K + 1) i → notWithin 1 i ∧ notWithin K (i.map (fun n => n - 1)) := by
    intro i hi
    refine ⟨fun n hn => by have := hi n hn; omega, fun n hn => ?_⟩
    cases i with
    | none => cases hn
    | some m => have := hi m rfl; simp only [Option.map_some, Option.some.injEq] at hn; omega
  refine ⟨K + 1, fun n => if n = 0 then s else c (n - 1), ⟨?_, fun _ => by rw [if_pos rfl]; exact Idle.refl s, ?_⟩, ?_, ?_⟩
  · intro n hn
    split
    · exact SameOperation.refl s
    · exact hl.trans (hp.line _ (by omega))
  · intro n hn
    rw [if_neg (by omega : ¬ n + 1 = 0), Nat.add_sub_cancel]
    split
    · subst n; exact ho.idle (hp.first (by omega))
    · rw [show c n = c (n - 1 + 1) by rw [Nat.sub_add_cancel (by omega)]]
      exact hp.grow _ (by omega)
  · intro n hn pg
    beta_reduce
    rcases Nat.eq_zero_or_pos n with rfl | h0
    · exact hstart pg
    · rw [hgo (some n) pg (fun m hm => by injection hm; omega), if_neg (by omega)]
      exact h1 (n - 1) (by omega) pg
  · rcases h2 with ⟨v, w, a, b, d⟩ | h2
    · refine .inl ⟨v, w, hl.trans a, hll _ b, fun i pg hi => ?_⟩
      rw [hgo i pg (hpk i hi).1, d _ pg (hpk i hi).2]
      cases i with
      | none => rfl
      | some m => simp only [Option.map_some]; rw [Nat.sub_sub, Nat.add_comm 1 K]
    · refine .inr fun i pg hi => ?_
      obtain ⟨t, a, b, d⟩ := h2 _ pg (hpk i hi).2
      exact ⟨t, by rw [hgo i pg (hpk i hi).1, a], by rw [b, hl.ctl], hll _ d⟩

/-- The points of a sequence are the points of its parts. -/
theorem Cuttable.bind {α β} {f : State → Comm α} {g : α → State → Comm β} {s : State} (hf : Cuttable f s)
    (hg : ∀ v u, SameOperation s u → Cuttable (g v) u) : Cuttable (fun s => (f s).bind g) s := by
  obtain ⟨K, c, hp, h1, h2⟩ := hf
  rcases h2 with ⟨v, u, hl, hs, h2⟩ | h2
  swap
  · refine ⟨K, c, hp, fun n hn pg => by simp only [h1 n hn pg]; rfl, .inr fun i pg hi => ?_⟩
    obtain ⟨t, a, b, d⟩ := h2 i pg hi
    exact ⟨t, by simp only [a]; rfl, b, d⟩
  obtain ⟨K', c', hp', h1', h2'⟩ := hg v u hl
  have hlast : ∀ l, AfterLast u K' c' l → AfterLast s (K + K') (fun n => if n < K then c n else c' (n - K)) l := by
    intro l hl
    unfold AfterLast at hs hl ⊢
    rcases Nat.eq_zero_or_pos K' with h0 | h0
    · subst h0
      simp only [if_true] at hl
      by_cases hk : K = 0
      · rw [if_pos hk] at hs; rw [if_pos (by omega)]; exact hs.trans hl
      · rw [if_neg hk] at hs; rw [if_neg (by omega)]
        beta_reduce
        rw [if_pos (by omega)]; exact hs.idle hl
    · rw [if_neg (by omega)] at hl
      rw [if_neg (by omega)]
      beta_reduce
      rw [if_neg (by omega), show K + K' - 1 - K = K' - 1 by omega]; exact hl
  have hfirst : 0 < K' → AfterLast s K c (c' 0) := by
    intro h0; exact hs.idle (hp'.first h0)
  refine ⟨K + K', fun n => if n < K then c n else c' (n - K), ⟨?_, ?_, ?_⟩, ?_, ?_⟩
  · intro n hn
    split
    · exact hp.line n ‹_›
    · exact hl.trans (hp'.line _ (by omega))
  · intro h0
    split
    · exact hp.first ‹_›
    · have := hfirst (by omega)
      unfold AfterLast at this
      rw [if_pos (by omega)] at this
      rw [Nat.zero_sub]; exact this
  · intro n hn
    by_cases a : n + 1 < K
    · rw [if_pos a, if_pos (by omega)]; exact hp.grow n a
    · rw [if_neg a]
      by_cases b : n < K
      · rw [if_pos b]
        have := hfirst (by omega)
        unfold AfterLast at this
        rw [if_neg (by omega)] at this
        rw [show n + 1 - K = 0 by omega, show n = K - 1 by omega]; exact this
      · rw [if_neg b, show n + 1 - K = (n - K) + 1 by omega]
        exact hp'.grow _ (by omega)
  · intro n hn pg
    beta_reduce
    by_cases a : n < K
    · rw [h1 n a pg, if_pos a]; rfl
    · rw [h2 (some n) pg (fun m hm => by injection hm; omega), if_neg a]
      exact h1' (n - K) (by omega) pg
  · have hsub : ∀ i : Option Nat, notWithin (K + K') i → notWithin K' (i.map (fun n => n - K)) := by
      intro i hi n hn
      cases i with
      | none => cases hn
      | some m => have := hi m rfl; simp only [Option.map_some, Option.some.injEq] at hn; omega
    have hpk : ∀ i : Option Nat, notWithin (K + K') i → notWithin K i := fun i hi n hn => by have := hi n hn; omega
    rcases h2' with ⟨w, x, a, b, d⟩ | h2'
    · refine .inl ⟨w, x, hl.trans a, hlast _ b, fun i pg hi => ?_⟩
      beta_reduce; rw [h2 i pg (hpk i hi), Comm.bind_ok, d _ pg (hsub i hi)]
      cases i with
      | none => rfl
      | some m => simp only [Option.map_some]; rw [Nat.sub_sub]
    · refine .inr fun i pg hi => ?_
      obtain ⟨t, a, b, d⟩ := h2' _ pg (hsub i hi)
      exact ⟨t, by beta_reduce; rw [h2 i pg (hpk i hi), Comm.bind_ok, a], by rw [b, hl.ctl], hlast _ d⟩

theorem txDraw_withIrq (s : State) (i pg) : txDraw (s.withIrq i pg) = ((txDraw s).1, (txDraw s).2.withIrq i pg) := by
  unfold txDraw State.withIrq
  cases h : s.wire.script with
  | nil => simp [h, State.bump]
  | cons a as => cases a <;> simp [h]

theorem rxDraw_withIrq (s : State) (i pg) : rxDraw (s.withIrq i pg) = ((rxDraw s).1, (rxDraw s).2.withIrq i pg) := by
  unfold rxDraw State.withIrq
  cases h : s.wire.script with
  | nil => simp [h, State.bump]
  | cons a as => rfl

/-- A draw for a transmission changes the script, when it says that the write is short, and the draw index. -/
theorem txDraw_spec (s : State) : SameOperation s (txDraw s).2 ∧ OneMore s (txDraw s).2 ∧
    ((txDraw s).1 = false → Idle s (txDraw s).2) := by
  unfold txDraw
  split
  · exact ⟨⟨rfl, rfl, rfl, _, _, rfl⟩, Idle.oneMore ⟨rfl, rfl, Nat.le_refl _⟩, fun _ => ⟨rfl, rfl, Nat.le_refl _⟩⟩
  · rename_i r h
    exact ⟨⟨rfl, rfl, rfl, _, _, rfl⟩, ⟨[], [.shortWrite], by simp, by simp, by simp [h], by simp⟩, nofun⟩
  · exact ⟨SameOperation.refl s, (Idle.refl s).oneMore, fun _ => Idle.refl s⟩

/-- A draw for a receive attempt uses one answer of the script at most. -/
theorem rxDraw_spec (s : State) : SameOperation s (rxDraw s).2 ∧
    ∃ a : List Answer, a.length ≤ 1 ∧ (rxDraw s).2.wire.sent = s.wire.sent ∧ s.wire.script = a ++ (rxDraw s).2.wire.script ∧
      (rxDraw s).2.wire.recvAttempt = s.wire.recvAttempt := by
  unfold rxDraw
  split
  · rename_i h; exact ⟨⟨rfl, rfl, rfl, _, _, rfl⟩, [], by simp, rfl, by simp [State.bump], rfl⟩
  · rename_i x r h; exact ⟨⟨rfl, rfl, rfl, _, _, rfl⟩, [x], by simp, rfl, by simp [h], rfl⟩

/-- A point that the interruption does not take. -/
theorem tick_passes {s : State} {i : Option Nat} {pg : Option (Nat × Nat)} (hi : notWithin 1 i) :
    tick (s.withIrq i pg) = .ok () (s.withIrq (i.map (fun n => n - 1)) pg) := by
  cases i with
  | none => rfl
  | some n =>
    have := hi n rfl
    obtain ⟨m, rfl⟩ : ∃ m, n = m + 1 := ⟨n - 1, by omega⟩
    rfl

/-- The state after a byte went out (R12, R65). -/
def txSent (b : Byte) (s : State) : State :=
  { s with wire := { s.wire with sent := s.wire.sent ++ [⟨b, s.session.baud, s.session.stopBits⟩] } }

theorem raise_cuttable {α} (e : Error) (s : State) : Cuttable (raise e : State → Comm α) s :=
  Cuttable.raise rfl (Idle.refl s) (fun _ _ => rfl)
theorem ok_cuttable {α} (v : α) (s : State) : Cuttable (Comm.ok v) s :=
  Cuttable.pure v (SameOperation.refl s) (Idle.refl s) (fun _ _ => rfl)

theorem tx_cuttable (b : Byte) (s : State) : Cuttable (tx b) s := by
  obtain ⟨hl, ho, hs⟩ := txDraw_spec s
  have hgo : ∀ i pg, notWithin 1 i → tx b (s.withIrq i pg) =
      (match txDraw s with
      | (true, s1) => raise (.transport .shortWrite) (s1.withIrq (i.map (fun n => n - 1)) pg)
      | (false, s1) => .ok () ((txSent b s1).withIrq (i.map (fun n => n - 1)) pg)) := by
    intro i pg hi
    unfold tx
    rw [tick_passes hi, Comm.bind_ok, txDraw_withIrq]
    generalize txDraw s = d
    obtain ⟨_ | _, u⟩ := d <;> rfl
  generalize txDraw s = d at *
  obtain ⟨_ | _, u⟩ := d
  · refine Cuttable.own (u := txSent b u) (hl.trans ⟨rfl, rfl, rfl, _, _, rfl⟩) ?_ (fun _ => rfl) hgo (ok_cuttable () _)
    exact (hs rfl).then_oneMore ⟨[⟨b, u.session.baud, u.session.stopBits⟩], [], by simp, rfl, rfl, Nat.le_succ _⟩
  · exact Cuttable.own hl ho (fun _ => rfl) hgo (raise_cuttable _ u)

theorem recvLoop_cuttable : ∀ (fuel n : Nat) (owed got : List Byte) (s : State), Cuttable (recvLoop fuel n owed got) s
  | 0, n, owed, got, s => Cuttable.pure got (SameOperation.refl s) (Idle.refl s) (fun _ _ => rfl)
  | fuel + 1, n, owed, got, s => by
    by_cases h : n ≤ got.length
    · exact Cuttable.pure got (SameOperation.refl s) (Idle.refl s) (fun _ _ => by unfold recvLoop; rw [if_pos h])
    · obtain ⟨hl, a, hlen, hs, hsc, hr⟩ := rxDraw_spec s
      have hstart : ∀ pg, recvLoop (fuel + 1) n owed got (s.withIrq (some 0) pg) =
          .stop (interrupt (s.withIrq (some 0) pg)) := fun pg => by unfold recvLoop; rw [if_neg h]; rfl
      cases ha : answerBytes (rxDraw s).1 (n - got.length) (owed.drop got.length) with
      | none =>
        refine Cuttable.own (g := .ok got) hl ⟨[], a, by simpa using hlen, by simp [hs], hsc, by omega⟩ hstart
          (fun i pg hi => ?_) (ok_cuttable got _)
        unfold recvLoop
        rw [if_neg h, tick_passes hi, Comm.bind_ok]
        simp only [rxDraw_withIrq, ha]
      | some c =>
        refine Cuttable.own (g := recvLoop fuel n owed (got ++ c))
          (u := { (rxDraw s).2 with wire := { (rxDraw s).2.wire with recvAttempt := (rxDraw s).2.wire.recvAttempt + 1 } })
          (hl.trans ⟨rfl, rfl, rfl, _, _, rfl⟩) ⟨[], a, by simpa using hlen, by simp [hs], hsc, by simp [hr]⟩ hstart
          (fun i pg hi => ?_) (recvLoop_cuttable fuel n owed (got ++ c) _)
        rw [recvLoop, if_neg h, tick_passes hi, Comm.bind_ok]
        simp only [rxDraw_withIrq, ha]; rfl

theorem recv_cuttable (n : Nat) (owed : List Byte) (s : State) : Cuttable (recv n owed) s :=
  Cuttable.map (g := recvLoop s.params.recvAttempts n owed []) (u := { s with wire := { s.wire with recvAttempt := 0 } })
    ⟨rfl, rfl, rfl, _, _, rfl⟩ ⟨rfl, rfl, Nat.zero_le _⟩ (fun _ _ => rfl) (recvLoop_cuttable _ _ _ _ _)

theorem sendByte_cuttable (b : Byte) (s : State) : Cuttable (sendByte b) s := by
  refine (tx_cuttable b s).bind fun _ u _ => (recv_cuttable 1 [b] u).bind fun e w _ => ?_
  cases e with
  | nil => exact raise_cuttable _ w
  | cons c cs =>
    by_cases h : c = b
    · simpa [h] using ok_cuttable () w
    · simpa [h] using raise_cuttable _ w

theorem send_cuttable : ∀ (bs : List Byte) (s : State), Cuttable (send bs) s
  | [], s => ok_cuttable () s
  | b :: bs, s => (sendByte_cuttable b s).bind fun _ u _ => send_cuttable bs u

theorem expectBytes_cuttable (n : Nat) (owed : List Byte) (s : State) : Cuttable (expectBytes n owed) s := by
  refine (recv_cuttable n owed s).bind fun r u _ => ?_
  by_cases h : r.length < n
  · simpa [h] using raise_cuttable _ u
  · simpa [h] using ok_cuttable r u

theorem expectAck_cuttable (owed : List Byte) (s : State) : Cuttable (expectAck owed) s := by
  refine (recv_cuttable 1 owed s).bind fun r u _ => ?_
  cases r with
  | nil => exact raise_cuttable _ u
  | cons c cs =>
    by_cases h : c = Config.ack
    · simpa [h] using ok_cuttable () u
    · simpa [h] using raise_cuttable _ u

theorem onTarget_sameOperation (s : State) (f) : SameOperation s (onTarget s f) := ⟨rfl, rfl, rfl, _, _, rfl⟩

theorem silentFrame_cuttable (insn ops f) (s : State) : Cuttable (silentFrame insn ops f) s :=
  (send_cuttable _ s).bind fun _ _ _ => Cuttable.done ⟨rfl, rfl, rfl, _, _, rfl⟩ ⟨rfl, rfl, Nat.le_refl _⟩ fun _ _ => rfl

theorem loadFrame_cuttable (insn ops n owed f) (s : State) : Cuttable (loadFrame insn ops n owed f) s := by
  refine (send_cuttable _ s).bind fun _ u _ => ?_
  refine Cuttable.map (g := fun u' => (expectBytes n (owed u.wire.draws u.target) u').bind fun v s => .ok () (s.setResp v))
    (u := onTarget u fun _ t => f t)
    (onTarget_sameOperation u _) ⟨rfl, rfl, Nat.le_refl _⟩ (fun _ _ => rfl) ?_
  exact (expectBytes_cuttable n _ _).bind fun v w _ => Cuttable.done ⟨rfl, rfl, rfl, _, _, rfl⟩ ⟨rfl, rfl, Nat.le_refl _⟩ fun _ _ => rfl

theorem ackPhase_cuttable (owed : List Byte) (f : State → Nat → Target → Target) {s : State}
    (hf : ∀ i pg, f (s.withIrq i pg) = f s) : Cuttable (fun s => expectAck owed (onTarget s (f s))) s :=
  Cuttable.map (g := expectAck owed) (u := onTarget s (f s)) (onTarget_sameOperation s _) ⟨rfl, rfl, Nat.le_refl _⟩
    (fun i pg => by rw [hf]; rfl) (expectAck_cuttable _ _)

theorem directStore_cuttable (insn a data) (s : State) : Cuttable (directStore insn a data) s := by
  refine (send_cuttable _ s).bind fun _ u _ => ?_
  refine (ackPhase_cuttable _ (fun _ _ t => t.clearRep) (fun _ _ => rfl)).bind fun _ w _ => ?_
  refine Cuttable.congr (g := fun x => (dataPhase data (fun d t => t.storeBytes w.params w.session.profile d a data) x).bind
    fun _ s => .ok () (s.setResp [])) (fun _ _ => rfl) ?_
  refine ((send_cuttable data w).bind fun _ x _ => ackPhase_cuttable _ (fun _ d t =>
    t.storeBytes w.params w.session.profile d a data) (fun _ _ => rfl)).bind fun _ x _ => ?_
  exact Cuttable.done ⟨rfl, rfl, rfl, _, _, rfl⟩ ⟨rfl, rfl, Nat.le_refl _⟩ fun _ _ => rfl

theorem unit_cuttable (left : Nat) (v : List Byte) (s : State) : Cuttable (fun s => expectAck (unitAck left)
    (onTarget s fun d t => t.takeUnit s.params s.session.profile d left v)) s :=
  ackPhase_cuttable _ (fun s d t => t.takeUnit s.params s.session.profile d left v) (fun _ _ => rfl)

theorem storeUnits_cuttable : ∀ (us : List (List Byte)) (left : Nat) (s : State), Cuttable (storeUnits left us) s
  | [], left, s => Cuttable.congr (g := Comm.ok ()) (fun _ _ => by unfold storeUnits; rfl) (ok_cuttable () s)
  | v :: us, left, s => by
    refine Cuttable.congr (g := fun s => (send v s).bind fun _ s => (expectAck (unitAck left)
      (onTarget s fun d t => t.takeUnit s.params s.session.profile d left v)).bind fun _ s => storeUnits (left - 1) us s)
      (fun _ _ => by conv_lhs => unfold storeUnits) ?_
    exact (send_cuttable v s).bind fun _ u _ => (unit_cuttable left v u).bind fun _ w _ => storeUnits_cuttable us _ w

theorem burstStore_cuttable (insn us) (s : State) : Cuttable (burstStoreFrame insn us) s := by
  cases us with
  | nil => exact ok_cuttable () s
  | cons v us =>
    refine (send_cuttable _ s).bind fun _ u _ => ?_
    refine Cuttable.congr (g := fun s => (expectAck (unitAck (u.target.rep.toNat + 1))
        (onTarget s fun d t => t.takeUnit s.params s.session.profile d (u.target.rep.toNat + 1) v)).bind fun _ s1 =>
          (storeUnits u.target.rep.toNat us s1).bind fun _ s2 =>
            .ok () ((s2.setTarget s2.target.clearRep).setResp [])) (fun _ _ => rfl) ?_
    refine (unit_cuttable _ v u).bind fun _ w _ => ?_
    exact (storeUnits_cuttable us _ w).bind fun _ x _ => Cuttable.done (g := fun s => (s.setTarget s.target.clearRep).setResp [])
      ⟨rfl, rfl, rfl, _, _, rfl⟩ ⟨rfl, rfl, Nat.le_refl _⟩ fun _ _ => rfl

theorem burstLoad_cuttable (insn size n) (s : State) : Cuttable (burstLoadFrame insn size n) s :=
  Cuttable.congr (g := loadFrame insn [] (size * n)
    (fun d t => t.loadBytes s.params s.session.profile d t.ptr (size * (t.rep.toNat + 1)))
    (fun t => t.passBytes s.params s.session.profile (size * (t.rep.toNat + 1)))) (fun _ _ => rfl)
    (loadFrame_cuttable _ _ _ _ _ s)

theorem stPtr_cuttable (a : Word) (s : State) : Cuttable (fun s =>
    (frame (insnStPtr s.params.opc) (wireWord a) s).bind fun _ s =>
      (expectAck [Config.ack] (onTarget s fun _ t => { t.clearRep with ptr := a })).bind fun _ s => .ok () (s.setResp [])) s := by
  refine Cuttable.congr (g := fun x => (frame (insnStPtr s.params.opc) (wireWord a) x).bind fun _ s =>
    (expectAck [Config.ack] (onTarget s fun _ t => { t.clearRep with ptr := a })).bind fun _ s => .ok () (s.setResp []))
    (fun _ _ => rfl) ?_
  refine (send_cuttable _ s).bind fun _ u _ => ?_
  exact (ackPhase_cuttable _ (fun _ _ t => { t.clearRep with ptr := a }) (fun _ _ => rfl)).bind fun _ x _ =>
    Cuttable.done ⟨rfl, rfl, rfl, _, _, rfl⟩ ⟨rfl, rfl, Nat.le_refl _⟩ fun _ _ => rfl

theorem brk_cuttable (s : State) : Cuttable (fun s =>
    (send [Config.breakChar] s).bind fun _ s => .ok () ((onTarget s Target.updiReset).setResp [])) s :=
  (send_cuttable _ s).bind fun _ _ _ => Cuttable.done (g := fun s => (onTarget s Target.updiReset).setResp [])
    ⟨rfl, rfl, rfl, _, _, rfl⟩ ⟨rfl, rfl, Nat.le_refl _⟩ fun _ _ => rfl

theorem sendRaw_cuttable (bs : List Byte) (s : State) :
    Cuttable (fun s => (send bs s).bind fun _ s => .ok () (s.setResp [])) s :=
  (send_cuttable _ s).bind fun _ _ _ => Cuttable.done ⟨rfl, rfl, rfl, _, _, rfl⟩ ⟨rfl, rfl, Nat.le_refl _⟩ fun _ _ => rfl

theorem recvRaw_cuttable (n : Nat) (s : State) : Cuttable (fun s => (recv n [] s).bind fun r s => .ok () (s.setResp r)) s :=
  (recv_cuttable _ _ s).bind fun _ _ _ => Cuttable.done ⟨rfl, rfl, rfl, _, _, rfl⟩ ⟨rfl, rfl, Nat.le_refl _⟩ fun _ _ => rfl

theorem doubleBreak_cuttable (s : State) : Cuttable (fun s0 =>
    (tx Config.breakChar (s0.setLine Config.baudFallback Config.stopBitsFallback)).bind fun _ s =>
      (tx Config.breakChar s).bind fun _ s =>
        (recv 2 [Config.breakChar, Config.breakChar] (onTarget s Target.updiReset)).bind fun _ s =>
          .ok () ((s.setLine s0.session.baud Config.stopBits).setResp [])) s := by
  refine Cuttable.map (g := fun x => (tx Config.breakChar x).bind fun _ y =>
      (tx Config.breakChar y).bind fun _ z =>
        (recv 2 [Config.breakChar, Config.breakChar] (onTarget z Target.updiReset)).bind fun _ w =>
          .ok () ((w.setLine s.session.baud Config.stopBits).setResp []))
    (u := s.setLine Config.baudFallback Config.stopBitsFallback) ⟨rfl, rfl, rfl, _, _, rfl⟩
    ⟨rfl, rfl, Nat.le_refl _⟩ (fun _ _ => rfl) ?_
  refine (tx_cuttable _ _).bind fun _ u _ => (tx_cuttable _ u).bind fun _ v _ => ?_
  refine Cuttable.bind (f := fun z => recv 2 [Config.breakChar, Config.breakChar] (onTarget z Target.updiReset))
    (Cuttable.map (g := recv 2 [Config.breakChar, Config.breakChar]) (u := onTarget v Target.updiReset)
      (onTarget_sameOperation v _) ⟨rfl, rfl, Nat.le_refl _⟩ (fun _ _ => rfl) (recv_cuttable _ _ _)) fun r w _ => ?_
  exact Cuttable.done (g := fun w => (w.setLine s.session.baud Config.stopBits).setResp [])
    ⟨rfl, rfl, rfl, _, _, rfl⟩ ⟨rfl, rfl, Nat.le_refl _⟩ fun _ _ => rfl

/-- A step that is a communication with its points. -/
def OnWire (f : State → Host.Outcome State Fault Refusal) (s : State) : Prop :=
  ∃ body : State → Comm Unit, (∀ i pg, f (s.withIrq i pg) = .next (body (s.withIrq i pg)).final) ∧ Cuttable body s

theorem onWire_of {f : State → Host.Outcome State Fault Refusal} {s : State} (body : State → Comm Unit)
    (h : linkUp s.session = true)
    (hf : ∀ i pg, f (s.withIrq i pg) = onLink (s.withIrq i pg) body) (hp : Cuttable body s) : OnWire f s :=
  ⟨body, fun i pg => by rw [hf]; unfold onLink; exact if_pos h, hp⟩

/-- Every instruction of the link that answers a next state is a communication with its points. -/
theorem exec_onWire {i : Instr} {s t : State} (hl : isLinkInstr i = true) (h : exec i s = .next t) : OnWire (exec i) s := by
  have up : linkUp s.session = true := by
    cases hb : linkUp s.session with
    | true => rfl
    | false =>
      exfalso
      cases i
      case data => exact Bool.noConfusion hl
      case eof => exact Bool.noConfusion hl
      case esa => exact Bool.noConfusion hl
      case ssa => exact Bool.noConfusion hl
      case ela => exact Bool.noConfusion hl
      case hexReserved => exact Bool.noConfusion hl
      all_goals
        simp only [exec, execLdcs, execStcs, execLdsb, execLdsw, execStsb, execStsw, execStPtr, execLdb, execLdw, execStb,
          execStw, execRep, execKey, execBrk, execDoubleBreak, execWritePage, execEraseWritePage, execPageBufferClr,
          execWriteFuse, nvmCommand, onLink, hb] at h
        (repeat' split at h) <;> contradiction
  cases i
  case data => exact Bool.noConfusion hl
  case eof => exact Bool.noConfusion hl
  case esa => exact Bool.noConfusion hl
  case ssa => exact Bool.noConfusion hl
  case ela => exact Bool.noConfusion hl
  case hexReserved => exact Bool.noConfusion hl
  case ldcs r =>
    have : ¬ 15 < r := fun hc => by simp [exec, execLdcs, hc] at h
    exact onWire_of _ up (fun i pg => by simp only [exec, execLdcs, if_neg this]; rfl)
      (loadFrame_cuttable (insnLdcs s.params.opc r) [] 1 (fun d t => [t.csRead s.params d r]) Target.clearRep s)
  case stcs r v =>
    have : ¬ 15 < r := fun hc => by simp [exec, execStcs, hc] at h
    exact onWire_of _ up (fun i pg => by simp only [exec, execStcs, if_neg this]; rfl)
      (silentFrame_cuttable (insnStcs s.params.opc r) [v] (fun d t => t.clearRep.csWrite s.params s.session.profile d r v) s)
  case ldsb a =>
    exact onWire_of _ up (fun i pg => rfl) (loadFrame_cuttable (insnLds s.params.opc false) (wireWord a) 1
      (fun d t => t.loadBytes s.params s.session.profile d a 1)
      (fun t => t.clearRep.polledBytes s.params s.session.profile a 1) s)
  case ldsw a =>
    exact onWire_of _ up (fun i pg => rfl) (loadFrame_cuttable (insnLds s.params.opc true) (wireWord a) 2
      (fun d t => t.loadBytes s.params s.session.profile d a 2)
      (fun t => t.clearRep.polledBytes s.params s.session.profile a 2) s)
  case stsb a v => exact onWire_of _ up (fun i pg => rfl) (directStore_cuttable (insnSts s.params.opc false) a [v] s)
  case stsw a w => exact onWire_of _ up (fun i pg => rfl) (directStore_cuttable (insnSts s.params.opc true) a (wireWord w) s)
  case stPtr a => exact onWire_of _ up (fun i pg => rfl) (stPtr_cuttable a s)
  case ldb n =>
    have : countOk n = true := by cases hc : countOk n <;> simp [exec, execLdb, hc] at h ⊢
    exact onWire_of _ up (fun i pg => by simp only [exec, execLdb, this, if_true]; rfl)
      (burstLoad_cuttable (insnLd s.params.opc false) 1 n s)
  case ldw n =>
    have : countOk n = true := by cases hc : countOk n <;> simp [exec, execLdw, hc] at h ⊢
    exact onWire_of _ up (fun i pg => by simp only [exec, execLdw, this, if_true]; rfl)
      (burstLoad_cuttable (insnLd s.params.opc true) 2 n s)
  case stb d =>
    have : countOk d.length = true := by cases hc : countOk d.length <;> simp [exec, execStb, hc] at h ⊢
    exact onWire_of _ up (fun i pg => by simp only [exec, execStb, this, if_true]; rfl)
      (burstStore_cuttable (insnSt s.params.opc false) (byteUnits d) s)
  case stw d =>
    have h2 : ¬ d.length % 2 ≠ 0 := fun hc => by simp [exec, execStw, hc] at h
    have : countOk (d.length / 2) = true := by
      cases hc : countOk (d.length / 2) with
      | true => rfl
      | false => simp only [exec, execStw, if_neg h2, hc] at h; cases h
    exact onWire_of _ up (fun i pg => by simp only [exec, execStw, if_neg h2, this, if_true]; rfl)
      (burstStore_cuttable (insnSt s.params.opc true) (wordUnits d) s)
  case rep n =>
    have : countOk n = true := by cases hc : countOk n <;> simp [exec, execRep, hc] at h ⊢
    exact onWire_of _ up (fun i pg => by simp only [exec, execRep, this, if_true]; rfl)
      (silentFrame_cuttable s.params.opc.rep [repOperand n] (fun _ t => { t with rep := repOperand n }) s)
  case key k =>
    have : k.length = Config.keyLen := by by_contra hc; simp [exec, execKey, hc] at h
    exact onWire_of _ up (fun i pg => by simp only [exec, execKey, if_pos this]; rfl)
      (silentFrame_cuttable s.params.opc.key k.reverse (fun _ t => t.clearRep.acceptKey s.params k) s)
  case brk => exact onWire_of _ up (fun i pg => rfl) (brk_cuttable s)
  case doubleBreak => exact onWire_of _ up (fun i pg => rfl) (doubleBreak_cuttable s)
  case writePage =>
    exact onWire_of _ up (fun i pg => rfl)
      (directStore_cuttable (insnSts s.params.opc false) (commandAddr s) [s.params.cmdWritePage] s)
  case eraseWritePage =>
    exact onWire_of _ up (fun i pg => rfl)
      (directStore_cuttable (insnSts s.params.opc false) (commandAddr s) [s.params.cmdEraseWritePage] s)
  case pageBufferClr =>
    exact onWire_of _ up (fun i pg => rfl)
      (directStore_cuttable (insnSts s.params.opc false) (commandAddr s) [s.params.cmdPageBufferClr] s)
  case writeFuse =>
    exact onWire_of _ up (fun i pg => rfl)
      (directStore_cuttable (insnSts s.params.opc false) (commandAddr s) [s.params.cmdWriteFuse] s)

/-! ## Steps between frames send nothing and receive nothing -/

/-- The step has sent nothing, has made no receive attempt, and has not ended everything. -/
def Calm (s t : State) : Prop := t.ctl.halted = s.ctl.halted ∧ Idle s t

theorem Calm.of_wire {s t : State} (h : t.ctl.halted = s.ctl.halted) (w : t.wire = s.wire) : Calm s t :=
  ⟨h, by rw [w], by rw [w], by rw [w]⟩

@[simp] theorem takeError_halted (e : Error) (s : State) : (takeError e s).ctl.halted = s.ctl.halted := by
  cases e <;> simp [takeError]


theorem Calm.refl (s : State) : Calm s s := Calm.of_wire rfl rfl
theorem Calm.trans {s t u : State} (h : Calm s t) (k : Calm t u) : Calm s u := ⟨k.1.trans h.1, h.2.trans k.2⟩
theorem calm_error (e : Error) (s : State) : Calm s (takeError e s) :=
  ⟨takeError_halted e s, by simp, by simp, by simp⟩
theorem calm_codec (s : State) (c : Codec) : Calm s (s.setCodec c) := Calm.of_wire rfl rfl

theorem calm_ext (k : Nat) (dd : List Byte) (s : State) : Calm s (extRecord k dd s) := by
  unfold extRecord; split
  · exact calm_error _ s
  · exact calm_codec s _

theorem calm_hex {i : Instr} {s t : State} (hi : isLinkInstr i = false) (h : exec i s = .next t) : Calm s t := by
  cases i
  case data a d =>
    injection h with h; subst h
    split
    · exact calm_error _ s
    · exact calm_codec s _
  case eof a d => injection h with h; subst h; exact calm_codec s _
  case esa a d => injection h with h; subst h; exact calm_ext _ _ _
  case ssa a d => injection h with h; subst h; exact Calm.refl s
  case ela a d => injection h with h; subst h; exact calm_ext _ _ _
  case hexReserved r a d => injection h with h; subst h; exact calm_error _ s
  all_goals exact Bool.noConfusion hi

theorem ofRecord_hex (r : HexRecord) : isLinkInstr (Instr.ofRecord r) = false := by
  unfold Instr.ofRecord; repeat' split
  all_goals rfl

theorem calm_tick (s : State) : Calm s (codecTick s) := by
  unfold codecTick; split <;> exact ⟨rfl, rfl, rfl, Nat.le_refl _⟩

theorem calm_record {s t : State} (h : runRecord s = .next t) : Calm s t := by
  unfold runRecord at h
  split at h
  · injection h with h; subst h; exact calm_error _ s
  · split at h
    · rename_i s1 he
      injection h with h; subst h
      exact ((calm_codec s _).trans (calm_hex (ofRecord_hex _) he)).trans (calm_codec s1 _)
    · cases h
    · cases h

theorem calm_serialize {c img n} {s t : State} (h : serializeFrom c img n s = .next t) : Calm s t := by
  unfold serializeFrom at h
  split at h
  · cases h
  · injection h with h; subst h; exact Calm.of_wire rfl rfl

/-- A micro-operation that is no frame sends nothing. -/
theorem calm_micro {m : Micro} {s t : State} (hc : ∀ i, m ≠ .cmd i)
    (hs : ∀ bs, m ≠ .sendBytes bs) (hr : ∀ n, m ≠ .recvBytes n) (h : runMicro m s = .next t) : Calm s t := by
  cases m
  case sendBytes bs => exact absurd rfl (hs bs)
  case recvBytes bs => exact absurd rfl (hr bs)
  case cmd i => exact absurd rfl (hc i)
  case parse file keep =>
    injection h with h; subst h
    refine (calm_tick s).trans ?_
    unfold runParse; split
    · exact calm_error _ _
    · exact Calm.of_wire rfl rfl
  case records =>
    refine (calm_tick s).trans ?_
    simp only [runMicro, runRecords] at h
    generalize codecTick s = s at h ⊢
    split at h
    · injection h with h; subst h; exact Calm.refl _
    · split at h
      · injection h with h; subst h; exact calm_error _ _
      · exact Calm.trans (t := s.setTodo (.records :: s.ctl.todo)) (Calm.of_wire rfl rfl) (calm_record h)
  case window asC =>
    simp only [runMicro, runWindow] at h
    split at h
    · cases h
    · injection h with h; subst h; exact Calm.of_wire rfl rfl
  case chunks =>
    injection h with h; subst h
    refine (calm_tick s).trans ?_
    unfold runChunks; split <;> exact Calm.of_wire rfl rfl
  case pollTest q =>
    injection h with h; subst h
    unfold runPollTest pollNext pollTimeout
    repeat' split
    all_goals first
      | exact Calm.of_wire rfl rfl
      | exact Calm.trans (t := s.setPollAttempt (s.ctl.pollAttempt + 1)) (Calm.of_wire rfl rfl) (calm_error _ _)
  case poll q =>
    injection h with h; subst h
    unfold runPoll pollNext pollTimeout
    repeat' split
    all_goals first
      | exact Calm.of_wire rfl rfl
      | exact Calm.trans (t := s.setPollAttempt 0) (Calm.of_wire rfl rfl) (calm_error _ _)
  case initTest =>
    injection h with h; subst h
    unfold runInitTest initNext
    repeat' split
    all_goals first
      | exact Calm.of_wire rfl rfl
      | exact Calm.trans (t := s.setInitRound (s.ctl.initRound + 1)) (Calm.of_wire rfl rfl) (calm_error _ _)
  case nvmWait =>
    injection h with h; subst h
    unfold runNvmWait nvmNext
    repeat' split
    all_goals first
      | exact Calm.of_wire rfl rfl
      | exact Calm.trans (t := s.setPollAttempt 0) (Calm.of_wire rfl rfl) (calm_error _ _)
  case nvmTest =>
    injection h with h; subst h
    unfold runNvmTest nvmNext
    repeat' split
    all_goals first
      | exact Calm.of_wire rfl rfl
      | exact calm_error _ _
      | exact Calm.trans (t := s.setPollAttempt (s.ctl.pollAttempt + 1)) (Calm.of_wire rfl rfl) (calm_error _ _)
  all_goals
    injection h with h; subst h
    simp only [runParsed, runMergeSecond, runMergeEnd, runAnswer, runReceived, runReady, runKeyTest, runUnlocked, runProgTest,
      runProgConfirm, runLeft, runRowDone, runOpenPage, runClosePage, runReadPage, runReadStore, runWritePage, runWriteDone,
      runVerifyPage, runCompare, runFuseDone, runFuseTest, runFuseVerify]
    (repeat' split) <;> first
      | exact Calm.of_wire rfl rfl
      | exact calm_error _ _

/-- The start of an operation sends nothing. -/
theorem calm_host {s t : State} (h : hostTurn s = .next t) : Calm s t := by
  unfold hostTurn at h
  split at h
  · injection h with h; subst h; exact Calm.refl s
  · rename_i r rs _
    refine Calm.trans (t := { s with ctl := { s.ctl with requests := rs, result := none } }) (Calm.of_wire rfl rfl) ?_
    generalize ({ s with ctl := { s.ctl with requests := rs, result := none } } : State) = s at h
    cases r
    case serialize image length => exact calm_serialize h
    case txt2hex text =>
      simp only [startRequest, startTxt2hex] at h
      split at h
      · injection h with h; subst h; exact calm_error _ s
      · exact calm_serialize h
    all_goals
      simp only [startRequest, require] at h
      (repeat' split at h) <;> first
        | (cases h; done)
        | (injection h with h; subst h; exact Calm.of_wire rfl rfl)
        | (injection h with h; subst h; exact ⟨rfl, rfl, rfl, Nat.zero_le _⟩)

/-- A micro-operation is a communication with its points, or sends nothing. -/
theorem onWire_or_calm {m : Micro} {s t : State} (h : runMicro m s = .next t) :
    OnWire (runMicro m) s ∨ (∀ u v, runMicro m u = .next v → Calm u v) := by
  by_cases hc : ∃ i, m = .cmd i
  · obtain ⟨i, rfl⟩ := hc
    by_cases hi : isLinkInstr i = true
    · exact .inl (exec_onWire hi h)
    · exact .inr fun u v hv => calm_hex (by simpa using hi) hv
  by_cases hs : ∃ bs, m = .sendBytes bs
  · obtain ⟨bs, rfl⟩ := hs
    exact .inl (onWire_of _ (onLink_next (body := fun s => (send bs s).bind fun _ s => .ok () (s.setResp [])) h).1
      (fun _ _ => rfl) (sendRaw_cuttable bs s))
  by_cases hr : ∃ n, m = .recvBytes n
  · obtain ⟨n, rfl⟩ := hr
    exact .inl (onWire_of _ (onLink_next (body := fun s => (recv n [] s).bind fun r s => .ok () (s.setResp r)) h).1
      (fun _ _ => rfl) (recvRaw_cuttable n s))
  · simp only [not_exists] at hc hs hr
    exact .inr fun u v hv => calm_micro hc hs hr hv

/-! ## PROG's own steps -/

theorem progRun_one (g : Prog) : progRun 1 g = progStep g := by
  simp only [progRun]; cases progStep g <;> rfl

/-- A step of the machine is as many of PROG's own steps as it has points that can be cut, and one. -/
theorem progRun_points {s t : State} {n : Nat} (hq : s.wire.irq = none) (hn : 1 ≤ n) (h : step s = .next t)
    (hin : ∀ k, 1 ≤ k → k < n → (cutAt s k).isSome = true) (hout : cutAt s n = none) :
    progRun n ⟨s, 0⟩ = .next ⟨t, 0⟩ ∧ ∀ k, k < n → progRun k ⟨s, 0⟩ = .next ⟨s, k⟩ := by
  have hd : ∀ k, notDueWithin s k = true := fun k => by simp [notDueWithin, hq]
  have go : ∀ k j, j + k < n → progRun k ⟨s, j⟩ = .next ⟨s, j + k⟩ := by
    intro k
    induction k with
    | zero => intro j _; rfl
    | succ k ih =>
      intro j hj
      have : progStep ⟨s, j⟩ = .next ⟨s, j + 1⟩ := by
        simp only [progStep, hd, hin (j + 1) (by omega) (by omega), Bool.and_self, if_true]
      rw [progRun, this]
      simp only
      rw [ih (j + 1) (by omega), Nat.add_right_comm, Nat.add_assoc]
  have app : ∀ k j g, progRun k g = .next j → progRun (k + 1) g = progStep j := by
    intro k
    induction k with
    | zero => intro j g hg; injection hg with hg; subst hg; exact progRun_one g
    | succ k ih =>
      intro j g hg
      rw [progRun] at hg ⊢
      cases hp : progStep g with
      | next g' => rw [hp] at hg; exact ih j g' hg
      | fault f => rw [hp] at hg; cases hg
      | refused f => rw [hp] at hg; cases hg
  constructor
  · obtain ⟨m, rfl⟩ : ∃ m, n = m + 1 := ⟨n - 1, by omega⟩
    rw [app m ⟨s, m⟩ _ (by simpa using go m 0 (by omega))]
    simp only [progStep, hd, hout, h, Option.isSome_none, Bool.and_false, if_false, Bool.false_eq_true]
  · intro k hk
    simpa using go k 0 (by omega)

/-- An interruption that is due comes first. -/
theorem step_due (s : State) (hh : s.ctl.halted = false) :
    step { s with wire := { s.wire with irq := some 0 } } = .next (interrupt s) := by
  simp only [step, stepBody, hh, Bool.false_eq_true, if_false, if_true]
  obtain ⟨_, _, _, ⟨_, _, _, _, _, _, _, o⟩, _, _, _⟩ := s
  cases o <;> rfl

/-- The interruption inside a frame leaves what it leaves in the state of the machine at that point. -/
theorem interrupt_insideFrame {s c : State} {rest : List Micro} (b m : Nat)
    (hp : c.params = s.params) (hn : c.nvm = s.nvm) (hc : c.ctl = { s.ctl with todo := rest })
    (hs : c.session = { s.session with baud := b, stopBits := m }) :
    interrupt (c.withIrq (some 0) s.nvm.openPage) = interrupt
      { s with
        session := { s.session with baud := (interrupt (c.withIrq (some 0) none)).session.baud,
                                      stopBits := (interrupt (c.withIrq (some 0) none)).session.stopBits }
        target := (interrupt (c.withIrq (some 0) none)).target
        wire := { (interrupt (c.withIrq (some 0) none)).wire with irq := none } } := by
  obtain ⟨p, cod, se, nv, ta, wi, ct⟩ := c
  obtain ⟨p', cod', se', ⟨_, _, _, _, _, _, _, o⟩, ta', wi', ct'⟩ := s
  simp only at hp hn hc hs
  subst hp; subst hn; subst hc; subst hs
  cases o <;> rfl

end Sys2Proof.Machine
end

