-- ==== Sys2Proof/Laws/Target.lean ====
section
/-! SUPPORT. What the target's operations do: control/status registers, stores of several bytes, the units of a burst, the NVM
commands; and what legal parameters say. -/

namespace Sys2Proof.Machine

/-! ## Control/status registers -/

theorem csGet_csPut (t : Target) (r x : Nat) (v : Byte) (h : r ≤ 15) :
    (t.csPut r v).csGet x = if x = r then v else t.csGet x := by
  simp only [Target.csGet, Target.csPut]
  rw [Vector.getElem?_setIfInBounds]
  split
  · subst_vars; rw [if_pos (by omega), if_pos rfl]; rfl
  · rename_i h; rw [if_neg (by omega)]

/-- What legal parameters say about the key status and the command codes. -/
structure LegalFacts (p : Params) : Prop where
  ks : p.csKeyStatus ≤ 15
  b1 : p.ksChipErase ≤ 7
  b2 : p.ksNvmProg ≤ 7
  b3 : p.ksUrowWrite ≤ 7
  nd : [p.cmdWritePage, p.cmdEraseWritePage, p.cmdPageBufferClr, p.cmdWriteFuse].Nodup

theorem legalFacts {p : Params} (h : p.legal = true) : LegalFacts p := by
  unfold Params.legal at h
  rw [Bool.and_eq_true, Bool.and_eq_true, Bool.and_eq_true, Bool.and_eq_true, Bool.and_eq_true, Bool.and_eq_true, Bool.and_eq_true] at h
  simp at h
  obtain ⟨⟨⟨⟨⟨⟨⟨-, h1⟩, h2⟩, -⟩, h3⟩, -⟩, -⟩, -⟩ := h
  exact ⟨h1.2.2.2.1, by simp_all, by simp_all, by simp_all, by simpa using h3⟩

theorem bitSet_bitMask (i j : Nat) : bitSet (bitMask i) j = decide (i = j ∧ i ≤ 7) := by
  unfold bitSet bitMask
  rw [BitVec.getLsbD_shiftLeft, BitVec.getLsbD_one]
  rw [Bool.eq_iff_iff]; simp; omega

theorem bitSet_putBit (v : Byte) (i j : Nat) (b : Bool) (h : i ≤ 7) :
    bitSet (putBit v i b) j = if j = i then b else bitSet v j := by
  have m := bitSet_bitMask i j
  unfold bitSet at m
  by_cases hj : j = i
  · subst hj; cases b <;> simp [bitSet, putBit, m, h]
  · cases b <;> simp [bitSet, putBit, m, hj, Ne.symm hj] <;> intro e <;> exact BitVec.lt_of_getLsbD e

theorem bitSet_putBit_ne (v : Byte) (i j : Nat) (b : Bool) (h : j ≠ i) : bitSet (putBit v i b) j = bitSet v j := by
  have m := bitSet_bitMask i j
  unfold bitSet at m
  cases b <;> simp [bitSet, putBit, m, Ne.symm h] <;> intro e <;> exact BitVec.lt_of_getLsbD e

/-- A key that is shown sets its own bit of the key status and no other bit of any register. -/
theorem showKey_csGet {p : Params} {b : Nat} (t : Target) (hk : p.csKeyStatus ≤ 15) (hb : b ≤ 7) :
    (∀ x, x ≠ p.csKeyStatus → (t.showKey p b).csGet x = t.csGet x) ∧
      ∀ j, bitSet ((t.showKey p b).csGet p.csKeyStatus) j = if j = b then true else bitSet (t.csGet p.csKeyStatus) j := by
  unfold Target.showKey
  refine ⟨fun x hx => by rw [csGet_csPut _ _ _ _ hk, if_neg hx], fun j => ?_⟩
  rw [csGet_csPut _ _ _ _ hk, if_pos rfl]
  have m := bitSet_bitMask b j
  unfold bitSet at m ⊢
  rw [BitVec.getLsbD_or, m]
  by_cases hj : j = b
  · subst hj; simp [hb]
  · simp [hj, Ne.symm hj]

/-! ## Loads -/

/-- The NVM status register shows the flags. -/
theorem nvmStatus_shows (p : Params) (d : Nat) (t : Target) : ShowsNvmStatus p t (t.nvmStatus p d) := by
  refine ⟨fun h => ?_, fun h n => ?_, fun h n1 n2 => ?_⟩ <;> unfold Target.nvmStatus
  · rw [bitSet_putBit _ _ _ _ h, if_pos rfl]
  · rw [bitSet_putBit_ne _ _ _ _ n, bitSet_putBit _ _ _ _ h, if_pos rfl]
  · rw [bitSet_putBit_ne _ _ _ _ n2, bitSet_putBit_ne _ _ _ _ n1, bitSet_putBit _ _ _ _ h, if_pos rfl]

/-- The system status shows the chip's lock and mode. -/
theorem csRead_shows (p : Params) (d : Nat) (t : Target) : ShowsSysStatus p t (t.csRead p d p.csSysStatus) := by
  unfold Target.csRead
  rw [if_pos rfl]
  refine ⟨fun h => ?_, fun h n => ?_, fun b h => ?_⟩
  · rw [bitSet_putBit _ _ _ _ h, if_pos rfl]
  · rw [bitSet_putBit_ne _ _ _ _ n, bitSet_putBit _ _ _ _ h, if_pos rfl]
  · simp only [List.mem_cons, List.not_mem_nil, or_false, not_or] at h
    rw [bitSet_putBit_ne _ _ _ _ h.1, bitSet_putBit_ne _ _ _ _ h.2.1, bitSet_putBit_ne _ _ _ _ h.2.2]

/-- All that `Target.load` answers. -/
theorem load_answers (p : Params) (pr : Profile) (d : Nat) (t : Target) (a : Word) :
    AnswersLoad p pr t a (t.load p pr d a) := by
  refine ⟨fun h => ?_, fun n h => ?_, fun n h => ?_, fun n h => ?_, fun n h => ?_, fun n h => ?_⟩ <;>
    (try simp only [List.forall_mem_cons, List.not_mem_nil, false_implies, implies_true, and_true] at n) <;> unfold Target.load
  · rw [if_pos h]; exact nvmStatus_shows p d t
  · rw [if_neg n, if_pos h]
  · rw [if_neg n.1, if_neg n.2, if_pos h]
  · rw [if_neg n.1, if_neg n.2.1, if_neg n.2.2, if_pos h]
  · rw [if_neg n.1, if_neg n.2.1, if_neg n.2.2.1, if_neg n.2.2.2, if_pos h]
  · rw [if_neg n.1, if_neg n.2.1, if_neg n.2.2.1, if_neg n.2.2.2.1, if_neg n.2.2.2.2]
    rcases h with h | ⟨h1, h2⟩
    · simp only [h]
    · split <;> simp [h1, h2]

theorem loadBytes_getD (p : Params) (pr : Profile) (d : Nat) (t : Target) (a : Word) (n j : Nat) (h : j < n) :
    (t.loadBytes p pr d a n).getD j 0 = t.load p pr d (a + BitVec.ofNat 16 j) := by
  simp [Target.loadBytes, h]
/-- What a load polls, said once: a load of at most 65536 bytes covers the NVM status register once or not at all; it lowers
the two busy counts by one in the first case and changes nothing in the second. -/
theorem polledBytes_eq {p : Params} {pr : Profile} {t : Target} {a : Word} : ∀ {n : Nat}, n ≤ 65536 →
    t.polledBytes p pr a n =
      { t with
        flashBusy := if ∃ j, j < n ∧ a + BitVec.ofNat 16 j = dataAddr (pr.nvmctrl + p.nvmStatus) then t.flashBusy - 1
          else t.flashBusy
        eepromBusy := if ∃ j, j < n ∧ a + BitVec.ofNat 16 j = dataAddr (pr.nvmctrl + p.nvmStatus) then t.eepromBusy - 1
          else t.eepromBusy }
  | 0, _ => by simp [Target.polledBytes]
  | n + 1, h => by
    rw [Target.polledBytes, polledBytes_eq (n := n) (by omega)]
    unfold Target.polled
    by_cases hn : a + BitVec.ofNat 16 n = dataAddr (pr.nvmctrl + p.nvmStatus)
    · have no : ¬ ∃ j, j < n ∧ a + BitVec.ofNat 16 j = dataAddr (pr.nvmctrl + p.nvmStatus) := by
        rintro ⟨j, hj, e⟩
        rw [← hn] at e
        have := congrArg BitVec.toNat ((BitVec.add_right_inj a).1 e)
        simp only [BitVec.toNat_ofNat] at this
        omega
      have yes : ∃ j, j < n + 1 ∧ a + BitVec.ofNat 16 j = dataAddr (pr.nvmctrl + p.nvmStatus) := ⟨n, by omega, hn⟩
      simp only [if_pos hn, if_neg no, if_pos yes]
    · have same : (∃ j, j < n + 1 ∧ a + BitVec.ofNat 16 j = dataAddr (pr.nvmctrl + p.nvmStatus)) ↔
          ∃ j, j < n ∧ a + BitVec.ofNat 16 j = dataAddr (pr.nvmctrl + p.nvmStatus) :=
        ⟨fun ⟨j, hj, e⟩ => ⟨j, by rcases Nat.lt_succ_iff_lt_or_eq.1 hj with h | rfl; exact h; exact absurd e hn, e⟩,
          fun ⟨j, hj, e⟩ => ⟨j, by omega, e⟩⟩
      simp only [if_neg hn, same]

/-! ## The reset toggle -/

/-- What the release of an asserted reset leaves in memory: the chip erase, when its key was accepted, and nothing else. -/
theorem resetToggle_memByte (pr : Profile) (d : Nat) (t : Target) (x : Nat) :
    (t.resetToggle pr d).memByte x = (if t.keyErase then t.chipErase pr else t).memByte x := by
  unfold Target.resetToggle
  cases t.keyErase <;> rfl

/-! ## NVM commands -/

/-- A whole NVM command frame runs `Target.command` with its code. -/
theorem command_ok {s : State} {as rest : List Answer} {c : Byte} (hr : Ready s) (hs : s.wire.script = as)
    (hk : Acked (phases.commandPhases s c) as rest) :
    nvmCommand c s = .next (s.replied (encode s.params (.stsb (commandAddr s) c)) rest 2
      (s.target.clearRep.command s.params (s.wire.draws + 1) c) []) := by
  unfold nvmCommand
  rw [onLink_up hr.up, directStore_ok hr (by simp) hk hs]
  simp [Target.storeBytes, Target.store, commandAddr, encode]


/-! ## Stores -/

theorem dataAddr_add (a k : Nat) : dataAddr a + BitVec.ofNat 16 k = dataAddr (a + k) := by
  simp [dataAddr, BitVec.ofNat_add]

theorem dataAddr_toNat (a : Word) : dataAddr a.toNat = a := by simp [dataAddr]

theorem store_clear {p : Params} {pr : Profile} {a d : Nat} {t : Target} {v : Byte} (ha : a < 65536)
   (ho : ∀ off ∈ [p.nvmCtrlA, p.nvmData, p.nvmAddrL, p.nvmAddrH], dataAddr a ≠ dataAddr (pr.nvmctrl + off)) :
    Landed p pr a [v] t (t.store p pr d (dataAddr a) v) := by
  have hn : (dataAddr a).toNat = a := by simp [dataAddr]; omega
  have g1 := ho p.nvmCtrlA (by simp)
  have g2 := ho p.nvmData (by simp)
  have g3 := ho p.nvmAddrL (by simp)
  have g4 := ho p.nvmAddrH (by simp)
  simp only [Target.store, if_neg g1, if_neg g2, if_neg g3, if_neg g4, hn]
  cases hp : nvmPage p pr a with
  | none =>
    refine ⟨?_, ?_, ?_, rfl⟩
    · intro j hj _
      obtain rfl : j = 0 := by simpa using hj
      simp only [Nat.add_zero]
      exact ⟨by rw [Target.memByte_putMem, if_pos (by simp)]; simp, rfl⟩
    · intro j hj h
      obtain rfl : j = 0 := by simpa using hj
      simp [hp] at h
    · intro x hx
      simp only [List.length_singleton] at hx
      exact ⟨by rw [Target.memByte_putMem, if_neg (by simp; omega)], rfl⟩
  | some page =>
    refine ⟨?_, ?_, ?_, rfl⟩
    · intro j hj h
      obtain rfl : j = 0 := by simpa using hj
      simp [hp] at h
    · intro j hj _
      obtain rfl : j = 0 := by simpa using hj
      simp only [Nat.add_zero]
      exact ⟨by rw [Target.bufByte_bufStore, if_pos rfl]; simp, rfl⟩
    · intro x hx
      simp only [List.length_singleton] at hx
      exact ⟨rfl, by rw [Target.bufByte_bufStore, if_neg (by omega)]⟩

theorem Landed.refl (p pr a) (t : Target) : Landed p pr a [] t t := ⟨by simp, by simp, fun _ _ => ⟨rfl, rfl⟩, rfl⟩

theorem Landed.append {p pr a xs ys} {t u v : Target} (h : Landed p pr a xs t u) (k : Landed p pr (a + xs.length) ys u v) :
   Landed p pr a (xs ++ ys) t v := by
  refine ⟨?_, ?_, ?_, ?_⟩
  · intro j hj hn
    rcases Nat.lt_or_ge j xs.length with hx | hx
    · have := h.memory j hx hn
      have o := k.outside (a + j) (by omega)
      rw [List.getD_append _ _ _ _ hx, o.1, o.2]; exact this
    · obtain ⟨i, rfl⟩ := Nat.exists_eq_add_of_le hx
      rw [← Nat.add_assoc] at hn ⊢
      have := k.memory i (by simp at hj; omega) hn
      rw [List.getD_append_right _ _ _ _ hx, Nat.add_sub_cancel_left]
      have o := h.outside (a + xs.length + i) (by omega)
      exact ⟨this.1, this.2.trans o.2⟩
  · intro j hj hn
    rcases Nat.lt_or_ge j xs.length with hx | hx
    · have := h.buffer j hx hn
      have o := k.outside (a + j) (by omega)
      rw [List.getD_append _ _ _ _ hx, o.1, o.2]; exact this
    · obtain ⟨i, rfl⟩ := Nat.exists_eq_add_of_le hx
      rw [← Nat.add_assoc] at hn ⊢
      have := k.buffer i (by simp at hj; omega) hn
      rw [List.getD_append_right _ _ _ _ hx, Nat.add_sub_cancel_left]
      have o := h.outside (a + xs.length + i) (by omega)
      exact ⟨this.1.trans (by rw [o.2]), this.2.trans o.1⟩
  · intro x hx
    rw [List.length_append] at hx
    have o1 := h.outside x (by omega)
    have o2 := k.outside x (by omega)
    exact ⟨o2.1.trans o1.1, o2.2.trans o1.2⟩
  · rw [k.frame, h.frame]

theorem Clear.head {p pr a n m} (h : ClearOfRegisters p pr a (n + m)) : ClearOfRegisters p pr a n := 
  ⟨by have := h.1; omega, fun j hj => h.2 j (by omega)⟩
theorem Clear.tail {p pr a n m} (h : ClearOfRegisters p pr a (n + m)) : ClearOfRegisters p pr (a + n) m := 
  ⟨by have := h.1; omega, fun j hj => by have := h.2 (n + j) (by omega); rwa [← Nat.add_assoc] at this⟩

theorem storeBytes_landed {p : Params} {pr : Profile} {d : Nat} : ∀ (bs : List Byte) (a : Nat) (t : Target),
    ClearOfRegisters p pr a bs.length → Landed p pr a bs t (t.storeBytes p pr d (dataAddr a) bs)
  | [], a, t, _ => Landed.refl p pr a t
  | b :: bs, a, t, h => by
    have h1 : Landed p pr a [b] t (t.store p pr d (dataAddr a) b) := store_clear (by have := h.1; simp at this; omega) (by simpa using h.2 0 (by simp))
    have := h1.append (storeBytes_landed (d := d) bs (a + 1) (t.store p pr d (dataAddr a) b) (Clear.tail (n := 1) (by rw [Nat.add_comm]; exact h)))
    simpa [Target.storeBytes, dataAddr_add a 1, show dataAddr a + 1 = dataAddr (a + 1) from dataAddr_add a 1] using this

/-- Landed is insensitive to pointer and repeat. -/
theorem Landed.withPtr {p pr a d} {t u : Target} (h : Landed p pr a d t u) (x : Word) (r : Byte) :
    Landed p pr a d { t with ptr := x, rep := r } { u with ptr := x, rep := r } :=
  ⟨h.memory, h.buffer, h.outside, by rw [h.frame]⟩

theorem afterUnits_landed {p : Params} {pr : Profile} : ∀ (us : List (List Byte)) (a d : Nat) (t : Target),
    ClearOfRegisters p pr a us.flatten.length → t.ptr = dataAddr a →
    Landed p pr a us.flatten { t with ptr := dataAddr (a + us.flatten.length) } (t.afterUnits p pr d us)
  | [], a, d, t, _, hp => by
    simp only [List.flatten_nil, List.length_nil, Nat.add_zero, Target.afterUnits, ← hp]
    exact Landed.refl p pr a t
  | u :: us, a, d, t, h, hp => by
    rw [List.flatten_cons, List.length_append] at h
    rw [List.flatten_cons, List.length_append]
    simp only [Target.afterUnits, Target.takeUnit, hp]
    have h1 := storeBytes_landed (p := p) (pr := pr) (d := d) u a t (Clear.head h)
    have e : dataAddr a + BitVec.ofNat 16 u.length = dataAddr (a + u.length) := dataAddr_add a u.length
    rw [e]
    generalize t.storeBytes p pr d (dataAddr a) u = t1 at h1
    have h2 := afterUnits_landed us (a + u.length) (d + 1) { t1 with ptr := dataAddr (a + u.length) } (Clear.tail h) rfl
    refine Landed.append (u := { t1 with ptr := dataAddr (a + (u.length + us.flatten.length)) }) ?_ ?_
    · have := h1.withPtr (dataAddr (a + (u.length + us.flatten.length))) t.rep
      have hr : t1.rep = t.rep := by rw [h1.frame]
      rw [← hr] at this; rw [hr] at this
      convert this using 1
      simp [← hr]
    · rw [← Nat.add_assoc]; exact h2

theorem byteUnits_flatten (d : List Byte) : (byteUnits d).flatten = d := by
  induction d with
  | nil => rfl
  | cons x xs ih => simpa [byteUnits] using ih

theorem wordUnits_flatten : ∀ d : List Byte, d.length % 2 = 0 → (wordUnits d).flatten = d ∧ (wordUnits d).length = d.length / 2
  | [], _ => ⟨rfl, rfl⟩
  | [x], h => by simp at h
  | x :: y :: r, h => by
    have := wordUnits_flatten r (by simp at h; omega)
    simp [wordUnits, this]; omega

theorem wordUnits_ne : ∀ d : List Byte, ∀ u ∈ wordUnits d, u ≠ []
  | [], u, h => by simp [wordUnits] at h
  | [x], u, h => by simp [wordUnits] at h
  | x :: y :: r, u, h => by
    simp [wordUnits] at h
    rcases h with rfl | h
    · simp
    · exact wordUnits_ne r u h

end Sys2Proof.Machine
end

