-- ==== Sys2Proof/Tests/Slice0.lean ====
section
/-! SUPPORT. The smoke test of every well-formedness check, the decoding of a hand-written word for every constructor, small
one-step tests whose expected values are the spec's worked examples, and a witness for the hypotheses of every statement. -/

open Sys2Proof Sys2Proof.Machine

namespace Sys2Proof.Tests

/-! ## Well-formedness: each check refuses an ill-formed term -/

theorem test_refuses_data_of_256_bytes : (Instr.data 0 (List.replicate 256 0)).wf = false := by
  rw [Instr.wf, lineDataOk, List.length_replicate]; decide
theorem test_refuses_eof_of_256_bytes : (Instr.eof 0 (List.replicate 256 0)).wf = false := by
  rw [Instr.wf, lineDataOk, List.length_replicate]; decide
theorem test_refuses_esa_of_256_bytes : (Instr.esa 0 (List.replicate 256 0)).wf = false := by
  rw [Instr.wf, lineDataOk, List.length_replicate]; decide
theorem test_refuses_ssa_of_256_bytes : (Instr.ssa 0 (List.replicate 256 0)).wf = false := by
  rw [Instr.wf, lineDataOk, List.length_replicate]; decide
theorem test_refuses_ela_of_256_bytes : (Instr.ela 0 (List.replicate 256 0)).wf = false := by
  rw [Instr.wf, lineDataOk, List.length_replicate]; decide
theorem test_refuses_reserved_of_256_bytes : (Instr.hexReserved 5 0 (List.replicate 256 0)).wf = false := by
  rw [Instr.wf, lineDataOk, List.length_replicate]; decide
theorem test_accepts_data_of_255_bytes : (Instr.data 0 (List.replicate 255 0)).wf = true := by
  rw [Instr.wf, lineDataOk, List.length_replicate]; decide
theorem test_refuses_reserved_type_04 : (Instr.hexReserved 0x04 0 []).wf = false := by decide
theorem test_refuses_ldcs_16 : (Instr.ldcs 16).wf = false := by decide
theorem test_refuses_stcs_16 : (Instr.stcs 16 0).wf = false := by decide
theorem test_refuses_repeat_0 : (Instr.rep 0).wf = false := by decide
theorem test_refuses_repeat_257 : (Instr.rep 257).wf = false := by decide
theorem test_refuses_ldb_0 : (Instr.ldb 0).wf = false := by decide
theorem test_refuses_ldw_257 : (Instr.ldw 257).wf = false := by decide
theorem test_refuses_stb_of_nothing : (Instr.stb []).wf = false := by decide
theorem test_refuses_stw_of_three_bytes : (Instr.stw [1, 2, 3]).wf = false := by decide
theorem test_refuses_stw_of_nothing : (Instr.stw []).wf = false := by decide
theorem test_refuses_key_of_seven_bytes : (Instr.key [1, 2, 3, 4, 5, 6, 7]).wf = false := by decide

theorem test_refuses_odd_flash_page : (RegionDims.mk 0x8000 64 7).legal 2 = false := by decide
theorem test_refuses_page_of_257_units : (RegionDims.mk 0x8000 1028 514).legal 2 = false := by decide
theorem test_refuses_odd_flash_start : (RegionDims.mk 0x8001 64 8).legal 2 = false := by decide
theorem test_refuses_empty_page : (RegionDims.mk 0x8000 64 0).legal 2 = false := by decide
theorem test_refuses_region_beyond_data_space : (RegionDims.mk 0xFFF8 16 8).legal 2 = false := by decide
theorem test_refuses_illegal_flash : ({ Catalog.default.t16k with flash := ⟨0x8001, 64, 8⟩ } : Profile).legal 9 = false := by
  decide
theorem test_refuses_illegal_eeprom : ({ Catalog.default.t16k with eeprom := ⟨0x1400, 64, 0⟩ } : Profile).legal 9 = false := by
  decide
theorem test_refuses_fuses_beyond_data_space : ({ Catalog.default.t16k with fuses := 65528 } : Profile).legal 9 = false := by
  decide
theorem test_refuses_nvmctrl_beyond_data_space : ({ Catalog.default.t16k with nvmctrl := 65536 } : Profile).legal 9 = false := by
  decide
theorem test_refuses_equal_family_codes : ({ Opcodes.default with lds := 0x20 } : Opcodes).legal = false := by decide
theorem test_refuses_family_code_with_field_bits : ({ Opcodes.default with lds := 0x01 } : Opcodes).legal = false := by decide
theorem test_refuses_odd_image : ({ Params.default with imgCap := 65535 } : Params).legal = false := by decide
theorem test_refuses_no_receive_attempt : ({ Params.default with recvAttempts := 0 } : Params).legal = false := by decide
theorem test_refuses_register_index_16 : ({ Params.default with csStatus := 16 } : Params).legal = false := by decide
theorem test_refuses_short_key_parameter : ({ Params.default with keyUrow := [1] } : Params).legal = false := by decide
theorem test_refuses_equal_commands : ({ Params.default with cmdWriteFuse := 0x01 } : Params).legal = false := by decide
theorem test_refuses_empty_user_row : ({ Params.default with urowLen := 0 } : Params).legal = false := by decide
theorem test_refuses_no_image : ({ Params.default with imgCap := 0 } : Params).legal = false := by decide
theorem test_refuses_image_beyond_1MiB : ({ Params.default with imgCap := 1048578 } : Params).legal = false := by decide
theorem test_refuses_no_ready_poll : ({ Params.default with nvmReadyAttempts := 0 } : Params).legal = false := by decide
theorem test_refuses_no_unlock_poll : ({ Params.default with unlockPollAttempts := 0 } : Params).legal = false := by decide
theorem test_refuses_no_progmode_poll : ({ Params.default with progmodePollAttempts := 0 } : Params).legal = false := by decide
theorem test_refuses_no_userrow_poll : ({ Params.default with urowPollAttempts := 0 } : Params).legal = false := by decide
theorem test_refuses_illegal_opcodes :
    ({ Params.default with opc := { Opcodes.default with key := 0xE1 } } : Params).legal = false := by decide
theorem test_refuses_status_bit_8 : ({ Params.default with ssLockStatus := 8 } : Params).legal = false := by decide
theorem test_refuses_user_row_of_257 : ({ Params.default with urowLen := 257 } : Params).legal = false := by decide
theorem test_refuses_illegal_catalog_entry :
    ({ Params.default with fuseCount := 65536 } : Params).legal = false := by decide
theorem test_refuses_blocks_beyond_data_space :
    ({ Catalog.default.t16k with syscfg := 65536 } : Profile).legal 9 = false ∧
    ({ Catalog.default.t16k with sigrow := 65536 } : Profile).legal 9 = false ∧
    ({ Catalog.default.t16k with userrow := 65536 } : Profile).legal 9 = false := by decide
theorem test_accepts_default_parameters : Params.default.legal = true := by decide

/-! ## Decoding: one word of every constructor, written out from spec/30_encoding.md and the examples of spec/40, 42, 44 -/

/-- `:040100000C94340027` (R146). -/
theorem test_decode_data : decode Params.default .hexLine 1
    [0x3A, 0x30, 0x34, 0x30, 0x31, 0x30, 0x30, 0x30, 0x30, 0x30, 0x43, 0x39, 0x34, 0x33, 0x34, 0x30, 0x30, 0x32, 0x37]
    = .ok (.data 0x0100 [0x0C, 0x94, 0x34, 0x00]) := by decide
/-- `:00000001FF` (R148). -/
theorem test_decode_eof : decode Params.default .hexLine 1
    [0x3A, 0x30, 0x30, 0x30, 0x30, 0x30, 0x30, 0x30, 0x31, 0x46, 0x46] = .ok (.eof 0 []) := by decide
/-- `:020000021000EC` (R150). -/
theorem test_decode_esa : decode Params.default .hexLine 1
    [0x3A, 0x30, 0x32, 0x30, 0x30, 0x30, 0x30, 0x30, 0x32, 0x31, 0x30, 0x30, 0x30, 0x45, 0x43]
    = .ok (.esa 0 [0x10, 0x00]) := by decide
/-- `:0400000300000000F9` (R153). -/
theorem test_decode_ssa : decode Params.default .hexLine 1
    [0x3A, 0x30, 0x34, 0x30, 0x30, 0x30, 0x30, 0x30, 0x33, 0x30, 0x30, 0x30, 0x30, 0x30, 0x30, 0x30, 0x30, 0x46, 0x39]
    = .ok (.ssa 0 [0, 0, 0, 0]) := by decide
/-- `:020000040001F9` (R152). -/
theorem test_decode_ela : decode Params.default .hexLine 1
    [0x3A, 0x30, 0x32, 0x30, 0x30, 0x30, 0x30, 0x30, 0x34, 0x30, 0x30, 0x30, 0x31, 0x46, 0x39]
    = .ok (.ela 0 [0x00, 0x01]) := by decide
/-- `:0400000500000000F7` (R154). -/
theorem test_decode_hexReserved : decode Params.default .hexLine 1
    [0x3A, 0x30, 0x34, 0x30, 0x30, 0x30, 0x30, 0x30, 0x35, 0x30, 0x30, 0x30, 0x30, 0x30, 0x30, 0x30, 0x30, 0x46, 0x37]
    = .ok (.hexReserved 0x05 0 [0, 0, 0, 0]) := by decide
/-- R206. -/
theorem test_decode_ldcs : decode Params.default .updiFrame 1 [0x55, 0x8B] = .ok (.ldcs 0x0B) := by decide
/-- R207. -/
theorem test_decode_stcs : decode Params.default .updiFrame 1 [0x55, 0xC3, 0x08] = .ok (.stcs 0x03 0x08) := by decide
/-- R208. -/
theorem test_decode_ldsb : decode Params.default .updiFrame 1 [0x55, 0x04, 0x02, 0x10] = .ok (.ldsb 0x1002) := by decide
/-- R214. -/
theorem test_decode_ldsw : decode Params.default .updiFrame 1 [0x55, 0x05, 0x00, 0x80] = .ok (.ldsw 0x8000) := by decide
/-- R209. -/
theorem test_decode_stsb : decode Params.default .updiFrame 1 [0x55, 0x44, 0x00, 0x10, 0x04] = .ok (.stsb 0x1000 0x04) := by
  decide
/-- R210. -/
theorem test_decode_stsw : decode Params.default .updiFrame 1 [0x55, 0x45, 0x00, 0x3F, 0xEF, 0xBE]
    = .ok (.stsw 0x3F00 0xBEEF) := by decide
/-- R211. -/
theorem test_decode_stPtr : decode Params.default .updiFrame 1 [0x55, 0x69, 0x40, 0x80] = .ok (.stPtr 0x8040) := by decide
/-- R212: the count in force is the decoder's argument. -/
theorem test_decode_ldb : decode Params.default .updiFrame 256 [0x55, 0x24] = .ok (.ldb 256) := by decide
/-- R217. -/
theorem test_decode_ldw : decode Params.default .updiFrame 32 [0x55, 0x25] = .ok (.ldw 32) := by decide
/-- R213. -/
theorem test_decode_stb : decode Params.default .updiFrame 1 [0x55, 0x64, 0x12, 0x34] = .ok (.stb [0x12, 0x34]) := by decide
/-- R218. -/
theorem test_decode_stw : decode Params.default .updiFrame 1 [0x55, 0x65, 0x0C, 0x94, 0x34, 0x00]
    = .ok (.stw [0x0C, 0x94, 0x34, 0x00]) := by decide
/-- R215. -/
theorem test_decode_rep : decode Params.default .updiFrame 1 [0x55, 0xA0, 0x3F] = .ok (.rep 64) := by decide
/-- R216: "NVMErase", reversed on the wire. -/
theorem test_decode_key : decode Params.default .updiFrame 1 [0x55, 0xE0, 0x65, 0x73, 0x61, 0x72, 0x45, 0x4D, 0x56, 0x4E]
    = .ok (.key [0x4E, 0x56, 0x4D, 0x45, 0x72, 0x61, 0x73, 0x65]) := by decide
/-- R204. -/
theorem test_decode_brk : decode Params.default .updiBreak 1 [0x00] = .ok .brk := by decide
/-- R205. -/
theorem test_decode_doubleBreak : decode Params.default .updiBreak 1 [0x00, 0x00] = .ok .doubleBreak := by decide
/-- R273. -/
theorem test_decode_writePage : decode Params.default .nvmCommand 1 [0x01] = .ok .writePage := by decide
/-- R274. -/
theorem test_decode_eraseWritePage : decode Params.default .nvmCommand 1 [0x03] = .ok .eraseWritePage := by decide
/-- R275. -/
theorem test_decode_pageBufferClr : decode Params.default .nvmCommand 1 [0x04] = .ok .pageBufferClr := by decide
/-- R276. -/
theorem test_decode_writeFuse : decode Params.default .nvmCommand 1 [0x07] = .ok .writeFuse := by decide

/-- R123: an instruction byte this hardware never sends; R125: a command code it never writes; R110: no `SYNC`. -/
theorem test_decode_rejects : decode Params.default .updiFrame 1 [0x55, 0x07] = .error (.unknownInsn 0x07) ∧
    decode Params.default .nvmCommand 1 [0x02] = .error .unknownCommand ∧
    decode Params.default .updiFrame 1 [0x8B] = .error .noSync ∧
    decode Params.default .updiFrame 1 [0x54, 0x8B] = .error .noSync ∧
    decode Params.default .updiFrame 1 [0x55, 0xA0] = .error .operands ∧
    decode Params.default .updiBreak 1 [0x00, 0x00, 0x00] = .error .notBreak := by decide

/-! ## Small states -/

/-- The reset state with a link that is up and these answers. -/
def linked (as : List Answer) : State :=
  { State.reset with
    session := { State.reset.session with linkState := .progMode }
    wire := { State.reset.wire with script := as } }

/-- `linked`, with this left of an operation in progress. -/
def busyWith (ms : List Micro) (as : List Answer) : State :=
  { linked as with ctl := { State.reset.ctl with todo := ms } }

/-- The reset state in a link state, with requests. -/
def asked (l : LinkState) (rs : List Request) (as : List Answer) : State :=
  { State.reset with
    session := { State.reset.session with linkState := l }
    wire := { State.reset.wire with script := as }
    ctl := { State.reset.ctl with requests := rs } }

/-- The reset state with this left of a codec operation. -/
def codecWith (c : Codec) (ms : List Micro) : State :=
  { State.reset with codec := c, ctl := { State.reset.ctl with todo := ms } }

/-- `linked`, with this target. -/
def linkedTo (t : Target) (as : List Answer) : State := { linked as with target := t }

/-- A part of the next state. -/
def after {σ α : Type} (o : Host.Outcome σ Fault Refusal) (f : σ → α) : Option α :=
  match o with
  | .next t => some (f t)
  | .fault _ => none
  | .refused _ => none

/-- The bytes sent, and the response. -/
def traffic (t : State) : List Byte × List Byte := (t.wire.sent.map (fun x => x.byte), t.wire.resp)

theorem linked_ready (as : List Answer) : Ready (linked as) := ⟨rfl, rfl, Nat.le_of_ble_eq_true rfl⟩
theorem busyWith_ready (ms : List Micro) (as : List Answer) : Ready (busyWith ms as) := ⟨rfl, rfl, Nat.le_of_ble_eq_true rfl⟩
theorem busyWith_running (ms : List Micro) (as : List Answer) : (busyWith ms as).running := ⟨rfl, nofun⟩
theorem asked_running (l : LinkState) (rs : List Request) (as : List Answer) : (asked l rs as).running := ⟨rfl, nofun⟩
theorem codecWith_running (c : Codec) (ms : List Micro) : (codecWith c ms).running := ⟨rfl, nofun⟩
theorem linkedTo_ready (t : Target) (as : List Answer) : Ready (linkedTo t as) := ⟨rfl, rfl, Nat.le_of_ble_eq_true rfl⟩

/-! ## One step of each instruction, on the spec's worked examples -/

/-- R146: `0C 94 34 00` at 0x0100; a byte 0x00 is data. -/
theorem test_data : after (exec (.data 0x0100 [0x0C, 0x94, 0x34, 0x00]) State.reset) (fun t => (t.codec.img, t.codec.range))
    = some ([(0x0100, 0x0C), (0x0101, 0x94), (0x0102, 0x34), (0x0103, 0x00)], some ⟨0x0100, 0x0103⟩) := by decide
/-- R146, R147: a byte 0xFF erases what an earlier record stored and does not move the range. -/
theorem test_data_sentinel :
    after (exec (.data 0x0100 [0xFF]) (codecWith { Codec.fresh with img := [(0x0100, 0x0C)], range := some ⟨0x0100, 0x0100⟩ } []))
      (fun t => (t.codec.img, t.codec.range)) = some ([], some ⟨0x0100, 0x0100⟩) := by decide
/-- R148. -/
theorem test_eof : after (exec (.eof 0 []) State.reset) (fun t => t.codec.eofSeen) = some true := by decide
/-- R150: `:020000021000EC` sets the offset 0x10000. -/
theorem test_esa : after (exec (.esa 0 [0x10, 0x00]) State.reset) (fun t => t.codec.offset) = some 0x10000 := by decide
/-- R152: `:020000040001F9` sets the offset 0x10000. -/
theorem test_ela : after (exec (.ela 0 [0x00, 0x01]) State.reset) (fun t => t.codec.offset) = some 0x10000 := by decide
/-- R106: one data byte is not two. -/
theorem test_ela_short : after (exec (.ela 0 [0x01]) State.reset) (fun t => t.ctl.result)
    = some (some (.error (.format (.extLength 0)))) := by decide
/-- R153: `:0400000300000000F9` changes nothing. -/
theorem test_ssa : after (exec (.ssa 0 [0, 0, 0, 0]) State.reset) (fun t => decide (t = State.reset)) = some true := by
  decide
/-- R154: `:0400000500000000F7` is `FormatError(RecordType)`. -/
theorem test_hexReserved : after (exec (.hexReserved 0x05 0 [0, 0, 0, 0]) State.reset) (fun t => t.ctl.result)
    = some (some (.error (.format (.recordType 0 0x05)))) := by decide
/-- R206: `> 55 8B`, `< 08`. -/
theorem test_ldcs : after (exec (.ldcs 0x0B) (linked (echoed [0x55, 0x8B] ++ [.bytes [0x08]]))) traffic
    = some ([0x55, 0x8B], [0x08]) := by decide
/-- R207: `> 55 C3 08`, and the target's register holds the value. -/
theorem test_stcs : after (exec (.stcs 0x03 0x08) (linked (echoed [0x55, 0xC3, 0x08])))
    (fun t => (traffic t, t.target.csGet 0x03)) = some (([0x55, 0xC3, 0x08], []), 0x08) := by decide
/-- R208: `> 55 04 02 10`, `< 00`. -/
theorem test_ldsb : after (exec (.ldsb 0x1002) (linked (echoed [0x55, 0x04, 0x02, 0x10] ++ [.bytes [0x00]]))) traffic
    = some ([0x55, 0x04, 0x02, 0x10], [0x00]) := by decide
/-- R292: a load of the NVM status register is one poll. -/
theorem test_ldsb_polls : after (exec (.ldsb 0x1002)
      (linkedTo { Target.fresh with flashBusy := 3 } (echoed [0x55, 0x04, 0x02, 0x10] ++ [.bytes [0x01]])))
    (fun t => t.target.flashBusy) = some 2 := by decide
/-- R214: `> 55 05 00 80`, `< 0C 94`. -/
theorem test_ldsw : after (exec (.ldsw 0x8000) (linked (echoed [0x55, 0x05, 0x00, 0x80] ++ [.bytes [0x0C, 0x94]]))) traffic
    = some ([0x55, 0x05, 0x00, 0x80], [0x0C, 0x94]) := by decide
/-- R214: the word handed back is 0x940C. -/
theorem test_ldsw_word : after (step ((busyWith [.answer (.ldsw 0x8000)] []).setResp [0x0C, 0x94])) (fun t => t.ctl.result)
    = some (some (.word 0x940C)) := by decide
/-- R209: `> 55 44 00 10`, `< 40`, `> 04`, `< 40`. -/
theorem test_stsb : after (exec (.stsb 0x1000 0x04) (linked (acked [[0x55, 0x44, 0x00, 0x10], [0x04]]))) traffic
    = some ([0x55, 0x44, 0x00, 0x10, 0x04], []) := by decide
/-- R210: `> 55 45 00 3F`, `< 40`, `> EF BE`, `< 40`; both bytes land in memory. -/
theorem test_stsw : after (exec (.stsw 0x3F00 0xBEEF) (linked (acked [[0x55, 0x45, 0x00, 0x3F], [0xEF, 0xBE]])))
    (fun t => (traffic t, t.target.mem))
    = some (([0x55, 0x45, 0x00, 0x3F, 0xEF, 0xBE], []), [(0x3F00, 0xEF), (0x3F01, 0xBE)]) := by decide
/-- R211: `> 55 69 40 80`, `< 40`. -/
theorem test_stPtr : after (exec (.stPtr 0x8040) (linked (acked [[0x55, 0x69, 0x40, 0x80]])))
    (fun t => (traffic t, t.target.ptr)) = some (([0x55, 0x69, 0x40, 0x80], []), 0x8040) := by decide
/-- R212: three bytes after a repeat of three; the pointer passes them and the repeat is used up. -/
theorem test_ldb : after (exec (.ldb 3)
      (linkedTo { Target.fresh with ptr := 0x3F00, rep := 2 } (echoed [0x55, 0x24] ++ [.bytes [0x11, 0x22], .bytes [0x33]])))
    (fun t => (traffic t, t.target.ptr, t.target.rep)) = some (([0x55, 0x24], [0x11, 0x22, 0x33]), 0x3F03, 0) := by decide
/-- R292: so is a burst that reads over the NVM status register, here with its last byte. -/
theorem test_ldb_polls : after (exec (.ldb 3)
      (linkedTo { Target.fresh with ptr := 0x1000, rep := 2, eepromBusy := 3 } (echoed [0x55, 0x24] ++ [.bytes [0, 0, 2]])))
    (fun t => t.target.eepromBusy) = some 2 := by decide
/-- R217: two words. -/
theorem test_ldw : after (exec (.ldw 2)
      (linkedTo { Target.fresh with ptr := 0x8040, rep := 1 } (echoed [0x55, 0x25] ++ [.bytes [0x0C, 0x94, 0x34, 0x00]])))
    (fun t => (traffic t, t.target.ptr, t.target.rep))
    = some (([0x55, 0x25], [0x0C, 0x94, 0x34, 0x00]), 0x8044, 0) := by decide
/-- R213: two bytes after a repeat of two; each lands at the pointer, which advances. -/
theorem test_stb : after (exec (.stb [0x12, 0x34])
      (linkedTo { Target.fresh with ptr := 0x3F00, rep := 1 } (acked [[0x55, 0x64, 0x12], [0x34]])))
    (fun t => (traffic t, t.target.ptr, t.target.mem))
    = some (([0x55, 0x64, 0x12, 0x34], []), 0x3F02, [(0x3F00, 0x12), (0x3F01, 0x34)]) := by decide
/-- R218, R291: after `REPEAT 2`: `> 55 65 0C 94`, `< 40`, `> 34 00`, `< 40`; the bytes land in a cleared page buffer. -/
theorem test_stw : after (exec (.stw [0x0C, 0x94, 0x34, 0x00])
      (linkedTo { Target.fresh with ptr := 0x8040, rep := 1, bufBase := none } (acked [[0x55, 0x65, 0x0C, 0x94], [0x34, 0x00]])))
    (fun t => (traffic t, t.target.ptr, t.target.buf))
    = some (([0x55, 0x65, 0x0C, 0x94, 0x34, 0x00], []), 0x8044,
        [(0x8040, 0x0C), (0x8041, 0x94), (0x8042, 0x34), (0x8043, 0x00)]) := by decide
/-- R215: `> 55 A0 3F`. -/
theorem test_rep : after (exec (.rep 64) (linked (echoed [0x55, 0xA0, 0x3F]))) (fun t => (traffic t, t.target.rep))
    = some (([0x55, 0xA0, 0x3F], []), 63) := by decide
/-- R115: 256 is encoded as 0xFF. -/
theorem test_rep_256 : after (exec (.rep 256) (linked (echoed [0x55, 0xA0, 0xFF]))) traffic
    = some ([0x55, 0xA0, 0xFF], []) := by decide
/-- R216: "NVMErase" goes out reversed, and its status bit reads 1. -/
theorem test_key : after (exec (.key [0x4E, 0x56, 0x4D, 0x45, 0x72, 0x61, 0x73, 0x65])
      (linked (echoed [0x55, 0xE0, 0x65, 0x73, 0x61, 0x72, 0x45, 0x4D, 0x56, 0x4E])))
    (fun t => (traffic t, t.target.csGet 0x07, t.target.keyErase, t.target.keyProg))
    = some (([0x55, 0xE0, 0x65, 0x73, 0x61, 0x72, 0x45, 0x4D, 0x56, 0x4E], []), 0x08, true, false) := by decide
/-- R204: `> 00`. -/
theorem test_brk : after (exec .brk (linked [.bytes [0x00]])) traffic = some ([0x00], []) := by decide
/-- R20, R312: two steps of PROG, the byte and the receive attempt for its echo; between them the byte is on the wire. -/
theorem test_brk_steps :
    after (progRun 1 ⟨busyWith [.cmd .brk] [.bytes [0x00]], 0⟩) id = some ⟨busyWith [.cmd .brk] [.bytes [0x00]], 1⟩ ∧
    (Prog.state ⟨busyWith [.cmd .brk] [.bytes [0x00]], 1⟩).wire.sent = [⟨0x00, 115200, 2⟩] ∧
    (Prog.state ⟨busyWith [.cmd .brk] [.bytes [0x00]], 1⟩).ctl.todo = [.cmd .brk] ∧
    cutAt (busyWith [.cmd .brk] [.bytes [0x00]]) 2 = none := by decide
/-- R205: `> 00 00` at 300 baud and 1 stop bit; the rate and 2 stop bits come back, the echoes are not compared. -/
theorem test_doubleBreak : after (exec .doubleBreak (linked [.bytes [0x12, 0x34]]))
    (fun t => (t.wire.sent, t.session.baud, t.session.stopBits))
    = some ([⟨0x00, 300, 1⟩, ⟨0x00, 300, 1⟩], 115200, 2) := by decide
/-- R273, R292: the page becomes the AND of its contents and the page buffer. -/
theorem test_writePage : after (exec .writePage
      (linkedTo { Target.fresh with mem := [(0x8000, 0xF0), (0x8001, 0xFF)], buf := [(0x8000, 0x3C)], bufBase := none,
                                    pageStart := 0x8000, pageLen := 2 } (acked [[0x55, 0x44, 0x00, 0x10], [0x01]])))
    (fun t => (traffic t, t.target.mem)) = some (([0x55, 0x44, 0x00, 0x10, 0x01], []), [(0x8000, 0x30), (0x8001, 0xFF)]) := by
  decide
/-- R274, R292: the page becomes the page buffer. -/
theorem test_eraseWritePage : after (exec .eraseWritePage
      (linkedTo { Target.fresh with mem := [(0x8000, 0xF0), (0x8001, 0x00)], buf := [(0x8000, 0x3C)], bufBase := none,
                                    pageStart := 0x8000, pageLen := 2 } (acked [[0x55, 0x44, 0x00, 0x10], [0x03]])))
    (fun t => (traffic t, t.target.mem)) = some (([0x55, 0x44, 0x00, 0x10, 0x03], []), [(0x8000, 0x3C), (0x8001, 0xFF)]) := by
  decide
/-- R275, R291. -/
theorem test_pageBufferClr : after (exec .pageBufferClr
      (linkedTo { Target.fresh with buf := [(0x8000, 0x3C)] } (acked [[0x55, 0x44, 0x00, 0x10], [0x04]])))
    (fun t => (traffic t, t.target.bufByte 0x8000)) = some (([0x55, 0x44, 0x00, 0x10, 0x04], []), 0xFF) := by decide
/-- R276, R292: fuse 2 of `fuses = 0x1280`. -/
theorem test_writeFuse : after (exec .writeFuse
      (linkedTo { Target.fresh with addrH := 0x12, addrL := 0x82, dataReg := 0x02 } (acked [[0x55, 0x44, 0x00, 0x10], [0x07]])))
    (fun t => (traffic t, t.target.mem)) = some (([0x55, 0x44, 0x00, 0x10, 0x07], []), [(0x1282, 0x02)]) := by decide

/-- V2: the checksums of the spec's table. -/
theorem test_checksums : chk 0x01 = 0xFF ∧ chk 0x88 = 0x78 ∧ chk 0x00 = 0x00 ∧ chk 0x100 = 0x00 ∧ chk 0x200 = 0x00 ∧
    chk 0x07 = 0xF9 := by decide
/-- V4: `HasPageData`, and the page of a source buffer shorter than the page (R262, R263). -/
theorem test_hasPageData : hasPageData [0xFF, 0xFF, 0xFF, 0xFF] = false ∧ hasPageData [0xFF, 0xFF, 0x00, 0xFF] = true ∧
    hasPageData [0xFF, 0xFF, 0xFF, 0xFE] = true ∧ pageOf [0x12] 4 0 = [0x12, 0xFF, 0xFF, 0xFF] ∧
    hasPageData (pageOf [] 4 0) = false := by decide
/-- V3, one chunk of it: a leading 0xFF is kept, the count is made even by the image's own 0xFF. -/
theorem test_chunkLine :
    chunkLine (Image.get ⟨48, [(0x11, 0x7E), (0x22, 0x01), (0x23, 0x02), (0x24, 0x03)]⟩) 48 1
      = [0x3A, 0x30, 0x32, 0x30, 0x30, 0x31, 0x30, 0x30, 0x30, 0x46, 0x46, 0x37, 0x45, 0x37, 0x31, 0x0D, 0x0A] ∧
    chunkLine (Image.get ⟨48, [(0x11, 0x7E), (0x22, 0x01), (0x23, 0x02), (0x24, 0x03)]⟩) 48 0 = [] := by decide
/-- R178: data 12 at 0x0003 and 34 at 0x0008 give the window 2 to 9. -/
theorem test_window : windowStart ⟨3, 8⟩ = 2 ∧ windowEnd ⟨3, 8⟩ = 9 ∧
    windowBytes { Codec.fresh with img := [(3, 0x12), (8, 0x34)] } ⟨3, 8⟩
      = [0xFF, 0x12, 0xFF, 0xFF, 0xFF, 0xFF, 0x34, 0xFF] := by decide
/-- R180: data at 0x0000..0x000F and at 0x0010..0x001F do not overlap. -/
theorem test_overlap : rangesOverlap (some ⟨0x00, 0x0F⟩) (some ⟨0x10, 0x1F⟩) = false ∧
    rangesOverlap (some ⟨0x00, 0x10⟩) (some ⟨0x10, 0x1F⟩) = true ∧ rangesOverlap none (some ⟨0x10, 0x1F⟩) = false := by decide
/-- R175: `0x0C, 0x94; 34 00`. -/
theorem test_scanText : scanText 0
    [0x30, 0x78, 0x30, 0x43, 0x2C, 0x20, 0x30, 0x78, 0x39, 0x34, 0x3B, 0x20, 0x33, 0x34, 0x20, 0x30, 0x30]
    = .ok [0x0C, 0x94, 0x34, 0x00] := by decide
/-- R22, R60, R175: `0C` stands in IMG at address 0. -/
theorem test_txt2hex : after (step (asked .cold [.txt2hex [0x30, 0x43]] [])) (fun t => (t.codec.img, t.codec.length))
    = some ([(0, 0x0C)], 1) := by decide

/-! ## Witnesses: the hypotheses of every statement can be met, each clause at a boundary -/

/-- The start of every operation, in every link state: the clauses of `MergeComparesRanges`, `WindowIsWordAligned`,
`ShortReadIsFatal`, `ChipEraseOkOnlyByUnlock`, `NvmWaitIsBounded` and `FuseWriteComparesFirst` about the step from a request. -/
theorem witness_starts (l : LinkState) (r : Request) : ∃ (s : State) (rs : List Request), s.running ∧ s.ctl.todo = [] ∧
    s.session.linkState = l ∧ s.session.failed = none ∧ s.ctl.requests = r :: rs ∧ s.params.fuseCount = 9 :=
  ⟨asked l [r] [], [], asked_running _ _ _, rfl, rfl, rfl, rfl, rfl⟩

theorem witness_DecodeEncode : ∃ (p : Params) (i : Instr), p.legal = true ∧ i.wf = true := ⟨Params.default, .rep 256, by decide⟩

theorem witness_FrameDecodesOnlyFromItsEncoding : ∃ (p : Params) (units : Nat) (bs : List Byte) (i : Instr),
    p.opc.legal = true ∧ countOk units = true ∧ decode p .updiFrame units bs = .ok i :=
  ⟨Params.default, 256, [0x55, 0x24], .ldb 256, by decide⟩

/-- `:00000001ff`, lower case. -/
theorem witness_LineDecodesOnlyFromItsBytes : ∃ (p : Params) (units : Nat) (l : List Byte) (i : Instr),
    decode p .hexLine units l = .ok i :=
  ⟨Params.default, 1, [0x3A, 0x30, 0x30, 0x30, 0x30, 0x30, 0x30, 0x30, 0x31, 0x66, 0x66], .eof 0 [], by decide⟩

theorem witness_ChecksumLaw : ∃ sum : Nat, sum % 256 = 0 ∧ sum ≠ 0 := ⟨256, by decide⟩

/-- One line for each clause, in their order: 10 characters, 12 characters, no start code, a `G`, a byte count of 1 over no
data, a checksum of 0x00 for 0xFF, and a line that passes. -/
theorem witness_LineCheckOrder :
    decodeRecord [0x3A, 0x30, 0x30, 0x30, 0x30, 0x30, 0x30, 0x30, 0x31, 0x46] = .error .lineLength ∧
    decodeRecord [0x3A, 0x30, 0x30, 0x30, 0x30, 0x30, 0x30, 0x30, 0x31, 0x46, 0x46, 0x46] = .error .lineLength ∧
    decodeRecord [0x30, 0x30, 0x30, 0x30, 0x30, 0x30, 0x30, 0x30, 0x31, 0x46, 0x46] = .error .startCode ∧
    decodeRecord [0x3A, 0x30, 0x30, 0x30, 0x30, 0x30, 0x30, 0x30, 0x31, 0x46, 0x47] = .error .hexDigit ∧
    decodeRecord [0x3A, 0x30, 0x31, 0x30, 0x30, 0x30, 0x30, 0x30, 0x31, 0x46, 0x46] = .error .byteCount ∧
    decodeRecord [0x3A, 0x30, 0x30, 0x30, 0x30, 0x30, 0x30, 0x30, 0x31, 0x30, 0x30] = .error (.checksum 0xFF 0x00) ∧
    decodeRecord [0x3A, 0x30, 0x30, 0x30, 0x30, 0x30, 0x30, 0x30, 0x31, 0x46, 0x46] = .ok ⟨0, 0, 1, [], 0xFF⟩ := by decide

/-- The last byte of the buffer, and one byte beyond it. -/
theorem witness_DataStoresItsBytes :
    (∃ (aaaa : Word) (dd : List Byte) (s : State), dd ≠ [] ∧
      s.codec.offset.toNat + aaaa.toNat + dd.length = s.params.imgCap) ∧
    (∃ (aaaa : Word) (dd : List Byte) (s : State), s.params.imgCap + 1 = s.codec.offset.toNat + aaaa.toNat + dd.length) :=
  ⟨⟨0xFFFF, [0x12], State.reset, by decide⟩, ⟨0xFFFF, [0x12, 0x34], State.reset, by decide⟩⟩

theorem witness_DataTracksTheRange : ∃ (aaaa : Word) (dd : List Byte) (s t : State) (lo hi lo0 hi0 : Nat),
    s.codec.offset.toNat + aaaa.toNat + dd.length ≤ s.params.imgCap ∧ exec (.data aaaa dd) s = .next t ∧
    s.codec.range = some ⟨lo0, hi0⟩ ∧ t.codec.range = some ⟨lo, hi⟩ :=
  ⟨0xFFFF, [0x12], codecWith { Codec.fresh with range := some ⟨0, 5⟩ } [], _, 0, 0xFFFF, 0, 5, by decide, rfl, rfl, by decide⟩

theorem witness_EofEndsTheRecords : ∃ (s : State) (rest : List Micro), s.running ∧ s.wire.irq = none ∧
    s.codec.eofSeen = true ∧ s.ctl.todo = .records :: .parsed :: rest :=
  ⟨codecWith { Codec.fresh with eofSeen := true } [.records, .parsed], [], codecWith_running _ _, rfl, rfl, rfl⟩

theorem witness_ExtendedAddressSetsTheOffset : ∃ dd ee : List Byte, dd.length = 1 ∧ ee.length = 3 := ⟨[0x01], [0x01, 0x02, 0x03], by decide⟩

/-- `:00000001FF` as a whole file. -/
def eofFile : List Byte := [0x3A, 0x30, 0x30, 0x30, 0x30, 0x30, 0x30, 0x30, 0x31, 0x46, 0x46]

theorem witness_ParseStepRunsTheDecodedRecord : ∃ (s : State) (r : HexRecord) (rest : List Micro), s.running ∧
    s.wire.irq = none ∧ s.ctl.todo = .records :: rest ∧ s.codec.eofSeen = false ∧ s.codec.pos < s.codec.file.length ∧
    decodeRecord (lineAt s.codec.file s.codec.pos) = .ok r :=
  ⟨codecWith { Codec.fresh with file := eofFile } [.records, .parsed], ⟨0, 0, 1, [], 0xFF⟩, [.parsed],
    codecWith_running _ _, rfl, rfl, rfl, by decide, by decide⟩

/-- `:00000003FD`, and `:00000005FB` with a right and with a wrong checksum, as whole files. -/
def ssaFile : List Byte := [0x3A, 0x30, 0x30, 0x30, 0x30, 0x30, 0x30, 0x30, 0x33, 0x46, 0x44]
def reservedFile : List Byte := [0x3A, 0x30, 0x30, 0x30, 0x30, 0x30, 0x30, 0x30, 0x35, 0x46, 0x42]
def badSumFile : List Byte := [0x3A, 0x30, 0x30, 0x30, 0x30, 0x30, 0x30, 0x30, 0x35, 0x46, 0x43]

theorem witness_SsaChangesNothing : ∃ (s : State) (r : HexRecord) (rest : List Micro), s.running ∧ s.wire.irq = none ∧
    s.ctl.todo = .records :: rest ∧ s.codec.eofSeen = false ∧ s.codec.pos < s.codec.file.length ∧
    decodeRecord (lineAt s.codec.file s.codec.pos) = .ok r ∧ r.rr = 0x03 :=
  ⟨codecWith { Codec.fresh with file := ssaFile } [.records, .parsed], ⟨0, 0, 3, [], 0xFD⟩, [.parsed],
    codecWith_running _ _, rfl, rfl, rfl, by decide, by decide, rfl⟩

theorem witness_ReservedTypeIsAFormatError :
    (∃ (s : State) (r : HexRecord) (rest : List Micro), s.running ∧ s.wire.irq = none ∧ s.ctl.todo = .records :: rest ∧
      s.codec.eofSeen = false ∧ s.codec.pos < s.codec.file.length ∧
      decodeRecord (lineAt s.codec.file s.codec.pos) = .ok r ∧ r.rr.toNat = 5) ∧
    (∃ (s : State) (c st : Byte) (rest : List Micro), s.running ∧ s.wire.irq = none ∧ s.ctl.todo = .records :: rest ∧
      s.codec.eofSeen = false ∧ s.codec.pos < s.codec.file.length ∧
      decodeRecord (lineAt s.codec.file s.codec.pos) = .error (.checksum c st)) :=
  ⟨⟨codecWith { Codec.fresh with file := reservedFile } [.records, .parsed], ⟨0, 0, 5, [], 0xFB⟩, [.parsed],
      codecWith_running _ _, rfl, rfl, rfl, by decide, by decide, rfl⟩,
    ⟨codecWith { Codec.fresh with file := badSumFile } [.records, .parsed], 0xFB, 0xFC, [.parsed],
      codecWith_running _ _, rfl, rfl, rfl, by decide, by decide⟩⟩

theorem witness_PlacedWordRuns :
    (∃ nbits w i, decodeTableWord nbits w = some i ∧ isLinkInstr i = true) ∧
    (∃ nbits w i, decodeTableWord nbits w = some i ∧ isLinkInstr i = false) :=
  ⟨⟨16, 0, .doubleBreak, by decide⟩, ⟨8, 0xFF, .hexReserved 0xFF 0 [], by decide⟩⟩

theorem witness_ParseRejects :
    (∃ (s : State) (rest : List Micro) (file : List Byte) (keep : Bool), s.running ∧ s.wire.irq = none ∧
      s.ctl.todo = .parse file keep :: rest ∧ file.length = 10) ∧
    (∃ (s : State) (rest : List Micro) (file : List Byte) (keep : Bool), s.running ∧ s.wire.irq = none ∧
      s.ctl.todo = .parse file keep :: rest ∧ file.length = 1048577) ∧
    (∃ (s : State) (rest : List Micro), s.running ∧ s.wire.irq = none ∧ s.ctl.todo = .records :: rest ∧
      s.codec.eofSeen = false ∧ s.codec.file.length = s.codec.pos) ∧
    (∃ (s : State) (rest : List Micro) (e : LineFault), s.running ∧ s.wire.irq = none ∧ s.ctl.todo = .records :: rest ∧
      s.codec.eofSeen = false ∧ s.codec.pos + 1 = s.codec.file.length ∧
      decodeRecord (lineAt s.codec.file s.codec.pos) = .error e) :=
  ⟨⟨codecWith Codec.fresh [.parse (List.replicate 10 0) false], [], _, _, codecWith_running _ _, rfl, rfl, rfl⟩,
    ⟨codecWith Codec.fresh [.parse (List.replicate 1048577 0) false], [], _, _, codecWith_running _ _, rfl, rfl,
      List.length_replicate⟩,
    ⟨codecWith { Codec.fresh with file := eofFile, pos := 11 } [.records], [], codecWith_running _ _, rfl, rfl, rfl, rfl⟩,
    ⟨codecWith { Codec.fresh with file := eofFile, pos := 10 } [.records], [], .lineLength, codecWith_running _ _, rfl, rfl, rfl,
      rfl, by decide⟩⟩

theorem witness_ParseTerminates : ∃ s : State, s.running ∧ s.wire.irq = none ∧ s.ctl.todo = [.records, .parsed] ∧
    s.codec.pos ≤ s.codec.file.length :=
  ⟨codecWith { Codec.fresh with file := eofFile } [.records, .parsed], codecWith_running _ _, rfl, rfl, by decide⟩

theorem witness_SerializeThenParse : ∃ (s u : State) (img : Image) (len : Nat) (file : List Byte), s.running ∧
    s.wire.irq = none ∧ s.ctl.todo = [] ∧ s.ctl.requests = [.serialize img len] ∧ len = img.size ∧ len = 65536 ∧
    len + len % 2 ≤ s.params.imgCap ∧
    u.running ∧ u.wire.irq = none ∧ u.ctl.todo = [] ∧ u.ctl.requests = [.parse file] ∧ u.params = s.params :=
  ⟨asked .cold [.serialize ⟨65536, [(0, 0x12)]⟩ 65536] [], asked .cold [.parse eofFile] [], _, _, _, asked_running _ _ _, rfl, rfl,
    rfl, rfl, rfl, by decide, asked_running _ _ _, rfl, rfl, rfl, rfl⟩

/-- A chunk of one byte 0xFF, and a chunk whose last byte other than 0xFF is its last byte. -/
theorem witness_ChunkLineForm :
    (∃ (img : Image) (len k : Nat), len ≤ 65536 ∧ 16 * k < len ∧
      ∀ a, 16 * k ≤ a → a < min (16 * k + 16) len → img.get a = 0xFF) ∧
    (∃ (img : Image) (len k last : Nat), len ≤ 65536 ∧ 16 * k < len ∧ 16 * k + last < len ∧ last < 16 ∧
      img.get (16 * k + last) ≠ 0xFF ∧
      ∀ j, last < j → j < 16 → 16 * k + j < len → img.get (16 * k + j) = 0xFF) :=
  ⟨⟨⟨65536, []⟩, 65521, 4095, by decide, by decide, fun _ _ _ => rfl⟩,
    ⟨⟨65536, [(65535, 0x12)]⟩, 65536, 4095, 15, by decide, by decide, by decide, by decide, by decide, fun j h k => by omega⟩⟩

theorem witness_SerializeEndsAndRefuses :
    (∃ (s : State) (rest : List Micro), s.running ∧ s.ctl.todo = .chunks :: rest ∧ s.wire.irq = none ∧
      chunkCount s.codec.length = s.codec.k) ∧
    (∃ (s : State) (img : Image) (len : Nat) (rs : List Request), s.running ∧ s.ctl.todo = [] ∧
      s.ctl.requests = .serialize img len :: rs ∧ img.size + 1 = len) ∧
    (∃ (s : State) (img : Image) (len : Nat) (rs : List Request), s.running ∧ s.ctl.todo = [] ∧
      s.ctl.requests = .serialize img len :: rs ∧ len ≤ img.size ∧ len = 65537) :=
  ⟨⟨codecWith { Codec.fresh with length := 16, k := 1 } [.chunks], [], codecWith_running _ _, rfl, rfl, by decide⟩,
    ⟨asked .cold [.serialize ⟨16, []⟩ 17] [], _, _, [], asked_running _ _ _, rfl, rfl, rfl⟩,
    ⟨asked .cold [.serialize ⟨65537, []⟩ 65537] [], _, _, [], asked_running _ _ _, rfl, rfl, le_refl _, rfl⟩⟩

/-- `n` bytes 0x00 as text. -/
def zerosText : Nat → List Byte
  | 0 => []
  | n + 1 => 0x30 :: 0x30 :: zerosText n

theorem scan_zerosText : ∀ n i : Nat, scanText i (zerosText n) = .ok (List.replicate n 0)
  | 0, _ => rfl
  | n + 1, i => by
    have h : hexByte 0x30 0x30 = some 0 := by decide
    rw [zerosText, scanText, if_neg (by decide), h, scan_zerosText n (i + 2)]; rfl

/-- A pair in lower case; a lone nibble; as many bytes as `serialize` takes, and one more; one byte more than IMG holds. -/
theorem witness_ScannerFindsHexPairs : (∃ (c d : Byte) (h l : Nat), hexVal c = some h ∧ hexVal d = some l ∧ h = 12 ∧ l = 15) ∧
    (∃ c : Byte, hexVal c = none) ∧ (∃ c : Byte, (hexVal c).isSome = true) ∧
    (∃ c d : Byte, (hexVal c).isSome = true ∧ hexVal d = none ∧ ¬ (c = 0x30 ∧ (d = 0x78 ∨ d = 0x58))) ∧
    (∃ (s : State) (text : List Byte) (rs : List Request) (i : Nat), s.running ∧ s.ctl.todo = [] ∧
      s.ctl.requests = .txt2hex text :: rs ∧ scanText 0 text = .error i) ∧
    (∀ n, n = 65536 ∨ n = 65537 → ∃ (s : State) (text : List Byte) (rs : List Request) (bs : List Byte), s.running ∧
      s.ctl.todo = [] ∧ s.ctl.requests = .txt2hex text :: rs ∧ scanText 0 text = .ok bs ∧ bs.length = n ∧
      s.params.imgCap = 65536) ∧
    (∃ (s : State) (text : List Byte) (rs : List Request) (bs : List Byte), s.running ∧ s.ctl.todo = [] ∧
      s.ctl.requests = .txt2hex text :: rs ∧ scanText 0 text = .ok bs ∧ bs.length = s.params.imgCap + 1 ∧ bs.length ≤ 65536) :=
  ⟨⟨0x63, 0x66, 12, 15, by decide⟩, ⟨0x47, by decide⟩, ⟨0x66, by decide⟩, ⟨0x30, 0x79, by decide⟩,
    ⟨asked .cold [.txt2hex [0x30]] [], [0x30], [], 0, asked_running _ _ _, rfl, rfl, by decide⟩,
    fun n _ => ⟨asked .cold [.txt2hex (zerosText n)] [], _, [], _, asked_running _ _ _, rfl, rfl, scan_zerosText n 0,
      List.length_replicate, rfl⟩,
    ⟨{ asked .cold [.txt2hex (zerosText 3)] [] with params := { Params.default with imgCap := 2 } }, zerosText 3, [], _,
      ⟨rfl, nofun⟩, rfl, rfl, scan_zerosText 3 0, by decide, by decide⟩⟩

/-- A file of the least and of the greatest size; ranges that touch in one address, ranges that are neighbours, and each of them
empty. -/
theorem witness_MergeComparesRanges :
    (∃ (s : State) (b : List Byte) (rest : List Micro), s.running ∧ s.ctl.todo = .mergeSecond b :: rest ∧
      s.codec.range ≠ s.codec.rangeA) ∧
    (∀ n, n = 11 ∨ n = 1048576 → ∃ (s : State) (file : List Byte) (rest : List Micro), s.running ∧
      s.ctl.todo = .parse file true :: rest ∧ file.length = n ∧ s.codec.img ≠ []) ∧
    (∃ (s : State) (rest : List Micro) (a b : Range), s.running ∧ s.ctl.todo = .mergeEnd :: rest ∧ s.codec.rangeA = some a ∧
      s.codec.range = some b ∧ a.low ≤ a.high ∧ b.low ≤ b.high ∧ a.low ≤ b.high ∧ b.low = a.high) ∧
    (∃ (s : State) (rest : List Micro) (a b : Range), s.running ∧ s.ctl.todo = .mergeEnd :: rest ∧ s.codec.rangeA = some a ∧
      s.codec.range = some b ∧ a.low ≤ a.high ∧ b.low ≤ b.high ∧ a.high + 1 = b.low) ∧
    (∃ (s : State) (rest : List Micro), s.running ∧ s.ctl.todo = .mergeEnd :: rest ∧ s.codec.rangeA = none) ∧
    (∃ (s : State) (rest : List Micro), s.running ∧ s.ctl.todo = .mergeEnd :: rest ∧ s.codec.range = none) :=
  ⟨⟨codecWith { Codec.fresh with range := some ⟨0, 15⟩ } [.mergeSecond eofFile, .mergeEnd], _, _, codecWith_running _ _, rfl,
      by decide⟩,
    fun n _ => ⟨codecWith { Codec.fresh with img := [(0, 0x12)], rangeA := some ⟨0, 0⟩ }
      [.parse (List.replicate n 0x3A) true, .mergeEnd], _, _, codecWith_running _ _, rfl, List.length_replicate, by simp [codecWith]⟩,
    ⟨codecWith { Codec.fresh with rangeA := some ⟨0, 16⟩, range := some ⟨16, 31⟩ } [.mergeEnd], [], _, _, codecWith_running _ _,
      rfl, rfl, rfl, by decide⟩,
    ⟨codecWith { Codec.fresh with rangeA := some ⟨0, 15⟩, range := some ⟨16, 31⟩ } [.mergeEnd], [], _, _, codecWith_running _ _,
      rfl, rfl, rfl, by decide⟩,
    ⟨codecWith Codec.fresh [.mergeEnd], [], codecWith_running _ _, rfl, rfl⟩,
    ⟨codecWith Codec.fresh [.mergeEnd], [], codecWith_running _ _, rfl, rfl⟩⟩

theorem witness_WindowIsWordAligned :
    (∃ (s : State) (asC : Bool) (rest : List Micro), s.running ∧ s.ctl.todo = .window asC :: rest ∧ s.codec.range = none) ∧
    (∃ (s : State) (asC : Bool) (rest : List Micro) (lo hi : Nat), s.running ∧ s.ctl.todo = .window asC :: rest ∧
      s.codec.range = some ⟨lo, hi⟩ ∧ lo = hi) :=
  ⟨⟨codecWith Codec.fresh [.window true], true, [], codecWith_running _ _, rfl, rfl⟩,
    ⟨codecWith { Codec.fresh with range := some ⟨0xF1, 0xF1⟩ } [.window false], false, [], _, _, codecWith_running _ _, rfl, rfl,
      rfl⟩⟩

theorem witness_StepRunsTheNextCommand : ∃ (s : State) (i : Instr) (rest : List Micro), s.running ∧ s.ctl.todo = .cmd i :: rest :=
  ⟨busyWith [.cmd .brk, .answer .brk] [], .brk, [.answer .brk], busyWith_running _ _, rfl⟩

/-- The last register, and the system status; an obedient answer, and any other. -/
theorem witness_LdcsReads (r : Nat) (hr : r = 15 ∨ r = Params.default.csSysStatus) :
    (∃ (s : State) (es : List Answer) (rest : List Answer) (v : Byte), Ready s ∧ s.params = Params.default ∧ r ≤ 15 ∧
      List.Forall₂ Echoes es (encode s.params (.ldcs r)) ∧
      Delivers .obey [s.target.csRead s.params s.wire.draws r] [v] ∧ s.wire.script = es ++ .obey :: rest) ∧
    (∃ (s : State) (es : List Answer) (rest : List Answer) (v : Byte), Ready s ∧ r ≤ 15 ∧
      List.Forall₂ Echoes es (encode s.params (.ldcs r)) ∧
      Delivers (.bytes [v]) [s.target.csRead s.params s.wire.draws r] [v] ∧ s.wire.script = es ++ .bytes [v] :: rest) :=
  have h : r ≤ 15 := by rcases hr with rfl | rfl <;> decide
  ⟨⟨linked (echoed (encode Params.default (.ldcs r)) ++ [.obey]), _, [], _, linked_ready _, rfl, h, forall2_echoed _,
      .inl ⟨rfl, rfl⟩, rfl⟩,
    ⟨linked (echoed (encode Params.default (.ldcs r)) ++ [.bytes [0x30]]), _, [], 0x30, linked_ready _, h, forall2_echoed _,
      .inr rfl, rfl⟩⟩

/-- A register that nothing depends on; the reset request with the assert value, and with the release value where no reset is
held; the system control with the final bit after the user-row key. -/
theorem witness_StcsWrites (r : Nat) (v : Byte) (h : (r, v) ∈ [(15, 0x08), (8, 0x59), (8, 0x00), (10, 0x03)]) :
    ∃ (s : State) (es rest : List Answer), Ready s ∧ r ≤ 15 ∧ List.Forall₂ Echoes es (encode s.params (.stcs r v)) ∧
      s.wire.script = es ++ rest ∧ s.target.keyRow = true ∧
      ¬ (r = s.params.csResetReq ∧ v = s.params.resetRelease ∧ v ≠ s.params.resetAssert ∧ s.target.resetHeld = true) :=
  ⟨linkedTo { Target.fresh with keyRow := true } (echoed (encode Params.default (.stcs r v)) ++ []), _, [], linkedTo_ready _ _,
    by simp only [List.mem_cons, Prod.mk.injEq, List.not_mem_nil, or_false] at h; omega, forall2_echoed _, rfl, rfl, fun h => Bool.noConfusion h.2.2.2⟩

/-- The values of `witness_StcsWrites` are those of the reset request and of the final bit. -/
theorem witness_StcsWrites_values : Params.default.csResetReq = 8 ∧ Params.default.resetAssert = 0x59 ∧
    Params.default.resetRelease = 0x00 ∧ Params.default.csSysCtrlA = 10 ∧ bitSet 0x03 Params.default.urowFinal = true := by decide

/-- Every address, answered by every obedient target: the registers of the NVM controller and their neighbours, the ends of the
data space. -/
theorem witness_DirectLoadsRead (addr : Word) (t : Target) :
    (∃ (s : State) (es : List Answer) (a : Answer) (rest : List Answer) (v : Byte), Ready s ∧ s.target = t ∧ a = .obey ∧
      List.Forall₂ Echoes es (encode s.params (.ldsb addr)) ∧
      Delivers a (s.target.loadBytes s.params s.session.profile s.wire.draws addr 1) [v] ∧ s.wire.script = es ++ a :: rest) ∧
    (∃ (s : State) (es : List Answer) (a : Answer) (rest : List Answer) (lo hi : Byte), Ready s ∧ s.target = t ∧ a = .obey ∧
      List.Forall₂ Echoes es (encode s.params (.ldsw addr)) ∧
      Delivers a (s.target.loadBytes s.params s.session.profile s.wire.draws addr 2) [lo, hi] ∧
      s.wire.script = es ++ a :: rest) ∧
    (∃ (u : State) (more : List Micro) (lo : Byte), u.running ∧ u.ctl.todo = .answer (.ldsb addr) :: more ∧
      u.wire.resp = [lo]) ∧
    (∃ (u : State) (more : List Micro) (lo hi : Byte), u.running ∧ u.ctl.todo = .answer (.ldsw addr) :: more ∧
      u.wire.resp = [lo, hi]) :=
  ⟨⟨linkedTo t (echoed (encode Params.default (.ldsb addr)) ++ [.obey]), _, _, [], _, linkedTo_ready _ _, rfl, rfl,
      forall2_echoed _, .inl ⟨rfl, rfl⟩, rfl⟩,
    ⟨linkedTo t (echoed (encode Params.default (.ldsw addr)) ++ [.obey]), _, _, [], _, _, linkedTo_ready _ _, rfl, rfl,
      forall2_echoed _, .inl ⟨rfl, rfl⟩, rfl⟩,
    ⟨(busyWith [.answer (.ldsb addr)] []).setResp [0xFF], _, _, ⟨rfl, nofun⟩, rfl, rfl⟩,
    ⟨(busyWith [.answer (.ldsw addr)] []).setResp [0x0C, 0x94], _, _, _, ⟨rfl, nofun⟩, rfl, rfl⟩⟩

/-- The clauses of `AnswersLoad` in these states, by address: the five registers of the controller, a byte that is no NVM, and a
byte of flash for an unlocked chip in programming mode. -/
theorem witness_AnswersLoad :
    [Params.default.nvmStatus, Params.default.nvmCtrlA, Params.default.nvmData, Params.default.nvmAddrL,
        Params.default.nvmAddrH].map (fun off => dataAddr ((linked []).session.profile.nvmctrl + off))
      = [0x1002, 0x1000, 0x1006, 0x1008, 0x1009] ∧
    nvmPage Params.default (linked []).session.profile 0xFFFF = none ∧
    nvmPage Params.default (linked []).session.profile 0x8000 = some (0x8000, 64) ∧
    (∃ t : Target, t.locked = false ∧ t.progMode = true) :=
  ⟨by decide, by decide, by decide, { Target.fresh with locked := false, progMode := true }, rfl, rfl⟩

theorem witness_DirectStoresWrite :
    (∃ (addr : Word) (v : Byte) (s : State) (as rest : List Answer), Ready s ∧ s.wire.script = as ∧
      Acked (phases s (.stsb addr v)) as rest) ∧
    (∃ (addr w : Word) (s : State) (as rest : List Answer), Ready s ∧ s.wire.script = as ∧
      Acked (phases s (.stsw addr w)) as rest) :=
  ⟨⟨0xFFFF, 0x04, linked (acked (phases (linked []) (.stsb 0xFFFF 0x04)) ++ []), _, [], linked_ready _, rfl, acked_acked _ _⟩,
    ⟨0xFFFF, 0xBEEF, linked (acked (phases (linked []) (.stsw 0xFFFF 0xBEEF)) ++ []), _, [], linked_ready _, rfl, acked_acked _ _⟩⟩

theorem witness_SetPointerWrites : ∃ (addr : Word) (s : State) (as rest : List Answer), Ready s ∧ s.wire.script = as ∧
    Acked (phases s (.stPtr addr)) as rest :=
  ⟨0xFFFF, linked (acked (phases (linked []) (.stPtr 0xFFFF)) ++ []), _, [], linked_ready _, rfl, acked_acked _ _⟩

/-- The last repeat there is: 256 units. -/
def longRepeat : Target := { Target.fresh with ptr := 0x8000, rep := 0xFF }

theorem loadBytes_length (p : Params) (pr : Profile) (d : Nat) (t : Target) (a : Word) (n : Nat) :
    (t.loadBytes p pr d a n).length = n := by simp [Target.loadBytes]

/-- Every pointer, answered by an obedient target: a burst that begins or ends on the NVM status register, one that passes it, one
that wraps. -/
theorem witness_BurstLoadsRead (ptr : Word) :
    (∃ (n : Nat) (s : State) (es : List Answer) (a : Answer) (rest : List Answer) (got : List Byte), Ready s ∧
      s.target.ptr = ptr ∧ a = .obey ∧ n = s.target.rep.toNat + 1 ∧ n = 256 ∧ List.Forall₂ Echoes es (encode s.params (.ldb n)) ∧
      Delivers a (s.target.loadBytes s.params s.session.profile s.wire.draws s.target.ptr n) got ∧ got.length = n ∧
      s.wire.script = es ++ a :: rest) ∧
    (∃ (n : Nat) (s : State) (es : List Answer) (a : Answer) (rest : List Answer) (got : List Byte), Ready s ∧
      s.target.ptr = ptr ∧ a = .obey ∧ n = s.target.rep.toNat + 1 ∧ n = 256 ∧ List.Forall₂ Echoes es (encode s.params (.ldw n)) ∧
      Delivers a (s.target.loadBytes s.params s.session.profile s.wire.draws s.target.ptr (2 * n)) got ∧
      got.length = 2 * n ∧ s.wire.script = es ++ a :: rest) :=
  ⟨⟨256, linkedTo { longRepeat with ptr := ptr } (echoed (encode Params.default (.ldb 256)) ++ [.obey]),
      _, _, [], _, linkedTo_ready _ _, rfl, rfl, rfl, rfl, forall2_echoed _, .inl ⟨rfl, rfl⟩, loadBytes_length .., rfl⟩,
    ⟨256, linkedTo { longRepeat with ptr := ptr } (echoed (encode Params.default (.ldw 256)) ++ [.obey]),
      _, _, [], _, linkedTo_ready _ _, rfl, rfl, rfl, rfl, forall2_echoed _, .inl ⟨rfl, rfl⟩, loadBytes_length .., rfl⟩⟩

/-- A burst of 256 bytes whose last byte is the status register, and one that begins after it. -/
theorem witness_BurstLoadsRead_polls : (∃ j, j < 256 ∧ (0x0F03 : Word) + BitVec.ofNat 16 j = 0x1002) ∧
    ¬ ∃ j, j < 512 ∧ (0x1003 : Word) + BitVec.ofNat 16 j = 0x1002 := by
  refine ⟨⟨255, by decide, by decide⟩, fun ⟨j, hj, h⟩ => ?_⟩
  have := congrArg BitVec.toNat h
  rw [BitVec.toNat_add, BitVec.toNat_ofNat, show (0x1003 : Word).toNat = 4099 from rfl,
    show (0x1002 : Word).toNat = 4098 from rfl] at this
  omega

theorem witness_BurstStoresWrite :
    (∃ (d : List Byte) (s : State) (as rest : List Answer), Ready s ∧ s.wire.script = as ∧
      d.length = s.target.rep.toNat + 1 ∧ Acked (phases s (.stb d)) as rest) ∧
    (∃ (d : List Byte) (s : State) (as rest : List Answer), Ready s ∧ s.wire.script = as ∧
      d.length = 2 * (s.target.rep.toNat + 1) ∧ Acked (phases s (.stw d)) as rest) :=
  ⟨⟨List.replicate 256 0x12, linkedTo longRepeat (acked (phases (linked []) (.stb (List.replicate 256 0x12))) ++ []), _, [],
      linkedTo_ready _ _, rfl, List.length_replicate, acked_acked _ _⟩,
    ⟨List.replicate 512 0x12, linkedTo longRepeat (acked (phases (linked []) (.stw (List.replicate 512 0x12))) ++ []), _, [],
      linkedTo_ready _ _, rfl, List.length_replicate, acked_acked _ _⟩⟩

theorem witness_RepeatSetsTheCounter (n : Nat) (hn : n = 1 ∨ n = 256) : ∃ (s : State) (es rest : List Answer), Ready s ∧
    1 ≤ n ∧ n ≤ 256 ∧ List.Forall₂ Echoes es [0x55, s.params.opc.rep, BitVec.ofNat 8 (n - 1)] ∧ s.wire.script = es ++ rest :=
  ⟨linked (echoed [0x55, 0xA0, BitVec.ofNat 8 (n - 1)] ++ []), _, [], linked_ready _, by omega, by omega, forall2_echoed _, rfl⟩

/-- A key no target knows. -/
def strangeKey : List Byte := [1, 2, 3, 4, 5, 6, 7, 8]

/-- Each of the three keys, and one the target does not know. -/
theorem witness_KeySendsReversed (k : List Byte)
    (hk : k ∈ [Params.default.keyChipErase, Params.default.keyNvmProg, Params.default.keyUrow, strangeKey]) :
    ∃ (s : State) (es rest : List Answer), Ready s ∧ s.params = Params.default ∧ s.params.legal = true ∧ k.length = 8 ∧
      List.Forall₂ Echoes es (0x55 :: s.params.opc.key :: k.reverse) ∧ s.wire.script = es ++ rest :=
  ⟨linked (echoed (0x55 :: 0xE0 :: k.reverse) ++ []), _, [], linked_ready _, rfl, test_accepts_default_parameters,
    by simp only [List.mem_cons, List.not_mem_nil, or_false] at hk; rcases hk with rfl | rfl | rfl | rfl <;> rfl,
    forall2_echoed _, rfl⟩

theorem witness_the_keys_differ : Params.default.keyNvmProg ≠ Params.default.keyChipErase ∧
    Params.default.keyUrow ≠ Params.default.keyChipErase ∧ Params.default.keyUrow ≠ Params.default.keyNvmProg ∧
    strangeKey ∉ [Params.default.keyChipErase, Params.default.keyNvmProg, Params.default.keyUrow] := by decide

theorem witness_BreakSendsOneByte : ∃ (s : State) (a : Answer) (rest : List Answer), Ready s ∧ Echoes a 0x00 ∧
    s.wire.script = a :: rest := ⟨linked [.obey], _, [], linked_ready _, .inl rfl, rfl⟩

/-- One `recv` in pieces, within 30 attempts: two pieces that complete it; a piece too little, and then an error, or silence to
the bound; an error at once, at the last attempt, and silence alone. -/
theorem receives (n : Nat) (hn : 2 ≤ n) :
    Receives 30 n [List.replicate (n - 1) 0x12, [0x34]] [.bytes (List.replicate (n - 1) 0x12), .bytes [0x34]] ∧
    Receives 30 n [List.replicate (n - 1) 0x12] [.bytes (List.replicate (n - 1) 0x12), .error] ∧
    Receives 30 n (List.replicate 29 [] ++ [List.replicate (n - 1) 0x12])
      (List.replicate 29 (.bytes []) ++ [.bytes (List.replicate (n - 1) 0x12)]) ∧
    Receives 30 n [] [.error] ∧ Receives 30 n (List.replicate 29 []) (List.replicate 29 (.bytes []) ++ [.error]) ∧
    Receives 30 n (List.replicate 30 []) (List.replicate 30 (.bytes [])) := by
  refine ⟨⟨?_, .inr ?_, by simp, .inl ⟨rfl, .inl ?_⟩⟩, ⟨?_, .inr ?_, by simp, .inr ⟨rfl, ?_, by simp⟩⟩,
    ⟨?_, .inr ?_, by simp, .inl ⟨rfl, .inr (by simp)⟩⟩, ⟨by simp, .inl rfl, by simp, .inr ⟨rfl, ?_, by simp⟩⟩,
    ⟨by simp, .inr ?_, by simp, .inr ⟨rfl, ?_, by simp⟩⟩, ⟨by simp, .inr ?_, by simp, .inl ⟨rfl, .inr (by simp)⟩⟩⟩ <;>
    simp [List.dropLast] <;> omega

/-- An obedient answer, every answer of `receives`, and a short write. -/
theorem witness_DoubleBreakSendsAtTheSlowRate :
    (∃ (s : State) (rest : List Answer), Ready s ∧ s.wire.script = [.obey] ++ rest) ∧
    (∀ pieces as, Receives 30 2 pieces as → ∃ (s : State) (rest : List Answer), Ready s ∧
      Receives s.params.recvAttempts 2 pieces as ∧ s.wire.script = as ++ rest) ∧
    (∃ (s : State) (rest : List Answer), Ready s ∧ s.wire.script = .shortWrite :: rest) :=
  ⟨⟨linked [.obey], [], linked_ready _, rfl⟩, fun _ as h => ⟨linked (as ++ []), [], linked_ready _, h, rfl⟩,
    ⟨linked [.shortWrite], [], linked_ready _, rfl⟩⟩

/-- `WritePageAndsTheBuffer`, `EraseWritePageReplacesThePage`, `PageBufferClrFillsWithFF`, `WriteFuseWritesOneByte`: the four
NVM commands, with a page of one byte at the end of flash last addressed. -/
theorem witness_NvmCommands (i : Instr) (_ : i ∈ [Instr.writePage, .eraseWritePage, .pageBufferClr, .writeFuse]) :
    ∃ (s : State) (as rest : List Answer), Ready s ∧ s.params.legal = true ∧ s.wire.script = as ∧ Acked (phases s i) as rest :=
  ⟨linkedTo { Target.fresh with pageStart := 0xBFFF, pageLen := 1 }
      (acked (phases (linkedTo { Target.fresh with pageStart := 0xBFFF, pageLen := 1 } []) i) ++ []), _, [],
    linkedTo_ready _ _, test_accepts_default_parameters, rfl, by cases i <;> exact acked_acked _ _⟩

/-- The last byte of flash, and the byte after it. -/
theorem witness_StoresLandInThePageBuffer :
    (∃ (addr : Word) (v : Byte) (s : State) (as rest : List Answer) (start len : Nat), Ready s ∧ s.wire.script = as ∧
      Acked (phases s (.stsb addr v)) as rest ∧
      (∀ off ∈ [s.params.nvmCtrlA, s.params.nvmData, s.params.nvmAddrL, s.params.nvmAddrH],
        addr ≠ dataAddr (s.session.profile.nvmctrl + off)) ∧
      nvmPage s.params s.session.profile addr.toNat = some (start, len)) ∧
    (∃ (addr : Word) (v : Byte) (s : State) (as rest : List Answer), Ready s ∧ s.wire.script = as ∧
      Acked (phases s (.stsb addr v)) as rest ∧
      (∀ off ∈ [s.params.nvmCtrlA, s.params.nvmData, s.params.nvmAddrL, s.params.nvmAddrH],
        addr ≠ dataAddr (s.session.profile.nvmctrl + off)) ∧
      nvmPage s.params s.session.profile addr.toNat = none) :=
  ⟨⟨0xBFFF, 0x12, linked (acked (phases (linked []) (.stsb 0xBFFF 0x12)) ++ []), _, [], 0xBFC0, 64, linked_ready _, rfl,
      acked_acked _ _, by decide, by decide⟩,
    ⟨0xC000, 0x12, linked (acked (phases (linked []) (.stsb 0xC000 0x12)) ++ []), _, [], linked_ready _, rfl, acked_acked _ _,
      by decide, by decide⟩⟩

/-- The data register and the two address registers. -/
theorem witness_StoresLandInThePageBuffer_registers (addr : Word) (v : Byte)
    (_ : addr ∈ [(0x1006 : Word), 0x1008, 0x1009]) :
    (∃ (s : State) (as rest : List Answer), Ready s ∧ s.params = Params.default ∧ s.session.profile.nvmctrl = 0x1000 ∧
      s.wire.script = as ∧ Acked (phases s (.stsb addr v)) as rest) ∧
    [Params.default.nvmCtrlA, Params.default.nvmData, Params.default.nvmAddrL, Params.default.nvmAddrH].map
      (fun off => dataAddr (0x1000 + off)) = [0x1000, 0x1006, 0x1008, 0x1009] :=
  ⟨⟨linked (acked (phases (linked []) (.stsb addr v)) ++ []), _, [], linked_ready _, rfl, rfl, rfl, acked_acked _ _⟩,
    by decide⟩

/-- The first page of flash, of 64 bytes. -/
theorem witness_PageWriteReplacesThePage :
    ∃ (s : State) (kind : RegionKind) (start n : Nat) (page : List Byte) (rest : List Micro) (more : List Answer),
      Ready s ∧ s.running ∧ s.params.legal = true ∧ page.length = n ∧ start + n ≤ 65536 ∧ n % unitBytes kind = 0 ∧ 1 ≤ n ∧
      n / unitBytes kind ≤ 256 ∧
      (∀ j, j < n → nvmPage s.params s.session.profile (start + j) = some (start, n) ∧
        ∀ off ∈ [s.params.nvmCtrlA, s.params.nvmData, s.params.nvmAddrL, s.params.nvmAddrH],
          dataAddr (start + j) ≠ dataAddr (s.session.profile.nvmctrl + off)) ∧
      s.ctl.todo = [.cmd .pageBufferClr, .cmd (.stPtr (dataAddr start)), .cmd (.rep (n / unitBytes kind)),
        .cmd (burstStore ⟨kind, ⟨start, n, n⟩⟩ page), .cmd .eraseWritePage] ++ rest ∧
      s.wire.script = List.replicate 1024 .obey ++ more :=
  ⟨busyWith ([.cmd .pageBufferClr, .cmd (.stPtr (dataAddr 0x8000)), .cmd (.rep 32),
      .cmd (burstStore ⟨.flash, ⟨0x8000, 64, 64⟩⟩ (List.replicate 64 0x12)), .cmd .eraseWritePage] ++ [.closePage])
      (List.replicate 1024 .obey ++ []), .flash, 0x8000, 64, List.replicate 64 0x12, [.closePage], [], busyWith_ready _ _,
    busyWith_running _ _, test_accepts_default_parameters, rfl, by decide, by decide, by decide, by decide,
    (by decide : ∀ j, j < 64 → nvmPage Params.default Catalog.default.t16k (0x8000 + j) = some (0x8000, 64) ∧
      ∀ off ∈ [0x00, 0x06, 0x08, 0x09], dataAddr (0x8000 + j) ≠ dataAddr (0x1000 + off)), rfl, rfl⟩

/-- With the chip-erase key and without it. -/
theorem witness_ResetReleaseAppliesTheKeys (erase : Bool) : ∃ (s : State) (es rest : List Answer), Ready s ∧
    s.params.csResetReq ≤ 15 ∧ s.params.resetRelease ≠ s.params.resetAssert ∧ s.target.resetHeld = true ∧
    s.target.keyErase = erase ∧
    List.Forall₂ Echoes es (encode s.params (.stcs s.params.csResetReq s.params.resetRelease)) ∧ s.wire.script = es ++ rest :=
  ⟨linkedTo { Target.fresh with resetHeld := true, keyErase := erase } (echoed (encode Params.default (.stcs 8 0x00)) ++ []), _, [],
    linkedTo_ready _ _, Nat.le_of_ble_eq_true rfl, of_decide_eq_true rfl, rfl, rfl, forall2_echoed _, rfl⟩

/-- Two bytes at the end of the data space; one unit of a burst at its last byte, and at its last word. -/
theorem witness_StoresTouchOnlyTheirBytes :
    (∃ (s : State) (as rest : List Answer) (a w : Word), Ready s ∧ s.wire.script = as ∧ Acked (phases s (.stsw a w)) as rest ∧
      ClearOfRegisters s.params s.session.profile a.toNat 2) ∧
    (∃ (s : State) (as rest : List Answer) (d : List Byte), Ready s ∧ s.wire.script = as ∧
      ClearOfRegisters s.params s.session.profile s.target.ptr.toNat d.length ∧
      d.length = s.target.rep.toNat + 1 ∧ Acked (phases s (.stb d)) as rest) ∧
    (∃ (s : State) (as rest : List Answer) (d : List Byte), Ready s ∧ s.wire.script = as ∧
      ClearOfRegisters s.params s.session.profile s.target.ptr.toNat d.length ∧
      d.length = 2 * (s.target.rep.toNat + 1) ∧ Acked (phases s (.stw d)) as rest) :=
  ⟨⟨linked (acked (phases (linked []) (.stsw 0xFFFE 0xBEEF)) ++ []), _, [], 0xFFFE, 0xBEEF, linked_ready _, rfl, acked_acked _ _,
      by decide, by decide⟩,
    ⟨linkedTo { Target.fresh with ptr := 0xFFFF } (acked (phases (linked []) (.stb [0x12])) ++ []), _, [], [0x12],
      linkedTo_ready _ _, rfl, ⟨by decide, by decide⟩, by decide, acked_acked _ _⟩,
    ⟨linkedTo { Target.fresh with ptr := 0xFFFE } (acked (phases (linked []) (.stw [0x12, 0x34])) ++ []), _, [], [0x12, 0x34],
      linkedTo_ready _ _, rfl, ⟨by decide, by decide⟩, by decide, acked_acked _ _⟩⟩

/-- Each of the four wrong answers, to the last byte of a store's second phase. -/
theorem witness_WrongEchoIsFatal (bad : List Answer) (err : TransportError) (hb : BadEcho Params.default 0x04 bad err) :
    ∃ (i : Instr) (s : State) (done more : List (List Byte)) (pre post : List Byte) (b : Byte) (rest : List Answer), Ready s ∧
      i.wf = true ∧ i ≠ .doubleBreak ∧ phases s i = done ++ (pre ++ b :: post) :: more ∧ BadEcho s.params b bad err ∧
      s.wire.script = acked done ++ echoed pre ++ bad ++ rest :=
  ⟨.stsb 0x1000 0x04, linked (acked [[0x55, 0x44, 0x00, 0x10]] ++ echoed [] ++ bad ++ []), [[0x55, 0x44, 0x00, 0x10]], [], [], [],
    0x04, [], linked_ready _, rfl, nofun, (by decide : phases (linked []) (.stsb 0x1000 0x04) = [[0x55, 0x44, 0x00, 0x10], [0x04]]),
    hb, rfl⟩

theorem witness_BadEcho : (∃ bad, BadEcho Params.default 0x04 bad .echoMismatch) ∧
    (∃ bad, BadEcho Params.default 0x04 bad .echoMissing) ∧ (∃ bad, BadEcho Params.default 0x04 bad .shortWrite) :=
  ⟨⟨_, .different 0x05 (by decide)⟩, ⟨_, .silence⟩, ⟨_, .short⟩⟩

/-- Each of the three wrong answers, after the first phase of a store. -/
theorem witness_MissingAckIsFatal (bad : List Answer) (hb : BadAck Params.default bad) :
    ∃ (i : Instr) (s : State) (done more : List (List Byte)) (phase : List Byte) (rest : List Answer), Ready s ∧ i.wf = true ∧
      awaitsAck i = true ∧ phases s i = done ++ phase :: more ∧ BadAck s.params bad ∧
      s.wire.script = acked done ++ echoed phase ++ bad ++ rest :=
  ⟨.stsb 0x1000 0x04, linked (acked [] ++ echoed [0x55, 0x44, 0x00, 0x10] ++ bad ++ []), [], [[0x04]], [0x55, 0x44, 0x00, 0x10], [],
    linked_ready _, rfl, rfl, (by decide : phases (linked []) (.stsb 0x1000 0x04) = [[0x55, 0x44, 0x00, 0x10], [0x04]]), hb, rfl⟩

theorem witness_BadAck : BadAck Params.default [.bytes [0x41]] ∧ BadAck Params.default [.error] ∧
    BadAck Params.default (List.replicate 30 (.bytes [])) := ⟨.different 0x41 (by decide), .error, .silence⟩

/-- The longest burst of words, with every answer of `receives`, and one byte from a register, in its second attempt or not at
all. -/
theorem witness_ShortReadIsFatal :
    (∀ pieces as, Receives 30 512 pieces as → ∃ (i : Instr) (s : State) (rest : List Answer), Ready s ∧ i.wf = true ∧
      Receives s.params.recvAttempts (responseLen i) pieces as ∧ s.wire.script = echoed (encode s.params i) ++ (as ++ rest)) ∧
    (∃ (i : Instr) (s : State) (pieces : List (List Byte)) (as rest : List Answer), Ready s ∧ i.wf = true ∧
      Receives s.params.recvAttempts (responseLen i) pieces as ∧ s.wire.script = echoed (encode s.params i) ++ (as ++ rest) ∧
      0 < responseLen i ∧ pieces.length = 2 ∧ pieces.flatten.length = responseLen i) ∧
    (∃ (i : Instr) (s : State) (pieces : List (List Byte)) (as rest : List Answer), Ready s ∧ i.wf = true ∧
      Receives s.params.recvAttempts (responseLen i) pieces as ∧ s.wire.script = echoed (encode s.params i) ++ (as ++ rest) ∧
      pieces.flatten.length + 1 = responseLen i) :=
  ⟨fun _ as h => ⟨.ldw 256, linked (echoed (encode Params.default (.ldw 256)) ++ (as ++ [])), [], linked_ready _, rfl, h, rfl⟩,
    ⟨.ldcs 15, linked (echoed (encode Params.default (.ldcs 15)) ++ ([.bytes [], .bytes [0x30]] ++ [])), [[], [0x30]], _, [],
      linked_ready _, rfl,
      ⟨by decide, .inr (by decide), (by decide : 2 ≤ 30), .inl ⟨rfl, .inl rfl⟩⟩, rfl, by decide, rfl, rfl⟩,
    ⟨.ldcs 15, linked (echoed (encode Params.default (.ldcs 15)) ++ ([.error] ++ [])), [], _, [], linked_ready _, rfl,
      ⟨by decide, .inl rfl, Nat.zero_le _, .inr ⟨rfl, by decide, (by decide : 0 < 30)⟩⟩, rfl, rfl⟩⟩

/-- `send` of nothing and of any bytes; `recv` of any number, with any answer of `receives`; their returns. -/
theorem witness_ShortReadIsFatal_operations (bs : List Byte) (n : Nat) (pieces : List (List Byte)) (as : List Answer)
    (h : Receives 30 n pieces as) (m : Micro) :
    (∃ (s : State) (todo : List Micro) (es more : List Answer), Ready s ∧ s.running ∧ s.ctl.todo = .sendBytes bs :: todo ∧
      List.Forall₂ Echoes es bs ∧ s.wire.script = es ++ more) ∧
    (∃ (s : State) (todo : List Micro) (more : List Answer), Ready s ∧ s.running ∧ s.ctl.todo = .recvBytes n :: todo ∧
      Receives s.params.recvAttempts n pieces as ∧ s.wire.script = as ++ more) ∧
    (∃ (s : State) (todo : List Micro), s.running ∧ s.ctl.todo = m :: todo) :=
  ⟨⟨busyWith [.sendBytes bs, .ready] (echoed bs ++ []), _, _, [], busyWith_ready _ _, busyWith_running _ _, rfl, forall2_echoed _,
      rfl⟩,
    ⟨busyWith [.recvBytes n, .received] (as ++ []), _, [], busyWith_ready _ _, busyWith_running _ _, rfl, h, rfl⟩,
    ⟨busyWith [m] [], _, busyWith_running _ _, rfl⟩⟩

theorem witness_SendsOnlyItsBytes :
    (∃ (i : Instr) (s t : State), isLinkInstr i = true ∧ i ≠ .doubleBreak ∧ exec i s = .next t ∧ linkUp t.session = true) ∧
    (∃ (i : Instr) (s t : State), isLinkInstr i = true ∧ i ≠ .doubleBreak ∧ exec i s = .next t ∧ linkUp t.session = false) :=
  ⟨⟨.brk, linked [.bytes [0x00]], _, rfl, nofun, rfl, rfl⟩, ⟨.brk, linked [.error], _, rfl, nofun, rfl, rfl⟩⟩

theorem witness_InterruptionEndsEverything :
    (∃ s : State, s.wire.irq = some 0 ∧ s.ctl.halted = false) ∧
    (∃ (s : State) (i : Instr), s.wire.irq = some 0 ∧ isLinkInstr i = true ∧ i.wf = true ∧ linkUp s.session = true) ∧
    (∃ s t : State, s.running ∧ s.wire.irq = none ∧ step s = .next t ∧ (cutAt s 1).isSome = true ∧
      s.wire.script.length = t.wire.script.length + 1 ∧ t.wire.sent.length = s.wire.sent.length + 1) :=
  ⟨⟨{ State.reset with wire := { State.reset.wire with irq := some 0 } }, rfl, rfl⟩,
    ⟨{ linked [] with wire := { State.reset.wire with irq := some 0 } }, .brk, rfl, rfl, rfl, rfl⟩,
    ⟨busyWith [.cmd .brk] [.bytes [0x00]], _, busyWith_running _ _, rfl, rfl, by decide, rfl, rfl⟩⟩

theorem witness_LinkRefusals : (∃ (i : Instr) (s : State), isLinkInstr i = true ∧ i.wf = true ∧ linkUp s.session = false) ∧
    (∃ r : Nat, 15 < r) ∧ (∃ n : Nat, n = 0 ∨ 256 < n) ∧ (∃ d : List Byte, d = [] ∨ 256 < d.length) ∧
    (∃ d : List Byte, d.length % 2 = 1) ∧ (∃ d : List Byte, d.length % 2 = 0 ∧ 512 < d.length) ∧
    (∃ d : List Byte, d.length ≠ 8) :=
  ⟨⟨.brk, State.reset, rfl, rfl, rfl⟩, ⟨16, by decide⟩, ⟨257, by decide⟩, ⟨[], .inl rfl⟩, ⟨[0], rfl⟩,
    ⟨List.replicate 514 0, by rw [List.length_replicate]; decide⟩, ⟨List.replicate 9 0, by decide⟩⟩

/-- `unlock_erase` on an open session in programming mode is not permitted, `close` is. -/
theorem witness_HostPermissions (ok : Bool) : ∃ (s : State) (r : Request) (rs : List Request), s.running ∧ s.sessionOk = true ∧
    s.ctl.todo = [] ∧ s.ctl.requests = r :: rs ∧ (∀ i, r = .command i → isLinkInstr i = true) ∧
    permits r s.session.linkState = some ok :=
  match ok with
  | false => ⟨asked .progMode [.unlockErase] [], .unlockErase, [], asked_running _ _ _, rfl, rfl, rfl, nofun, rfl⟩
  | true => ⟨asked .progMode [.close] [], .close, [], asked_running _ _ _, rfl, rfl, rfl, nofun, rfl⟩

/-- The poll of `enter_progmode`: five misses, and four misses before a hit. -/
theorem witness_PollIsBounded (q : Poll)
    (hq : q = ⟨0x0B, 0, false, 5, .lockedTimeout⟩ ∨ q = ⟨0x0B, 0, false, 5, .unlockTimeout⟩ ∨ q = ⟨0x0B, 0, false, 5, .urowTimeout⟩) :
    (∃ (s : State) (rest : List Micro) (misses : List Byte) (more : List Answer), Ready s ∧ s.running ∧ q.reg ≤ 15 ∧
      s.ctl.todo = .poll q :: rest ∧ (∀ v ∈ misses, bitSet v q.bit ≠ q.want) ∧ misses.length = q.attempts ∧
      s.wire.script = pollAnswers (encode s.params (.ldcs q.reg)) misses ++ more) ∧
    (∃ (s : State) (rest : List Micro) (misses : List Byte) (more : List Answer) (hit : Byte), Ready s ∧ s.running ∧
      q.reg ≤ 15 ∧ s.ctl.todo = .poll q :: rest ∧ (∀ v ∈ misses, bitSet v q.bit ≠ q.want) ∧ misses.length < q.attempts ∧
      bitSet hit q.bit = q.want ∧ s.wire.script = pollAnswers (encode s.params (.ldcs q.reg)) (misses ++ [hit]) ++ more) := by
  rcases hq with rfl | rfl | rfl
  all_goals
    exact ⟨⟨busyWith [.poll _] (pollAnswers (encode Params.default (.ldcs 0x0B)) [1, 1, 1, 1, 1] ++ []), [], [1, 1, 1, 1, 1], [],
        busyWith_ready _ _, busyWith_running _ _, by decide, rfl, by decide, rfl, rfl⟩,
      ⟨busyWith [.poll _] (pollAnswers (encode Params.default (.ldcs 0x0B)) ([1, 1, 1, 1] ++ [8]) ++ []), [], [1, 1, 1, 1], [], 8,
        busyWith_ready _ _, busyWith_running _ _, by decide, rfl, by decide, by decide, by decide, rfl⟩⟩

/-- V5: a first status of 0x30, and a zero with a second status `w`. -/
theorem witness_InitHandshake (w : Byte) :
    (∃ (s : State) (v : Byte) (rs : List Request) (more : List Answer), s.running ∧ s.wire.irq = none ∧
      1 ≤ s.params.recvAttempts ∧ s.params.legal = true ∧ s.ctl.todo = [] ∧ s.ctl.requests = .initLink :: rs ∧
      s.session.linkState = .cold ∧ s.session.failed = none ∧ s.session.stopBits = 2 ∧ v ≠ 0 ∧
      s.wire.script = echoed (handshakeBytes s.params) ++ .bytes [v] :: more) ∧
    (∃ (s : State) (x y : Byte) (rs : List Request) (more : List Answer), s.running ∧ s.wire.irq = none ∧
      1 ≤ s.params.recvAttempts ∧ s.params.legal = true ∧ s.ctl.todo = [] ∧ s.ctl.requests = .initLink :: rs ∧
      s.session.linkState = .cold ∧ s.session.failed = none ∧ s.session.stopBits = 2 ∧
      s.wire.script = echoed (handshakeBytes s.params) ++ .bytes [0] :: .bytes [x, y] ::
        (echoed (handshakeBytes s.params) ++ .bytes [w] :: more)) :=
  ⟨⟨asked .cold [.initLink] (echoed (handshakeBytes Params.default) ++ [.bytes [0x30]]), 0x30, [], [], asked_running _ _ _, rfl,
      Nat.le_of_ble_eq_true rfl, test_accepts_default_parameters, rfl, rfl, rfl, rfl, rfl, by decide, rfl⟩,
    ⟨asked .cold [.initLink] (echoed (handshakeBytes Params.default) ++ .bytes [0] :: .bytes [0, 0] ::
        (echoed (handshakeBytes Params.default) ++ [.bytes [w]])), 0, 0, [], [], asked_running _ _ _, rfl,
      Nat.le_of_ble_eq_true rfl, test_accepts_default_parameters, rfl, rfl, rfl, rfl, rfl, rfl⟩⟩

theorem witness_ChipEraseOkOnlyByUnlock :
    (∃ s t : State, step s = .next t ∧ s.session.chipEraseOk = false ∧ t.session.chipEraseOk = true) ∧
    (∃ s t : State, step s = .next t ∧ .unlocked ∉ s.ctl.todo ∧ .unlocked ∈ t.ctl.todo) :=
  ⟨⟨busyWith [.unlocked] [], _, rfl, rfl, rfl⟩, ⟨asked .synced [.unlockErase] [], _, rfl, by decide, by decide⟩⟩

/-- The starts of the session's operations, in each link state that permits them. -/
theorem witness_ChipEraseOkOnlyByUnlock_starts (l : LinkState) :
    (∀ r : Request, r = .unlockErase ∨ r = .enterProgmode ∨ r = .leaveProgmode → ∃ (s : State) (rs : List Request), s.running ∧
      s.ctl.todo = [] ∧ s.session.failed = none ∧ s.session.linkState = l ∧ s.ctl.requests = r :: rs) ∧
    (∃ (s : State) (rs : List Request) (data : List Byte), s.running ∧ s.ctl.todo = [] ∧ s.session.failed = none ∧
      s.session.linkState = l ∧ s.ctl.requests = .userrowWrite data :: rs ∧ data.length = s.params.urowLen ∧
      1 ≤ data.length ∧ data.length ≤ 256) :=
  ⟨fun r _ => ⟨asked l [r] [], [], asked_running _ _ _, rfl, rfl, rfl, rfl⟩,
    ⟨asked l [.userrowWrite (List.replicate 32 0x55)] [], [], _, asked_running _ _ _, rfl, rfl, rfl, rfl, rfl, by decide, by decide⟩⟩

/-- The tests and returns, a status bit 0 and 1 (bit 3 of `0x08` and of `0x00`). -/
theorem witness_ChipEraseOkOnlyByUnlock_tests (m : Micro)
    (_ : m ∈ [Micro.keyTest 3, .progTest, .progConfirm, .unlocked, .left, .rowDone]) (v : Byte) :
    (∃ (s : State) (rest : List Micro), s.running ∧ s.ctl.todo = m :: rest ∧ s.wire.resp = [v]) ∧
    bitSet 0x08 3 = true ∧ bitSet 0x00 3 = false ∧ Params.default.ssNvmProg = 3 :=
  ⟨⟨(busyWith [m] []).setResp [v], [], ⟨rfl, nofun⟩, rfl, rfl⟩, by decide⟩

/-- 100 polls that find flash busy; 99 of them before one that finds the error bit, or nothing, set. -/
theorem witness_NvmWaitIsBounded :
    (∃ (s : State) (rest : List Micro) (busy : List Byte) (more : List Answer), Ready s ∧ s.running ∧
      s.ctl.todo = .nvmWait :: rest ∧
      (∀ v ∈ busy, bitSet v s.params.nstWriteError = false ∧
        (bitSet v s.params.nstFlashBusy = true ∨ bitSet v s.params.nstEepromBusy = true)) ∧
      busy.length = s.params.nvmReadyAttempts ∧
      s.wire.script =
        pollAnswers (encode s.params (.ldsb (dataAddr (s.session.profile.nvmctrl + s.params.nvmStatus)))) busy ++ more) ∧
    (∀ last : Byte, ∃ (s : State) (rest : List Micro) (busy : List Byte) (more : List Answer), Ready s ∧ s.running ∧
      s.ctl.todo = .nvmWait :: rest ∧ rest = [.ready] ∧
      (∀ v ∈ busy, bitSet v s.params.nstWriteError = false ∧
        (bitSet v s.params.nstFlashBusy = true ∨ bitSet v s.params.nstEepromBusy = true)) ∧
      busy.length + 1 = s.params.nvmReadyAttempts ∧
      s.wire.script = pollAnswers (encode s.params (.ldsb (dataAddr (s.session.profile.nvmctrl + s.params.nvmStatus))))
        (busy ++ [last]) ++ more) :=
  ⟨⟨busyWith [.nvmWait] (pollAnswers (encode Params.default (.ldsb 0x1002)) (List.replicate 100 1) ++ []), [], _, [],
      busyWith_ready _ _, busyWith_running _ _, rfl, fun v hv => by rw [List.eq_of_mem_replicate hv]; decide,
      List.length_replicate, rfl⟩,
    fun last => ⟨busyWith [.nvmWait, .ready] (pollAnswers (encode Params.default (.ldsb 0x1002)) (List.replicate 99 1 ++ [last]) ++ []),
      _,
      _, [], busyWith_ready _ _, busyWith_running _ _, rfl, rfl, fun v hv => by
        rw [List.eq_of_mem_replicate hv]
        exact (by decide : bitSet 1 2 = false ∧ (bitSet 1 0 = true ∨ bitSet 1 1 = true)),
      congrArg (· + 1) List.length_replicate, rfl⟩⟩

/-- The profile of the states below is legal. -/
theorem legal_t16k : State.reset.session.profile.legal State.reset.params.fuseCount = true := by decide

/-- The NVM controller at page `p` of a region of one page of 4 bytes, with this source buffer. -/
def pageAt (k : RegionKind) (p : Nat) (src : List Byte) : Nvm :=
  { Nvm.fresh with region := ⟨k, ⟨0x8000, 4, 4⟩⟩, p := p, src := src }

theorem pageAt_count (k : RegionKind) (p : Nat) (src : List Byte) : pageCount (pageAt k p src).region.dims = 1 := by
  exact (by decide : pageCount ⟨0x8000, 4, 4⟩ = 1)
theorem pageAt_with_data (k : RegionKind) : ∃ b ∈ (pageAt k 0 [0x12]).page, b ≠ 0xFF := by cases k <;> decide
theorem pageAt_without_data (k : RegionKind) : ∀ b ∈ (pageAt k 0 [0xFF]).page, b = 0xFF := by cases k <;> decide

/-- For either region: the start; the last page, with data and without; no page left; a page done; a source that is all `0xFF`,
past its last page. -/
theorem witness_WriteSkipsEmptyPages (k : RegionKind) :
    (∃ (s : State) (src : List Byte) (rs : List Request), s.running ∧ s.ctl.todo = [] ∧
      s.ctl.requests = .write k src :: rs ∧ s.session.linkState = .progMode ∧ s.session.failed = none ∧
      s.session.profile.legal s.params.fuseCount = true) ∧
    (∃ (s : State) (rest : List Micro), s.running ∧ s.nvm.region.kind = k ∧ s.ctl.todo = .writePage :: rest ∧
      s.nvm.p + 1 = pageCount s.nvm.region.dims ∧ ∃ b ∈ s.nvm.page, b ≠ 0xFF) ∧
    (∃ (s : State) (rest : List Micro), s.running ∧ s.nvm.region.kind = k ∧ s.ctl.todo = .writePage :: rest ∧
      s.nvm.p + 1 = pageCount s.nvm.region.dims ∧ ∀ b ∈ s.nvm.page, b = 0xFF) ∧
    (∃ (s : State) (rest : List Micro), s.running ∧ s.ctl.todo = .writePage :: rest ∧ pageCount s.nvm.region.dims = s.nvm.p) ∧
    (∃ (s : State) (rest : List Micro), s.running ∧ s.ctl.todo = .writeDone :: rest) ∧
    (∃ s : State, s.running ∧ s.ctl.todo = [.writePage] ∧ (∀ b ∈ s.nvm.src, b = 0xFF) ∧
      s.nvm.p = pageCount s.nvm.region.dims ∧ s.wire.irq = none) :=
  ⟨⟨asked .progMode [.write k [0x12]] [], _, [], asked_running _ _ _, rfl, rfl, rfl, rfl, by cases k <;> decide⟩,
    ⟨{ busyWith [.writePage] [] with nvm := pageAt k 0 [0x12] }, [], ⟨rfl, nofun⟩, rfl, rfl, (pageAt_count k 0 _).symm, pageAt_with_data k⟩,
    ⟨{ busyWith [.writePage] [] with nvm := pageAt k 0 [0xFF] }, [], ⟨rfl, nofun⟩, rfl, rfl, (pageAt_count k 0 _).symm, pageAt_without_data k⟩,
    ⟨{ busyWith [.writePage] [] with nvm := pageAt k 1 [] }, [], ⟨rfl, nofun⟩, rfl, pageAt_count k 1 _⟩,
    ⟨busyWith [.writeDone] [], [], busyWith_running _ _, rfl⟩,
    ⟨{ busyWith [.writePage] [] with nvm := pageAt k 1 [0xFF] }, ⟨rfl, nofun⟩, rfl, by cases k <;> decide, by cases k <;> decide,
      rfl⟩⟩

/-- For either region: the starts; the last page, with data and without, and no page left; P5: a page that is equal, and one that
differs in its last byte. -/
theorem witness_VerifyReportsTheFirstMismatch (k : RegionKind) :
    (∀ r : Request, r = .verify k [0x12] ∨ r = .read k → ∃ (s : State) (rs : List Request), s.running ∧ s.ctl.todo = [] ∧
      s.session.linkState = .progMode ∧ s.session.failed = none ∧ s.session.profile.legal s.params.fuseCount = true ∧
      s.ctl.requests = r :: rs) ∧
    (∀ m : Micro, m = .verifyPage ∨ m = .readPage →
      (∃ (s : State) (rest : List Micro), s.running ∧ s.nvm.region.kind = k ∧ s.ctl.todo = m :: rest ∧
        s.nvm.p + 1 = pageCount s.nvm.region.dims ∧ ∃ b ∈ s.nvm.page, b ≠ 0xFF) ∧
      (∃ (s : State) (rest : List Micro), s.running ∧ s.nvm.region.kind = k ∧ s.ctl.todo = m :: rest ∧
        s.nvm.p + 1 = pageCount s.nvm.region.dims ∧ ∀ b ∈ s.nvm.page, b = 0xFF) ∧
      (∃ (s : State) (rest : List Micro), s.running ∧ s.ctl.todo = m :: rest ∧ pageCount s.nvm.region.dims = s.nvm.p)) ∧
    (∃ (s : State) (rest : List Micro), s.running ∧ s.ctl.todo = .compare :: rest ∧ s.wire.resp = s.nvm.page) ∧
    (∃ (s : State) (rest : List Micro), s.running ∧ s.ctl.todo = .compare :: rest ∧
      s.wire.resp.length = s.nvm.page.length ∧ s.wire.resp ≠ s.nvm.page) ∧
    (∃ (s : State) (rest : List Micro), s.running ∧ s.ctl.todo = .readStore :: rest ∧ s.wire.resp.length = 4) :=
  ⟨fun r _ => ⟨asked .progMode [r] [], [], asked_running _ _ _, rfl, rfl, rfl, legal_t16k, rfl⟩,
    fun m _ => ⟨⟨{ busyWith [m] [] with nvm := pageAt k 0 [0x12] }, [], ⟨rfl, nofun⟩, rfl, rfl, (pageAt_count k 0 _).symm, pageAt_with_data k⟩,
      ⟨{ busyWith [m] [] with nvm := pageAt k 0 [0xFF] }, [], ⟨rfl, nofun⟩, rfl, rfl, (pageAt_count k 0 _).symm, pageAt_without_data k⟩,
      ⟨{ busyWith [m] [] with nvm := pageAt k 1 [] }, [], ⟨rfl, nofun⟩, rfl, pageAt_count k 1 _⟩⟩,
    ⟨{ (busyWith [.compare] []).setResp [1, 2, 3, 4] with nvm := pageAt k 0 [1, 2, 3, 4] }, [], ⟨rfl, nofun⟩, rfl,
      by cases k <;> decide⟩,
    ⟨{ (busyWith [.compare] []).setResp [1, 2, 3, 5] with nvm := pageAt k 0 [1, 2, 3, 4] }, [], ⟨rfl, nofun⟩, rfl,
      by cases k <;> decide, by cases k <;> decide⟩,
    ⟨(busyWith [.readStore] []).setResp [1, 2, 3, 4], [], ⟨rfl, nofun⟩, rfl, rfl⟩⟩

/-- The last fuse; `witness_starts` with fuse 8 and fuse 9 meets the clauses of the starts. -/
theorem witness_FuseWriteComparesFirst (old : Byte) (m : Micro)
    (_ : m = .fuseDone ∨ m = .fuseTest 8 0x02 ∨ m = .fuseVerify 8 0x02) :
    ∃ (s : State) (rest : List Micro), s.running ∧ s.wire.resp = [old] ∧ s.ctl.todo = m :: rest :=
  ⟨(busyWith [m] []).setResp [old], [], ⟨rfl, nofun⟩, rfl, rfl⟩

/-- The construction of a session from a cold and from a closed one, at the last rate of the set. -/
theorem witness_ResetIsConsistent (l : LinkState) (hl : l = .cold ∨ l = .closed) :
    ∃ (s : State) (part : PartCode) (baud verbosity : Nat) (rs : List Request), s.running ∧ s.ctl.todo = [] ∧
      s.ctl.requests = .newSession part baud verbosity :: rs ∧ (s.session.linkState = .cold ∨ s.session.linkState = .closed) ∧
      baud ∈ Config.baudSet ∧ (s.params.catalog.entry part).legal s.params.fuseCount = true :=
  ⟨asked l [.newSession .t16k 230400 1] [], .t16k, 230400, 1, [], asked_running _ _ _, rfl, rfl, hl, by decide,
    (by decide : Catalog.default.t16k.legal 9 = true)⟩

/-- `MemoriesKept`, `CodecKept`, `SessionKept`: one state meets all the invariants, and steps. -/
theorem witness_Kept : ∃ s t : State, s.memoriesOk = true ∧ s.imageOk = true ∧ s.cursorsOk = true ∧ s.sessionOk = true ∧
    s.codec.range ≠ none ∧ step s = .next t :=
  ⟨{ busyWith [.left] [] with codec := { Codec.fresh with img := [(65535, 0x12)], range := some ⟨65535, 65535⟩ } }, _, by decide,
    by decide, by decide, by decide, by decide, rfl⟩

end Sys2Proof.Tests
end

section
/-! Proofs of the statements about the encodings (spec/30_encoding.md): the checksum of a line, and the records of an
extended address. -/

namespace Sys2Proof

/-! ## The checksum (R103) -/

/-- A sum that is a multiple of 256 has the checksum `0x00`: the second `% 256` of `chk_toNat` brings 256 back to 0. -/
theorem chk_of_mod_eq_zero {sum : Nat} (h : sum % 256 = 0) : chk sum = 0x00 := by
  apply BitVec.eq_of_toNat_eq
  rw [chk_toNat, h]
  rfl

/-- The checksum is the one byte that brings a sum to 0 mod 256. -/
theorem eq_chk_iff (cc : Byte) (sum : Nat) : cc = chk sum ↔ (sum + cc.toNat) % 256 = 0 := by
  have hcc : cc.toNat < 256 := cc.isLt
  rw [← BitVec.toNat_inj, chk_toNat]
  omega

/-- Settles O5: `chk_toNat` is the formula; the law of the line is `eq_chk_iff` at the line's sum. -/
theorem checksumLaw : Obligations.ChecksumLaw :=
  ⟨chk_toNat, fun _ => chk_of_mod_eq_zero, fun bb aaaa rr dd cc => eq_chk_iff cc (lineSum bb aaaa rr dd)⟩

end Sys2Proof

namespace Sys2Proof.Machine

/-! ## Extended addresses (R106, R150, R152) -/

/-- Taking a `FormatError` ends the operation, clears the codec and leaves everything else (R28, R314). -/
theorem takeError_format_exit (e : FormatError) (s : State) : FormatExit (.format e) s (takeError (.format e) s) where
  ended := takeError_todo _ s
  result := takeError_result _ s
  codec := rfl
  session := rfl
  nvm := rfl
  target := rfl
  wire := rfl
  params := takeError_params _ s
  requests := rfl

theorem exec_esa_eq_extRecord (aaaa : Word) (dd : List Byte) (s : State) :
    exec (.esa aaaa dd) s = .next (extRecord 16 dd s) := rfl

theorem exec_ela_eq_extRecord (aaaa : Word) (dd : List Byte) (s : State) :
    exec (.ela aaaa dd) s = .next (extRecord 65536 dd s) := rfl

/-- Only two data bytes have a value (R106). -/
theorem extValue_eq_none {dd : List Byte} (h : dd.length ≠ 2) : extValue dd = none := by
  match dd with
  | [] | [_] | _ :: _ :: _ :: _ => rfl
  | [_, _] => exact absurd rfl h

theorem extRecord_pair (scale : Nat) (h l : Byte) (s : State) :
    extRecord scale [h, l] s =
      s.setCodec { s.codec with offset := BitVec.ofNat 32 ((256 * h.toNat + l.toNat) * scale) } := rfl

theorem extRecord_of_length_ne {dd : List Byte} (h : dd.length ≠ 2) (scale : Nat) (s : State) :
    extRecord scale dd s = takeError (.format (.extLength s.codec.pos)) s := by
  unfold extRecord
  rw [extValue_eq_none h]

/-- A value of two bytes, scaled by 65536 at most, fits the 32 bits of the offset: nothing is cut off. -/
theorem extOffset_toNat {scale : Nat} (hs : scale ≤ 65536) (h l : Byte) :
    (BitVec.ofNat 32 ((256 * h.toNat + l.toNat) * scale)).toNat = (256 * h.toNat + l.toNat) * scale := by
  have hh : h.toNat < 256 := h.isLt
  have hl : l.toNat < 256 := l.isLt
  have hfits : (256 * h.toNat + l.toNat) * scale ≤ 65535 * 65536 := Nat.mul_le_mul (by omega) hs
  rw [BitVec.toNat_ofNat, Nat.mod_eq_of_lt (by omega)]

/-- Two data bytes set the offset, exactly, and nothing else. -/
theorem extRecord_pair_sets_offset {scale : Nat} (hs : scale ≤ 65536) (h l : Byte) (s : State) :
    (extRecord scale [h, l] s).codec.offset.toNat = (256 * h.toNat + l.toNat) * scale ∧
      extRecord scale [h, l] s =
        { s with codec := { s.codec with offset := (extRecord scale [h, l] s).codec.offset } } := by
  rw [extRecord_pair]
  exact ⟨extOffset_toNat hs h l, rfl⟩

/-- Any other count of data bytes is `FormatError(ExtLength)` at the record's position. -/
theorem extRecord_exit {dd : List Byte} (h : dd.length ≠ 2) (scale : Nat) (s : State) :
    FormatExit (.format (.extLength s.codec.pos)) s (extRecord scale dd s) := by
  rw [extRecord_of_length_ne h]
  exact takeError_format_exit _ s

/-- Settles O10: `ESA` and `ELA` are `extRecord` at the scales 16 and 65536. -/
theorem extendedAddressSetsTheOffset : Obligations.ExtendedAddressSetsTheOffset := by
  intro aaaa s
  constructor
  · intro h l
    exact ⟨⟨_, exec_esa_eq_extRecord aaaa [h, l] s, extRecord_pair_sets_offset (by decide) h l s⟩,
      ⟨_, exec_ela_eq_extRecord aaaa [h, l] s, extRecord_pair_sets_offset (by decide) h l s⟩⟩
  · intro dd hdd
    exact ⟨⟨_, exec_esa_eq_extRecord aaaa dd s, extRecord_exit hdd 16 s⟩,
      ⟨_, exec_ela_eq_extRecord aaaa dd s, extRecord_exit hdd 65536 s⟩⟩

end Sys2Proof.Machine
end

section
/-! Proofs of the statements about the HEX records (spec/40_hex_records.md): what `DATA` stores and how it moves the range,
`SSA`, and the records of a reserved type. -/

namespace Sys2Proof.Machine

/-! ## `DATA`: the bytes (R145, R146) -/

/-- The one check of a `DATA` record decides between storing all of its bytes and none. -/
theorem exec_data (aaaa : Word) (dd : List Byte) (s : State) :
    exec (.data aaaa dd) s = .next
      (if s.params.imgCap < recordBase s.codec.offset aaaa + dd.length then
        takeError (.format (.overrun s.codec.pos (recordBase s.codec.offset aaaa))) s
      else s.setCodec (s.codec.store (recordBase s.codec.offset aaaa) dd)) := rfl

theorem exec_data_inside {aaaa : Word} {dd : List Byte} {s : State}
    (h : s.codec.offset.toNat + aaaa.toNat + dd.length ≤ s.params.imgCap) :
    exec (.data aaaa dd) s = .next (s.setCodec (s.codec.store (s.codec.offset.toNat + aaaa.toNat) dd)) := by
  rw [exec_data, recordBase, if_neg (Nat.not_lt.2 h)]

theorem exec_data_overrun {aaaa : Word} {dd : List Byte} {s : State}
    (h : s.params.imgCap < s.codec.offset.toNat + aaaa.toNat + dd.length) :
    exec (.data aaaa dd) s =
      .next (takeError (.format (.overrun s.codec.pos (s.codec.offset.toNat + aaaa.toNat))) s) := by
  rw [exec_data, recordBase, if_pos h]

theorem Codec.imgByte_store (c : Codec) (base : Nat) (dd : List Byte) (x : Nat) :
    (c.store base dd).imgByte x =
      if base ≤ x ∧ x < base + dd.length then dd.getD (x - base) Config.sentinel else c.imgByte x :=
  Codec.imgByte_write c base x dd

/-- Settles O7: inside the buffer a record is `Codec.store`, beyond it the taken error. -/
theorem dataStoresItsBytes : Obligations.DataStoresItsBytes := by
  intro aaaa dd s
  constructor
  · intro hinside
    exact ⟨_, exec_data_inside hinside, Codec.imgByte_store s.codec _ dd, rfl⟩
  · intro hover
    exact ⟨_, exec_data_overrun hover, takeError_format_exit _ s⟩

/-! ## `DATA`: the range (R146, R147)

`Tracks r P r'` says what noting a set of addresses may do to a range. It composes over a union of sets, so a record's bytes
are followed one at a time. -/

/-- `r'` is `r` after the addresses of `P` were noted: `none` while there is nothing in it, else with the least and the
greatest of the old ends and the addresses. -/
structure Tracks (r : Option Range) (P : Nat → Prop) (r' : Option Range) : Prop where
  none_iff : r' = none ↔ r = none ∧ ∀ x, ¬ P x
  covers : ∀ {lo hi}, r' = some ⟨lo, hi⟩ → ∀ x, P x → lo ≤ x ∧ x ≤ hi
  grows : ∀ {lo hi}, r' = some ⟨lo, hi⟩ → ∀ lo0 hi0, r = some ⟨lo0, hi0⟩ → lo ≤ lo0 ∧ hi0 ≤ hi
  low_from : ∀ {lo hi}, r' = some ⟨lo, hi⟩ → P lo ∨ ∃ hi0, r = some ⟨lo, hi0⟩
  high_from : ∀ {lo hi}, r' = some ⟨lo, hi⟩ → P hi ∨ ∃ lo0, r = some ⟨lo0, hi⟩

theorem Tracks.of_empty {P : Nat → Prop} (h : ∀ x, ¬ P x) (r : Option Range) : Tracks r P r where
  none_iff := ⟨fun hr => ⟨hr, h⟩, And.left⟩
  covers _ x hx := absurd hx (h x)
  grows hr lo0 hi0 h0 := by
    obtain ⟨rfl, rfl⟩ : _ = lo0 ∧ _ = hi0 := by simpa [hr] using h0
    exact ⟨le_rfl, le_rfl⟩
  low_from hr := .inr ⟨_, hr⟩
  high_from hr := .inr ⟨_, hr⟩

theorem tracks_noteAddr (r : Option Range) (a : Nat) : Tracks r (· = a) (noteAddr r a) := by
  cases r with
  | none =>
    refine ⟨by simp [noteAddr], ?_, nofun, ?_, ?_⟩ <;> rintro _ _ ⟨⟩
    · rintro x rfl
      exact ⟨le_rfl, le_rfl⟩
    · exact .inl rfl
    · exact .inl rfl
  | some r0 =>
    refine ⟨by simp [noteAddr], ?_, ?_, ?_, ?_⟩ <;> rintro _ _ ⟨⟩
    · rintro x rfl
      exact ⟨min_le_right _ _, le_max_right _ _⟩
    · rintro lo0 hi0 ⟨⟩
      exact ⟨min_le_left _ _, le_max_left _ _⟩
    · exact (min_choice r0.low a).symm.imp_right fun hlow => ⟨r0.high, by rw [hlow]⟩
    · exact (max_choice r0.high a).symm.imp_right fun hhigh => ⟨r0.low, by rw [hhigh]⟩

/-- A range that was there, or an address to note, leaves a range. -/
theorem Tracks.exists_some {r r' : Option Range} {P : Nat → Prop} (h : Tracks r P r') (hr : r ≠ none ∨ ∃ x, P x) :
    ∃ lo hi, r' = some ⟨lo, hi⟩ := by
  match r' with
  | some ⟨lo, hi⟩ => exact ⟨lo, hi, rfl⟩
  | none =>
    obtain ⟨hnone, hempty⟩ := h.none_iff.1 rfl
    rcases hr with hr | ⟨x, hx⟩
    · exact absurd hnone hr
    · exact absurd hx (hempty x)

theorem Tracks.trans {r r1 r2 : Option Range} {P Q : Nat → Prop} (hP : Tracks r P r1) (hQ : Tracks r1 Q r2) :
    Tracks r (fun x => P x ∨ Q x) r2 where
  none_iff := by rw [hQ.none_iff, hP.none_iff, and_assoc]; simp only [not_or, forall_and]
  covers h2 x hx := by
    rcases hx with hx | hx
    · obtain ⟨lo1, hi1, h1⟩ := hP.exists_some (.inr ⟨x, hx⟩)
      have hin := hP.covers h1 x hx
      have hout := hQ.grows h2 lo1 hi1 h1
      omega
    · exact hQ.covers h2 x hx
  grows h2 lo0 hi0 h0 := by
    obtain ⟨lo1, hi1, h1⟩ := hP.exists_some (.inl (by simp [h0]))
    have hin := hP.grows h1 lo0 hi0 h0
    have hout := hQ.grows h2 lo1 hi1 h1
    omega
  low_from h2 := by
    rcases hQ.low_from h2 with hq | ⟨_, h1⟩
    · exact .inl (.inr hq)
    · exact (hP.low_from h1).imp_left .inl
  high_from h2 := by
    rcases hQ.high_from h2 with hq | ⟨_, h1⟩
    · exact .inl (.inr hq)
    · exact (hP.high_from h1).imp_left .inl

/-- The addresses at which bytes stored from `base` up differ from `0xFF`. -/
def Marked (base : Nat) (dd : List Byte) (x : Nat) : Prop :=
  ∃ i, i < dd.length ∧ dd.getD i 0xFF ≠ 0xFF ∧ x = base + i

theorem not_marked_nil (base x : Nat) : ¬ Marked base [] x := by
  rintro ⟨i, hi, -⟩
  exact absurd hi (Nat.not_lt_zero i)

theorem marked_cons (base : Nat) (b : Byte) (bs : List Byte) (x : Nat) :
    Marked base (b :: bs) x ↔ (b ≠ 0xFF ∧ x = base) ∨ Marked (base + 1) bs x := by
  constructor
  · rintro ⟨i, hi, hne, rfl⟩
    cases i with
    | zero => exact .inl ⟨hne, rfl⟩
    | succ i => exact .inr ⟨i, Nat.lt_of_succ_lt_succ hi, hne, by omega⟩
  · rintro (⟨hne, rfl⟩ | ⟨i, hi, hne, rfl⟩)
    · exact ⟨0, Nat.succ_pos _, hne, rfl⟩
    · exact ⟨i + 1, Nat.succ_lt_succ hi, hne, by omega⟩

/-- One byte of a record: `0xFF` leaves the range, any other byte is noted. -/
theorem tracks_noteByte (r : Option Range) (base : Nat) (b : Byte) :
    Tracks r (fun x => b ≠ 0xFF ∧ x = base) (if b = Config.sentinel then r else noteAddr r base) := by
  split
  next hb => exact Tracks.of_empty (fun x hx => hx.1 hb) r
  next hb =>
    have hb' : b ≠ 0xFF := hb
    simpa only [hb', ne_eq, not_false_eq_true, true_and] using tracks_noteAddr r base

theorem tracks_noteBytes (r : Option Range) (base : Nat) (dd : List Byte) :
    Tracks r (Marked base dd) (noteBytes r base dd) := by
  induction dd generalizing r base with
  | nil => exact Tracks.of_empty (not_marked_nil base) r
  | cons b bs ih =>
    rw [funext fun x => propext (marked_cons base b bs x)]
    exact (tracks_noteByte r base b).trans (ih _ _)

/-- Settles O8: the range a record leaves is `noteBytes` of its bytes, which tracks the marked addresses. -/
theorem dataTracksTheRange : Obligations.DataTracksTheRange := by
  intro aaaa dd s t hinside hexec
  rw [exec_data_inside hinside] at hexec
  cases hexec
  have htracks := tracks_noteBytes s.codec.range (s.codec.offset.toNat + aaaa.toNat) dd
  exact ⟨htracks.none_iff,
    fun _ _ hr => ⟨htracks.covers hr, htracks.grows hr, htracks.low_from hr, htracks.high_from hr⟩⟩

/-! ## A step of `parse` at a record (R140, R141, R155) -/

/-- `s` is at a line of the file it is parsing, with no `EOF` seen and no interruption on its way. -/
structure AtRecord (s : State) (rest : List Micro) : Prop where
  running : s.running
  calm : s.wire.irq = none
  todo : s.ctl.todo = .records :: rest
  eofSeen : s.codec.eofSeen = false
  inFile : s.codec.pos < s.codec.file.length

theorem AtRecord.step_eq {s : State} {rest : List Micro} (h : AtRecord s rest) : step s = runRecord s := by
  have hmicro : step s = runRecords (codecTick (s.setTodo rest)) := step_micro h.running h.todo
  have hcalm : (s.setTodo rest).wire.irq = none := h.calm
  have hmore : ¬ (s.setTodo rest).codec.file.length ≤ (s.setTodo rest).codec.pos := Nat.not_le.2 h.inFile
  rw [hmicro, codecTick_of_none hcalm, runRecords, if_neg (by simp [h.eofSeen]), if_neg hmore]
  exact congrArg runRecord (setTodo_setTodo h.todo rest)

/-- A line that passes its checks is executed, and the cursor moves on. -/
theorem AtRecord.step_ok {s t : State} {rest : List Micro} {r : HexRecord} (h : AtRecord s rest)
    (hr : decodeRecord (lineAt s.codec.file s.codec.pos) = .ok r)
    (ht : exec (Instr.ofRecord r) (s.setCodec { s.codec with record := r }) = .next t) :
    step s = .next (advancePos t) := by
  rw [h.step_eq, runRecord_ok hr ht]

/-- A line that fails a check is never executed. -/
theorem AtRecord.step_error {s : State} {rest : List Micro} {e : LineFault} (h : AtRecord s rest)
    (he : decodeRecord (lineAt s.codec.file s.codec.pos) = .error e) :
    step s = .next (takeError (.format (lineError s.codec.pos e)) s) := by
  rw [h.step_eq, runRecord, he]

/-! ## `SSA` and the reserved types (R104, R153, R154) -/

theorem exec_ssa (aaaa : Word) (dd : List Byte) (s : State) : exec (.ssa aaaa dd) s = .next s := rfl

theorem exec_hexReserved (rr : Byte) (aaaa : Word) (dd : List Byte) (s : State) :
    exec (.hexReserved rr aaaa dd) s = .next (takeError (.format (.recordType s.codec.pos rr)) s) := rfl

theorem ofRecord_of_type_03 {r : HexRecord} (h : r.rr = 0x03) : Instr.ofRecord r = .ssa r.aaaa r.dd := by
  simp [Instr.ofRecord, h]

theorem ofRecord_of_reserved {r : HexRecord} (h : 5 ≤ r.rr.toNat) :
    Instr.ofRecord r = .hexReserved r.rr r.aaaa r.dd := by
  have hne : ∀ n : Byte, n.toNat < 5 → r.rr ≠ n := by
    rintro n hn rfl
    omega
  rw [Instr.ofRecord, if_neg (hne _ (by decide)), if_neg (hne _ (by decide)), if_neg (hne _ (by decide)),
    if_neg (hne _ (by decide)), if_neg (hne _ (by decide))]

/-- Settles O11: the step of `parse` latches the record, and `SSA` hands it on to the cursor as it is. -/
theorem ssaChangesNothing : Obligations.SsaChangesNothing := by
  refine ⟨exec_ssa, fun s r rest hrun hcalm htodo heof hpos hr hssa => ?_⟩
  have hat : AtRecord s rest := ⟨hrun, hcalm, htodo, heof, hpos⟩
  have hexec := exec_ssa r.aaaa r.dd (s.setCodec { s.codec with record := r })
  rw [← ofRecord_of_type_03 hssa] at hexec
  exact hat.step_ok hr hexec

/-- Settles O12: a reserved type takes its error in `exec`, a failed check takes its own before `exec` is reached. -/
theorem reservedTypeIsAFormatError : Obligations.ReservedTypeIsAFormatError := by
  refine ⟨fun rr aaaa dd s => ⟨_, exec_hexReserved rr aaaa dd s, takeError_format_exit _ s⟩,
    fun s rest hrun hcalm htodo heof hpos => ?_⟩
  have hat : AtRecord s rest := ⟨hrun, hcalm, htodo, heof, hpos⟩
  constructor
  · intro r hr hreserved
    have hexec := exec_hexReserved r.rr r.aaaa r.dd (s.setCodec { s.codec with record := r })
    rw [← ofRecord_of_reserved hreserved] at hexec
    exact ⟨_, hat.step_ok hr hexec, takeError_todo _ _, takeError_result _ _⟩
  · intro c st hbad
    exact ⟨_, hat.step_error hbad, takeError_todo _ s, takeError_result _ s⟩

end Sys2Proof.Machine
end

section
/-! Proofs of the statements about the operations of the codec (spec/41_hex_operations.md): `merge`, from its request to its
overlap test. -/

namespace Sys2Proof.Machine

/-! ## The ranges (R179, R180) -/

/-- The four comparisons of R180 say that the ranges have an address in common: ranges that do have either an end of the first
inside the second, or an end of the second inside the first. -/
theorem rangesOverlap_some_iff {a b : Range} (ha : a.low ≤ a.high) (hb : b.low ≤ b.high) :
    rangesOverlap (some a) (some b) = true ↔ a.low ≤ b.high ∧ b.low ≤ a.high := by
  simp only [rangesOverlap, Bool.or_eq_true, Bool.and_eq_true, decide_eq_true_eq]
  omega

@[simp] theorem rangesOverlap_none_left (r : Option Range) : rangesOverlap none r = false := rfl

@[simp] theorem rangesOverlap_none_right (r : Option Range) : rangesOverlap r none = false := by cases r <;> rfl

@[simp] theorem rangeUnion_none_left (r : Option Range) : rangeUnion none r = r := rfl

@[simp] theorem rangeUnion_none_right (r : Option Range) : rangeUnion r none = r := by cases r <;> rfl

/-! ## The end of `merge` (R180, R302) -/

theorem runMergeEnd_of_overlap {s : State} {a b : Range} (ha : s.codec.rangeA = some a) (hb : s.codec.range = some b)
    (h : rangesOverlap (some a) (some b) = true) : runMergeEnd s = takeError (.overlap a b) s := by
  simp only [runMergeEnd, ha, hb, h, if_true]

/-- Without an overlap `merge` returns IMG with the union, whether both files had a range or not. -/
theorem runMergeEnd_of_disjoint {s : State} (h : rangesOverlap s.codec.rangeA s.codec.range = false) :
    runMergeEnd s = finish (.image (parsedImage s) (rangeUnion s.codec.rangeA s.codec.range)) s := by
  unfold runMergeEnd
  split
  next a b ha hb =>
    rw [ha, hb] at h ⊢
    simp only [h, Bool.false_eq_true, if_false]
  next => rfl

/-- Taking an `OverlapError` ends the operation, clears the codec and leaves everything else (R28, R314). -/
theorem takeError_overlap_exit (a b : Range) (s : State) : FormatExit (.overlap a b) s (takeError (.overlap a b) s) where
  ended := takeError_todo _ s
  result := takeError_result _ s
  codec := rfl
  session := rfl
  nvm := rfl
  target := rfl
  wire := rfl
  params := takeError_params _ s
  requests := rfl

/-- What was left to do does not matter to an operation that an error ends. -/
theorem FormatExit.of_setTodo {e : Error} {s t : State} {ms : List Micro} (h : FormatExit e (s.setTodo ms) t) :
    FormatExit e s t :=
  { h with }

theorem step_mergeEnd {s : State} {rest : List Micro} (hrun : s.running) (htodo : s.ctl.todo = .mergeEnd :: rest) :
    step s = .next (runMergeEnd (s.setTodo rest)) := step_micro hrun htodo

theorem step_mergeEnd_overlap {s : State} {rest : List Micro} {a b : Range} (hrun : s.running)
    (htodo : s.ctl.todo = .mergeEnd :: rest) (ha : s.codec.rangeA = some a) (hb : s.codec.range = some b)
    (h : rangesOverlap (some a) (some b) = true) : ∃ t, step s = .next t ∧ FormatExit (.overlap a b) s t := by
  have hend : runMergeEnd (s.setTodo rest) = takeError (.overlap a b) (s.setTodo rest) := runMergeEnd_of_overlap ha hb h
  exact ⟨_, by rw [step_mergeEnd hrun htodo, hend], (takeError_overlap_exit a b _).of_setTodo⟩

theorem step_mergeEnd_disjoint {s : State} {rest : List Micro} (hrun : s.running)
    (htodo : s.ctl.todo = .mergeEnd :: rest) (h : rangesOverlap s.codec.rangeA s.codec.range = false) :
    ∃ t, step s = .next t ∧ t.ctl.todo = [] ∧ t.ctl.result =
      some (.image ⟨s.params.imgCap, s.codec.img⟩ (rangeUnion s.codec.rangeA s.codec.range)) := by
  have hend := runMergeEnd_of_disjoint (s := s.setTodo rest) h
  exact ⟨_, by rw [step_mergeEnd hrun htodo, hend], rfl, rfl⟩

/-! ## The files of `merge` (R170, R179) -/

theorem step_merge_request {s : State} {a b : List Byte} {rs : List Request} (hrun : s.running) (htodo : s.ctl.todo = [])
    (hreq : s.ctl.requests = .merge a b :: rs) :
    step s = .next { s with ctl :=
      { s.ctl with requests := rs, result := none, todo := [.parse a false, .mergeSecond b, .mergeEnd] } } := by
  rw [step_host hrun htodo, hostTurn, hreq]
  rfl

theorem step_mergeSecond {s : State} {b : List Byte} {rest : List Micro} (hrun : s.running)
    (htodo : s.ctl.todo = .mergeSecond b :: rest) :
    step s = .next { s with
      codec := { s.codec with rangeA := s.codec.range }
      ctl := { s.ctl with todo := .parse b true :: rest } } := step_micro hrun htodo

/-- The start of `parse`, for a file that R61 admits. -/
theorem runParse_of_size {file : List Byte} (hmin : 11 ≤ file.length) (hmax : file.length ≤ 1048576) (keep : Bool)
    (s : State) : runParse file keep s = (s.setCodec (s.codec.start file keep)).setTodo (.records :: s.ctl.todo) :=
  if_neg (not_or.2 ⟨Nat.not_lt.2 hmin, Nat.not_lt.2 hmax⟩)

/-- `parse` starts: only the codec and what is left to do are its own; the tick touches neither. -/
theorem step_parse {s : State} {file : List Byte} {keep : Bool} {rest : List Micro} (hrun : s.running)
    (htodo : s.ctl.todo = .parse file keep :: rest) (hmin : 11 ≤ file.length) (hmax : file.length ≤ 1048576) :
    ∃ t, step s = .next t ∧ t.ctl.todo = .records :: rest ∧ t.codec = s.codec.start file keep := by
  have hstep : step s = .next (runParse file keep (codecTick (s.setTodo rest))) := step_micro hrun htodo
  rw [runParse_of_size hmin hmax] at hstep
  exact ⟨_, hstep, by simp, by simp⟩

/-- Settles O21, a clause for each micro-operation of `merge`; ranges that do not intersect and an empty range are the one case
without an overlap. -/
theorem mergeComparesRanges : Obligations.MergeComparesRanges := by
  intro s rest hrun
  refine ⟨fun _ _ _ => step_merge_request hrun, fun _ => step_mergeSecond hrun, fun _ => step_parse hrun,
    fun htodo => ⟨fun a b ha hb hla hlb => ⟨fun hmeet => ?_, fun hapart => ?_⟩, fun hnone => ?_, fun hnone => ?_⟩⟩
  case refine_1 => exact step_mergeEnd_overlap hrun htodo ha hb ((rangesOverlap_some_iff hla hlb).2 hmeet)
  case refine_2 =>
    have hdisjoint := Bool.eq_false_iff.2 (mt (rangesOverlap_some_iff hla hlb).1 hapart)
    rw [← ha, ← hb] at hdisjoint
    simpa only [ha, hb, rangeUnion] using step_mergeEnd_disjoint hrun htodo hdisjoint
  case refine_3 => simpa [hnone] using step_mergeEnd_disjoint hrun htodo (by simp [hnone])
  case refine_4 => simpa [hnone] using step_mergeEnd_disjoint hrun htodo (by simp [hnone])

end Sys2Proof.Machine
end

section
/-! Proofs of the statements about the encodings (spec/30_encoding.md): the encoder and the decoder undo each other, for
lines, frames, breaks and commands, and the order in which a line is checked. -/

namespace Sys2Proof

/-! ## Lines (R100 to R107) -/

/-- The record that a line written by the encoder spells. -/
def lineRecord (rr : Byte) (aaaa : Word) (dd : List Byte) : HexRecord :=
  ⟨BitVec.ofNat 8 dd.length, aaaa, rr, dd, chk (lineSum (BitVec.ofNat 8 dd.length) aaaa rr dd)⟩

/-- The bytes of a record, in the order a line spells them. -/
def HexRecord.bytes (r : HexRecord) : List Byte := r.bb :: hi8 r.aaaa :: lo8 r.aaaa :: r.rr :: (r.dd ++ [r.cc])

theorem encodeLine_eq_bytes (rr : Byte) (aaaa : Word) (dd : List Byte) :
    encodeLine rr aaaa dd = Config.colon :: (lineRecord rr aaaa dd).bytes.flatMap hex2 := by
  simp [encodeLine, lineRecord, HexRecord.bytes, hex4]

theorem recordOfBytes_bytes (r : HexRecord) : recordOfBytes r.bytes = some r := by
  rw [HexRecord.bytes, recordOfBytes_append, wordOf_hi8_lo8]

/-- The fields of a line that is long enough, odd and begins with the start code are those of the bytes it spells. -/
theorem decodeFields_colon {cs : List Byte} (hlen : 10 ≤ cs.length) (heven : cs.length % 2 = 0) :
    decodeFields (Config.colon :: cs) =
      match (hexBytes cs).bind recordOfBytes with
      | none => .error .hexDigit
      | some r => .ok r := by
  have hshape : ¬ ((Config.colon :: cs).length < Config.lineMin ∨ (Config.colon :: cs).length % 2 = 0) := by
    rw [List.length_cons, Config.lineMin]
    omega
  rw [decodeFields, if_neg hshape, if_neg (by simp)]
  rfl

theorem checkRecord_ok {r : HexRecord} (hcount : r.bb.toNat = r.dd.length)
    (hsum : chk (lineSum r.bb r.aaaa r.rr r.dd) = r.cc) : checkRecord r = .ok r := by
  rw [checkRecord, if_neg (not_not.2 hcount), if_neg (not_not.2 hsum)]

theorem byteCount_toNat {dd : List Byte} (h : dd.length ≤ 255) : (BitVec.ofNat 8 dd.length).toNat = dd.length := by
  rw [BitVec.toNat_ofNat]
  omega

theorem decodeRecord_encodeLine {dd : List Byte} (h : dd.length ≤ 255) (rr : Byte) (aaaa : Word) :
    decodeRecord (encodeLine rr aaaa dd) = .ok (lineRecord rr aaaa dd) := by
  have hlen : ((lineRecord rr aaaa dd).bytes.flatMap hex2).length = 10 + 2 * dd.length := by
    rw [flatMap_hex2_length]
    simp [HexRecord.bytes, lineRecord]
    omega
  rw [decodeRecord, encodeLine_eq_bytes, decodeFields_colon (by omega) (by omega), hexBytes_flatMap, Option.bind_some,
    recordOfBytes_bytes]
  exact checkRecord_ok (byteCount_toNat h) rfl

/-- A well-formed record instruction is a line of its type, and any record with the fields of that line is it again. -/
theorem exists_line_of_hexLine {i : Instr} (hf : i.format = .hexLine) (hw : i.wf = true) :
    ∃ rr aaaa dd, dd.length ≤ 255 ∧ (∀ p, encode p i = encodeLine rr aaaa dd) ∧
      ∀ bb cc, Instr.ofRecord ⟨bb, aaaa, rr, dd, cc⟩ = i := by
  cases i <;> cases hf
  case hexReserved rr aaaa dd =>
    simp only [Instr.wf, lineDataOk, Bool.and_eq_true, decide_eq_true_eq] at hw
    exact ⟨rr, aaaa, dd, hw.2, fun _ => rfl, fun bb cc => Machine.ofRecord_of_reserved hw.1⟩
  all_goals exact ⟨_, _, _, of_decide_eq_true hw, fun _ => rfl, fun _ _ => rfl⟩

theorem decode_encode_hexLine {i : Instr} (hf : i.format = .hexLine) (hw : i.wf = true) (p : Params) :
    ∃ r, decodeRecord (encode p i) = .ok r ∧ Instr.ofRecord r = i := by
  obtain ⟨rr, aaaa, dd, hlen, henc, hrec⟩ := exists_line_of_hexLine hf hw
  exact ⟨lineRecord rr aaaa dd, by rw [henc, decodeRecord_encodeLine hlen], hrec _ _⟩

/-! ## Frames, breaks and commands (R110 to R125) -/

theorem opc_legal_of_legal {p : Params} (h : p.legal = true) : p.opc.legal = true := by
  simp only [Params.legal, Bool.and_eq_true] at h
  tauto

theorem decodeFrame_sync (o : Opcodes) (units : Nat) (insn : Byte) (ops : List Byte) :
    decodeFrame o units (Config.sync :: insn :: ops) = decodeInsn o units insn ops := by
  rw [decodeFrame, if_pos rfl]

theorem countOk_iff {n : Nat} : countOk n = true ↔ 1 ≤ n ∧ n ≤ 256 := by
  rw [countOk, Bool.and_eq_true, decide_eq_true_iff, decide_eq_true_iff, Config.repeatMax]

theorem repOperand_toNat {n : Nat} (h : countOk n = true) : (repOperand n).toNat + 1 = n := by
  obtain ⟨hpos, hmax⟩ := countOk_iff.1 h
  rw [repOperand, BitVec.toNat_ofNat]
  omega

theorem decode_encode_updiFrame {p : Params} {i : Instr} (hp : p.opc.legal = true) (hf : i.format = .updiFrame)
    (hw : i.wf = true) : decodeFrame p.opc i.units (encode p i) = .ok i := by
  have F := (Opcodes.sound hp).facts
  cases i <;> cases hf
  all_goals rw [encode, decodeFrame_sync]
  case ldcs r => rw [decodeInsn_ldcs F _ r (of_decide_eq_true hw)]
  case stcs r v => rw [decodeInsn_stcs F _ r (of_decide_eq_true hw)]
  case ldsb a => rw [decodeInsn_ldsb F]; simp [wireWord]
  case ldsw a => rw [decodeInsn_ldsw F]; simp [wireWord]
  case stsb a v => rw [decodeInsn_stsb F]; simp [wireWord]
  case stsw a w => rw [decodeInsn_stsw F]; simp [wireWord]
  case stPtr a => rw [decodeInsn_stPtr F]; simp [wireWord]
  case ldb n => rw [decodeInsn_ldb F]; rfl
  case ldw n => rw [decodeInsn_ldw F]; rfl
  case stb d => rw [decodeInsn_stb F]; exact if_pos hw
  case stw d =>
    simp only [Instr.wf, Bool.and_eq_true, decide_eq_true_eq] at hw
    rw [decodeInsn_stw F, if_pos hw]
  case rep n => simp [decodeInsn_rep F, repOperand_toNat hw]
  case key k =>
    have hlen : k.reverse.length = Config.keyLen := by simpa using of_decide_eq_true hw
    rw [decodeInsn_key F, if_pos hlen, List.reverse_reverse]

theorem decode_encode_nvmCommand {p : Params} {i : Instr}
    (hp : [p.cmdWritePage, p.cmdEraseWritePage, p.cmdPageBufferClr, p.cmdWriteFuse].Nodup)
    (hf : i.format = .nvmCommand) : decodeCommand p (encode p i) = .ok i := by
  simp only [List.nodup_cons, List.mem_cons, List.not_mem_nil, or_false, not_or, not_false_eq_true, List.nodup_nil,
    and_true] at hp
  obtain ⟨⟨hwe, hwc, hwf⟩, ⟨hec, hef⟩, hcf⟩ := hp
  cases i <;> cases hf
  all_goals simp [encode, decodeCommand, Ne.symm, *]

/-- Settles O1: a case for each of the four formats. -/
theorem decodeEncode : Obligations.DecodeEncode := by
  intro p i hp hw
  cases hf : i.format with
  | hexLine =>
    obtain ⟨r, hr, rfl⟩ := decode_encode_hexLine hf hw p
    simp only [decode, hr]
  | updiFrame => exact decode_encode_updiFrame (opc_legal_of_legal hp) hf hw
  | updiBreak =>
    cases i <;> cases hf
    · rfl
    · rfl
  | nvmCommand => exact decode_encode_nvmCommand (Machine.legalFacts hp).nd hf

/-! ## What decodes comes from the encoder (R110 to R122) -/

theorem or_of_nibbles (b : Byte) : b &&& 0xF0 ||| BitVec.ofNat 8 ((b &&& 0x0F).toNat % 16) = b := by
  have hlow : (b &&& 0x0F).toNat % 16 = (b &&& 0x0F).toNat := by
    rw [toNat_and_0f]
    omega
  rw [hlow, BitVec.ofNat_toNat, BitVec.setWidth_eq, ← BitVec.and_or_distrib_left]
  exact BitVec.and_allOnes

theorem nibble_le (b : Byte) : (b &&& 0x0F).toNat ≤ 15 := by
  rw [toNat_and_0f]
  omega

theorem repOperand_succ (n : Byte) : repOperand (n.toNat + 1) = n := by simp [repOperand]

theorem countOk_succ (n : Byte) : countOk (n.toNat + 1) = true := by
  have hn : n.toNat < 256 := n.isLt
  rw [countOk_iff]
  omega

/-- An instruction byte and operands that decode are the encoding of what they decode to. The split follows the decoder's
branches; the operands of each are those its pattern binds. -/
theorem encode_of_decodeInsn {p : Params} {units : Nat} {insn : Byte} {ops : List Byte} {i : Instr}
    (hu : countOk units = true) (h : decodeInsn p.opc units insn ops = .ok i) :
    encode p i = Config.sync :: insn :: ops ∧ i.wf = true := by
  unfold decodeInsn at h
  rcases ite_eq_iff.1 h with ⟨hi, h⟩ | ⟨-, h⟩
  · split at h <;> cases h
    exact ⟨by simp [encode, wireWord, hi], rfl⟩
  rcases ite_eq_iff.1 h with ⟨hi, h⟩ | ⟨-, h⟩
  · split at h <;> cases h
    exact ⟨by simp [encode, wireWord, hi], rfl⟩
  rcases ite_eq_iff.1 h with ⟨hi, h⟩ | ⟨-, h⟩
  · split at h <;> cases h
    exact ⟨by simp [encode, wireWord, hi], rfl⟩
  rcases ite_eq_iff.1 h with ⟨hi, h⟩ | ⟨-, h⟩
  · split at h <;> cases h
    exact ⟨by simp [encode, wireWord, hi], rfl⟩
  rcases ite_eq_iff.1 h with ⟨hi, h⟩ | ⟨-, h⟩
  · split at h <;> cases h
    exact ⟨by simp [encode, wireWord, hi], rfl⟩
  rcases ite_eq_iff.1 h with ⟨hi, h⟩ | ⟨-, h⟩
  · split at h <;> cases h
    exact ⟨by rw [encode, hi], hu⟩
  rcases ite_eq_iff.1 h with ⟨hi, h⟩ | ⟨-, h⟩
  · split at h <;> cases h
    exact ⟨by rw [encode, hi], hu⟩
  rcases ite_eq_iff.1 h with ⟨hi, h⟩ | ⟨-, h⟩
  · split at h <;> cases h
    exact ⟨by rw [encode, hi], ‹_›⟩
  rcases ite_eq_iff.1 h with ⟨hi, h⟩ | ⟨-, h⟩
  · split at h <;> cases h
    exact ⟨by rw [encode, hi], by simpa [Instr.wf] using ‹_ ∧ _›⟩
  rcases ite_eq_iff.1 h with ⟨hi, h⟩ | ⟨-, h⟩
  · split at h <;> cases h
    exact ⟨by rw [encode, repOperand_succ, hi], countOk_succ _⟩
  rcases ite_eq_iff.1 h with ⟨hi, h⟩ | ⟨-, h⟩
  · split at h <;> cases h
    exact ⟨by rw [encode, List.reverse_reverse, hi], by simpa [Instr.wf] using ‹_›⟩
  rcases ite_eq_iff.1 h with ⟨hi, h⟩ | ⟨-, h⟩
  · split at h <;> cases h
    exact ⟨by rw [encode, insnLdcs, ← hi, or_of_nibbles], decide_eq_true (nibble_le insn)⟩
  rcases ite_eq_iff.1 h with ⟨hi, h⟩ | ⟨-, h⟩
  · split at h <;> cases h
    exact ⟨by rw [encode, insnStcs, ← hi, or_of_nibbles], decide_eq_true (nibble_le insn)⟩
  cases h

/-- Settles O2: after the `SYNC` a frame is its instruction byte and operands. -/
theorem frameDecodesOnlyFromItsEncoding : Obligations.FrameDecodesOnlyFromItsEncoding := by
  intro p units bs i _ hu h
  match bs, h with
  | b :: insn :: ops, h =>
    rw [decode, decodeFrame] at h
    split at h
    next hb => exact hb ▸ encode_of_decodeInsn hu h
    next => cases h

/-! ## What a line is checked for (R142 to R144, R155) -/

/-- What stands before the checks of a line's fields: its shape, the start code, and the bytes it spells. -/
theorem decodeFields_ok {l : List Byte} {r : HexRecord} (h : decodeFields l = .ok r) :
    l.head? = some Config.colon ∧ hexBytes l.tail = some r.bytes := by
  unfold decodeFields at h
  split at h
  next => cases h
  split at h
  next => cases h
  next hcolon =>
    split at h
    next => cases h
    next r' hr =>
      cases h
      obtain ⟨bs, hbs, hrec⟩ := Option.bind_eq_some_iff.1 hr
      exact ⟨not_not.1 hcolon, by rw [hbs, recordOfBytes_eq hrec, HexRecord.bytes]⟩

theorem checkRecord_eq_ok {r r' : HexRecord} (h : checkRecord r = .ok r') :
    r' = r ∧ r.bb.toNat = r.dd.length ∧ chk (lineSum r.bb r.aaaa r.rr r.dd) = r.cc := by
  unfold checkRecord at h
  split at h
  next => cases h
  next hcount =>
    split at h
    next => cases h
    next hsum =>
      cases h
      exact ⟨rfl, not_not.1 hcount, not_not.1 hsum⟩

/-- A record whose count and checksum are right is the record of the line with its type, address and data. -/
theorem eq_lineRecord {r : HexRecord} (hcount : r.bb.toNat = r.dd.length)
    (hsum : chk (lineSum r.bb r.aaaa r.rr r.dd) = r.cc) : r = lineRecord r.rr r.aaaa r.dd := by
  obtain ⟨bb, aaaa, rr, dd, cc⟩ := r
  have hbb : BitVec.ofNat 8 dd.length = bb := by rw [← hcount, BitVec.ofNat_toNat, BitVec.setWidth_eq]
  subst hbb
  exact congrArg (HexRecord.mk _ aaaa rr dd) hsum.symm

/-- A line that passes its checks begins with the start code and spells the bytes of its record, whose count and checksum
are those of the encoder. -/
theorem decodeRecord_ok {l : List Byte} {r : HexRecord} (h : decodeRecord l = .ok r) :
    r.dd.length ≤ 255 ∧ r = lineRecord r.rr r.aaaa r.dd ∧ ∃ cs, l = Config.colon :: cs ∧ hexBytes cs = some r.bytes := by
  unfold decodeRecord at h
  split at h
  next => cases h
  next r' hfields =>
    obtain ⟨rfl, hcount, hsum⟩ := checkRecord_eq_ok h
    obtain ⟨hcolon, hbytes⟩ := decodeFields_ok hfields
    have hlt : r.bb.toNat < 256 := r.bb.isLt
    exact ⟨by omega, eq_lineRecord hcount hsum, l.tail, (List.cons_head?_tail hcolon).symm, hbytes⟩

/-- The record-type map and the encoder agree: the instruction of a record is the line of its type (R104). -/
theorem ofRecord_line (r : HexRecord) :
    (∀ p, encode p (Instr.ofRecord r) = encodeLine r.rr r.aaaa r.dd) ∧
      (r.dd.length ≤ 255 → (Instr.ofRecord r).wf = true) := by
  have hwf : r.dd.length ≤ 255 → lineDataOk r.dd = true := fun h => decide_eq_true h
  unfold Instr.ofRecord
  split
  next h => exact ⟨fun _ => by rw [h]; rfl, hwf⟩
  split
  next h => exact ⟨fun _ => by rw [h]; rfl, hwf⟩
  split
  next h => exact ⟨fun _ => by rw [h]; rfl, hwf⟩
  split
  next h => exact ⟨fun _ => by rw [h]; rfl, hwf⟩
  split
  next h => exact ⟨fun _ => by rw [h]; rfl, hwf⟩
  next h0 h1 h2 h3 h4 =>
    refine ⟨fun _ => rfl, fun hlen => ?_⟩
    have hrr : 5 ≤ r.rr.toNat := by
      bv_omega
    rw [Instr.wf, hwf hlen, decide_eq_true hrr]
    rfl

theorem decode_hexLine_ok {p : Params} {units : Nat} {l : List Byte} {i : Instr} (h : decode p .hexLine units l = .ok i) :
    ∃ r, decodeRecord l = .ok r ∧ Instr.ofRecord r = i := by
  unfold decode at h
  simp only at h
  split at h
  next => cases h
  next r hr =>
    cases h
    exact ⟨r, hr, rfl⟩

/-- Settles O3: both lines spell the bytes of the record. -/
theorem lineDecodesOnlyFromItsBytes : Obligations.LineDecodesOnlyFromItsBytes := by
  intro p units l i h
  obtain ⟨r, hr, rfl⟩ := decode_hexLine_ok h
  obtain ⟨hlen, hline, cs, hl, hbytes⟩ := decodeRecord_ok hr
  obtain ⟨henc, hwf⟩ := ofRecord_line r
  refine ⟨hwf hlen, cs, hl, ?_⟩
  rw [henc, encodeLine_eq_bytes, List.tail_cons, hexBytes_flatMap, ← hline, hbytes]

theorem decodeRecord_of_error {l : List Byte} {e : LineFault} (h : decodeFields l = .error e) :
    decodeRecord l = .error e := by rw [decodeRecord, h]

theorem decodeRecord_of_fields {l : List Byte} {r : HexRecord} (h : decodeFields l = .ok r) :
    decodeRecord l = checkRecord r := by rw [decodeRecord, h]

theorem decodeFields_of_shape {l : List Byte} (h : l.length < 11 ∨ l.length % 2 = 0) :
    decodeFields l = .error .lineLength := by
  rw [decodeFields]
  exact if_pos h

theorem decodeFields_of_head {l : List Byte} (hlen : 11 ≤ l.length) (hodd : l.length % 2 = 1)
    (h : l.head? ≠ some 0x3A) : decodeFields l = .error .startCode := by
  have hshape : ¬ (l.length < Config.lineMin ∨ l.length % 2 = 0) := by
    rw [Config.lineMin]
    omega
  rw [decodeFields, if_neg hshape]
  exact if_pos h

/-- Five bytes and more are the fields of a record, the last one its checksum. -/
theorem exists_fields {bs : List Byte} (h : 5 ≤ bs.length) :
    ∃ (bb ah al rr cc : Byte) (dd : List Byte), bs = bb :: ah :: al :: rr :: (dd ++ [cc]) := by
  match bs, h with
  | bb :: ah :: al :: rr :: c :: rest, _ =>
    exact ⟨bb, ah, al, rr, (c :: rest).getLast (by simp), (c :: rest).dropLast, by rw [List.dropLast_append_getLast]⟩

/-- The checks of the fields: the count, then the checksum. -/
theorem checkRecord_cases (r : HexRecord) :
    (r.bb.toNat ≠ r.dd.length → checkRecord r = .error .byteCount) ∧
    (r.bb.toNat = r.dd.length →
      (chk (lineSum r.bb r.aaaa r.rr r.dd) ≠ r.cc →
        checkRecord r = .error (.checksum (chk (lineSum r.bb r.aaaa r.rr r.dd)) r.cc)) ∧
      (chk (lineSum r.bb r.aaaa r.rr r.dd) = r.cc → checkRecord r = .ok r)) := by
  refine ⟨fun h => by rw [checkRecord, if_pos h], fun hcount => ⟨fun h => ?_, checkRecord_ok hcount⟩⟩
  rw [checkRecord, if_neg (not_not.2 hcount), if_pos h]

/-- Settles O6: one check after the other, each on a line that has passed those before it. -/
theorem lineCheckOrder : Obligations.LineCheckOrder := by
  intro l
  refine ⟨fun hshape => decodeRecord_of_error (decodeFields_of_shape hshape), fun hlen hodd =>
    ⟨fun hhead => decodeRecord_of_error (decodeFields_of_head hlen hodd hhead), ?_⟩⟩
  rintro cs rfl
  rw [List.length_cons] at hlen hodd ⊢
  have hfields := decodeFields_colon (cs := cs) (by omega) (by omega)
  refine ⟨fun hbad => decodeRecord_of_error ?_, fun hhex => ?_⟩
  · rw [hexBytes_eq_none hbad] at hfields
    exact hfields
  · obtain ⟨bs, hbs⟩ := Option.isSome_iff_exists.1 (hexBytes_isSome (by omega) hhex)
    have hcount := hexBytes_length hbs
    obtain ⟨bb, ah, al, rr, cc, dd, rfl⟩ := exists_fields (bs := bs) (by omega)
    simp only [List.length_cons, List.length_append, List.length_nil] at hcount
    rw [hbs, Option.bind_some, recordOfBytes_append] at hfields
    have hrecord := decodeRecord_of_fields hfields
    obtain ⟨hbyte, hsum⟩ := checkRecord_cases ⟨bb, wordOf ah al, rr, dd, cc⟩
    refine ⟨bb, ah, al, rr, cc, dd, hbs, by omega, fun h => ?_, fun h => ?_⟩
    · exact hrecord.trans (hbyte (show bb.toNat ≠ dd.length by omega))
    · obtain ⟨hne, heq⟩ := hsum (show bb.toNat = dd.length by omega)
      exact ⟨fun h => hrecord.trans (hne h), fun h => hrecord.trans (heq h)⟩

/-- Settles O4: each word is decoded as it stands. -/
theorem specExampleWordsDecode : Obligations.SpecExampleWordsDecode := by
  refine ⟨?_, ?_, ?_, ?_, ?_, ?_, ?_, ?_, ?_, ?_, ?_, ?_, ?_, ?_, ?_, ?_, ?_, ?_, ?_, ?_, ?_, ?_, ?_, ?_, ?_⟩
  all_goals decide

end Sys2Proof
end

section
/-! Proofs of the invariants that every step keeps: the canonical form of the memories, IMG and the places, the cursors of
the loops between frames, and the session. What a frame keeps is `Effect` (Laws/Exec.lean); this file adds the steps between
frames and the start of an operation. -/

namespace Sys2Proof.Machine

/-! ## What every step keeps of the memories and the places -/

/-- The invariants of the byte memories, of IMG with its ranges, and of the cursors that a record, a line or a frame moves. -/
structure Keeps (s t : State) : Prop where
  params : t.params = s.params
  memories : s.memoriesOk = true → t.memoriesOk = true
  image : s.imageOk = true → t.imageOk = true
  places : s.placesOk → t.placesOk

theorem Effect.keeps {s t : State} (h : Effect s t) : Keeps s t := ⟨h.params, h.memories, h.image, h.places⟩

theorem Keeps.trans {s t u : State} (h : Keeps s t) (k : Keeps t u) : Keeps s u :=
  ⟨k.params.trans h.params, fun x => k.memories (h.memories x), fun x => k.image (h.image x),
    fun x => k.places (h.places x)⟩

/-- A change of the codec, of what is left to do, of the session or of the NVM registers: the target and the attempts of
`recv` are as before. -/
theorem Keeps.of_codec {s t : State} (hp : t.params = s.params) (ht : t.target = s.target)
    (hw : t.wire.recvAttempt = s.wire.recvAttempt)
    (hm : Memory.wf imgDrop s.codec.img = true → Memory.wf imgDrop t.codec.img = true)
    (hi : s.imageOk = true → t.imageOk = true)
    (hc : s.codec.pos ≤ s.codec.file.length → s.codec.k ≤ chunkCount s.codec.length →
      t.codec.pos ≤ t.codec.file.length ∧ t.codec.k ≤ chunkCount t.codec.length) : Keeps s t where
  params := hp
  memories h := by
    rw [State.memoriesOk_iff] at *
    exact ⟨hm h.1, ht ▸ h.2⟩
  image := hi
  places h := by
    obtain ⟨hpos, hk, hrecv⟩ := h
    obtain ⟨hpos', hk'⟩ := hc hpos hk
    exact ⟨hpos', hk', by rw [hw, hp]; exact hrecv⟩

theorem Keeps.of_same {s t : State} (hp : t.params = s.params) (hc : t.codec = s.codec) (ht : t.target = s.target)
    (hw : t.wire.recvAttempt = s.wire.recvAttempt) : Keeps s t :=
  .of_codec hp ht hw (by rw [hc]; exact id) (by rw [State.imageOk_iff, State.imageOk_iff, hp, hc]; exact id)
    (by rw [hc]; exact And.intro)

theorem Keeps.of_fresh {s t : State} (hp : t.params = s.params) (hc : t.codec = Codec.fresh) (ht : t.target = s.target)
    (hw : t.wire.recvAttempt = s.wire.recvAttempt) : Keeps s t :=
  .of_codec hp ht hw (fun _ => by rw [hc]; exact Memory.wf_nil _) (fun _ => fresh_imageOk hc)
    (fun _ _ => by rw [hc]; exact ⟨Nat.zero_le _, Nat.zero_le _⟩)

theorem takeError_keeps (e : Error) (s : State) : Keeps s (takeError e s) := by
  cases e with
  | transport e => exact (takeError_effect rfl s).keeps
  | protocol e => exact (takeError_effect rfl s).keeps
  | format e => exact (formatError_effect e s).keeps
  | overlap a b => exact .of_fresh rfl rfl rfl rfl
  | verify page addr => exact .of_same rfl rfl rfl rfl

theorem codecTick_keeps (s : State) : Keeps s (codecTick s) := .of_same (by simp) (by simp) (by simp) (by simp)

/-! ### The codec's operations -/

theorem runParse_keeps (file : List Byte) (keep : Bool) (s : State) : Keeps s (runParse file keep s) := by
  have hpos : skipTerminators file 0 ≤ file.length := skipTerminators_le (Nat.zero_le _)
  unfold runParse
  split
  · exact takeError_keeps _ s
  · cases keep
    · exact .of_codec rfl rfl rfl (fun _ => Memory.wf_nil _) (fun _ => by simp [State.imageOk_iff, Codec.start,
        Codec.fresh, Range.within]) (fun _ _ => ⟨hpos, Nat.zero_le _⟩)
    · refine .of_codec rfl rfl rfl id (fun h => ?_) (fun _ _ => ⟨hpos, Nat.zero_le _⟩)
      rw [State.imageOk_iff] at *
      exact ⟨rfl, h.2⟩

theorem advancePos_keeps (s : State) : Keeps s (advancePos s) :=
  .of_codec rfl rfl rfl id id (fun hpos hk => ⟨nextLinePos_le hpos, hk⟩)

theorem runRecord_keeps {s t : State} (h : runRecord s = .next t) : Keeps s t := by
  unfold runRecord at h
  split at h
  next => cases h; exact takeError_keeps _ s
  next r _ =>
    have hlatch : Keeps s (s.setCodec { s.codec with record := r }) := .of_codec rfl rfl rfl id id And.intro
    split at h <;> cases h
    next u hu => exact (hlatch.trans (exec_effect hu).keeps).trans (advancePos_keeps u)

theorem runRecords_keeps {s t : State} (h : runRecords s = .next t) : Keeps s t := by
  unfold runRecords at h
  split at h
  next => cases h; exact .of_same rfl rfl rfl rfl
  split at h
  next => cases h; exact takeError_keeps _ s
  next => exact Keeps.trans (t := s.setTodo (.records :: s.ctl.todo)) (.of_same rfl rfl rfl rfl) (runRecord_keeps h)

theorem runMergeSecond_keeps (b : List Byte) (s : State) : Keeps s (runMergeSecond b s) := by
  refine .of_codec rfl rfl rfl id (fun h => ?_) And.intro
  rw [State.imageOk_iff] at *
  exact ⟨h.1, h.1, h.2.2⟩

theorem runMergeEnd_keeps (s : State) : Keeps s (runMergeEnd s) := by
  unfold runMergeEnd
  repeat' split
  · exact takeError_keeps _ s
  · exact .of_same rfl rfl rfl rfl
  · exact .of_same rfl rfl rfl rfl

theorem runChunks_keeps (s : State) : Keeps s (runChunks s) := by
  unfold runChunks
  split
  next hk => exact .of_codec rfl rfl rfl id id (fun hpos _ => ⟨hpos, hk⟩)
  next => exact .of_codec rfl rfl rfl id id And.intro

/-- `serialize` of a fresh codec, whose IMG may hold the bytes that `txt2hex` found. -/
theorem serializeFrom_keeps {s t : State} {bs : List Byte} {img : Image} {length : Nat}
    (hcap : bs.length ≤ s.params.imgCap)
    (h : serializeFrom { Codec.fresh with img := imgOf bs } img length s = .next t) : Keeps s t := by
  unfold serializeFrom at h
  split at h <;> cases h
  refine .of_codec rfl rfl rfl (fun _ => Memory.write_wf (Memory.wf_nil _) _ _) (fun _ => ?_)
    (fun _ _ => ⟨Nat.zero_le _, Nat.zero_le _⟩)
  rw [State.imageOk_iff]
  refine ⟨rfl, rfl, fun c hc => ?_⟩
  rcases Memory.mem_write hc with hc | ⟨-, hlt⟩
  · cases hc
  · exact Nat.lt_of_lt_of_le hlt (by simpa using hcap)

theorem startSerialize_keeps {s t : State} {img : Image} {length : Nat} (h : startSerialize img length s = .next t) :
    Keeps s t := serializeFrom_keeps (bs := []) (Nat.zero_le _) h

theorem startTxt2hex_keeps {s t : State} {text : List Byte} (h : startTxt2hex text s = .next t) : Keeps s t := by
  unfold startTxt2hex at h
  split at h
  next => cases h; exact takeError_keeps _ s
  next bs _ =>
    refine serializeFrom_keeps (bs := bs) ?_ h
    unfold serializeFrom at h
    split at h
    next => cases h
    next hfit => exact Nat.not_lt.1 (not_or.1 hfit).1

/-! ### The session's and the NVM controller's tests -/

theorem runSend_effect {s t : State} {bs : List Byte} (h : runSend bs s = .next t) : Effect s t :=
  onLink_effect (bs := bs ++ []) ((send_sends Target.memOk bs s).bind fun _ u _ _ =>
    Comm.sends_done (setResp_only _ u []) rfl) h

theorem runRecv_effect {s t : State} {len : Nat} (h : runRecv len s = .next t) : Effect s t :=
  onLink_effect (bs := [] ++ []) ((recv_sends Target.memOk len [] s).bind fun r u _ _ =>
    Comm.sends_done (setResp_only _ u r) rfl) h

theorem setPollAttempt_keeps (n : Nat) (s : State) : Keeps s (s.setPollAttempt n) := .of_same rfl rfl rfl rfl

theorem initNext_keeps (s : State) : Keeps s (initNext s) := by
  unfold initNext
  repeat' split
  · exact .of_same rfl rfl rfl rfl
  · exact .of_same rfl rfl rfl rfl
  · exact takeError_keeps _ s

theorem pollNext_keeps (q : Poll) (s : State) : Keeps s (pollNext q s) := by
  unfold pollNext pollTimeout
  repeat' split
  · exact .of_same rfl rfl rfl rfl
  · exact takeError_keeps _ s
  · exact takeError_keeps _ s
  · exact .of_same rfl rfl rfl rfl

theorem nvmNext_keeps (s : State) : Keeps s (nvmNext s) := by
  unfold nvmNext
  split
  · exact .of_same rfl rfl rfl rfl
  · exact takeError_keeps _ s

/-- What is asked of a micro-operation that tests and goes on: each of its branches is a change that keeps all, or an
error. -/
theorem runMicro_keeps {m : Micro} {s t : State} (h : runMicro m s = .next t) : Keeps s t := by
  cases m
  case records => exact (codecTick_keeps s).trans (runRecords_keeps h)
  case cmd i => exact (exec_effect h).keeps
  case sendBytes bs => exact (runSend_effect h).keeps
  case recvBytes len => exact (runRecv_effect h).keeps
  case window asC =>
    simp only [runMicro, runWindow] at h
    split at h <;> cases h
    exact .of_same rfl rfl rfl rfl
  all_goals injection h with h; subst h
  case parse file keep => exact (codecTick_keeps s).trans (runParse_keeps file keep _)
  case mergeSecond b => exact runMergeSecond_keeps b s
  case mergeEnd => exact runMergeEnd_keeps s
  case chunks => exact (codecTick_keeps s).trans (runChunks_keeps _)
  case initTest => exact Keeps.trans (t := s.setInitRound (s.ctl.initRound + 1)) (.of_same rfl rfl rfl rfl) (initNext_keeps _)
  case poll q => exact (setPollAttempt_keeps 0 s).trans (pollNext_keeps q _)
  case pollTest q =>
    unfold runPollTest
    split
    · exact setPollAttempt_keeps _ s
    · exact (setPollAttempt_keeps _ s).trans (pollNext_keeps q _)
  case nvmWait => exact (setPollAttempt_keeps 0 s).trans (nvmNext_keeps _)
  case nvmTest =>
    unfold runNvmTest
    repeat' split
    · exact takeError_keeps _ s
    · exact setPollAttempt_keeps _ s
    · exact (setPollAttempt_keeps _ s).trans (nvmNext_keeps _)
  case keyTest bit =>
    unfold runKeyTest
    split
    · exact .of_same rfl rfl rfl rfl
    · exact takeError_keeps _ s
  case compare =>
    unfold runCompare
    split
    · exact .of_same rfl rfl rfl rfl
    · exact takeError_keeps _ s
  case fuseVerify n value =>
    unfold runFuseVerify
    split
    · exact .of_same rfl rfl rfl rfl
    · exact takeError_keeps _ s
  case progTest => unfold runProgTest; split <;> exact .of_same rfl rfl rfl rfl
  case progConfirm => unfold runProgConfirm; split <;> exact .of_same rfl rfl rfl rfl
  case readPage => unfold runReadPage; split <;> exact .of_same rfl rfl rfl rfl
  case writePage => unfold runWritePage; (repeat' split) <;> exact .of_same rfl rfl rfl rfl
  case verifyPage => unfold runVerifyPage; (repeat' split) <;> exact .of_same rfl rfl rfl rfl
  case fuseTest n value => unfold runFuseTest; split <;> exact .of_same rfl rfl rfl rfl
  all_goals exact .of_same rfl rfl rfl rfl

/-! ### The start of an operation -/

theorem require_eq_next {c : Bool} {r : Refusal} {k : Host.Outcome State Fault Refusal} {t : State}
    (h : require c r k = .next t) : c = true ∧ k = .next t := by
  unfold require at h
  split at h
  next hc => exact ⟨hc, h⟩
  next => cases h

theorem newSession_keeps (part : PartCode) (baud verbosity : Nat) (s : State) :
    Keeps s (newSession part baud verbosity s) :=
  ⟨rfl, id, id, fun h => ⟨h.1, h.2.1, Nat.zero_le _⟩⟩

theorem startRequest_keeps {r : Request} {s t : State} (h : startRequest r s = .next t) : Keeps s t := by
  cases r
  case serialize image length => exact startSerialize_keeps h
  case txt2hex text => exact startTxt2hex_keeps h
  case newSession part baud verbosity =>
    obtain ⟨-, h⟩ := require_eq_next h
    obtain ⟨-, h⟩ := require_eq_next h
    obtain ⟨-, h⟩ := require_eq_next h
    cases h
    exact newSession_keeps part baud verbosity s
  all_goals
    simp only [startRequest, require] at h
    repeat' split at h
    all_goals cases h
    all_goals exact .of_same rfl rfl rfl rfl

theorem hostTurn_keeps {s t : State} (h : hostTurn s = .next t) : Keeps s t := by
  unfold hostTurn at h
  split at h
  next => cases h; exact .of_same rfl rfl rfl rfl
  next r rs _ =>
    exact Keeps.trans (t := { s with ctl := { s.ctl with requests := rs, result := none } }) (.of_same rfl rfl rfl rfl)
      (startRequest_keeps h)

/-- What a step can be: the interruption that is due, HOST's turn, or the micro-operation that stands next. -/
theorem step_cases {s t : State} (h : step s = .next t) :
    s.ctl.halted = false ∧ (t = interrupt s ∨ (s.ctl.todo = [] ∧ hostTurn s = .next t) ∨
      ∃ m rest, s.ctl.todo = m :: rest ∧ runMicro m (s.setTodo rest) = .next t) := by
  simp only [step, stepBody] at h
  split at h
  next => cases h
  next hrun =>
    refine ⟨Bool.eq_false_iff.2 hrun, ?_⟩
    split at h
    next => cases h; exact .inl rfl
    split at h
    next ht => exact .inr (.inl ⟨ht, h⟩)
    next m rest ht => exact .inr (.inr ⟨m, rest, ht, h⟩)

theorem step_keeps {s t : State} (h : step s = .next t) : Keeps s t := by
  obtain ⟨-, rfl | ⟨-, h⟩ | ⟨m, rest, -, h⟩⟩ := step_cases h
  · exact (interrupt_effect s).keeps
  · exact hostTurn_keeps h
  · exact Keeps.trans (t := s.setTodo rest) (.of_same rfl rfl rfl rfl) (runMicro_keeps h)

/-- Settles O57. -/
theorem memoriesKept : Obligations.MemoriesKept := fun _ _ hs h => (step_keeps h).memories hs

/-! ## What every step keeps of the session (R29, R31, R313) -/

/-- The session is consistent, field by field. -/
structure SessionIn (s : State) : Prop where
  failed : s.session.failed ≠ none → s.session.linkState = .closed ∧ s.session.transportOpen = false
  owned : s.session.linkState ≠ .closed → s.session.transportOpen = true
  up : (∃ m ∈ s.ctl.todo, m.usesLink = true) → linkUp s.session = true

theorem sessionOk_iff {s : State} : s.sessionOk = true ↔ SessionIn s := by
  have hany : (!s.ctl.todo.any Micro.usesLink) = true ↔ ¬ ∃ m ∈ s.ctl.todo, m.usesLink = true := by
    rw [Bool.not_eq_true', ← Bool.not_eq_true, List.any_eq_true]
  simp only [State.sessionOk, Bool.and_eq_true, Bool.or_eq_true, decide_eq_true_eq, Option.isNone_iff_eq_none, hany,
    Bool.not_eq_true', or_iff_not_imp_left, not_not]
  exact ⟨fun ⟨⟨hf, ho⟩, hu⟩ => ⟨hf, ho, hu⟩, fun h => ⟨⟨h.failed, h.owned⟩, h.up⟩⟩

theorem linkUp_iff {ss : Session} : linkUp ss = true ↔ ss.failed = none ∧ ss.linkState ≠ .cold ∧ ss.linkState ≠ .closed := by
  unfold linkUp
  cases ss.linkState <;> simp

/-- The link state, the latch and the transport are as before; nothing of the link is left that was not there. -/
theorem SessionIn.of_same {s t : State} (h : SessionIn s) (hl : t.session.linkState = s.session.linkState)
    (hf : t.session.failed = s.session.failed) (ho : t.session.transportOpen = s.session.transportOpen)
    (hu : (∃ m ∈ t.ctl.todo, m.usesLink = true) → linkUp s.session = true) : SessionIn t := by
  refine ⟨by rw [hf, hl, ho]; exact h.failed, by rw [hl, ho]; exact h.owned, fun hm => ?_⟩
  rw [linkUp_iff, hf, hl]
  exact linkUp_iff.1 (hu hm)

/-- A session that is closed and released, with nothing left to do. -/
theorem SessionIn.of_released {t : State} (hl : t.session.linkState = .closed) (ho : t.session.transportOpen = false)
    (ht : t.ctl.todo = []) : SessionIn t :=
  ⟨fun _ => ⟨hl, ho⟩, fun h => absurd hl h, by simp [ht]⟩

/-- A session in which nothing has failed and that owns its transport, with nothing left to do. -/
theorem SessionIn.of_ended {t : State} (hf : t.session.failed = none) (ho : t.session.transportOpen = true)
    (ht : t.ctl.todo = []) : SessionIn t :=
  ⟨fun h => absurd hf h, fun _ => ho, by simp [ht]⟩

theorem Effect.sessionIn {s t : State} (h : Effect s t) (hs : SessionIn s) : SessionIn t := by
  rcases h.link with ⟨hl, hf, ho⟩ | ⟨hl, ho, ht⟩
  · refine hs.of_same hl hf ho ?_
    rcases h.todo with ht | ht <;> rw [ht]
    · exact hs.up
    · simp
  · exact .of_released hl ho ht

theorem SessionIn.of_takeError {s : State} (h : SessionIn s) (e : Error) : SessionIn (takeError e s) := by
  cases e with
  | transport e => exact .of_released rfl rfl rfl
  | protocol e => exact .of_released rfl rfl rfl
  | format e => exact h.of_same rfl rfl rfl (by simp)
  | overlap a b => exact h.of_same rfl rfl rfl (by simp)
  | verify page addr => exact h.of_same rfl rfl rfl (by simp)

theorem SessionIn.of_finish {s : State} (h : SessionIn s) (r : Result) : SessionIn (finish r s) :=
  h.of_same rfl rfl rfl (by simp)

/-- An operation on a link that is up ends in another link state. -/
theorem SessionIn.of_link {s t : State} (h : SessionIn s) (hup : linkUp s.session = true)
    (hf : t.session.failed = s.session.failed) (ho : t.session.transportOpen = s.session.transportOpen)
    (ht : t.ctl.todo = []) : SessionIn t := by
  obtain ⟨hnone, -, hopen⟩ := linkUp_iff.1 hup
  exact .of_ended (hf.trans hnone) (ho.trans (h.owned hopen)) ht

/-! ### The codec's operations: the session is not touched, and nothing of the link is started -/

theorem SessionIn.of_codecTick {s : State} (h : SessionIn s) : SessionIn (codecTick s) :=
  h.of_same (by simp) (by simp) (by simp) (by simpa using h.up)

theorem SessionIn.of_runParse {s : State} (h : SessionIn s) (file : List Byte) (keep : Bool) :
    SessionIn (runParse file keep s) := by
  unfold runParse
  split
  · exact h.of_takeError _
  · exact h.of_same rfl rfl rfl (by simpa [Micro.usesLink] using h.up)

theorem SessionIn.of_runRecord {s t : State} (hs : SessionIn s) (h : runRecord s = .next t) : SessionIn t := by
  unfold runRecord at h
  split at h
  next => cases h; exact hs.of_takeError _
  next r _ =>
    split at h <;> cases h
    next u hu =>
      have hlatched : SessionIn (s.setCodec { s.codec with record := r }) := hs.of_same rfl rfl rfl hs.up
      have hdone : SessionIn u := (exec_effect hu).sessionIn hlatched
      exact hdone.of_same rfl rfl rfl hdone.up

theorem SessionIn.of_runRecords {s t : State} (hs : SessionIn s) (h : runRecords s = .next t) : SessionIn t := by
  unfold runRecords at h
  split at h
  next => cases h; exact hs
  split at h
  next => cases h; exact hs.of_takeError _
  next =>
    refine SessionIn.of_runRecord (s := s.setTodo (.records :: s.ctl.todo)) (hs.of_same rfl rfl rfl ?_) h
    simpa [Micro.usesLink] using hs.up

theorem SessionIn.of_runMergeEnd {s : State} (h : SessionIn s) : SessionIn (runMergeEnd s) := by
  unfold runMergeEnd
  repeat' split
  · exact h.of_takeError _
  · exact h.of_finish _
  · exact h.of_finish _

theorem SessionIn.of_runChunks {s : State} (h : SessionIn s) : SessionIn (runChunks s) := by
  unfold runChunks
  split
  · exact h.of_same rfl rfl rfl (by simpa [Micro.usesLink] using h.up)
  · exact h.of_same rfl rfl rfl (by simp)

theorem SessionIn.of_serializeFrom {s t : State} {c : Codec} {img : Image} {length : Nat} (hs : SessionIn s)
    (h : serializeFrom c img length s = .next t) : SessionIn t := by
  unfold serializeFrom at h
  split at h <;> cases h
  exact hs.of_same rfl rfl rfl (by simp [Micro.usesLink])

/-! ### The operations on the link, on a link that is up -/

/-- What goes on on a link that is up may put anything of the link before what is left. -/
theorem SessionIn.of_push {s t : State} (h : SessionIn s) (hup : linkUp s.session = true) (ht : t.session = s.session) :
    SessionIn t :=
  h.of_same (by rw [ht]) (by rw [ht]) (by rw [ht]) fun _ => hup

theorem SessionIn.of_initNext {s : State} (h : SessionIn s) (hup : linkUp s.session = true) : SessionIn (initNext s) := by
  unfold initNext
  repeat' split
  · exact h.of_link hup rfl rfl rfl
  · exact h.of_push hup rfl
  · exact h.of_takeError _

theorem SessionIn.of_pollNext {s : State} (h : SessionIn s) (hup : linkUp s.session = true) (q : Poll) :
    SessionIn (pollNext q s) := by
  unfold pollNext pollTimeout
  repeat' split
  · exact h.of_push hup rfl
  · exact h.of_takeError _
  · exact h.of_takeError _
  · exact h.of_finish _

theorem SessionIn.of_nvmNext {s : State} (h : SessionIn s) (hup : linkUp s.session = true) : SessionIn (nvmNext s) := by
  unfold nvmNext
  split
  · exact h.of_push hup rfl
  · exact h.of_takeError _

theorem SessionIn.of_setPollAttempt {s : State} (h : SessionIn s) (n : Nat) : SessionIn (s.setPollAttempt n) :=
  h.of_same rfl rfl rfl h.up

theorem runMicro_sessionIn {m : Micro} {s t : State} (hs : SessionIn s) (hup : m.usesLink = true → linkUp s.session = true)
    (h : runMicro m s = .next t) : SessionIn t := by
  cases m
  case records => exact hs.of_codecTick.of_runRecords h
  case cmd i => exact (exec_effect h).sessionIn hs
  case sendBytes bs => exact (runSend_effect h).sessionIn hs
  case recvBytes len => exact (runRecv_effect h).sessionIn hs
  case window asC =>
    simp only [runMicro, runWindow] at h
    split at h <;> cases h
    exact hs.of_finish _
  all_goals injection h with h; subst h
  case parse file keep => exact hs.of_codecTick.of_runParse file keep
  case parsed => exact hs.of_finish _
  case mergeSecond b => exact hs.of_same rfl rfl rfl (by simpa [Micro.usesLink, runMergeSecond] using hs.up)
  case mergeEnd => exact hs.of_runMergeEnd
  case chunks => exact hs.of_codecTick.of_runChunks
  all_goals specialize hup rfl
  case initTest => exact (hs.of_push (t := s.setInitRound (s.ctl.initRound + 1)) hup rfl).of_initNext hup
  case poll q => exact (hs.of_setPollAttempt 0).of_pollNext hup q
  case pollTest q =>
    unfold runPollTest
    split
    · exact hs.of_setPollAttempt _
    · exact (hs.of_setPollAttempt (s.ctl.pollAttempt + 1)).of_pollNext hup q
  case nvmWait => exact (hs.of_setPollAttempt 0).of_nvmNext hup
  case nvmTest =>
    unfold runNvmTest
    repeat' split
    · exact hs.of_takeError _
    · exact hs.of_setPollAttempt _
    · exact (hs.of_setPollAttempt (s.ctl.pollAttempt + 1)).of_nvmNext hup
  case keyTest bit =>
    unfold runKeyTest
    split
    · exact hs
    · exact hs.of_takeError _
  case unlocked => exact hs.of_link hup rfl rfl rfl
  case progTest =>
    unfold runProgTest
    split
    · exact hs.of_link hup rfl rfl rfl
    · exact hs.of_push hup rfl
  case progConfirm =>
    unfold runProgConfirm
    split
    · exact hs.of_link hup rfl rfl rfl
    · exact hs.of_finish _
  case left => exact hs.of_link hup rfl rfl rfl
  case compare =>
    unfold runCompare
    split
    · exact hs.of_push hup rfl
    · exact hs.of_takeError _
  case fuseVerify n value =>
    unfold runFuseVerify
    split
    · exact hs.of_finish _
    · exact hs.of_takeError _
  case readPage => unfold runReadPage; split <;> exact hs.of_push hup rfl
  case writePage => unfold runWritePage; (repeat' split) <;> exact hs.of_push hup rfl
  case verifyPage => unfold runVerifyPage; (repeat' split) <;> exact hs.of_push hup rfl
  case fuseTest n value => unfold runFuseTest; split <;> exact hs.of_push hup rfl
  all_goals exact hs.of_push hup rfl

/-! ### The start of an operation -/

theorem linkUp_of_hostLinkOk {ss : Session} (h : hostLinkOk ss = true) : linkUp ss = true := by
  revert h
  unfold hostLinkOk linkUp
  cases ss.linkState <;> simp

theorem linkUp_of_hostUnlockOk {ss : Session} (h : hostUnlockOk ss = true) : linkUp ss = true := by
  revert h
  unfold hostUnlockOk linkUp
  cases ss.linkState <;> simp

theorem linkUp_of_hostNvmOk {ss : Session} (h : hostNvmOk ss = true) : linkUp ss = true := by
  revert h
  unfold hostNvmOk linkUp
  cases ss.linkState <;> simp

/-- A request of the link starts on a session its permission finds up; those of the codec start nothing of the link. -/
theorem startRequest_sessionIn {r : Request} {s t : State} (hs : SessionIn s) (h : startRequest r s = .next t) :
    SessionIn t := by
  have onUp : ∀ {u : State}, linkUp s.session = true → u.session = s.session → SessionIn u := hs.of_push
  cases r
  case parse file => cases h; exact hs.of_same rfl rfl rfl (by simp [Micro.usesLink])
  case hex2c file => cases h; exact hs.of_same rfl rfl rfl (by simp [Micro.usesLink])
  case hex2bin file => cases h; exact hs.of_same rfl rfl rfl (by simp [Micro.usesLink])
  case merge a b => cases h; exact hs.of_same rfl rfl rfl (by simp [Micro.usesLink])
  case serialize image length => exact hs.of_serializeFrom h
  case txt2hex text =>
    simp only [startRequest, startTxt2hex] at h
    split at h
    next => cases h; exact hs.of_takeError _
    next => exact hs.of_serializeFrom h
  case close => cases h; exact .of_released rfl rfl rfl
  case newSession part baud verbosity =>
    obtain ⟨-, h⟩ := require_eq_next h
    obtain ⟨-, h⟩ := require_eq_next h
    obtain ⟨-, h⟩ := require_eq_next h
    cases h
    exact .of_ended rfl rfl rfl
  case initLink =>
    obtain ⟨hok, h⟩ := require_eq_next h
    cases h
    simp only [hostInitOk, Bool.and_eq_true, Option.isNone_iff_eq_none, decide_eq_true_eq] at hok
    obtain ⟨hfailed, hcold⟩ := hok
    exact ⟨fun hf => absurd hfailed hf, fun _ => hs.owned (by simp [hcold]), fun _ => by simp [linkUp, hfailed]⟩
  case command i =>
    obtain ⟨-, h⟩ := require_eq_next h
    obtain ⟨hok, h⟩ := require_eq_next h
    cases h
    exact onUp (linkUp_of_hostLinkOk hok) rfl
  case send bs =>
    obtain ⟨hok, h⟩ := require_eq_next h
    cases h
    exact onUp (linkUp_of_hostLinkOk hok) rfl
  case recv len =>
    obtain ⟨hok, h⟩ := require_eq_next h
    cases h
    exact onUp (linkUp_of_hostLinkOk hok) rfl
  case enterProgmode =>
    obtain ⟨hok, h⟩ := require_eq_next h
    cases h
    exact onUp (linkUp_of_hostLinkOk hok) rfl
  case leaveProgmode =>
    obtain ⟨hok, h⟩ := require_eq_next h
    cases h
    exact onUp (linkUp_of_hostLinkOk hok) rfl
  case unlockErase =>
    obtain ⟨hok, h⟩ := require_eq_next h
    cases h
    exact onUp (linkUp_of_hostUnlockOk hok) rfl
  case userrowWrite data =>
    obtain ⟨hok, h⟩ := require_eq_next h
    obtain ⟨-, h⟩ := require_eq_next h
    cases h
    exact onUp (linkUp_of_hostUnlockOk hok) rfl
  case waitNvmReady =>
    obtain ⟨hok, h⟩ := require_eq_next h
    cases h
    exact onUp (linkUp_of_hostNvmOk hok) rfl
  all_goals
    obtain ⟨hok, h⟩ := require_eq_next h
    obtain ⟨-, h⟩ := require_eq_next h
    cases h
    exact onUp (linkUp_of_hostNvmOk hok) rfl

theorem hostTurn_sessionIn {s t : State} (hs : SessionIn s) (h : hostTurn s = .next t) : SessionIn t := by
  unfold hostTurn at h
  split at h
  next => cases h; exact hs
  next r rs _ =>
    have hasked : SessionIn { s with ctl := { s.ctl with requests := rs, result := none } } :=
      hs.of_same rfl rfl rfl hs.up
    exact startRequest_sessionIn hasked h

theorem step_sessionIn {s t : State} (hs : SessionIn s) (h : step s = .next t) : SessionIn t := by
  obtain ⟨-, rfl | ⟨-, h⟩ | ⟨m, rest, htodo, h⟩⟩ := step_cases h
  · exact (interrupt_effect s).sessionIn hs
  · exact hostTurn_sessionIn hs h
  · have hup : ∀ x ∈ m :: rest, x.usesLink = true → linkUp s.session = true := fun x hx hl =>
      hs.up ⟨x, htodo ▸ hx, hl⟩
    have hrest : SessionIn (s.setTodo rest) :=
      hs.of_same rfl rfl rfl fun ⟨x, hx, hl⟩ => hup x (List.mem_cons_of_mem _ hx) hl
    exact runMicro_sessionIn hrest (hup m List.mem_cons_self) h

/-- Settles O59: the parameters by `step_keeps`, the session by `step_sessionIn`. -/
theorem sessionKept : Obligations.SessionKept := fun _ _ h =>
  ⟨(step_keeps h).params, fun hs => sessionOk_iff.2 (step_sessionIn (sessionOk_iff.1 hs) h)⟩

/-! ## What every step keeps of the loops between frames (R25, R241, R250, R264, R266 to R268, R320) -/

/-- A micro-operation that belongs to no loop: no page, no round of `init`, no test of an attempt, and no poll past the
greatest bound. -/
def Micro.OutsideLoops (p : Params) (m : Micro) : Prop :=
  m.isPageLoop = false ∧ m ≠ .initTest ∧ m.testBound p = none ∧ ∀ b, m.pollBound p = some b → b ≤ pollMax p

theorem cmd_outsideLoops (p : Params) (i : Instr) : (Micro.cmd i).OutsideLoops p := ⟨rfl, nofun, rfl, nofun⟩

theorem poll_outsideLoops {p : Params} {q : Poll} (h : q.attempts ≤ pollMax p) : (Micro.poll q).OutsideLoops p :=
  ⟨rfl, nofun, rfl, fun _ hb => Option.some.inj hb ▸ h⟩

theorem attempts_le_pollMax (p : Params) :
    p.unlockPollAttempts ≤ pollMax p ∧ p.progmodePollAttempts ≤ pollMax p ∧ p.urowPollAttempts ≤ pollMax p ∧
      p.nvmReadyAttempts ≤ pollMax p := by
  unfold pollMax
  omega

/-- The micro-operations that neither test an attempt nor poll nor stand in a page loop. -/
def Micro.unlooped : Micro → Bool
  | .initTest => false
  | .poll _ => false
  | .pollTest _ => false
  | .nvmTest => false
  | m => !m.isPageLoop

theorem unlooped_outsideLoops (p : Params) {m : Micro} (h : m.unlooped = true) : m.OutsideLoops p := by
  cases m <;> cases h <;> exact ⟨rfl, nofun, rfl, nofun⟩

theorem all_outsideLoops (p : Params) {ms : List Micro} (h : ms.all Micro.unlooped = true) :
    ∀ m ∈ ms, m.OutsideLoops p :=
  fun m hm => unlooped_outsideLoops p (List.all_eq_true.1 h m hm)

theorem unlockFrames_outsideLoops (p : Params) : ∀ m ∈ unlockFrames p, m.OutsideLoops p := by
  obtain ⟨hunlock, -⟩ := attempts_le_pollMax p
  simp only [unlockFrames, keycheckFrames, resetToggleFrames, List.cons_append, List.nil_append, List.forall_mem_cons,
    List.not_mem_nil, false_implies, implies_true, cmd_outsideLoops, true_and, and_true]
  exact ⟨unlooped_outsideLoops p rfl, poll_outsideLoops hunlock, unlooped_outsideLoops p rfl⟩

theorem enterFrames_outsideLoops (p : Params) : ∀ m ∈ enterFrames p, m.OutsideLoops p := by
  obtain ⟨-, hprog, -⟩ := attempts_le_pollMax p
  simp only [enterFrames, keycheckFrames, resetToggleFrames, List.cons_append, List.nil_append, List.forall_mem_cons,
    List.not_mem_nil, false_implies, implies_true, cmd_outsideLoops, true_and, and_true]
  exact ⟨unlooped_outsideLoops p rfl, poll_outsideLoops hprog, unlooped_outsideLoops p rfl⟩

theorem userrowFrames_outsideLoops (p : Params) (row : Nat) (data : List Byte) :
    ∀ m ∈ userrowFrames p row data, m.OutsideLoops p := by
  obtain ⟨-, -, hrow, -⟩ := attempts_le_pollMax p
  simp only [userrowFrames, keycheckFrames, resetToggleFrames, List.cons_append, List.nil_append, List.forall_mem_cons,
    List.not_mem_nil, false_implies, implies_true, cmd_outsideLoops, true_and, and_true]
  exact ⟨unlooped_outsideLoops p rfl, poll_outsideLoops hrow, unlooped_outsideLoops p rfl, poll_outsideLoops hrow,
    unlooped_outsideLoops p rfl, unlooped_outsideLoops p rfl⟩

/-- A change of the loops' cursors in no way but the page, of which one loop works: what stands before the rest holds this
loop's micro-operation, and its cursor lies inside the region where it stands inside a page. -/
theorem LoopsIn.of_page {s t : State} {m : Micro} {frames : List Micro} (hs : Popped s)
    (hrest : s.ctl.todo.countP Micro.isPageLoop = 0) (hm : m.isPageLoop = true)
    (hf : ∀ x ∈ frames, x.OutsideLoops s.params)
    (hx : t.params = s.params) (hr : t.nvm.region = s.nvm.region) (ht : t.ctl.todo = frames ++ m :: s.ctl.todo)
    (hp : t.nvm.p ≤ pageCount s.nvm.region.dims) (hi : m.isInPage = true → t.nvm.p < pageCount s.nvm.region.dims)
    (ha : t.ctl.pollAttempt = s.ctl.pollAttempt) (hir : t.ctl.initRound = s.ctl.initRound) : LoopsIn t := by
  have hne : m ≠ .initTest := by rintro rfl; cases hm
  have htest : m.testBound s.params = none := by cases m <;> cases hm <;> rfl
  have hpoll : m.pollBound s.params = none := by cases m <;> cases hm <;> rfl
  have hframes : frames.countP Micro.isPageLoop = 0 := List.countP_eq_zero.2 fun x hx => by simp [(hf x hx).1]
  have hcount : frames.count .initTest = 0 := List.count_eq_zero.2 fun h => (hf _ h).2.1 rfl
  refine LoopsIn.of_frames hs (frames ++ [m]) hx hr (by simp [ht]) hp ?_ ?_ ?_ (ha ▸ hs.loops.pa) (hir ▸ hs.loops.ir) ?_ ?_
  · rw [List.countP_append, hframes, hrest, List.countP_singleton, if_pos hm]
  · rintro ⟨x, hx, hin⟩
    rw [List.append_assoc, List.mem_append, List.singleton_append, List.mem_cons] at hx
    rcases hx with hx | rfl | hx
    · exact absurd ⟨x, hx, hin⟩ (noInPage hframes)
    · exact hi hin
    · exact absurd ⟨x, hx, hin⟩ (noInPage hrest)
  · intro x hx
    rcases List.mem_append.1 hx with hx | hx
    · exact (hf x hx).2.2
    · obtain rfl := List.mem_singleton.1 hx
      exact ⟨htest, by simp [hpoll]⟩
  · rw [List.count_append, hcount, List.count_singleton, if_neg (by simpa using hne)]
    simpa using hs.loops.ic
  · intro hx
    rw [List.append_assoc, List.mem_append, List.singleton_append, List.mem_cons] at hx
    rcases hx with hx | hx | hx
    · exact absurd rfl (hf _ hx).2.1
    · exact absurd hx.symm hne
    · exact hir ▸ hs.loops.ii hx

/-- The test that stands next has an attempt left, and its bound is one of R320's. -/
theorem LoopsIn.attempt_lt {s : State} {m : Micro} {rest : List Micro} {b : Nat} (h : LoopsIn s)
    (ht : s.ctl.todo = m :: rest) (hb : m.testBound s.params = some b) : s.ctl.pollAttempt < b ∧ b ≤ pollMax s.params := by
  have hcmd : ∀ i, m ≠ .cmd i := by rintro i rfl; cases hb
  have hpoll : m.pollBound s.params = some b := by cases m <;> cases hb <;> rfl
  refine ⟨h.head m b ?_ hb, h.pb m (by simp [ht]) b hpoll⟩
  rw [ht, pastFrame_noCmd hcmd]
  rfl

/-! ### The codec's operations -/

theorem LoopsIn.of_push {s t : State} (hs : Popped s) {frames : List Micro} (hf : ∀ m ∈ frames, m.OutsideLoops s.params)
    (hx : t.params = s.params) (hn : t.nvm = s.nvm) (ht : t.ctl.todo = frames ++ s.ctl.todo)
    (ha : t.ctl.pollAttempt = s.ctl.pollAttempt) (hr : t.ctl.initRound = s.ctl.initRound) : LoopsIn t :=
  LoopsIn.push hs frames hx (by rw [hn]) (by rw [hn]) ht (ha ▸ hs.loops.pa) hr hf

theorem Popped.of_codecTick {s : State} (hs : Popped s) : Popped (codecTick s) :=
  ⟨LoopsIn.of_codecTick s hs.loops, by simpa using hs.quiet⟩

/-- One micro-operation of the codec before what is left. -/
theorem LoopsIn.of_codec {s t : State} (hs : Popped s) {m : Micro} (hm : m.usesLink = false)
    (hx : t.params = s.params) (hn : t.nvm = s.nvm) (ht : t.ctl.todo = m :: s.ctl.todo)
    (ha : t.ctl.pollAttempt = s.ctl.pollAttempt) (hr : t.ctl.initRound = s.ctl.initRound) : LoopsIn t := by
  refine LoopsIn.of_push (frames := [m]) hs (all_outsideLoops _ ?_) hx hn ht ha hr
  cases m <;> cases hm <;> rfl

theorem runRecord_loopsIn {s t : State} (hs : LoopsIn s) (h : runRecord s = .next t) : LoopsIn t := by
  unfold runRecord at h
  split at h
  next => cases h; exact LoopsIn.of_takeError hs
  next r _ =>
    split at h <;> cases h
    next u hu =>
      have hlatched : LoopsIn (s.setCodec { s.codec with record := r }) := LoopsIn.same hs rfl rfl rfl rfl rfl rfl
      have hdone : LoopsIn u := loopsOk_iff.1 ((exec_effect hu).loops (loopsOk_iff.2 hlatched))
      exact LoopsIn.same hdone rfl rfl rfl rfl rfl rfl

theorem runRecords_loopsIn {s t : State} (hs : Popped s) (h : runRecords s = .next t) : LoopsIn t := by
  unfold runRecords at h
  split at h
  next => cases h; exact hs.loops
  split at h
  next => cases h; exact LoopsIn.of_takeError hs.loops
  next =>
    have hagain : LoopsIn (s.setTodo (.records :: s.ctl.todo)) := LoopsIn.of_codec hs rfl rfl rfl rfl rfl rfl
    exact runRecord_loopsIn hagain h

/-! ### The session's and the NVM controller's tests -/

/-- The round counted, `init` ends, or puts a double break and one more round before what is left. -/
theorem LoopsIn.of_initTest {s : State} (hs : Popped s) (hround : s.ctl.initRound < 2) (hone : .initTest ∉ s.ctl.todo) :
    LoopsIn (runInitTest s) := by
  have hcounted : LoopsIn (s.setInitRound (s.ctl.initRound + 1)) :=
    { hs.loops with ir := hround, ii := fun h => absurd h hone }
  unfold runInitTest initNext
  repeat' split
  · exact LoopsIn.ended hcounted rfl rfl rfl rfl hcounted.pa hcounted.ir
  next hleft =>
    have hcount : s.ctl.todo.count .initTest = 0 := List.count_eq_zero.2 hone
    have hframes : ∀ m ∈ Micro.cmd .doubleBreak :: handshakeFrames s.params,
        m.isPageLoop = false ∧ m.testBound s.params = none ∧ m.pollBound s.params = none := by
      simp [handshakeFrames, Micro.isPageLoop, Micro.isInPage, Micro.testBound, Micro.pollBound]
    have hloops : (Micro.cmd .doubleBreak :: handshakeFrames s.params).countP Micro.isPageLoop = 0 :=
      List.countP_eq_zero.2 fun m hm => by simp [(hframes m hm).1]
    refine LoopsIn.of_frames hs (.cmd .doubleBreak :: handshakeFrames s.params) rfl rfl rfl hs.loops.p ?_ ?_ ?_ hs.loops.pa
      hcounted.ir ?_ (fun _ => hleft)
    · rw [hloops, Nat.zero_add]
      exact hs.loops.cnt
    · rintro ⟨m, hm, hin⟩
      rcases List.mem_append.1 hm with hm | hm
      · exact absurd ⟨m, hm, hin⟩ (noInPage hloops)
      · exact hs.loops.inp ⟨m, hm, hin⟩
    · intro m hm
      obtain ⟨-, htest, hpoll⟩ := hframes m hm
      exact ⟨htest, by simp [hpoll]⟩
    · rw [hcount]
      rfl
  · exact LoopsIn.of_takeError hcounted

theorem LoopsIn.of_pollTest {s : State} {q : Poll} (hs : Popped s) (hlt : s.ctl.pollAttempt < q.attempts)
    (hmax : q.attempts ≤ pollMax s.params) : LoopsIn (runPollTest q s) := by
  unfold runPollTest
  split
  · exact LoopsIn.stay hs rfl rfl rfl rfl (show s.ctl.pollAttempt + 1 ≤ _ by omega) rfl
  · exact LoopsIn.of_pollNext hs hmax hlt

theorem LoopsIn.of_nvmTest {s : State} (hs : Popped s) (hlt : s.ctl.pollAttempt < s.params.nvmReadyAttempts) :
    LoopsIn (runNvmTest s) := by
  obtain ⟨-, -, -, hmax⟩ := attempts_le_pollMax s.params
  unfold runNvmTest
  repeat' split
  · exact LoopsIn.of_takeError hs.loops
  · exact LoopsIn.stay hs rfl rfl rfl rfl (show s.ctl.pollAttempt + 1 ≤ _ by omega) rfl
  · exact LoopsIn.of_nvmNext hs hlt

theorem runMicro_loopsIn {s t : State} {m : Micro} {rest : List Micro} (hl : LoopsIn s) (ht : s.ctl.todo = m :: rest)
    (h : runMicro m (s.setTodo rest) = .next t) : LoopsIn t := by
  by_cases hcmd : ∃ i, m = .cmd i
  · obtain ⟨i, rfl⟩ := hcmd
    exact loopsOk_iff.1 ((exec_effect h).loops (loopsOk_iff.2 (LoopsIn.tail_of_todo ht hl)))
  have hs : Popped (s.setTodo rest) := Popped.of_todo ht hl fun i hi => hcmd ⟨i, hi⟩
  have hmem : m ∈ s.ctl.todo := by simp [ht]
  cases m
  case cmd i => exact absurd ⟨i, rfl⟩ hcmd
  case records => exact runRecords_loopsIn hs.of_codecTick h
  case sendBytes bs => exact loopsOk_iff.1 ((runSend_effect h).loops (loopsOk_iff.2 hs.loops))
  case recvBytes len => exact loopsOk_iff.1 ((runRecv_effect h).loops (loopsOk_iff.2 hs.loops))
  case window asC =>
    simp only [runMicro, runWindow] at h
    split at h <;> cases h
    exact LoopsIn.of_finish hs.loops
  all_goals injection h with h; subst h
  case parse file keep =>
    unfold runParse
    split
    · exact LoopsIn.of_takeError hs.of_codecTick.loops
    · exact LoopsIn.of_codec hs.of_codecTick (m := .records) rfl rfl rfl rfl rfl rfl
  case mergeSecond b => exact LoopsIn.of_codec hs (m := .parse b true) rfl rfl rfl rfl rfl rfl
  case mergeEnd =>
    unfold runMergeEnd
    repeat' split
    · exact LoopsIn.of_takeError hs.loops
    · exact LoopsIn.of_finish hs.loops
    · exact LoopsIn.of_finish hs.loops
  case chunks =>
    unfold runChunks
    split
    · exact LoopsIn.of_codec hs.of_codecTick (m := .chunks) rfl rfl rfl rfl rfl rfl
    · exact LoopsIn.ended hs.of_codecTick.loops rfl rfl rfl rfl hs.of_codecTick.loops.pa hs.of_codecTick.loops.ir
  case initTest =>
    refine LoopsIn.of_initTest hs (hl.ii hmem) fun hrest => ?_
    have hcount := hl.ic
    have hpos : 0 < rest.count .initTest := List.count_pos_iff.2 hrest
    rw [ht, List.count_cons_self] at hcount
    omega
  case keyTest bit =>
    unfold runKeyTest
    split
    · exact hs.loops
    · exact LoopsIn.of_takeError hs.loops
  case poll q => exact LoopsIn.of_pollNext hs (hl.pb _ hmem _ rfl) (Nat.zero_le _)
  case pollTest q =>
    obtain ⟨hlt, hmax⟩ := hl.attempt_lt ht rfl
    exact LoopsIn.of_pollTest hs hlt hmax
  case nvmWait => exact LoopsIn.of_nvmNext hs (Nat.zero_le _)
  case nvmTest => exact LoopsIn.of_nvmTest hs (hl.attempt_lt ht rfl).1
  case progTest =>
    unfold runProgTest
    split
    · exact LoopsIn.ended hs.loops rfl rfl rfl rfl hs.loops.pa hs.loops.ir
    · exact LoopsIn.of_push hs (enterFrames_outsideLoops s.params) rfl rfl rfl rfl rfl
  case progConfirm =>
    unfold runProgConfirm
    split
    · exact LoopsIn.ended hs.loops rfl rfl rfl rfl hs.loops.pa hs.loops.ir
    · exact LoopsIn.of_finish hs.loops
  case fuseTest n value =>
    unfold runFuseTest
    split
    · exact LoopsIn.of_finish hs.loops
    · exact LoopsIn.of_push hs (all_outsideLoops _ rfl) rfl rfl rfl rfl rfl
  case fuseVerify n value =>
    unfold runFuseVerify
    split
    · exact LoopsIn.of_finish hs.loops
    · exact LoopsIn.of_takeError hs.loops
  case readPage =>
    have hrest := Popped.noPageLoop ht hl rfl
    unfold runReadPage
    split
    next hlt =>
      exact LoopsIn.of_page hs hrest (m := .readStore) rfl (all_outsideLoops _ rfl) rfl rfl rfl hl.p
        (fun _ => hlt) rfl rfl
    · exact LoopsIn.of_finish hs.loops
  case readStore =>
    exact LoopsIn.of_page hs (Popped.noPageLoop ht hl rfl) (m := .readPage) (frames := []) rfl nofun rfl rfl rfl
      (hl.inp ⟨_, hmem, rfl⟩) nofun rfl rfl
  case writePage =>
    have hrest := Popped.noPageLoop ht hl rfl
    unfold runWritePage
    split
    next hlt =>
      split
      · exact LoopsIn.of_page hs hrest (m := .writeDone) rfl (all_outsideLoops _ rfl) rfl rfl rfl hl.p
          (fun _ => hlt) rfl rfl
      · exact LoopsIn.of_page hs hrest (m := .writePage) (frames := []) rfl nofun rfl rfl rfl hlt nofun rfl rfl
    · exact LoopsIn.of_finish hs.loops
  case writeDone =>
    exact LoopsIn.of_page hs (Popped.noPageLoop ht hl rfl) (m := .writePage) (frames := []) rfl nofun rfl rfl rfl
      (hl.inp ⟨_, hmem, rfl⟩) nofun rfl rfl
  case verifyPage =>
    have hrest := Popped.noPageLoop ht hl rfl
    unfold runVerifyPage
    split
    next hlt =>
      split
      · exact LoopsIn.of_page hs hrest (m := .compare) rfl (all_outsideLoops _ rfl) rfl rfl rfl hl.p
          (fun _ => hlt) rfl rfl
      · exact LoopsIn.of_page hs hrest (m := .verifyPage) (frames := []) rfl nofun rfl rfl rfl hlt nofun rfl rfl
    · exact LoopsIn.of_finish hs.loops
  case compare =>
    unfold runCompare
    split
    · exact LoopsIn.of_page hs (Popped.noPageLoop ht hl rfl) (m := .verifyPage) (frames := []) rfl nofun rfl rfl rfl
        (hl.inp ⟨_, hmem, rfl⟩) nofun rfl rfl
    · exact LoopsIn.of_takeError hs.loops
  case openPage start len => exact LoopsIn.same hs.loops rfl rfl rfl rfl rfl rfl
  case closePage => exact LoopsIn.same hs.loops rfl rfl rfl rfl rfl rfl
  all_goals exact LoopsIn.ended hs.loops rfl rfl rfl rfl hs.loops.pa hs.loops.ir

/-! ### The start of an operation -/

/-- An operation of frames only starts where nothing was left. -/
theorem LoopsIn.of_start {s t : State} (hs : LoopsIn s) (hidle : s.ctl.todo = []) {frames : List Micro}
    (hf : ∀ m ∈ frames, m.OutsideLoops s.params) (h : t = s.setTodo frames) : LoopsIn t := by
  subst h
  exact LoopsIn.of_push ⟨hs, by simp [hidle, NoTest]⟩ hf rfl rfl (by simp [hidle]) rfl rfl

theorem pageCount_pos (d : RegionDims) : 0 < pageCount d := Nat.le_max_left 1 _

/-- `read`, `write` and `verify` start at the first page. -/
theorem LoopsIn.of_startNvm {s : State} (hs : LoopsIn s) (hidle : s.ctl.todo = []) (k : RegionKind) (src : List Byte)
    (total : Nat) {m : Micro} (hm : m.isPageLoop = true) : LoopsIn ((startNvm s k src total).setTodo [m]) := by
  have hnvm : LoopsIn (startNvm s k src total) :=
    { hs with p := Nat.zero_le _, inp := fun _ => pageCount_pos _ }
  refine LoopsIn.of_page ⟨hnvm, ?_⟩ ?_ hm (frames := []) nofun rfl rfl ?_ (Nat.zero_le _) (fun _ => pageCount_pos _) rfl rfl
  · simp [startNvm, hidle, NoTest]
  · simp [startNvm, hidle]
  · simp [startNvm, hidle]

/-- `init` starts its first round. -/
theorem LoopsIn.of_startInit {s : State} (hs : LoopsIn s) (hidle : s.ctl.todo = []) :
    LoopsIn (((s.setLink .syncPending).setInitRound 0).setTodo (handshakeFrames s.params)) := by
  have hframes : ∀ m ∈ handshakeFrames s.params,
      m.isPageLoop = false ∧ m.testBound s.params = none ∧ m.pollBound s.params = none := by
    simp [handshakeFrames, Micro.isPageLoop, Micro.isInPage, Micro.testBound, Micro.pollBound]
  have hloops : (handshakeFrames s.params).countP Micro.isPageLoop = 0 :=
    List.countP_eq_zero.2 fun m hm => by simp [(hframes m hm).1]
  refine LoopsIn.of_frames (s := s) ⟨hs, by simp [hidle, NoTest]⟩ (handshakeFrames s.params) rfl rfl (by simp [hidle]) hs.p
    (by simp [hloops, hidle]) ?_ ?_ hs.pa (Nat.zero_le _) (by simp [hidle, handshakeFrames]) (fun _ => Nat.zero_lt_two)
  · rw [hidle, List.append_nil]
    exact fun h => absurd h (noInPage hloops)
  · intro m hm
    obtain ⟨-, htest, hpoll⟩ := hframes m hm
    exact ⟨htest, by simp [hpoll]⟩

theorem serializeFrom_loopsIn {s t : State} {c : Codec} {img : Image} {length : Nat} (hs : LoopsIn s)
    (hidle : s.ctl.todo = []) (h : serializeFrom c img length s = .next t) : LoopsIn t := by
  unfold serializeFrom at h
  split at h <;> cases h
  exact LoopsIn.of_codec (s := s) ⟨hs, by simp [hidle, NoTest]⟩ (m := .chunks) rfl rfl rfl (by simp [hidle]) rfl rfl

theorem startRequest_loopsIn {r : Request} {s t : State} (hs : LoopsIn s) (hidle : s.ctl.todo = [])
    (h : startRequest r s = .next t) : LoopsIn t := by
  have starts : ∀ {frames : List Micro} {u : State}, (∀ m ∈ frames, m.OutsideLoops s.params) → u = s.setTodo frames →
      LoopsIn u := fun hf hu => hs.of_start hidle hf hu
  cases r
  case parse file => cases h; exact starts (all_outsideLoops _ rfl) rfl
  case hex2c file => cases h; exact starts (all_outsideLoops _ rfl) rfl
  case hex2bin file => cases h; exact starts (all_outsideLoops _ rfl) rfl
  case merge a b => cases h; exact starts (all_outsideLoops _ rfl) rfl
  case serialize image length => exact serializeFrom_loopsIn hs hidle h
  case txt2hex text =>
    simp only [startRequest, startTxt2hex] at h
    split at h
    next => cases h; exact LoopsIn.of_takeError hs
    next => exact serializeFrom_loopsIn hs hidle h
  case close => cases h; exact LoopsIn.ended hs rfl rfl rfl rfl hs.pa hs.ir
  all_goals replace h := (require_eq_next h).2
  case send bs => cases h; exact starts (all_outsideLoops _ rfl) rfl
  case recv len => cases h; exact starts (all_outsideLoops _ rfl) rfl
  case initLink => cases h; exact hs.of_startInit hidle
  case unlockErase => cases h; exact starts (unlockFrames_outsideLoops _) rfl
  case enterProgmode => cases h; exact starts (all_outsideLoops _ rfl) rfl
  case leaveProgmode => cases h; exact starts (all_outsideLoops _ rfl) rfl
  case waitNvmReady => cases h; exact starts (all_outsideLoops _ rfl) rfl
  all_goals replace h := (require_eq_next h).2
  case command i => cases h; exact starts (all_outsideLoops _ rfl) rfl
  case userrowWrite data => cases h; exact starts (userrowFrames_outsideLoops _ _ _) rfl
  case read k => cases h; exact hs.of_startNvm hidle k _ _ rfl
  case write k src => cases h; exact hs.of_startNvm hidle k _ _ rfl
  case verify k src => cases h; exact hs.of_startNvm hidle k _ _ rfl
  case fuseRead n => cases h; exact starts (all_outsideLoops _ rfl) rfl
  case fuseWrite n value => cases h; exact starts (all_outsideLoops _ rfl) rfl
  case newSession part baud verbosity =>
    obtain ⟨-, h⟩ := require_eq_next h
    cases h
    refine LoopsIn.ended (s := { s with nvm := Nvm.fresh }) { hs with p := Nat.zero_le _, inp := ?_ } rfl rfl rfl rfl
      (Nat.zero_le _) (Nat.zero_le _)
    exact fun _ => pageCount_pos _

theorem hostTurn_loopsIn {s t : State} (hs : LoopsIn s) (hidle : s.ctl.todo = []) (h : hostTurn s = .next t) :
    LoopsIn t := by
  unfold hostTurn at h
  split at h
  next => cases h; exact hs
  next r rs _ =>
    have hasked : LoopsIn { s with ctl := { s.ctl with requests := rs, result := none } } :=
      LoopsIn.same hs rfl rfl rfl rfl rfl rfl
    exact startRequest_loopsIn hasked hidle h

theorem step_loopsIn {s t : State} (hs : LoopsIn s) (h : step s = .next t) : LoopsIn t := by
  obtain ⟨-, rfl | ⟨hidle, h⟩ | ⟨m, rest, htodo, h⟩⟩ := step_cases h
  · exact loopsOk_iff.1 ((interrupt_effect s).loops (loopsOk_iff.2 hs))
  · exact hostTurn_loopsIn hs hidle h
  · exact runMicro_loopsIn hs htodo h

/-- Settles O58: IMG, the ranges and the places by `step_keeps`, the loops by `step_loopsIn`. -/
theorem codecKept : Obligations.CodecKept := by
  intro s t himage hcursors h
  have hkeeps := step_keeps h
  obtain ⟨hplaces, -⟩ := State.cursorsOk_iff.1 hcursors
  have hloops := step_loopsIn (LoopsIn.of_cursorsOk hcursors) h
  exact ⟨hkeeps.image himage, State.cursorsOk_iff.2 ⟨hkeeps.places hplaces, loopsOk_iff.2 hloops⟩⟩

end Sys2Proof.Machine
end

section
/-! Proofs of the statements about the operations of the codec (spec/41_hex_operations.md), but for the round trip of
`serialize` and `parse`: the records of a file and its end, what `parse` rejects, the lines of `serialize`, the scanner of
`txt2hex`, the window of `hex2c` and `hex2bin`. -/

namespace Sys2Proof.Machine

/-! ## The records of a file (R140, R141, R148, R170) -/

theorem exec_eof (aaaa : Word) (dd : List Byte) (s : State) :
    exec (.eof aaaa dd) s = .next (s.setCodec { s.codec with eofSeen := true }) := rfl

theorem step_records_calm {s : State} {rest : List Micro} (hrun : s.running) (hcalm : s.wire.irq = none)
    (htodo : s.ctl.todo = .records :: rest) : step s = runRecords (s.setTodo rest) := by
  have hmicro : step s = runRecords (codecTick (s.setTodo rest)) := step_micro hrun htodo
  rw [hmicro, codecTick_of_none (s := s.setTodo rest) hcalm]

theorem step_records_eof {s : State} {rest : List Micro} (hrun : s.running) (hcalm : s.wire.irq = none)
    (htodo : s.ctl.todo = .records :: rest) (heof : s.codec.eofSeen = true) : step s = .next (s.setTodo rest) := by
  rw [step_records_calm hrun hcalm htodo, runRecords]
  exact if_pos heof

theorem step_records_noEof {s : State} {rest : List Micro} (hrun : s.running) (hcalm : s.wire.irq = none)
    (htodo : s.ctl.todo = .records :: rest) (heof : s.codec.eofSeen = false) (hend : s.codec.file.length ≤ s.codec.pos) :
    step s = .next (takeError (.format .noEof) (s.setTodo rest)) := by
  rw [step_records_calm hrun hcalm htodo, runRecords, if_neg (by simp [heof])]
  exact if_pos hend

theorem step_parsed {s : State} {rest : List Micro} (hrun : s.running) (htodo : s.ctl.todo = .parsed :: rest) :
    step s = .next (finish (.image ⟨s.params.imgCap, s.codec.img⟩ s.codec.range) s) :=
  (step_micro hrun htodo).trans rfl

/-- After an `EOF` a `parse` takes two steps: past the file, and its return. -/
theorem run_after_eof {s : State} {rest : List Micro} (hrun : s.running) (hcalm : s.wire.irq = none)
    (htodo : s.ctl.todo = .records :: .parsed :: rest) (heof : s.codec.eofSeen = true) :
    run 2 s = .next (finish (.image ⟨s.params.imgCap, s.codec.img⟩ s.codec.range) s) := by
  rw [run_succ (step_records_eof hrun hcalm htodo heof), run_succ (step_parsed (s := s.setTodo (.parsed :: rest)) hrun rfl)]
  rfl

/-- Settles O9. -/
theorem eofEndsTheRecords : Obligations.EofEndsTheRecords := fun aaaa dd s =>
  ⟨exec_eof aaaa dd s, fun _ hrun hcalm heof htodo => run_after_eof hrun hcalm htodo heof⟩

/-- A record that decodes always answers a next state: `exec_record` names both kinds. -/
theorem exec_ofRecord_next (r : HexRecord) (s : State) : ∃ t, exec (Instr.ofRecord r) s = .next t := by
  rcases exec_record r s with ⟨e, he⟩ | ⟨c, hc, -⟩
  · exact ⟨_, he⟩
  · exact ⟨_, hc⟩

/-- Settles O13: the step latches the record, runs it, and advances the cursor. -/
theorem parseStepRunsTheDecodedRecord : Obligations.ParseStepRunsTheDecodedRecord := by
  intro s r rest hrun hcalm htodo heof hpos hr
  have hat : AtRecord s rest := ⟨hrun, hcalm, htodo, heof, hpos⟩
  obtain ⟨t, ht⟩ := exec_ofRecord_next r (s.setCodec { s.codec with record := r })
  exact ⟨t, ht, hat.step_ok hr ht⟩

theorem runParse_of_not_size {file : List Byte} (h : file.length < 11 ∨ 1048576 < file.length) (keep : Bool) (s : State) :
    runParse file keep s = takeError (.format (.fileSize file.length)) s := if_pos h

/-- Settles O15. -/
theorem parseRejects : Obligations.ParseRejects := by
  intro s rest hrun hcalm
  refine ⟨fun file keep htodo hsize => ?_, fun htodo heof => ⟨fun hend => ?_, fun hpos e he => ?_⟩⟩
  · have hstep : step s = .next (runParse file keep (codecTick (s.setTodo rest))) := step_micro hrun htodo
    rw [codecTick_of_none (s := s.setTodo rest) hcalm, runParse_of_not_size hsize] at hstep
    exact ⟨_, hstep, (takeError_format_exit _ _).of_setTodo⟩
  · exact ⟨_, step_records_noEof hrun hcalm htodo heof hend, (takeError_format_exit _ _).of_setTodo⟩
  · have hat : AtRecord s rest := ⟨hrun, hcalm, htodo, heof, hpos⟩
    exact ⟨_, hat.step_error he, takeError_format_exit _ s⟩

/-! ### `parse` ends (R157) -/

/-- The operation has ended with an image or a codec error. -/
def ParseEnded (t : State) : Prop :=
  t.ctl.todo = [] ∧ ((∃ img r, t.ctl.result = some (.image img r)) ∨ ∃ e, t.ctl.result = some (.error (.format e)))

theorem parseEnded_of_error (e : FormatError) (s : State) : ParseEnded (takeError (.format e) s) :=
  ⟨takeError_todo _ s, .inr ⟨e, takeError_result _ s⟩⟩

/-- A step at a line ends the operation, or leaves the loop at a later place of the same file. -/
theorem AtRecord.step_progress {s : State} {rest : List Micro} (h : AtRecord s rest) :
    ∃ t, step s = .next t ∧ (ParseEnded t ∨ (t.running ∧ t.wire.irq = none ∧ t.ctl.todo = s.ctl.todo ∧
      t.codec.file = s.codec.file ∧ s.codec.pos < t.codec.pos ∧ t.codec.pos ≤ s.codec.file.length)) := by
  cases hdec : decodeRecord (lineAt s.codec.file s.codec.pos) with
  | error e => exact ⟨_, h.step_error hdec, .inl (parseEnded_of_error _ s)⟩
  | ok r =>
    rcases exec_record r (s.setCodec { s.codec with record := r }) with ⟨e, he⟩ | ⟨c, hc, hfile, hpos, -⟩
    · exact ⟨_, h.step_ok hdec he, .inl (parseEnded_of_error e _)⟩
    · refine ⟨_, h.step_ok hdec hc, .inr ⟨h.running, h.calm, rfl, hfile, ?_⟩⟩
      show s.codec.pos < nextLinePos c.file c.pos ∧ nextLinePos c.file c.pos ≤ s.codec.file.length
      rw [hfile, hpos]
      exact ⟨nextLinePos_gt (lineAt_ne_nil hdec), nextLinePos_le h.inFile.le⟩

/-- From any place of the file, as many steps as bytes are left, and two. -/
theorem parse_ends : ∀ (left : Nat) (s : State), s.codec.file.length - s.codec.pos ≤ left → s.running → s.wire.irq = none →
    s.ctl.todo = [.records, .parsed] → ∃ n t, n ≤ left + 2 ∧ run n s = .next t ∧ ParseEnded t := by
  intro left
  induction left with
  | zero =>
    intro s hleft hrun hcalm htodo
    cases heof : s.codec.eofSeen with
    | true => exact ⟨2, _, le_rfl, run_after_eof hrun hcalm htodo heof, rfl, .inl ⟨_, _, rfl⟩⟩
    | false =>
      refine ⟨1, _, by omega, ?_, parseEnded_of_error .noEof (s.setTodo [.parsed])⟩
      rw [run_succ (step_records_noEof hrun hcalm htodo heof (by omega))]
      rfl
  | succ left ih =>
    intro s hleft hrun hcalm htodo
    cases heof : s.codec.eofSeen with
    | true => exact ⟨2, _, by omega, run_after_eof hrun hcalm htodo heof, rfl, .inl ⟨_, _, rfl⟩⟩
    | false =>
      rcases Nat.lt_or_ge s.codec.pos s.codec.file.length with hpos | hend
      · have hat : AtRecord s [.parsed] := ⟨hrun, hcalm, htodo, heof, hpos⟩
        obtain ⟨t, hstep, hended | ⟨hrun', hcalm', htodo', hfile, hgt, hle⟩⟩ := hat.step_progress
        · exact ⟨1, t, by omega, by rw [run_succ hstep]; rfl, hended⟩
        · obtain ⟨n, u, hn, hu, hended⟩ := ih t (by rw [hfile]; omega) hrun' hcalm' (htodo'.trans htodo)
          exact ⟨n + 1, u, by omega, by rw [run_succ hstep, hu], hended⟩
      · refine ⟨1, _, by omega, ?_, parseEnded_of_error .noEof (s.setTodo [.parsed])⟩
        rw [run_succ (step_records_noEof hrun hcalm htodo heof hend)]
        rfl

/-- Settles O16: the bytes left are at most those of the file. -/
theorem parseTerminates : Obligations.ParseTerminates := by
  intro s hrun hcalm htodo _
  exact parse_ends s.codec.file.length s (Nat.sub_le _ _) hrun hcalm htodo

/-! ## A word placed where the machine fetches (log 7) -/

theorem encode_hexLine_head {p : Params} {i : Instr} (h : i.format = .hexLine) : (encode p i).head? = some Config.colon := by
  cases i <;> cases h <;> rfl

theorem format_of_decodeFrame {p : Params} {bs : List Byte} {i : Instr} (h : decodeFrame p.opc 1 bs = .ok i) :
    i.format ≠ .hexLine := by
  intro hf
  match bs, h with
  | b :: insn :: ops, h =>
    rw [decodeFrame] at h
    split at h
    next =>
      have hhead := encode_hexLine_head (p := p) hf
      rw [(encode_of_decodeInsn (by decide) h).1] at hhead
      cases hhead
    next => cases h

theorem format_of_decodeBreak {bs : List Byte} {i : Instr} (h : decodeBreak bs = .ok i) : i.format ≠ .hexLine := by
  unfold decodeBreak at h
  repeat' split at h
  all_goals cases h
  all_goals exact nofun

theorem format_of_decodeCommand {p : Params} {bs : List Byte} {i : Instr} (h : decodeCommand p bs = .ok i) :
    i.format ≠ .hexLine := by
  unfold decodeCommand at h
  repeat' split at h
  all_goals cases h
  all_goals exact nofun

/-- A record instruction comes from a line, and is well-formed. -/
theorem wf_of_decode_hexLine {p : Params} {f : Format} {bs : List Byte} {i : Instr} (h : decode p f 1 bs = .ok i)
    (hi : i.format = .hexLine) : i.wf = true := by
  cases f with
  | hexLine => exact (lineDecodesOnlyFromItsBytes p 1 bs i h).1
  | updiFrame => exact absurd hi (format_of_decodeFrame h)
  | updiBreak => exact absurd hi (format_of_decodeBreak h)
  | nvmCommand => exact absurd hi (format_of_decodeCommand h)

theorem firstDecoded_decodes {rs : List (Format × List Byte)} {i : Instr} (h : firstDecoded rs = some i) :
    ∃ f bs, decode Params.default f 1 bs = .ok i := by
  induction rs with
  | nil => cases h
  | cons x rest ih =>
    rw [firstDecoded] at h
    split at h
    next hx => cases h; exact ⟨x.1, x.2, hx⟩
    next => exact ih h

theorem decodeTableWord_decodes {nbits w : Nat} {i : Instr} (h : decodeTableWord nbits w = some i) :
    ∃ f bs, decode Params.default f 1 bs = .ok i := by
  unfold decodeTableWord at h
  split at h
  next => exact firstDecoded_decodes h
  split at h
  next => exact firstDecoded_decodes h
  next => cases h

theorem isLinkInstr_eq_false_iff {i : Instr} : isLinkInstr i = false ↔ i.format = .hexLine := by
  unfold isLinkInstr
  cases i.format <;> simp

theorem withFetchWord_command {nbits w : Nat} {i : Instr} (h : decodeTableWord nbits w = some i)
    (hi : isLinkInstr i = true) (s : State) : s.withFetchWord nbits w = placeCommand s i := by
  simp [State.withFetchWord, placeWord, h, hi]

theorem withFetchWord_record {nbits w : Nat} {i : Instr} (h : decodeTableWord nbits w = some i)
    (hi : isLinkInstr i = false) (s : State) : s.withFetchWord nbits w = placeRecord s i := by
  simp [State.withFetchWord, placeWord, h, hi]

/-- The whole file of a placed record is one line. -/
theorem lineAt_zero_encode {p : Params} {i : Instr} (hf : i.format = .hexLine) (hw : i.wf = true) :
    lineAt (encode p i) 0 = encode p i := by
  obtain ⟨rr, aaaa, dd, -, henc, -⟩ := exists_line_of_hexLine hf hw
  rw [henc, lineAt, List.drop_zero, List.takeWhile_eq_self_iff]
  exact fun c hc => by simp [isTerminator_encodeLine hc]

/-- The step of a placed record is a step of `parse` at its line. -/
theorem step_placeRecord {i : Instr} (hf : i.format = .hexLine) (hw : i.wf = true) (s : State) :
    ∃ r t, Instr.ofRecord r = i ∧
      exec i ((placeRecord s i).setCodec { (placeRecord s i).codec with record := r }) = .next t ∧
      step (placeRecord s i) = .next (advancePos t) := by
  obtain ⟨r, hr, hri⟩ := decode_encode_hexLine hf hw s.params
  obtain ⟨t, ht⟩ := exec_ofRecord_next r ((placeRecord s i).setCodec { (placeRecord s i).codec with record := r })
  have hline : lineAt (placeRecord s i).codec.file (placeRecord s i).codec.pos = encode s.params i :=
    lineAt_zero_encode hf hw
  have hfile : (placeRecord s i).codec.pos < (placeRecord s i).codec.file.length := by
    show 0 < (encode s.params i).length
    rw [← lineAt_zero_encode hf hw]
    exact List.length_pos_iff.2 (lineAt_ne_nil (by rw [lineAt_zero_encode hf hw, hr]))
  have hat : AtRecord (placeRecord s i) [.parsed] := ⟨⟨rfl, nofun⟩, rfl, rfl, rfl, hfile⟩
  exact ⟨r, t, hri, hri ▸ ht, hat.step_ok (by rw [hline, hr]) ht⟩

/-- Settles O14: a command stands next in the operation, a record is the line at the cursor. -/
theorem placedWordRuns : Obligations.PlacedWordRuns := by
  intro s nbits w i h
  refine ⟨fun hi => ?_, fun hi => ?_⟩
  · rw [withFetchWord_command h hi]
    exact step_micro (s := placeCommand s i) ⟨rfl, nofun⟩ rfl
  · have hf := isLinkInstr_eq_false_iff.1 hi
    obtain ⟨f, bs, hdec⟩ := decodeTableWord_decodes h
    rw [withFetchWord_record h hi]
    exact step_placeRecord hf (wf_of_decode_hexLine hdec hf) s

/-! ## The lines of `serialize` (R171 to R174) -/

/-- The bytes of chunk `k`, and `0xFF` past its end. -/
theorem chunkBytes_getD (get : Nat → Byte) (length k j : Nat) :
    (chunkBytes get length k).getD j 0xFF = if j < 16 ∧ 16 * k + j < length then get (16 * k + j) else 0xFF := by
  have hlen : j < min 16 (length - 16 * k) ↔ j < 16 ∧ 16 * k + j < length := by omega
  by_cases hj : j < min 16 (length - 16 * k)
  · rw [if_pos (hlen.1 hj)]
    simp [chunkBytes, Config.serChunk, hj]
  · rw [if_neg (hj ∘ hlen.2)]
    simp [chunkBytes, Config.serChunk, hj]

theorem chunkBytes_length (get : Nat → Byte) (length k : Nat) :
    (chunkBytes get length k).length = min 16 (length - 16 * k) := by
  rw [chunkBytes, List.length_map, List.length_range]
  rfl

theorem trimSentinel_eq_rdropWhile (bs : List Byte) :
    trimSentinel bs = bs.rdropWhile (fun b => b == Config.sentinel) := rfl

theorem trimSentinel_eq_nil_iff {bs : List Byte} : trimSentinel bs = [] ↔ ∀ b ∈ bs, b = 0xFF := by
  rw [trimSentinel_eq_rdropWhile, List.rdropWhile_eq_nil_iff]
  simp [Config.sentinel]

/-- What is trimmed reads as the `0xFF` that it is. -/
theorem getD_append_sentinels {xs ys : List Byte} (h : ∀ y ∈ ys, y = 0xFF) (j : Nat) :
    (xs ++ ys).getD j 0xFF = xs.getD j 0xFF := by
  rcases Nat.lt_or_ge j xs.length with hj | hj
  · exact List.getD_append _ _ _ _ hj
  · rw [List.getD_append_right _ _ _ _ hj, List.getD_eq_default _ _ hj]
    rcases Nat.lt_or_ge (j - xs.length) ys.length with hk | hk
    · rw [List.getD_eq_getElem _ _ hk]
      exact h _ (List.getElem_mem hk)
    · exact List.getD_eq_default _ _ hk

theorem trimSentinel_getD (bs : List Byte) (j : Nat) : (trimSentinel bs).getD j 0xFF = bs.getD j 0xFF := by
  have hall : ∀ b ∈ bs.rtakeWhile (fun b => b == Config.sentinel), b = 0xFF := fun b hb => by
    simpa [Config.sentinel] using List.mem_rtakeWhile_imp hb
  have hsplit : trimSentinel bs ++ bs.rtakeWhile (fun b => b == Config.sentinel) = bs :=
    List.rdropWhile_append_rtakeWhile
  conv_rhs => rw [← hsplit]
  exact (getD_append_sentinels hall j).symm

/-- The last byte that is left is none that is trimmed. -/
theorem trimSentinel_last {bs : List Byte} (h : trimSentinel bs ≠ []) :
    (trimSentinel bs).getD ((trimSentinel bs).length - 1) 0xFF ≠ 0xFF := by
  have hlast : ¬ ((trimSentinel bs).getLast h == Config.sentinel) = true := List.rdropWhile_last_not _ _ h
  rw [List.getLast_eq_getElem] at hlast
  rw [List.getD_eq_getElem _ _ (Nat.sub_lt (List.length_pos_iff.2 h) Nat.one_pos)]
  simpa [Config.sentinel] using hlast

theorem trimSentinel_length_le (bs : List Byte) : (trimSentinel bs).length ≤ bs.length :=
  (List.rdropWhile_prefix _ (l := bs)).length_le

theorem padEven_length (bs : List Byte) : (padEven bs).length = (bs.length + 1) / 2 * 2 := by
  unfold padEven
  split
  · rw [List.length_append, List.length_singleton]
    omega
  · omega

theorem padEven_getD (bs : List Byte) (j : Nat) : (padEven bs).getD j 0xFF = bs.getD j 0xFF := by
  unfold padEven
  split
  · exact getD_append_sentinels (by simp [Config.sentinel]) j
  · rfl

/-- The data bytes of the line of chunk `k`. -/
def chunkData (get : Nat → Byte) (length k : Nat) : List Byte := padEven (trimSentinel (chunkBytes get length k))

theorem chunkData_getD (get : Nat → Byte) (length k j : Nat) :
    (chunkData get length k).getD j 0xFF = if j < 16 ∧ 16 * k + j < length then get (16 * k + j) else 0xFF := by
  rw [chunkData, padEven_getD, trimSentinel_getD, chunkBytes_getD]

theorem chunkData_length (get : Nat → Byte) (length k : Nat) :
    (chunkData get length k).length = ((trimSentinel (chunkBytes get length k)).length + 1) / 2 * 2 ∧
      (trimSentinel (chunkBytes get length k)).length ≤ min 16 (length - 16 * k) := by
  have htrim := trimSentinel_length_le (chunkBytes get length k)
  rw [chunkBytes_length] at htrim
  exact ⟨padEven_length _, htrim⟩

theorem chunkLine_of_blank {get : Nat → Byte} {length k : Nat} (h : trimSentinel (chunkBytes get length k) = []) :
    chunkLine get length k = [] := by
  rw [chunkLine, h]

theorem chunkLine_of_data {get : Nat → Byte} {length k : Nat} (h : trimSentinel (chunkBytes get length k) ≠ []) :
    chunkLine get length k = encodeLine 0x00 (BitVec.ofNat 16 (16 * k)) (chunkData get length k) ++ crlf := by
  unfold chunkLine
  split
  next hnil => exact absurd hnil h
  next hcons => rw [← hcons]; rfl

/-- A byte other than `0xFF` is left, and what stands after the last one is not. -/
theorem trimSentinel_length_eq {bs : List Byte} {last : Nat} (hne : bs.getD last 0xFF ≠ 0xFF)
    (hrest : ∀ j, last < j → bs.getD j 0xFF = 0xFF) : (trimSentinel bs).length = last + 1 := by
  have hlt : last < (trimSentinel bs).length := by
    by_contra hge
    rw [← trimSentinel_getD, List.getD_eq_default _ _ (Nat.not_lt.1 hge)] at hne
    exact hne rfl
  have hend := trimSentinel_last (bs := bs) (List.ne_nil_of_length_pos (Nat.zero_lt_of_lt hlt))
  by_contra hlen
  rw [trimSentinel_getD, hrest _ (by omega)] at hend
  exact hend rfl

/-- Settles O18: the line is the encoding of the chunk's data. -/
theorem chunkLineForm : Obligations.ChunkLineForm := by
  intro p img len k _ hk
  refine ⟨fun hblank => chunkLine_of_blank (trimSentinel_eq_nil_iff.2 fun b hb => ?_), fun last hlast h16 hne hrest => ?_⟩
  · obtain ⟨j, hj, rfl⟩ := List.mem_map.1 hb
    rw [List.mem_range, Config.serChunk] at hj
    exact hblank _ (by rw [Config.serChunk]; omega) (by rw [Config.serChunk]; omega)
  · have hlength : (trimSentinel (chunkBytes img.get len k)).length = last + 1 := by
      refine trimSentinel_length_eq (by rwa [chunkBytes_getD, if_pos ⟨h16, hlast⟩]) fun j hj => ?_
      rw [chunkBytes_getD]
      split
      next hin => exact hrest j hj hin.1 hin.2
      next => rfl
    obtain ⟨hdata, -⟩ := chunkData_length img.get len k
    rw [hlength] at hdata
    refine ⟨_, _, chunkLine_of_data (List.ne_nil_of_length_pos (by omega)), ?_, hdata, by omega, fun j hj => ?_⟩
    · rw [decode, decodeRecord_encodeLine (by omega)]
      rfl
    · have hbyte := chunkData_getD img.get len k j
      rw [List.getD_eq_getElem _ _ hj] at hbyte ⊢
      rw [hbyte]
      have hj16 : j < 16 := by omega
      simp only [hj16, true_and]

theorem runChunks_of_end {s : State} {rest : List Micro} (h : chunkCount s.codec.length ≤ s.codec.k) :
    runChunks (s.setTodo rest) = finish (.file (s.codec.out ++ terminatorLine))
      ((s.setTodo rest).setCodec { s.codec with out := s.codec.out ++ terminatorLine }) :=
  if_neg (Nat.not_lt.2 h)

theorem serializeFrom_of_fits {img : Image} {length : Nat} (hsize : length ≤ img.size) (hmax : length ≤ 65536) (c : Codec)
    (s : State) : serializeFrom c img length s =
      .next ((s.setCodec { c with image := img, length := length }).setTodo [.chunks]) :=
  if_neg (not_or.2 ⟨Nat.not_lt.2 hsize, Nat.not_lt.2 hmax⟩)

/-- Settles O19. -/
theorem serializeEndsAndRefuses : Obligations.SerializeEndsAndRefuses := by
  intro s hrun
  refine ⟨fun rest htodo hcalm hend => ?_, fun img len rs htodo hreq hlong => ?_⟩
  · have hstep : step s = .next (runChunks (codecTick (s.setTodo rest))) := step_micro hrun htodo
    rw [codecTick_of_none (s := s.setTodo rest) hcalm, runChunks_of_end hend] at hstep
    exact ⟨_, hstep, rfl, rfl⟩
  · rw [step_host hrun htodo, hostTurn, hreq]
    exact if_pos hlong

/-! ## The scanner of `txt2hex` (R175) -/

theorem hexByte_of_hexVal {c d : Byte} {h l : Nat} (hc : hexVal c = some h) (hd : hexVal d = some l) :
    hexByte c d = some (BitVec.ofNat 8 (16 * h + l)) := by rw [hexByte, hc, hd]

theorem hexByte_eq_none {c d : Byte} (h : hexVal c = none ∨ hexVal d = none) : hexByte c d = none := by
  unfold hexByte
  rcases h with h | h
  · rw [h]
  · rw [h]
    cases hexVal c <;> rfl

/-- Neither character of `0x` or `0X` spells a byte with what stands before or after it. -/
theorem not_zeroX_of_hexVal {c d : Byte} (h : ¬ (hexVal c ≠ none ∧ hexVal d = none)) :
    ¬ (c = 0x30 ∧ (d = 0x78 ∨ d = 0x58)) := by
  rintro ⟨rfl, rfl | rfl⟩ <;> exact h (by decide)

theorem scanText_pair (i : Nat) {c d : Byte} {h l : Nat} (text : List Byte) (hc : hexVal c = some h)
    (hd : hexVal d = some l) :
    scanText i (c :: d :: text) = (scanText (i + 2) text).map (fun bs => BitVec.ofNat 8 (16 * h + l) :: bs) := by
  rw [scanText, if_neg (not_zeroX_of_hexVal (by simp [hd])), hexByte_of_hexVal hc hd]
  cases scanText (i + 2) text <;> rfl

theorem scanText_other (i : Nat) {c : Byte} (text : List Byte) (hc : hexVal c = none) :
    scanText i (c :: text) = scanText (i + 1) text := by
  cases text with
  | nil => simp [scanText, isHex, hc]
  | cons d rest =>
    rw [scanText, if_neg (not_zeroX_of_hexVal (by simp [hc])), hexByte_eq_none (.inl hc)]
    simp [isHex, hc]

theorem scanText_lone (i : Nat) {c d : Byte} (text : List Byte) (hc : (hexVal c).isSome = true) (hd : hexVal d = none)
    (hprefix : ¬ (c = 0x30 ∧ (d = 0x78 ∨ d = 0x58))) : scanText i (c :: d :: text) = .error i := by
  rw [scanText, if_neg hprefix, hexByte_eq_none (.inr hd)]
  exact if_pos hc

theorem step_txt2hex {s : State} {text : List Byte} {rs : List Request} (hrun : s.running) (htodo : s.ctl.todo = [])
    (hreq : s.ctl.requests = .txt2hex text :: rs) :
    step s = startTxt2hex text { s with ctl := { s.ctl with requests := rs, result := none } } := by
  rw [step_host hrun htodo, hostTurn, hreq]
  rfl

theorem startTxt2hex_of_bytes {text bs : List Byte} (h : scanText 0 text = .ok bs) (s : State) :
    startTxt2hex text s =
      serializeFrom { Codec.fresh with img := imgOf bs } ⟨s.params.imgCap, imgOf bs⟩ bs.length s := by
  rw [startTxt2hex, h]

/-- Settles O20: the clauses of the scanner, then the step of `txt2hex` on what the scanner found. -/
theorem scannerFindsHexPairs : Obligations.ScannerFindsHexPairs := by
  refine ⟨fun i c d h l text => scanText_pair i text, fun i text => ⟨rfl, rfl, rfl⟩, fun i c text => scanText_other i text,
    fun i c hc => if_pos hc, fun i c d text => scanText_lone i text, fun s text rs hrun htodo hreq => ?_⟩
  have hstep := step_txt2hex hrun htodo hreq
  refine ⟨fun i hi => ?_, fun bs hbs => ?_⟩
  · rw [startTxt2hex, hi] at hstep
    exact ⟨_, hstep, { takeError_format_exit (.loneNibble i) _ with }⟩
  · rw [startTxt2hex_of_bytes hbs] at hstep
    refine ⟨fun hmax hcap => ?_, fun hlong => hstep.trans (if_pos hlong.symm)⟩
    rw [serializeFrom_of_fits hcap hmax] at hstep
    exact ⟨_, hstep, rfl, rfl, rfl, rfl, rfl, rfl, fun a => ⟨imgOf_read bs a, imgOf_read bs a⟩, rfl, rfl, rfl, rfl, rfl⟩

/-! ## The window of `hex2c` and `hex2bin` (R176 to R178) -/

theorem windowStart_spec (r : Range) : windowStart r % 2 = 0 ∧ windowStart r ≤ r.low ∧ r.low ≤ windowStart r + 1 := by
  unfold windowStart
  omega

theorem windowEnd_spec (r : Range) : windowEnd r % 2 = 1 ∧ r.high ≤ windowEnd r ∧ windowEnd r ≤ r.high + 1 := by
  unfold windowEnd
  omega

theorem windowBytes_length (c : Codec) (r : Range) : (windowBytes c r).length = windowEnd r - windowStart r + 1 := by
  rw [windowBytes, List.length_map, List.length_range]

theorem windowBytes_getD (c : Codec) (r : Range) {j : Nat} (h : j < (windowBytes c r).length) :
    (windowBytes c r).getD j 0 = c.imgByte (windowStart r + j) := by
  rw [List.getD_eq_getElem _ _ h]
  simp [windowBytes]

theorem step_window {s : State} {asC : Bool} {rest : List Micro} (hrun : s.running)
    (htodo : s.ctl.todo = .window asC :: rest) : step s = runWindow asC (s.setTodo rest) := step_micro hrun htodo

/-- Settles O22: the requests, then the window of the range there is. -/
theorem windowIsWordAligned : Obligations.WindowIsWordAligned := by
  refine ⟨fun s file rs hrun htodo => ⟨fun hreq => ?_, fun hreq => ?_⟩, fun s asC rest hrun htodo =>
    ⟨fun hnone => ?_, fun lo hi hrange _ => ?_⟩⟩
  · rw [step_host hrun htodo, hostTurn, hreq]
    rfl
  · rw [step_host hrun htodo, hostTurn, hreq]
    rfl
  · rw [step_window hrun htodo, runWindow, State.setTodo_codec, hnone]
  · obtain ⟨heven, hlow, hlow'⟩ := windowStart_spec ⟨lo, hi⟩
    obtain ⟨hodd, hhigh, hhigh'⟩ := windowEnd_spec ⟨lo, hi⟩
    have hstep := step_window hrun htodo
    rw [runWindow, State.setTodo_codec, hrange] at hstep
    exact ⟨_, _, _, _, hstep, rfl, rfl, heven, hodd, hlow, hlow', hhigh, hhigh', windowBytes_length _ _,
      fun j hj => windowBytes_getD _ _ hj⟩

end Sys2Proof.Machine
end

section
/-! The round trip of `serialize` and `parse` (spec/41_hex_operations.md rules R170 to R174): the file that `serialize` writes,
and what `parse` has stored after each of its lines. -/

namespace Sys2Proof.Machine

/-! ## The file that `serialize` writes -/

/-- The lines of `m` chunks from chunk `k` up. -/
def chunkLines (get : Nat → Byte) (length k m : Nat) : List Byte := (List.range' k m).flatMap (chunkLine get length)

theorem chunkLines_zero (get : Nat → Byte) (length k : Nat) : chunkLines get length k 0 = [] := rfl

theorem chunkLines_succ (get : Nat → Byte) (length k m : Nat) :
    chunkLines get length k (m + 1) = chunkLine get length k ++ chunkLines get length (k + 1) m := by
  rw [chunkLines, List.range'_succ, List.flatMap_cons]
  rfl

theorem chunkLine_length_le (get : Nat → Byte) (length k : Nat) : (chunkLine get length k).length ≤ 45 := by
  by_cases h : trimSentinel (chunkBytes get length k) = []
  · simp [chunkLine_of_blank h]
  · obtain ⟨hlen, htrim⟩ := chunkData_length get length k
    simp only [chunkLine_of_data h, List.length_append, encodeLine_length, crlf, List.length_cons, List.length_nil]
    omega

theorem chunkLines_length_le (get : Nat → Byte) (length k m : Nat) : (chunkLines get length k m).length ≤ 45 * m := by
  induction m generalizing k with
  | zero => exact Nat.zero_le _
  | succ m ih =>
    have hfirst := chunkLine_length_le get length k
    have hrest := ih (k + 1)
    rw [chunkLines_succ, List.length_append]
    omega

theorem runChunks_of_more {s : State} {rest : List Micro} (h : s.codec.k < chunkCount s.codec.length) :
    runChunks (s.setTodo rest) = ((s.setTodo rest).setCodec { s.codec with
      out := s.codec.out ++ chunkLine s.codec.image.get s.codec.length s.codec.k
      k := s.codec.k + 1 }).setTodo (.chunks :: rest) := if_pos h

theorem step_chunks {s : State} {rest : List Micro} (hrun : s.running) (hcalm : s.wire.irq = none)
    (htodo : s.ctl.todo = .chunks :: rest) : step s = .next (runChunks (s.setTodo rest)) := by
  have hstep : step s = .next (runChunks (codecTick (s.setTodo rest))) := step_micro hrun htodo
  rw [hstep, codecTick_of_none (s := s.setTodo rest) hcalm]

/-- The loop of `serialize` adds the lines of the chunks that are left, and the terminator. -/
theorem run_chunks (m : Nat) (s : State) (hrun : s.running) (hcalm : s.wire.irq = none) (htodo : s.ctl.todo = [.chunks])
    (hleft : s.codec.k + m = chunkCount s.codec.length) :
    ∃ t, run (m + 1) s = .next t ∧ t.ctl.todo = [] ∧ t.ctl.result = some (.file
      (s.codec.out ++ chunkLines s.codec.image.get s.codec.length s.codec.k m ++ terminatorLine)) := by
  induction m generalizing s with
  | zero =>
    have hstep := step_chunks hrun hcalm htodo
    rw [runChunks_of_end hleft.ge] at hstep
    exact ⟨_, run_succ hstep 0, rfl, by rw [chunkLines_zero, List.append_nil]; rfl⟩
  | succ m ih =>
    have hstep := step_chunks hrun hcalm htodo
    rw [runChunks_of_more (by omega)] at hstep
    obtain ⟨t, ht, hend, hres⟩ := ih (((s.setTodo []).setCodec { s.codec with
      out := s.codec.out ++ chunkLine s.codec.image.get s.codec.length s.codec.k
      k := s.codec.k + 1 }).setTodo [.chunks]) hrun hcalm rfl (Nat.add_right_comm _ 1 m ▸ hleft)
    refine ⟨t, (run_succ hstep _).trans ht, hend, hres.trans ?_⟩
    rw [chunkLines_succ]
    simp

/-- `serialize` writes the lines of all chunks and the terminator. -/
theorem run_serialize {s : State} {img : Image} {len : Nat} (hrun : s.running) (hcalm : s.wire.irq = none)
    (htodo : s.ctl.todo = []) (hreq : s.ctl.requests = [.serialize img len]) (hsize : len ≤ img.size) (hmax : len ≤ 65536) :
    ∃ n t, run n s = .next t ∧ t.ctl.todo = [] ∧
      t.ctl.result = some (.file (chunkLines img.get len 0 (chunkCount len) ++ terminatorLine)) := by
  have hstep : step s = serializeFrom Codec.fresh img len { s with ctl := { s.ctl with requests := [], result := none } } := by
    rw [step_host hrun htodo, hostTurn, hreq]
    rfl
  rw [serializeFrom_of_fits hsize hmax] at hstep
  obtain ⟨t, ht, hend, hres⟩ := run_chunks (chunkCount len) (({ s with ctl := { s.ctl with requests := [], result := none } }.setCodec
    { Codec.fresh with image := img, length := len }).setTodo [.chunks]) hrun hcalm rfl (Nat.zero_add _)
  exact ⟨_, t, (run_succ hstep _).trans ht, hend, hres⟩

/-! ## Cutting the lines of a file that was written -/

theorem lineAt_append {l : List Byte} (pre rest : List Byte) (hl : ∀ c ∈ l, isTerminator c = false) :
    lineAt (pre ++ (l ++ crlf ++ rest)) pre.length = l := by
  rw [lineAt, List.drop_left, List.append_assoc, List.takeWhile_append_of_pos (fun c hc => by simp [hl c hc])]
  simp [crlf, isTerminator]

/-- A line's end is the next line's begin, when what follows does not begin with a terminator. -/
theorem nextLinePos_append {l rest : List Byte} (pre : List Byte) (hl : ∀ c ∈ l, isTerminator c = false)
    (hrest : rest.takeWhile isTerminator = []) :
    nextLinePos (pre ++ (l ++ crlf ++ rest)) pre.length = (pre ++ (l ++ crlf)).length := by
  have hdrop : (pre ++ (l ++ crlf ++ rest)).drop (pre.length + l.length) = crlf ++ rest := by
    rw [← List.length_append, List.append_assoc l, ← List.append_assoc, List.drop_left]
  have hrun : (crlf ++ rest).takeWhile isTerminator = crlf := by
    rw [List.takeWhile_append_of_pos (by decide), hrest, List.append_nil]
  rw [nextLinePos, lineAt_append pre rest hl, skipTerminators, hdrop, hrun]
  simp only [List.length_append, Nat.add_assoc]

theorem chunkLines_no_terminator (get : Nat → Byte) (length k m : Nat) :
    (chunkLines get length k m ++ terminatorLine).takeWhile isTerminator = [] := by
  induction m generalizing k with
  | zero => rfl
  | succ m ih =>
    rw [chunkLines_succ]
    by_cases h : trimSentinel (chunkBytes get length k) = []
    · rw [chunkLine_of_blank h]
      exact ih (k + 1)
    · rw [chunkLine_of_data h]
      rfl

theorem terminatorLine_eq : terminatorLine = encodeLine 0x01 0 [] ++ crlf := by decide

/-! ## What `parse` has stored -/

/-- IMG and the range when the first `n` addresses of the image of `length` bytes have been read, by the records alone. -/
structure ReadUpTo (get : Nat → Byte) (length n : Nat) (c : Codec) : Prop where
  offset : c.offset = 0
  eofSeen : c.eofSeen = false
  image : ∀ a, c.imgByte a = if a < n ∧ a < length then get a else 0xFF
  range : Tracks none (fun a => (a < n ∧ a < length) ∧ get a ≠ 0xFF) c.range

theorem ReadUpTo.start (get : Nat → Byte) (length : Nat) (c : Codec) (file : List Byte) :
    ReadUpTo get length 0 (c.start file false) where
  offset := rfl
  eofSeen := rfl
  image a := by
    rw [if_neg (fun h => Nat.not_lt_zero a h.1)]
    rfl
  range := Tracks.of_empty (fun a h => Nat.not_lt_zero a h.1.1) none

/-- The bytes of a chunk's line that are not `0xFF`. -/
theorem marked_chunkData_iff (get : Nat → Byte) (length k a : Nat) :
    Marked (16 * k) (chunkData get length k) a ↔ (16 * k ≤ a ∧ a < 16 * (k + 1) ∧ a < length) ∧ get a ≠ 0xFF := by
  constructor
  · rintro ⟨j, -, hne, rfl⟩
    rw [chunkData_getD] at hne
    split at hne
    next hin => exact ⟨by omega, hne⟩
    next => exact absurd rfl hne
  · rintro ⟨hin, hne⟩
    have hbyte := chunkData_getD get length k (a - 16 * k)
    rw [if_pos (by omega), Nat.add_sub_cancel' hin.1] at hbyte
    refine ⟨a - 16 * k, ?_, by rwa [hbyte], by omega⟩
    by_contra hge
    rw [List.getD_eq_default _ _ (Nat.not_lt.1 hge)] at hbyte
    exact hne hbyte.symm

/-- The line of a chunk brings its bytes, whether it is written or left out. -/
theorem ReadUpTo.store {get : Nat → Byte} {length k : Nat} {c : Codec} (h : ReadUpTo get length (16 * k) c) :
    ReadUpTo get length (16 * (k + 1)) (c.store (16 * k) (chunkData get length k)) where
  offset := h.offset
  eofSeen := h.eofSeen
  image a := by
    obtain ⟨hlen, htrim⟩ := chunkData_length get length k
    have hbyte := chunkData_getD get length k (a - 16 * k)
    rw [Codec.imgByte_store, h.image]
    rcases Nat.lt_or_ge a (16 * k) with hlow | hlow
    · rw [if_neg (by omega)]
      exact if_congr (by omega) rfl rfl
    · rw [if_neg (c := a < 16 * k ∧ a < length) (by omega)]
      split
      next hin =>
        rw [show Config.sentinel = 0xFF from rfl, hbyte, Nat.add_sub_cancel' hlow]
        exact if_congr (by omega) rfl rfl
      next hout =>
        rw [List.getD_eq_default _ _ (by omega)] at hbyte
        rw [Nat.add_sub_cancel' hlow] at hbyte
        exact hbyte.trans (if_congr (by omega) rfl rfl)
  range := by
    have htracks := h.range.trans (tracks_noteBytes c.range (16 * k) (chunkData get length k))
    have hset : (fun a => ((a < 16 * k ∧ a < length) ∧ get a ≠ 0xFF) ∨ Marked (16 * k) (chunkData get length k) a) =
        fun a => (a < 16 * (k + 1) ∧ a < length) ∧ get a ≠ 0xFF := by
      funext a
      rw [marked_chunkData_iff, ← or_and_right]
      exact propext (and_congr_left' (by omega))
    rw [hset] at htracks
    exact htracks

/-- The place in the file and the latched record are no part of what was read. -/
theorem ReadUpTo.of_same {get : Nat → Byte} {length n : Nat} {c d : Codec} (h : ReadUpTo get length n c)
    (himg : ∀ a, d.imgByte a = c.imgByte a) (hrange : d.range = c.range) (hoff : d.offset = c.offset)
    (heof : d.eofSeen = c.eofSeen) : ReadUpTo get length n d where
  offset := hoff.trans h.offset
  eofSeen := heof.trans h.eofSeen
  image a := (himg a).trans (h.image a)
  range := hrange ▸ h.range

theorem ReadUpTo.blank {get : Nat → Byte} {length k : Nat} {c : Codec} (h : ReadUpTo get length (16 * k) c)
    (hblank : trimSentinel (chunkBytes get length k) = []) : ReadUpTo get length (16 * (k + 1)) c := by
  have hnil : chunkData get length k = [] := by rw [chunkData, hblank]; rfl
  have hstore := h.store
  rw [hnil] at hstore
  refine hstore.of_same (fun a => ?_) rfl rfl rfl
  rw [Codec.imgByte_store, if_neg (by simp)]

/-! ## `parse` of the file -/

/-- A `parse` with `done` behind its cursor and `rest` before it. -/
structure ParsingAt (s : State) (done rest : List Byte) : Prop where
  running : s.running
  calm : s.wire.irq = none
  todo : s.ctl.todo = [.records, .parsed]
  file : s.codec.file = done ++ rest
  pos : s.codec.pos = done.length

/-- At a written line `parse` runs its record and stands behind it. -/
theorem ParsingAt.step_line {s : State} {done rest : List Byte} {rr : Byte} {aaaa : Word} {dd : List Byte} {c : Codec}
    (h : ParsingAt s done (encodeLine rr aaaa dd ++ crlf ++ rest)) (heof : s.codec.eofSeen = false) (hdd : dd.length ≤ 255)
    (hrest : rest.takeWhile isTerminator = [])
    (hexec : exec (Instr.ofRecord (lineRecord rr aaaa dd)) (s.setCodec { s.codec with record := lineRecord rr aaaa dd }) =
      .next (s.setCodec c)) (hfile : c.file = s.codec.file) (hpos : c.pos = s.codec.pos) :
    ∃ t, step s = .next t ∧ ParsingAt t (done ++ (encodeLine rr aaaa dd ++ crlf)) rest ∧ t.params = s.params ∧
      t.codec = { c with pos := (done ++ (encodeLine rr aaaa dd ++ crlf)).length } := by
  have hline : lineAt s.codec.file s.codec.pos = encodeLine rr aaaa dd := by
    rw [h.file, h.pos, lineAt_append done rest fun _ => isTerminator_encodeLine]
  have hin : s.codec.pos < s.codec.file.length := by
    rw [h.file, h.pos]
    simp [crlf]
  have hat : AtRecord s [.parsed] := ⟨h.running, h.calm, h.todo, heof, hin⟩
  have hstep := hat.step_ok (by rw [hline, decodeRecord_encodeLine hdd]) hexec
  have hnext : nextLinePos c.file c.pos = (done ++ (encodeLine rr aaaa dd ++ crlf)).length := by
    rw [hfile, hpos, h.file, h.pos, nextLinePos_append done (fun _ => isTerminator_encodeLine) hrest]
  refine ⟨_, hstep, ⟨h.running, h.calm, h.todo, ?_, hnext⟩, rfl, by rw [← hnext]; rfl⟩
  rw [List.append_assoc]
  exact hfile.trans h.file

/-- The terminator line ends the parse with what was read. -/
theorem ParsingAt.run_end {s : State} {done : List Byte} (h : ParsingAt s done terminatorLine)
    (heof : s.codec.eofSeen = false) :
    ∃ v, run 3 s = .next v ∧ v.ctl.todo = [] ∧ v.ctl.result = some (.image ⟨s.params.imgCap, s.codec.img⟩ s.codec.range) := by
  have hat : ParsingAt s done (encodeLine 0x01 0 [] ++ crlf ++ []) := by
    rwa [List.append_nil, ← terminatorLine_eq]
  obtain ⟨t, hstep, hnext, hparams, hcodec⟩ := hat.step_line heof (Nat.zero_le _) rfl (c := { s.codec with
    record := lineRecord 0x01 0 [], eofSeen := true }) rfl rfl rfl
  refine ⟨_, (run_succ hstep 2).trans (run_after_eof hnext.running hnext.calm hnext.todo (by rw [hcodec])), rfl, ?_⟩
  rw [← hparams, ← show t.codec.img = s.codec.img by rw [hcodec], ← show t.codec.range = s.codec.range by rw [hcodec]]
  rfl

theorem exec_data_at {aaaa : Word} {dd : List Byte} {s : State} {base : Nat}
    (hbase : s.codec.offset.toNat + aaaa.toNat = base) (hin : base + dd.length ≤ s.params.imgCap) :
    exec (.data aaaa dd) s = .next (s.setCodec (s.codec.store base dd)) := by
  subst hbase
  exact exec_data_inside hin

/-- `parse` of the lines that are left reads the rest of the image. -/
theorem run_chunkLines {get : Nat → Byte} {length : Nat} (hmax : length ≤ 65536) (m k : Nat) (s : State)
    (done : List Byte) (h : ParsingAt s done (chunkLines get length k m ++ terminatorLine))
    (hread : ReadUpTo get length (16 * k) s.codec) (hleft : k + m = chunkCount length)
    (hcap : length + length % 2 ≤ s.params.imgCap) :
    ∃ n v c, run n s = .next v ∧ v.ctl.todo = [] ∧ v.ctl.result = some (.image ⟨s.params.imgCap, c.img⟩ c.range) ∧
      ReadUpTo get length (16 * chunkCount length) c := by
  induction m generalizing k s done with
  | zero =>
    obtain ⟨v, hv, htodo, hres⟩ := h.run_end hread.eofSeen
    exact ⟨3, v, s.codec, hv, htodo, hres, by rwa [← hleft]⟩
  | succ m ih =>
    rw [chunkLines_succ] at h
    by_cases hblank : trimSentinel (chunkBytes get length k) = []
    · rw [chunkLine_of_blank hblank] at h
      exact ih (k + 1) s done h (hread.blank hblank) (by omega) hcap
    · rw [chunkLine_of_data hblank, List.append_assoc _ (chunkLines _ _ _ _)] at h
      obtain ⟨hlen, htrim⟩ := chunkData_length get length k
      have hsome : 0 < (trimSentinel (chunkBytes get length k)).length := List.length_pos_iff.2 hblank
      have hbase : s.codec.offset.toNat + (BitVec.ofNat 16 (16 * k)).toNat = 16 * k := by
        rw [hread.offset, BitVec.toNat_ofNat, show (0 : BitVec 32).toNat = 0 from rfl]
        omega
      have hfits : 16 * k + (chunkData get length k).length ≤ s.params.imgCap := by omega
      let latched := { s.codec with record := lineRecord 0x00 (BitVec.ofNat 16 (16 * k)) (chunkData get length k) }
      have hrecord : ReadUpTo get length (16 * k) latched := hread.of_same (fun _ => rfl) rfl rfl rfl
      have hexec : exec (Instr.ofRecord (lineRecord 0x00 (BitVec.ofNat 16 (16 * k)) (chunkData get length k)))
          (s.setCodec latched) = .next (s.setCodec (latched.store (16 * k) (chunkData get length k))) :=
        exec_data_at (s := s.setCodec latched) hbase hfits
      obtain ⟨t, hstep, hnext, hparams, hcodec⟩ :=
        h.step_line hread.eofSeen (by omega) (chunkLines_no_terminator get length (k + 1) m) hexec rfl rfl
      have hread' : ReadUpTo get length (16 * (k + 1)) t.codec := by
        rw [hcodec]
        exact hrecord.store.of_same (fun _ => rfl) rfl rfl rfl
      obtain ⟨n, v, c, hn, hv⟩ := ih (k + 1) t _ hnext hread' (by omega) (by rwa [hparams])
      exact ⟨n + 1, v, c, (run_succ hstep n).trans hn, by rwa [hparams] at hv⟩

/-- `parse` of a file that begins with no terminator stands at its begin after two steps. -/
theorem run_parse_request {u : State} {file : List Byte} (hrun : u.running) (hcalm : u.wire.irq = none)
    (htodo : u.ctl.todo = []) (hreq : u.ctl.requests = [.parse file]) (hmin : 11 ≤ file.length)
    (hmax : file.length ≤ 1048576) (hfile : file.takeWhile isTerminator = []) :
    ∃ t, run 2 u = .next t ∧ ParsingAt t [] file ∧ t.codec = u.codec.start file false ∧ t.params = u.params := by
  have hstart : step u = .next
      ({ u with ctl := { u.ctl with requests := [], result := none } }.setTodo [.parse file false, .parsed]) := by
    rw [step_host hrun htodo, hostTurn, hreq]
    rfl
  have hparse : ∀ s : State, s.running → s.wire.irq = none → s.ctl.todo = [.parse file false, .parsed] →
      step s = .next (((s.setTodo [.parsed]).setCodec (s.codec.start file false)).setTodo [.records, .parsed]) := by
    intro s hrun hcalm htodo
    have hstep : step s = .next (runParse file false (codecTick (s.setTodo [.parsed]))) := step_micro hrun htodo
    rw [hstep, codecTick_of_none (s := s.setTodo [.parsed]) hcalm, runParse_of_size hmin hmax]
    rfl
  have hnext := hparse ({ u with ctl := { u.ctl with requests := [], result := none } }.setTodo
    [.parse file false, .parsed]) hrun hcalm rfl
  refine ⟨_, (run_succ hstart 1).trans (run_succ hnext 0), ⟨hrun, hcalm, rfl, rfl, ?_⟩, rfl, rfl⟩
  show skipTerminators file 0 = 0
  rw [skipTerminators, List.drop_zero, hfile]
  rfl

/-- Settles O17: `serialize` writes the lines of the chunks, and `parse` of them reads the image. -/
theorem serializeThenParse : Obligations.SerializeThenParse := by
  intro s img len hrun hcalm htodo hreq hsize hmax hcap
  obtain ⟨n, t, ht, hend, hfile⟩ := run_serialize hrun hcalm htodo hreq hsize hmax
  refine ⟨n, t, _, ht, hend, hfile, fun u hrun hcalm htodo hreq hparams => ?_⟩
  have hlen := chunkLines_length_le img.get len 0 (chunkCount len)
  have hcount : chunkCount len = (len + 15) / 16 := rfl
  have hterm : terminatorLine.length = 13 := rfl
  obtain ⟨v, hv, hat, hcodec, hp⟩ := run_parse_request hrun hcalm htodo hreq (by rw [List.length_append]; omega)
    (by rw [List.length_append]; omega) (chunkLines_no_terminator img.get len 0 _)
  rw [← hparams] at hcap ⊢
  obtain ⟨m, w, c, hw, htodo, hres, hread⟩ := run_chunkLines hmax _ 0 v [] hat
    (by rw [hcodec]; exact ReadUpTo.start img.get len u.codec _) (Nat.zero_add _) (by rwa [hp])
  have hall : ∀ a, (a < 16 * chunkCount len ∧ a < len) ↔ a < len := fun a => by omega
  have himage := hread.image
  have hrange := hread.range
  simp only [hall] at himage hrange
  refine ⟨2 + m, w, ⟨u.params.imgCap, c.img⟩, c.range, (run_add hv).trans hw, htodo, by rw [hres, hp], rfl, himage, ?_,
    fun lo hi hr => ?_⟩
  · rw [hrange.none_iff]
    simp
  · obtain ⟨hlo, hlo'⟩ := (hrange.low_from hr).resolve_right (by simp)
    obtain ⟨hhi, hhi'⟩ := (hrange.high_from hr).resolve_right (by simp)
    exact ⟨hlo, hhi, hlo', hhi', fun a ha hne => hrange.covers hr a ⟨ha, hne⟩⟩

end Sys2Proof.Machine
end

section
/-! Proofs of the statements about the frames of the link whose answers all come (spec/42_updi_link.md rules R204 to R218),
about the step that runs one, and about the operands and link states that are refused. -/

namespace Sys2Proof.Machine

/-! ## The frame of each instruction -/

theorem exec_ldcs {r : Nat} (h : r ≤ 15) (s : State) : exec (.ldcs r) s =
    onLink s (loadFrame (insnLdcs s.params.opc r) [] 1 (fun d t => [t.csRead s.params d r]) Target.clearRep) :=
  if_neg (Nat.not_lt.2 h)

theorem exec_stcs {r : Nat} (h : r ≤ 15) (v : Byte) (s : State) : exec (.stcs r v) s = onLink s
    (silentFrame (insnStcs s.params.opc r) [v] (fun d t => t.clearRep.csWrite s.params s.session.profile d r v)) :=
  if_neg (Nat.not_lt.2 h)

theorem exec_ldb {n : Nat} (h : countOk n = true) (s : State) :
    exec (.ldb n) s = onLink s (burstLoadFrame (insnLd s.params.opc false) 1 n) := if_pos h

theorem exec_ldw {n : Nat} (h : countOk n = true) (s : State) :
    exec (.ldw n) s = onLink s (burstLoadFrame (insnLd s.params.opc true) 2 n) := if_pos h

theorem exec_stb {d : List Byte} (h : countOk d.length = true) (s : State) :
    exec (.stb d) s = onLink s (burstStoreFrame (insnSt s.params.opc false) (byteUnits d)) := if_pos h

theorem exec_stw {d : List Byte} (heven : d.length % 2 = 0) (h : countOk (d.length / 2) = true) (s : State) :
    exec (.stw d) s = onLink s (burstStoreFrame (insnSt s.params.opc true) (wordUnits d)) :=
  (if_neg (not_not.2 heven)).trans (if_pos h)

theorem exec_rep {n : Nat} (h : countOk n = true) (s : State) : exec (.rep n) s =
    onLink s (silentFrame s.params.opc.rep [repOperand n] (fun _ t => { t with rep := repOperand n })) := if_pos h

theorem exec_key {k : List Byte} (h : k.length = 8) (s : State) : exec (.key k) s =
    onLink s (silentFrame s.params.opc.key k.reverse (fun _ t => t.clearRep.acceptKey s.params k)) := if_pos h

theorem exec_stPtr (a : Word) (s : State) : exec (.stPtr a) s = onLink s fun s =>
    (frame (insnStPtr s.params.opc) (wireWord a) s).bind fun _ s =>
      (expectAck [Config.ack] (onTarget s fun _ t => { t.clearRep with ptr := a })).bind fun _ s =>
        .ok () (s.setResp []) := rfl

theorem exec_brk (s : State) : exec .brk s = onLink s fun s =>
    (send [Config.breakChar] s).bind fun _ s => .ok () ((onTarget s Target.updiReset).setResp []) := rfl

theorem exec_doubleBreak (s : State) : exec .doubleBreak s = onLink s fun s0 =>
    (tx Config.breakChar (s0.setLine 300 1)).bind fun _ s => (tx Config.breakChar s).bind fun _ s =>
      (recv 2 [Config.breakChar, Config.breakChar] (onTarget s Target.updiReset)).bind fun _ s =>
        .ok () ((s.setLine s0.session.baud 2).setResp []) := rfl

/-! ## Which step runs it, and what is refused -/

/-- Settles O23. -/
theorem stepRunsTheNextCommand : Obligations.StepRunsTheNextCommand := fun _ _ _ hrun htodo => step_micro hrun htodo

theorem onLink_down {s : State} (h : linkUp s.session = false) (body : State → Comm Unit) :
    onLink s body = .refused .linkState := by simp [onLink, h]

/-- A well-formed instruction of the link is a communication on the link. -/
theorem exec_eq_onLink {i : Instr} (hi : isLinkInstr i = true) (hw : i.wf = true) (s : State) :
    ∃ body, exec i s = onLink s body := by
  cases i with
  | data aaaa dd => cases hi
  | eof aaaa dd => cases hi
  | esa aaaa dd => cases hi
  | ssa aaaa dd => cases hi
  | ela aaaa dd => cases hi
  | hexReserved rr aaaa dd => cases hi
  | ldcs r => exact ⟨_, exec_ldcs (of_decide_eq_true hw) s⟩
  | stcs r v => exact ⟨_, exec_stcs (of_decide_eq_true hw) v s⟩
  | ldb n => exact ⟨_, exec_ldb hw s⟩
  | ldw n => exact ⟨_, exec_ldw hw s⟩
  | stb d => exact ⟨_, exec_stb hw s⟩
  | stw d =>
    obtain ⟨heven, hcount⟩ := Bool.and_eq_true_iff.1 hw
    exact ⟨_, exec_stw (of_decide_eq_true heven) hcount s⟩
  | rep n => exact ⟨_, exec_rep hw s⟩
  | key k => exact ⟨_, exec_key (of_decide_eq_true hw) s⟩
  | ldsb a => exact ⟨_, rfl⟩
  | ldsw a => exact ⟨_, rfl⟩
  | stsb a v => exact ⟨_, rfl⟩
  | stsw a w => exact ⟨_, rfl⟩
  | stPtr a => exact ⟨_, exec_stPtr a s⟩
  | brk => exact ⟨_, exec_brk s⟩
  | doubleBreak => exact ⟨_, exec_doubleBreak s⟩
  | writePage => exact ⟨_, rfl⟩
  | eraseWritePage => exact ⟨_, rfl⟩
  | pageBufferClr => exact ⟨_, rfl⟩
  | writeFuse => exact ⟨_, rfl⟩

theorem not_countOk {n : Nat} (h : n = 0 ∨ 256 < n) : ¬ countOk n = true := by
  rw [countOk_iff]
  omega

/-- Settles O48. -/
theorem linkRefusals : Obligations.LinkRefusals := by
  refine ⟨fun i s hi hw hdown => ?_, fun r v s hr => ⟨if_pos hr, if_pos hr⟩,
    fun n s hn => ⟨if_neg (not_countOk hn), if_neg (not_countOk hn), if_neg (not_countOk hn)⟩,
    fun d s => ⟨fun hd => ?_, fun hodd => ?_, fun heven hd => ?_, fun hlen => if_neg hlen⟩⟩
  · obtain ⟨body, hbody⟩ := exec_eq_onLink hi hw s
    rw [hbody, onLink_down hdown]
  · exact if_neg (not_countOk (hd.imp_left fun hnil => by rw [hnil]; rfl))
  · exact if_pos (by omega)
  · have hcount : d.length / 2 = 0 ∨ 256 < d.length / 2 := by
      rcases hd with rfl | hd
      · exact .inl rfl
      · omega
    exact (if_neg (not_not.2 heven)).trans (if_neg (not_countOk hcount))

/-! ## Loads -/

theorem Delivers.eq_of_obey {a : Answer} {owed got : List Byte} (h : Delivers a owed got) (ha : a = .obey) : got = owed := by
  rcases h with ⟨-, hgot⟩ | hbytes
  · exact hgot
  · rw [ha] at hbytes
    cases hbytes

/-- A load whose answers come: the frame it is decides the target, what is delivered the response. -/
theorem exec_load_ok {i : Instr} {insn : Byte} {ops : List Byte} {n : Nat} {owed : Nat → Target → List Byte}
    {f : Target → Target} {s : State} {es rest : List Answer} {a : Answer} {got : List Byte} (hr : Ready s)
    (hexec : exec i s = onLink s (loadFrame insn ops n owed f)) (henc : encode s.params i = Config.sync :: insn :: ops)
    (hes : List.Forall₂ Echoes es (encode s.params i)) (hd : Delivers a (owed s.wire.draws s.target) got)
    (hlen : got.length = n) (h1 : 1 ≤ n) (hs : s.wire.script = es ++ a :: rest) :
    exec i s = .next (s.replied (encode s.params i) rest 1 (f s.target) got) := by
  rw [henc] at hes
  rw [hexec, onLink_up hr.up, loadFrame_ok hr hes hd hlen h1 hs, henc]
  rfl

/-- Settles O24. -/
theorem ldcsReads : Obligations.LdcsReads := by
  intro r s es a rest v hr hle hes hd hs
  refine ⟨exec_load_ok hr (exec_ldcs hle s) rfl hes hd rfl le_rfl hs, fun hobey => ?_⟩
  have hv : v = s.target.csRead s.params s.wire.draws r := by simpa using hd.eq_of_obey hobey
  subst hv
  exact ⟨fun hother => if_neg hother, fun hstatus => hstatus ▸ csRead_shows _ _ _⟩

theorem exists_offset_one (a x : Word) : (∃ j, j < 1 ∧ a + BitVec.ofNat 16 j = x) ↔ a = x := by
  simp

theorem exists_offset_two (a x : Word) : (∃ j, j < 2 ∧ a + BitVec.ofNat 16 j = x) ↔ a = x ∨ a + 1 = x := by
  constructor
  · rintro ⟨j, hj, rfl⟩
    obtain rfl | rfl : j = 0 ∨ j = 1 := by omega
    · exact .inl (by simp)
    · exact .inr rfl
  · rintro (rfl | rfl)
    · exact ⟨0, by decide, by simp⟩
    · exact ⟨1, by decide, rfl⟩

theorem exec_ldsb_ok {s : State} {addr : Word} {es rest : List Answer} {a : Answer} {v : Byte} (hr : Ready s)
    (hes : List.Forall₂ Echoes es (encode s.params (.ldsb addr)))
    (hd : Delivers a (s.target.loadBytes s.params s.session.profile s.wire.draws addr 1) [v])
    (hs : s.wire.script = es ++ a :: rest) :
    exec (.ldsb addr) s = .next (s.replied (encode s.params (.ldsb addr)) rest 1
      (s.target.clearRep.polledBytes s.params s.session.profile addr 1) [v]) :=
  exec_load_ok (i := .ldsb addr) hr rfl rfl hes hd rfl le_rfl hs

theorem loadBytes_one (p : Params) (pr : Profile) (d : Nat) (t : Target) (a : Word) :
    t.loadBytes p pr d a 1 = [t.load p pr d a] := by simp [Target.loadBytes]

theorem loadBytes_two (p : Params) (pr : Profile) (d : Nat) (t : Target) (a : Word) :
    t.loadBytes p pr d a 2 = [t.load p pr d a, t.load p pr d (a + 1)] := by
  simp [Target.loadBytes, List.range_succ]

theorem wordOf_toNat (hi lo : Byte) : (wordOf hi lo).toNat = lo.toNat + 256 * hi.toNat := by
  rw [wordOf, BitVec.toNat_append, ← Nat.shiftLeft_add_eq_or_of_lt lo.isLt, Nat.shiftLeft_eq]
  omega

/-- Settles O26: each load with its answer, and what a raw command hands back. -/
theorem directLoadsRead : Obligations.DirectLoadsRead := by
  intro addr s es a rest hr status
  refine ⟨fun v hes hd hs => ⟨?_, fun hobey => ?_⟩, fun lo hi hes hd hs => ⟨?_, fun hobey => ?_⟩,
    fun u more lo hi hrun => ⟨fun htodo hresp => ?_, fun htodo hresp => ?_⟩⟩
  · rw [exec_ldsb_ok hr hes hd hs, polledBytes_eq (by omega)]
    simp only [exists_offset_one]
    rfl
  · have hv := hd.eq_of_obey hobey
    rw [loadBytes_one, List.cons_eq_cons] at hv
    rw [hv.1]
    exact load_answers _ _ _ _ _
  · rw [exec_load_ok (i := .ldsw addr) hr rfl rfl hes hd rfl (by decide) hs, polledBytes_eq (by omega)]
    simp only [exists_offset_two]
    rfl
  · have hv := hd.eq_of_obey hobey
    rw [loadBytes_two, List.cons_eq_cons, List.cons_eq_cons] at hv
    rw [hv.1, hv.2.1]
    exact ⟨load_answers _ _ _ _ _, load_answers _ _ _ _ _⟩
  · have hstep : step u = .next (runAnswer (.ldsb addr) (u.setTodo more)) := step_micro hrun htodo
    rw [hstep, runAnswer, answerOf, show (u.setTodo more).wire.resp = [lo] from hresp]
    rfl
  · have hstep : step u = .next (runAnswer (.ldsw addr) (u.setTodo more)) := step_micro hrun htodo
    rw [runAnswer, answerOf, show (u.setTodo more).wire.resp = [lo, hi] from hresp] at hstep
    exact ⟨_, hstep, wordOf_toNat hi lo⟩

theorem passBytes_eq {n : Nat} (h : n ≤ 65536) (p : Params) (pr : Profile) (t : Target) :
    t.passBytes p pr n =
      { t with
        ptr := t.ptr + BitVec.ofNat 16 n
        rep := 0
        flashBusy := if ∃ j, j < n ∧ t.ptr + BitVec.ofNat 16 j = dataAddr (pr.nvmctrl + p.nvmStatus) then t.flashBusy - 1
          else t.flashBusy
        eepromBusy := if ∃ j, j < n ∧ t.ptr + BitVec.ofNat 16 j = dataAddr (pr.nvmctrl + p.nvmStatus) then t.eepromBusy - 1
          else t.eepromBusy } := by
  rw [Target.passBytes, polledBytes_eq h]

/-- What a target that keeps its contract answers to a load of many bytes. -/
theorem loadBytes_answers {p : Params} {pr : Profile} {d n j : Nat} {t : Target} {a : Word}
    (h : j < (t.loadBytes p pr d a n).length) :
    AnswersLoad p pr t (a + BitVec.ofNat 16 j) ((t.loadBytes p pr d a n).getD j 0) := by
  rw [loadBytes_getD _ _ _ _ _ _ _ (by simpa [Target.loadBytes] using h)]
  exact load_answers _ _ _ _ _

/-- Settles O29. -/
theorem burstLoadsRead : Obligations.BurstLoadsRead := by
  rintro n s es a rest got hr rfl status passed answered
  have hrep := s.target.rep.isLt
  have hcount : countOk (s.target.rep.toNat + 1) = true := countOk_iff.2 (by omega)
  have hanswered : ∀ m, Delivers a (s.target.loadBytes s.params s.session.profile s.wire.draws s.target.ptr m) got →
      answered got := fun m hd hobey j hj => by
    rw [hd.eq_of_obey hobey] at hj ⊢
    exact loadBytes_answers hj
  refine ⟨fun hes hd hlen hs => ⟨?_, hanswered _ hd⟩, fun hes hd hlen hs => ⟨?_, hanswered _ hd⟩⟩
  · rw [exec_load_ok hr (exec_ldb hcount s) rfl hes (by rwa [Nat.one_mul]) (by omega) (by omega) hs,
      passBytes_eq (by omega), Nat.one_mul]
  · rw [exec_load_ok hr (exec_ldw hcount s) rfl hes hd hlen (by omega) hs, passBytes_eq (by omega)]

/-! ## Frames with no response -/

/-- A frame with no response whose echoes come: the target takes it. -/
theorem exec_silent_ok {i : Instr} {insn : Byte} {ops : List Byte} {f : Nat → Target → Target} {s : State}
    {es rest : List Answer} (hr : Ready s) (hexec : exec i s = onLink s (silentFrame insn ops f))
    (henc : encode s.params i = Config.sync :: insn :: ops) (hes : List.Forall₂ Echoes es (encode s.params i))
    (hs : s.wire.script = es ++ rest) :
    exec i s = .next (s.replied (encode s.params i) rest 1 (f s.wire.draws s.target) []) := by
  rw [henc] at hes
  rw [hexec, onLink_up hr.up, silentFrame_ok hr hes hs, henc]
  rfl

/-- The page buffer's bytes written to memory. -/
theorem memByte_putMem_bufBytes (t : Target) (a n x : Nat) :
    (t.putMem a (t.bufBytes a n)).memByte x = if a ≤ x ∧ x < a + n then t.bufByte x else t.memByte x := by
  have hlen : (t.bufBytes a n).length = n := by simp [Target.bufBytes]
  rw [Target.memByte_putMem, hlen]
  refine if_ctx_congr Iff.rfl (fun hin => ?_) fun _ => rfl
  rw [List.getD_eq_getElem _ _ (by omega)]
  simp [Target.bufBytes, Nat.add_sub_cancel' hin.1]

/-- A control/status store that releases no reset: it asserts the reset, commits the row, or writes its register alone. -/
theorem csWrite_of_no_release {p : Params} {pr : Profile} {d r : Nat} {t : Target} {v : Byte}
    (h : ¬ (r = p.csResetReq ∧ v = p.resetRelease ∧ v ≠ p.resetAssert ∧ t.resetHeld = true)) :
    (t.csWrite p pr d r v = { t.csPut r v with resetHeld := true } ∧ r = p.csResetReq ∧ v = p.resetAssert) ∨
      (t.csWrite p pr d r v = (t.csPut r v).commitRow p pr ∧
        r = p.csSysCtrlA ∧ r ≠ p.csResetReq ∧ bitSet v p.urowFinal = true ∧ t.keyRow = true) ∨
      (t.csWrite p pr d r v = t.csPut r v ∧ ¬ (r = p.csResetReq ∧ v = p.resetAssert) ∧
        ¬ (r = p.csSysCtrlA ∧ r ≠ p.csResetReq ∧ bitSet v p.urowFinal = true ∧ t.keyRow = true)) := by
  unfold Target.csWrite
  by_cases hreset : r = p.csResetReq
  · by_cases hassert : v = p.resetAssert
    · exact .inl ⟨(if_pos hreset).trans (if_pos hassert), hreset, hassert⟩
    · have hnone : ¬ (v = p.resetRelease ∧ t.resetHeld = true) := fun hrel => h ⟨hreset, hrel.1, hassert, hrel.2⟩
      exact .inr (.inr ⟨(if_pos hreset).trans ((if_neg hassert).trans (if_neg hnone)), fun hboth => hassert hboth.2,
        fun hrow => hrow.2.1 hreset⟩)
  · by_cases hsys : r = p.csSysCtrlA
    · by_cases hfinal : (bitSet v p.urowFinal && t.keyRow) = true
      · exact .inr (.inl ⟨(if_neg hreset).trans ((if_pos hsys).trans (if_pos hfinal)), hsys, hreset,
          Bool.and_eq_true_iff.1 hfinal⟩)
      · exact .inr (.inr ⟨(if_neg hreset).trans ((if_pos hsys).trans (if_neg hfinal)), fun hboth => hreset hboth.1,
          fun hrow => hfinal (Bool.and_eq_true_iff.2 hrow.2.2)⟩)
    · exact .inr (.inr ⟨(if_neg hreset).trans (if_neg hsys), fun hboth => hreset hboth.1, fun hrow => hsys hrow.1⟩)

/-- Settles O25. -/
theorem stcsWrites : Obligations.StcsWrites := by
  intro r v s es rest hr hle hes hs
  refine ⟨_, exec_silent_ok hr (exec_stcs hle v s) rfl hes hs, fun hrel => ?_⟩
  have hput : ∀ x, (s.target.clearRep.csPut r v).csGet x = if x = r then v else s.target.csGet x :=
    fun x => csGet_csPut _ _ _ _ hle
  have hhere : (s.target.clearRep.csPut r v).csGet r = v := (hput r).trans (if_pos rfl)
  have hother : ∀ x, x ≠ r → (s.target.clearRep.csPut r v).csGet x = s.target.csGet x := fun x hx => (hput x).trans (if_neg hx)
  rcases csWrite_of_no_release (p := s.params) (pr := s.session.profile) (d := s.wire.draws) (t := s.target.clearRep) hrel
    with ⟨ht, hreset, hassert⟩ | ⟨ht, hsys, hreset, hfinal, hkey⟩ | ⟨ht, hassert, hrow⟩
  · simp only [ht]
    refine ⟨hhere, hother, rfl, by simp [hreset, hassert], fun x => ?_⟩
    rw [if_neg fun hrow => hrow.2.1 hreset]
    rfl
  · simp only [ht]
    refine ⟨hhere, hother, rfl, by simp [hreset, Target.commitRow, Target.putMem, Target.csPut, Target.clearRep], fun x => ?_⟩
    have hcond : (r = s.params.csSysCtrlA ∧ r ≠ s.params.csResetReq ∧ bitSet v s.params.urowFinal = true ∧
        s.target.keyRow = true ∧ s.session.profile.userrow ≤ x ∧ x < s.session.profile.userrow + s.params.urowLen) ↔
        (s.session.profile.userrow ≤ x ∧ x < s.session.profile.userrow + s.params.urowLen) :=
      ⟨fun hall => hall.2.2.2.2, fun hin => ⟨hsys, hreset, hfinal, hkey, hin⟩⟩
    exact (memByte_putMem_bufBytes _ _ _ x).trans (if_congr hcond.symm rfl rfl)
  · simp only [ht]
    refine ⟨hhere, hother, rfl, by simp [hassert, Target.csPut, Target.clearRep], fun x => ?_⟩
    rw [if_neg fun hin => hrow ⟨hin.1, hin.2.1, hin.2.2.1, hin.2.2.2.1⟩]
    rfl

/-- Settles O31. -/
theorem repeatSetsTheCounter : Obligations.RepeatSetsTheCounter := by
  intro n s es rest hr h1 h256 hes hs
  exact exec_silent_ok hr (exec_rep (countOk_iff.2 ⟨h1, h256⟩) s) rfl hes hs

/-- Settles O32: the three keys the target knows, in the order in which it tries them, and any other. -/
theorem keySendsReversed : Obligations.KeySendsReversed := by
  intro k s es rest hr hlegal hlen hes hs
  have hfacts := legalFacts hlegal
  refine ⟨_, exec_silent_ok (i := .key k) hr (exec_key hlen s) rfl hes hs, ?_⟩
  have hshow : ∀ b, b ≤ 7 → (∀ x, x ≠ s.params.csKeyStatus →
      (s.target.clearRep.showKey s.params b).csGet x = s.target.csGet x) ∧
      ∀ j, bitSet ((s.target.clearRep.showKey s.params b).csGet s.params.csKeyStatus) j =
        if j = b then true else bitSet (s.target.csGet s.params.csKeyStatus) j :=
    fun b hb => showKey_csGet s.target.clearRep hfacts.ks hb
  unfold Target.acceptKey
  by_cases herase : k = s.params.keyChipErase
  · rw [if_pos herase]
    exact ⟨(hshow _ hfacts.b1).1, fun _ => ⟨(hshow _ hfacts.b1).2, rfl⟩, fun _ hne => absurd herase hne,
      fun _ hne => absurd herase hne, fun hne => absurd (herase ▸ List.mem_cons_self) hne⟩
  rw [if_neg herase]
  by_cases hprog : k = s.params.keyNvmProg
  · rw [if_pos hprog]
    exact ⟨(hshow _ hfacts.b2).1, fun he => absurd he herase, fun _ _ => ⟨(hshow _ hfacts.b2).2, rfl⟩,
      fun _ _ hne => absurd hprog hne, fun hne => absurd (by simp [hprog]) hne⟩
  rw [if_neg hprog]
  by_cases hrow : k = s.params.keyUrow
  · rw [if_pos hrow]
    exact ⟨(hshow _ hfacts.b3).1, fun he => absurd he herase, fun he => absurd he hprog,
      fun _ _ _ => ⟨(hshow _ hfacts.b3).2, rfl⟩, fun hne => absurd (by simp [hrow]) hne⟩
  rw [if_neg hrow]
  exact ⟨fun _ _ => rfl, fun he => absurd he herase, fun he => absurd he hprog, fun he => absurd he hrow, fun _ => rfl⟩

/-! ## Stores -/

/-- Settles O27. -/
theorem directStoresWrite : Obligations.DirectStoresWrite := by
  intro addr s as rest hr hs
  refine ⟨fun v hk => ?_, fun w hk => ?_⟩
  · exact (onLink_up hr.up _).trans (congrArg (Host.Outcome.next ∘ Comm.final)
      (directStore_ok (data := [v]) hr (List.cons_ne_nil _ _) hk hs))
  · exact (onLink_up hr.up _).trans (congrArg (Host.Outcome.next ∘ Comm.final)
      (directStore_ok (data := wireWord w) hr (List.cons_ne_nil _ _) hk hs))

/-- Settles O28: the one phase of the frame, and its acknowledge. -/
theorem setPointerWrites : Obligations.SetPointerWrites := by
  intro addr s as rest hr hs hk
  obtain ⟨es, a, more, rfl, hes, hack, rfl⟩ := hk
  rw [exec_stPtr, onLink_up hr.up, frame_eq,
    send_ok (bs := Config.sync :: insnStPtr s.params.opc :: wireWord addr) hr.quiet hr.patient hes hs (List.cons_ne_nil _ _),
    Comm.bind_ok, expectAck_ok (a := a) (rest := more) (by exact hr.quiet) (by exact hr.patient) (by rfl) hack]
  rfl

/-- A burst store whose units are as many as the repeat in force. -/
theorem exec_burst_ok {i : Instr} {insn : Byte} {units : List (List Byte)} {s : State} {as rest : List Answer} (hr : Ready s)
    (hexec : exec i s = onLink s (burstStoreFrame insn units)) (hlen : units.length = s.target.rep.toNat + 1)
    (hne : ∀ u ∈ units, u ≠ [])
    (hk : ∀ u us, units = u :: us → Acked ((Config.sync :: insn :: u) :: us) as rest) (hs : s.wire.script = as) :
    exec i s = .next (s.replied (Config.sync :: insn :: units.flatten) rest units.length
      { s.target.afterUnits s.params s.session.profile s.wire.draws units with rep := 0 } []) := by
  cases units with
  | nil => exact absurd hlen (Nat.succ_ne_zero _).symm
  | cons u us =>
    rw [hexec, onLink_up hr.up, burstStoreFrame_ok hr (Nat.le_of_eq (Nat.succ.inj hlen))
      (fun v hv => hne v (List.mem_cons_of_mem u hv)) (hk u us rfl) hs]
    rfl

theorem byteUnits_ne {d : List Byte} : ∀ u ∈ byteUnits d, u ≠ [] := by
  simp [byteUnits]

theorem phases_stb {s : State} {d u : List Byte} {us : List (List Byte)} (h : byteUnits d = u :: us) :
    phases s (.stb d) = (Config.sync :: insnSt s.params.opc false :: u) :: us := by
  rw [phases, h]

theorem phases_stw {s : State} {d u : List Byte} {us : List (List Byte)} (h : wordUnits d = u :: us) :
    phases s (.stw d) = (Config.sync :: insnSt s.params.opc true :: u) :: us := by
  rw [phases, h]

theorem exec_stb_ok {d : List Byte} {s : State} {as rest : List Answer} (hr : Ready s)
    (hlen : d.length = s.target.rep.toNat + 1) (hk : Acked (phases s (.stb d)) as rest) (hs : s.wire.script = as) :
    exec (.stb d) s = .next (s.replied (encode s.params (.stb d)) rest d.length
      { s.target.afterUnits s.params s.session.profile s.wire.draws (byteUnits d) with rep := 0 } []) := by
  have hrep := s.target.rep.isLt
  have hunits : (byteUnits d).length = d.length := List.length_map _
  rw [exec_burst_ok hr (exec_stb (countOk_iff.2 (by omega)) s) (hunits.trans hlen) byteUnits_ne
    (fun u us hu => phases_stb hu ▸ hk) hs, byteUnits_flatten, hunits]
  rfl

theorem exec_stw_ok {d : List Byte} {s : State} {as rest : List Answer} (hr : Ready s)
    (hlen : d.length = 2 * (s.target.rep.toNat + 1)) (hk : Acked (phases s (.stw d)) as rest) (hs : s.wire.script = as) :
    exec (.stw d) s = .next (s.replied (encode s.params (.stw d)) rest (s.target.rep.toNat + 1)
      { s.target.afterUnits s.params s.session.profile s.wire.draws (wordUnits d) with rep := 0 } []) := by
  have hrep := s.target.rep.isLt
  obtain ⟨hflat, hcount⟩ := wordUnits_flatten d (by omega)
  have hunits : (wordUnits d).length = s.target.rep.toNat + 1 := by omega
  rw [exec_burst_ok hr (exec_stw (by omega) (countOk_iff.2 (by omega)) s) hunits (wordUnits_ne d)
    (fun u us hu => phases_stw hu ▸ hk) hs, hflat, hunits]
  rfl

/-- Settles O30. -/
theorem burstStoresWrite : Obligations.BurstStoresWrite := fun _ _ _ _ hr hs =>
  ⟨fun hlen hk => exec_stb_ok hr hlen hk hs, fun hlen hk => exec_stw_ok hr hlen hk hs⟩

/-! ## Break characters -/

/-- Settles O33. -/
theorem breakSendsOneByte : Obligations.BreakSendsOneByte := by
  intro s a rest hr hecho hs
  refine ⟨s.target.updiReset s.wire.draws, ?_, rfl⟩
  rw [exec_brk, onLink_up hr.up,
    send_ok (es := [a]) (bs := [Config.breakChar]) hr.quiet hr.patient (.cons hecho .nil) hs (List.cons_ne_nil _ _)]
  rfl

/-- Two bytes go out one after the other, when their answers are not read in between. -/
theorem tx_twice {s : State} {b : Byte} {a : Answer} {rest : List Answer} (hq : s.wire.irq = none)
    (hs : s.wire.script = a :: rest) (ha : a ≠ .shortWrite) (f : Unit → State → Comm Unit) :
    ((tx b s).bind fun _ s => (tx b s).bind f) =
      f () (s.wireAt [b, b] (a :: rest) s.wire.recvAttempt) := by
  rw [tx_ok hq hs ha, Comm.bind_ok, tx_ok (by exact hq) (by exact hs) ha, Comm.bind_ok, ← hs]
  simp [State.wireAt, State.onWire]

/-- The answers to a `recv` do not begin with a short write, and there is one when something is asked. -/
theorem Receives.exists_cons {bound n : Nat} {pieces : List (List Byte)} {as : List Answer}
    (h : Receives bound n pieces as) (hbound : 1 ≤ bound) (hn : 1 ≤ n) : ∃ a more, as = a :: more ∧ a ≠ .shortWrite := by
  cases pieces with
  | nil =>
    rcases h.ends with ⟨-, hlen | hlen⟩ | ⟨rfl, -⟩
    · exact absurd hlen (by simp; omega)
    · exact absurd hlen (by simp; omega)
    · exact ⟨.error, [], rfl, nofun⟩
  | cons p ps =>
    rcases h.ends with ⟨rfl, -⟩ | ⟨rfl, -⟩
    · exact ⟨.bytes p, _, rfl, nofun⟩
    · exact ⟨.bytes p, _, rfl, nofun⟩

/-- Whatever comes back of the two echoes, they are read and dropped. -/
theorem recv_echoes {s : State} {owed : List Byte} {attempts : Nat} {as rest : List Answer} (hq : s.wire.irq = none)
    (hp : 1 ≤ s.params.recvAttempts) (hlen : owed.length = 2)
    (h : as = [.obey] ∧ attempts = 1 ∨ ∃ pieces, Receives s.params.recvAttempts 2 pieces as ∧ attempts = pieces.length)
    (hs : s.wire.script = as ++ rest) :
    ∃ got, recv 2 owed s = .ok got { s with wire := { s.wire with script := rest, recvAttempt := attempts } } := by
  rcases h with ⟨rfl, rfl⟩ | ⟨pieces, hpieces, rfl⟩
  · exact ⟨owed, recv_delivers hq hp hs (.inl ⟨rfl, rfl⟩) hlen (by decide)⟩
  · exact ⟨_, recv_receives hq hpieces hs⟩

/-- Settles O34: the double break, and the short write of its first character. -/
theorem doubleBreakSendsAtTheSlowRate : Obligations.DoubleBreakSendsAtTheSlowRate := by
  intro s as rest hr
  refine ⟨fun attempts h hs => ?_, fun hs => ?_⟩
  · obtain ⟨a, more, rfl, ha⟩ : ∃ a more, as = a :: more ∧ a ≠ .shortWrite := by
      rcases h with ⟨rfl, -⟩ | ⟨pieces, hpieces, -⟩
      · exact ⟨_, _, rfl, nofun⟩
      · exact hpieces.exists_cons hr.patient (by decide)
    refine ⟨s.target.updiReset s.wire.draws, ?_, rfl⟩
    obtain ⟨got, hgot⟩ := recv_echoes (s := onTarget ((s.setLine 300 1).wireAt [Config.breakChar, Config.breakChar]
      (a :: (more ++ rest)) (s.setLine 300 1).wire.recvAttempt) Target.updiReset) (owed := [Config.breakChar, Config.breakChar])
      hr.quiet hr.patient rfl h rfl
    have hsent := tx_twice (s := s.setLine 300 1) (b := Config.breakChar) (rest := more ++ rest) hr.quiet hs ha fun _ s1 =>
      (recv 2 [Config.breakChar, Config.breakChar] (onTarget s1 Target.updiReset)).bind fun _ v =>
        Comm.ok () ((v.setLine s.session.baud 2).setResp [])
    rw [exec_doubleBreak, onLink_up hr.up, hsent]
    rw [hgot]
    rfl
  · have hfirst := tx_short (s := s.setLine 300 1) (b := Config.breakChar) hr.quiet hs
    rw [exec_doubleBreak, onLink_up hr.up, hfirst]
    have hexit : FatalExit (.transport .shortWrite) (s.setLine 300 1) _ :=
      exit_near rfl (u := { s.setLine 300 1 with wire := { s.wire with script := rest } }) ⟨rfl, rfl, rfl, rfl, rfl, rfl, rfl⟩
    exact ⟨_, rfl, { hexit with }, fatal_sent (e := .transport .shortWrite) rfl, by simp [takeError], by simp [takeError]⟩

end Sys2Proof.Machine
end

section
/-! Proofs of the statements about what stores, commands and the reset do to the target (spec/44_nvm.md section 5,
spec/43_updi_session.md section 2), and of the page write that is made of them. -/

namespace Sys2Proof.Machine

/-! ## The commands of the NVM controller (R265, R273 to R276, R292) -/

theorem command_writePage (p : Params) (d : Nat) (t : Target) : t.command p d p.cmdWritePage =
    ((({ t with ctrlA := p.cmdWritePage } : Target).putMem t.pageStart (List.zipWith (fun m b => m &&& b)
      (t.memBytes t.pageStart t.pageLen) (t.bufBytes t.pageStart t.pageLen))).bufOpen d).busyOpen d := if_pos rfl

theorem command_eraseWritePage {p : Params} (h : p.legal = true) (d : Nat) (t : Target) : t.command p d p.cmdEraseWritePage =
    ((({ t with ctrlA := p.cmdEraseWritePage } : Target).putMem t.pageStart (t.bufBytes t.pageStart t.pageLen)).bufOpen
      d).busyOpen d := by
  have hnodup := (legalFacts h).nd
  simp only [List.nodup_cons, List.mem_cons, not_or] at hnodup
  exact (if_neg (Ne.symm hnodup.1.1)).trans (if_pos rfl)

theorem command_pageBufferClr {p : Params} (h : p.legal = true) (d : Nat) (t : Target) : t.command p d p.cmdPageBufferClr =
    { ({ t with ctrlA := p.cmdPageBufferClr } : Target).busyOpen d with buf := [], bufBase := none } := by
  have hnodup := (legalFacts h).nd
  simp only [List.nodup_cons, List.mem_cons, not_or] at hnodup
  exact (if_neg (Ne.symm hnodup.1.2.1)).trans ((if_neg (Ne.symm hnodup.2.1.1)).trans (if_pos rfl))

theorem command_writeFuse {p : Params} (h : p.legal = true) (d : Nat) (t : Target) : t.command p d p.cmdWriteFuse =
    (({ t with ctrlA := p.cmdWriteFuse } : Target).putMem (256 * t.addrH.toNat + t.addrL.toNat) [t.dataReg]).busyOpen d := by
  have hnodup := (legalFacts h).nd
  simp only [List.nodup_cons, List.mem_cons, not_or] at hnodup
  exact (if_neg (Ne.symm hnodup.1.2.2.1)).trans ((if_neg (Ne.symm hnodup.2.1.2.1)).trans
    ((if_neg (Ne.symm hnodup.2.2.1.1)).trans (if_pos rfl)))

/-- The AND of page and buffer written to the page. -/
theorem memByte_putMem_and (t : Target) (a n x : Nat) :
    (t.putMem a (List.zipWith (fun m b => m &&& b) (t.memBytes a n) (t.bufBytes a n))).memByte x =
      if a ≤ x ∧ x < a + n then t.memByte x &&& t.bufByte x else t.memByte x := by
  have hlen : (List.zipWith (fun m b => m &&& b) (t.memBytes a n) (t.bufBytes a n)).length = n := by
    simp [Target.memBytes, Target.bufBytes]
  rw [Target.memByte_putMem, hlen]
  refine if_ctx_congr Iff.rfl (fun hin => ?_) fun _ => rfl
  rw [List.getD_eq_getElem _ _ (by omega)]
  simp [Target.memBytes, Target.bufBytes, Nat.add_sub_cancel' hin.1]

/-- Settles O35. -/
theorem writePageAndsTheBuffer : Obligations.WritePageAndsTheBuffer := by
  intro s as rest hr hs hk
  refine ⟨_, command_ok hr hs hk, ?_⟩
  rw [command_writePage]
  exact ⟨fun x => memByte_putMem_and ({ s.target with ctrlA := s.params.cmdWritePage, rep := 0 } : Target) _ _ x, rfl⟩

/-- Settles O36. -/
theorem eraseWritePageReplacesThePage : Obligations.EraseWritePageReplacesThePage := by
  intro s as rest hr hlegal hs hk
  refine ⟨_, command_ok hr hs hk, ?_⟩
  rw [command_eraseWritePage hlegal]
  exact ⟨fun x => memByte_putMem_bufBytes ({ s.target with ctrlA := s.params.cmdEraseWritePage, rep := 0 } : Target) _ _ x, rfl⟩

/-- Settles O37. -/
theorem pageBufferClrFillsWithFF : Obligations.PageBufferClrFillsWithFF := by
  intro s as rest hr hlegal hs hk
  refine ⟨_, command_ok hr hs hk, ?_⟩
  rw [command_pageBufferClr hlegal]
  exact ⟨fun _ => rfl, fun _ => rfl, rfl⟩

theorem memByte_putMem_single (t : Target) (a x : Nat) (v : Byte) :
    (t.putMem a [v]).memByte x = if x = a then v else t.memByte x := by
  rw [Target.memByte_putMem, List.length_singleton]
  refine if_ctx_congr (by omega) (fun hx => ?_) fun _ => rfl
  rw [hx, Nat.sub_self]
  rfl

/-- Settles O38. -/
theorem writeFuseWritesOneByte : Obligations.WriteFuseWritesOneByte := by
  intro s as rest hr hlegal hs hk
  refine ⟨_, command_ok hr hs hk, ?_⟩
  rw [command_writeFuse hlegal]
  exact ⟨fun x => memByte_putMem_single ({ s.target with ctrlA := s.params.cmdWriteFuse, rep := 0 } : Target) _ x _, rfl⟩

/-! ## Where a stored byte lands (R291, R75, R49) -/

section Store

variable {p : Params} {pr : Profile} {d : Nat} {t : Target} {a : Word} {v : Byte}

/-- No register of the controller that a store writes is at `a`. -/
def OffRegisters (p : Params) (pr : Profile) (a : Word) : Prop :=
  ∀ off ∈ [p.nvmCtrlA, p.nvmData, p.nvmAddrL, p.nvmAddrH], a ≠ dataAddr (pr.nvmctrl + off)

theorem offRegisters_iff : OffRegisters p pr a ↔
    a ≠ dataAddr (pr.nvmctrl + p.nvmCtrlA) ∧ a ≠ dataAddr (pr.nvmctrl + p.nvmData) ∧
      a ≠ dataAddr (pr.nvmctrl + p.nvmAddrL) ∧ a ≠ dataAddr (pr.nvmctrl + p.nvmAddrH) := by
  simp only [OffRegisters, List.forall_mem_cons, List.not_mem_nil, false_implies, implies_true, and_true]

theorem store_page {page : Nat × Nat} (h : OffRegisters p pr a) (hp : nvmPage p pr a.toNat = some page) :
    t.store p pr d a v = t.bufStore page a.toNat v := by
  obtain ⟨hctrl, hdata, hlow, hhigh⟩ := offRegisters_iff.1 h
  rw [Target.store, if_neg hctrl, if_neg hdata, if_neg hlow, if_neg hhigh, hp]

theorem store_memory (h : OffRegisters p pr a) (hp : nvmPage p pr a.toNat = none) :
    t.store p pr d a v = t.putMem a.toNat [v] := by
  obtain ⟨hctrl, hdata, hlow, hhigh⟩ := offRegisters_iff.1 h
  rw [Target.store, if_neg hctrl, if_neg hdata, if_neg hlow, if_neg hhigh, hp]

theorem store_data (hctrl : a ≠ dataAddr (pr.nvmctrl + p.nvmCtrlA)) (h : a = dataAddr (pr.nvmctrl + p.nvmData)) :
    t.store p pr d a v = { t with dataReg := v } := (if_neg hctrl).trans (if_pos h)

theorem store_addrL (hctrl : a ≠ dataAddr (pr.nvmctrl + p.nvmCtrlA)) (hdata : a ≠ dataAddr (pr.nvmctrl + p.nvmData))
    (h : a = dataAddr (pr.nvmctrl + p.nvmAddrL)) : t.store p pr d a v = { t with addrL := v } :=
  (if_neg hctrl).trans ((if_neg hdata).trans (if_pos h))

theorem store_addrH (hctrl : a ≠ dataAddr (pr.nvmctrl + p.nvmCtrlA)) (hdata : a ≠ dataAddr (pr.nvmctrl + p.nvmData))
    (hlow : a ≠ dataAddr (pr.nvmctrl + p.nvmAddrL)) (h : a = dataAddr (pr.nvmctrl + p.nvmAddrH)) :
    t.store p pr d a v = { t with addrH := v } :=
  (if_neg hctrl).trans ((if_neg hdata).trans ((if_neg hlow).trans (if_pos h)))

end Store

/-- Settles O39: one `STS.b`, by the address it stores to. -/
theorem storesLandInThePageBuffer : Obligations.StoresLandInThePageBuffer := by
  intro addr v s as rest hr hs hk reg stored
  have hstored := (directStoresWrite addr s as rest hr hs).1 v hk
  refine ⟨fun hoff => ⟨_, hstored, fun start len hpage => ?_, fun hplain => ?_⟩, fun hctrl hdata => ?_,
    fun hctrl hdata hlow => ?_, fun hctrl hdata hlow hhigh => ?_⟩
  · rw [store_page hoff hpage]
    exact ⟨fun x => (Target.bufByte_bufStore _ _ _ x v).trans (if_ctx_congr Iff.rfl (fun hx => hx ▸ rfl) fun _ => rfl), rfl⟩
  · rw [store_memory hoff hplain]
    exact ⟨fun x => memByte_putMem_single { s.target with rep := 0 } _ x v, rfl⟩
  · exact store_data (t := { s.target with rep := 0 }) hctrl hdata ▸ hstored
  · exact store_addrL (t := { s.target with rep := 0 }) hctrl hdata hlow ▸ hstored
  · exact store_addrH (t := { s.target with rep := 0 }) hctrl hdata hlow hhigh ▸ hstored

/-! ## Stores of several bytes (R68, R210, R213, R218) -/

theorem Landed.clearRep {p : Params} {pr : Profile} {a : Nat} {bs : List Byte} {t u : Target} (h : Landed p pr a bs t u) :
    Landed p pr a bs { t with rep := 0 } { u with rep := 0 } :=
  ⟨h.memory, h.buffer, h.outside, by rw [h.frame]⟩

/-- The units of a burst land, their bytes in ascending order from the pointer. -/
theorem burst_landed {p : Params} {pr : Profile} {d : Nat} {t : Target} {units : List (List Byte)} {bs : List Byte}
    (hflat : units.flatten = bs) (h : ClearOfRegisters p pr t.ptr.toNat bs.length) :
    Landed p pr t.ptr.toNat bs { t with ptr := t.ptr + BitVec.ofNat 16 bs.length, rep := 0 }
      { t.afterUnits p pr d units with rep := 0 } := by
  subst hflat
  have hlanded := (afterUnits_landed units t.ptr.toNat d t h (dataAddr_toNat t.ptr).symm).clearRep
  rwa [← dataAddr_add, dataAddr_toNat] at hlanded

/-- Settles O42. -/
theorem storesTouchOnlyTheirBytes : Obligations.StoresTouchOnlyTheirBytes := by
  intro s as rest hr hs
  refine ⟨fun a w hk hclear => ⟨_, (directStoresWrite a s as rest hr hs).2 w hk, ?_⟩, fun d hclear =>
    ⟨fun hlen hk => ⟨_, exec_stb_ok hr hlen hk hs, ?_⟩, fun hlen hk => ⟨_, exec_stw_ok hr hlen hk hs, ?_⟩⟩⟩
  · have hlanded := storeBytes_landed (d := s.wire.draws + 1) (wireWord w) a.toNat { s.target with rep := 0 } hclear
    rwa [dataAddr_toNat] at hlanded
  · exact burst_landed (byteUnits_flatten d) hclear
  · exact burst_landed (wordUnits_flatten d (by omega)).1 hclear

/-! ## The release of a held reset (R244, R292, R317) -/

theorem csWrite_release {p : Params} {pr : Profile} {d : Nat} {t : Target} (hne : p.resetRelease ≠ p.resetAssert)
    (hheld : t.resetHeld = true) : t.csWrite p pr d p.csResetReq p.resetRelease =
      (t.csPut p.csResetReq p.resetRelease).resetToggle pr d :=
  (if_pos rfl).trans ((if_neg hne).trans (if_pos ⟨rfl, hheld⟩))

theorem within_iff {start n x : Nat} : within start n x = true ↔ start ≤ x ∧ x < start + n := by
  simp [within]

/-- A block filled with `0xFF`. -/
theorem memByte_putMem_sentinel (t : Target) (a n x : Nat) :
    (t.putMem a (List.replicate n Config.sentinel)).memByte x = if within a n x then 0xFF else t.memByte x := by
  rw [Target.memByte_putMem, List.length_replicate]
  refine if_ctx_congr within_iff.symm (fun hin => ?_) fun _ => rfl
  obtain ⟨hlow, hhigh⟩ := within_iff.1 hin
  rw [List.getD_replicate _ (by omega)]
  rfl

theorem chipErase_memByte (pr : Profile) (t : Target) (x : Nat) : (t.chipErase pr).memByte x =
    if within pr.flash.start pr.flash.size x || within pr.eeprom.start pr.eeprom.size x then 0xFF else t.memByte x := by
  have herased : (t.chipErase pr).memByte x = if within pr.eeprom.start pr.eeprom.size x then 0xFF
      else (t.putMem pr.flash.start (List.replicate pr.flash.size Config.sentinel)).memByte x :=
    memByte_putMem_sentinel (t.putMem pr.flash.start (List.replicate pr.flash.size Config.sentinel)) _ _ x
  rw [herased, memByte_putMem_sentinel]
  cases within pr.eeprom.start pr.eeprom.size x <;> cases within pr.flash.start pr.flash.size x <;> rfl

/-- Settles O41. -/
theorem resetReleaseAppliesTheKeys : Obligations.ResetReleaseAppliesTheKeys := by
  intro s es rest hr hle hne hheld hes hs
  refine ⟨_, exec_silent_ok hr (exec_stcs hle _ s) rfl hes hs, ?_⟩
  rw [csWrite_release (t := s.target.clearRep) hne hheld]
  have hmem := resetToggle_memByte s.session.profile s.wire.draws
    (s.target.clearRep.csPut s.params.csResetReq s.params.resetRelease)
  have hkey : (s.target.clearRep.csPut s.params.csResetReq s.params.resetRelease).keyErase = s.target.keyErase := rfl
  rw [hkey] at hmem
  have hlocked : ((s.target.clearRep.csPut s.params.csResetReq s.params.resetRelease).resetToggle s.session.profile
      s.wire.draws).locked = (s.target.locked && !s.target.keyErase) := by
    unfold Target.resetToggle
    rw [hkey]
    cases s.target.keyErase
    · exact (Bool.and_true _).symm
    · exact (Bool.and_false _).symm
  have hprog : ((s.target.clearRep.csPut s.params.csResetReq s.params.resetRelease).resetToggle s.session.profile
      s.wire.draws).progMode = (s.target.keyProg && !((s.target.clearRep.csPut s.params.csResetReq
        s.params.resetRelease).resetToggle s.session.profile s.wire.draws).locked) := by
    unfold Target.resetToggle
    rw [hkey]
    cases s.target.keyErase <;> rfl
  refine ⟨rfl, rfl, rfl, rfl, hlocked, hprog, fun herase x => ?_, fun herase x => ?_⟩
  · rw [hmem, herase]
    rfl
  · rw [hmem, herase]
    exact chipErase_memByte _ _ x

/-! ## A page write: clear the buffer, pointer, repeat, burst, commit (R267) -/

/-- The page last addressed. -/
def Target.onPage (t : Target) (page : Nat × Nat) : Prop := t.pageStart = page.1 ∧ t.pageLen = page.2

section Page

variable {p : Params} {pr : Profile} {page : Nat × Nat}

/-- `n` bytes from `a` up are bytes of one page. -/
def InPage (p : Params) (pr : Profile) (page : Nat × Nat) (a n : Nat) : Prop :=
  ∀ j, j < n → nvmPage p pr (a + j) = some page

theorem InPage.tail {a n m : Nat} (h : InPage p pr page a (n + m)) : InPage p pr page (a + n) m := fun j hj => by
  rw [Nat.add_assoc]
  exact h (n + j) (by omega)

theorem InPage.head {a n m : Nat} (h : InPage p pr page a (n + m)) : InPage p pr page a n := fun j hj => h j (by omega)

theorem dataAddr_toNat_of_lt {a : Nat} (h : a < 65536) : (dataAddr a).toNat = a := by
  rw [dataAddr, BitVec.toNat_ofNat]
  omega

/-- A run of bytes inside a page makes it the page last addressed. -/
theorem storeBytes_onPage {d : Nat} (bs : List Byte) (a : Nat) (t : Target) (hclear : ClearOfRegisters p pr a bs.length)
    (hin : InPage p pr page a bs.length) (hne : bs ≠ []) : (t.storeBytes p pr d (dataAddr a) bs).onPage page := by
  induction bs generalizing a t with
  | nil => exact absurd rfl hne
  | cons b bs ih =>
    rw [List.length_cons, Nat.add_comm] at hclear hin
    have haddr : (dataAddr a).toNat = a := dataAddr_toNat_of_lt (by have := hclear.1; omega)
    have hoff : OffRegisters p pr (dataAddr a) := hclear.2 0 (by omega)
    have hpage : nvmPage p pr (dataAddr a).toNat = some page := haddr.symm ▸ hin 0 (by omega)
    have hfirst : (t.store p pr d (dataAddr a) b).onPage page := by
      rw [store_page hoff hpage]
      exact ⟨rfl, rfl⟩
    cases bs with
    | nil => exact hfirst
    | cons c cs =>
      rw [Target.storeBytes, show dataAddr a + 1 = dataAddr (a + 1) from dataAddr_add a 1]
      exact ih (a + 1) _ (Clear.tail hclear) hin.tail (List.cons_ne_nil _ _)

theorem afterUnits_onPage (us : List (List Byte)) (a d : Nat) (t : Target) (hclear : ClearOfRegisters p pr a us.flatten.length)
    (hin : InPage p pr page a us.flatten.length) (hptr : t.ptr = dataAddr a) (hunits : ∀ u ∈ us, u ≠ []) (hne : us ≠ []) :
    (t.afterUnits p pr d us).onPage page := by
  induction us generalizing a d t with
  | nil => exact absurd rfl hne
  | cons u us ih =>
    rw [List.flatten_cons, List.length_append] at hclear hin
    have hfirst : (t.takeUnit p pr d 1 u).onPage page := by
      have hstored := storeBytes_onPage (d := d) u a t (Clear.head hclear) hin.head (hunits u List.mem_cons_self)
      rw [← hptr] at hstored
      exact hstored
    cases us with
    | nil => exact hfirst
    | cons v vs =>
      refine ih (a + u.length) (d + 1) (t.takeUnit p pr d 1 u) (Clear.tail hclear) hin.tail ?_
        (fun w hw => hunits w (List.mem_cons_of_mem u hw)) (List.cons_ne_nil _ _)
      exact (congrArg (· + BitVec.ofNat 16 u.length) hptr).trans (dataAddr_add a u.length)

end Page

theorem forall₂_obey (bs : List Byte) : List.Forall₂ Echoes (List.replicate bs.length .obey) bs := by
  induction bs with
  | nil => exact .nil
  | cons b bs ih => exact .cons (.inl rfl) ih

/-- A target that keeps its contract acknowledges every phase. -/
theorem acked_obey (phs : List (List Byte)) (rest : List Answer) :
    Acked phs (List.replicate (phs.flatten.length + phs.length) .obey ++ rest) rest := by
  induction phs with
  | nil => rfl
  | cons ph phs ih =>
    refine ⟨List.replicate ph.length .obey, .obey, _, ?_, forall₂_obey ph, .inl rfl, ih⟩
    rw [List.flatten_cons, List.length_append, List.length_cons,
      show ph.length + phs.flatten.length + (phs.length + 1) = ph.length + ((phs.flatten.length + phs.length) + 1) by omega,
      List.replicate_add, List.replicate_succ, List.append_assoc, List.cons_append]

/-- `t` is on the way of an operation of `s` whose target keeps its contract for `n` more answers. -/
structure Stage (s t : State) (todo : List Micro) (n : Nat) (more : List Answer) : Prop where
  ready : Ready t
  running : t.running
  params : t.params = s.params
  session : t.session = s.session
  todo : t.ctl.todo = todo
  script : t.wire.script = List.replicate n .obey ++ more

/-- The next frame of the operation takes its answers; what it does to the target holds after it. -/
theorem Stage.step {s t : State} {i : Instr} {todo : List Micro} {k n : Nat} {more : List Answer} {P : Target → Prop}
    (h : Stage s t (.cmd i :: todo) (k + n) more)
    (hexec : ∀ w : State, Ready w → w.params = s.params → w.session = s.session → w.target = t.target →
      w.wire.script = List.replicate k .obey ++ (List.replicate n .obey ++ more) →
      ∃ out d u, exec i w = .next (w.replied out (List.replicate n .obey ++ more) d u []) ∧ P u) :
    ∃ v, Machine.step t = .next v ∧ Stage s v todo n more ∧ P v.target := by
  obtain ⟨out, d, u, hw, hu⟩ := hexec (t.setTodo todo) ⟨h.ready.up, h.ready.quiet, h.ready.patient⟩ h.params h.session rfl
    (by rw [← List.append_assoc, ← List.replicate_add]; exact h.script)
  exact ⟨_, (step_micro h.running h.todo).trans hw,
    ⟨⟨h.ready.up, h.ready.quiet, h.ready.patient⟩, h.running, h.params, h.session, rfl, rfl⟩, hu⟩

/-- The burst of a page's units on a target that keeps its contract. -/
theorem exec_burst_obey {s : State} {i : Instr} {insn : Byte} {units : List (List Byte)} {data : List Byte}
    {more : List Answer} {page : Nat × Nat} (hr : Ready s) (hexec : exec i s = onLink s (burstStoreFrame insn units))
    (hflat : units.flatten = data) (hlen : units.length = s.target.rep.toNat + 1) (hne : ∀ u ∈ units, u ≠ [])
    (hclear : ClearOfRegisters s.params s.session.profile s.target.ptr.toNat data.length)
    (hin : InPage s.params s.session.profile page s.target.ptr.toNat data.length)
    (hs : s.wire.script = List.replicate (2 + data.length + units.length) .obey ++ more) :
    ∃ out d u, exec i s = .next (s.replied out more d u []) ∧
      Landed s.params s.session.profile s.target.ptr.toNat data
        { s.target with ptr := s.target.ptr + BitVec.ofNat 16 data.length, rep := 0 } u ∧ u.onPage page := by
  refine ⟨_, _, _, exec_burst_ok (rest := more) hr hexec hlen hne (fun u us hunits => ?_) hs, burst_landed hflat hclear, ?_⟩
  · subst hunits hflat
    have hacked := acked_obey ((Config.sync :: insn :: u) :: us) more
    rwa [List.flatten_cons, List.length_append, List.length_cons, List.length_cons, Nat.add_right_comm u.length,
      Nat.add_comm _ 2, Nat.add_assoc 2, ← List.length_append, ← List.flatten_cons] at hacked
  · subst hflat
    exact afterUnits_onPage units _ _ s.target hclear hin (dataAddr_toNat _).symm hne (List.ne_nil_of_length_eq_add_one hlen)

theorem exec_burstStore_obey {s : State} {kind : RegionKind} {dims : RegionDims} {data : List Byte} {more : List Answer}
    {page : Nat × Nat} (hr : Ready s) (hlen : data.length = unitBytes kind * (s.target.rep.toNat + 1))
    (hclear : ClearOfRegisters s.params s.session.profile s.target.ptr.toNat data.length)
    (hin : InPage s.params s.session.profile page s.target.ptr.toNat data.length)
    (hs : s.wire.script = List.replicate (2 + data.length + (s.target.rep.toNat + 1)) .obey ++ more) :
    ∃ out d u, exec (burstStore ⟨kind, dims⟩ data) s = .next (s.replied out more d u []) ∧
      Landed s.params s.session.profile s.target.ptr.toNat data
        { s.target with ptr := s.target.ptr + BitVec.ofNat 16 data.length, rep := 0 } u ∧ u.onPage page := by
  have hrep := s.target.rep.isLt
  cases kind with
  | flash =>
    have hlen' : data.length = 2 * (s.target.rep.toNat + 1) := hlen
    obtain ⟨hflat, hcount⟩ := wordUnits_flatten data (by omega)
    have hunits : (wordUnits data).length = s.target.rep.toNat + 1 := by omega
    exact exec_burst_obey hr (exec_stw (by omega) (countOk_iff.2 (by omega)) s) hflat hunits (wordUnits_ne data) hclear hin
      (hunits.symm ▸ hs)
  | eeprom =>
    have hlen' : data.length = s.target.rep.toNat + 1 := hlen.trans (Nat.one_mul _)
    have hunits : (byteUnits data).length = s.target.rep.toNat + 1 := (List.length_map _).trans hlen'
    exact exec_burst_obey hr (exec_stb (countOk_iff.2 (by omega)) s) (byteUnits_flatten data) hunits byteUnits_ne hclear hin
      (hunits.symm ▸ hs)

/-- A page of whole units is a number of them, at least one. -/
theorem exists_units {kind : RegionKind} {n : Nat} (hunits : n % unitBytes kind = 0) (hpos : 1 ≤ n) :
    ∃ units, n / unitBytes kind = units + 1 ∧ n = unitBytes kind * (units + 1) := by
  have hmul : n = unitBytes kind * (n / unitBytes kind) := (Nat.mul_div_cancel' (Nat.dvd_of_mod_eq_zero hunits)).symm
  cases hdiv : n / unitBytes kind with
  | zero =>
    rw [hdiv, Nat.mul_zero] at hmul
    omega
  | succ units => exact ⟨units, rfl, hdiv ▸ hmul⟩

/-- Settles O40: what holds of the target after each of the five frames. -/
theorem pageWriteReplacesThePage : Obligations.PageWriteReplacesThePage := by
  intro s kind start n page rest more hr hrun hlegal hpage hspace hunits hpos hcount hin htodo hs
  obtain ⟨units, hdiv, hn⟩ := exists_units hunits hpos
  rw [hdiv] at htodo hcount
  have hsize : n ≤ 512 := by
    cases kind <;> simp only [unitBytes] at hn <;> omega
  obtain ⟨left, hleft⟩ : ∃ left, 1024 = 7 + (5 + (3 + ((2 + n + (units + 1)) + (7 + left)))) :=
    ⟨1024 - (7 + (5 + (3 + ((2 + n + (units + 1)) + 7)))), by omega⟩
  have hstart : Stage s s _ _ more := ⟨hr, hrun, rfl, rfl, htodo, hleft ▸ hs⟩
  obtain ⟨t1, hstep1, h1, hbuf1, hmem1⟩ := hstart.step
    (P := fun t => (∀ x, t.bufByte x = 0xFF) ∧ ∀ x, t.memByte x = s.target.memByte x)
    fun w hw hp _ ht hscript => by
      obtain ⟨t, hexec, hbuf, hmem, -⟩ := pageBufferClrFillsWithFF w _ _ hw (hp ▸ hlegal) hscript (acked_obey _ _)
      exact ⟨_, _, t, hexec, hbuf, ht ▸ hmem⟩
  obtain ⟨t2, hstep2, h2, hbuf2, hmem2, hptr2⟩ := h1.step
    (P := fun t => (∀ x, t.bufByte x = 0xFF) ∧ (∀ x, t.memByte x = s.target.memByte x) ∧ t.ptr = dataAddr start)
    fun w hw hp _ ht hscript =>
      ⟨_, _, _, setPointerWrites _ w _ _ hw hscript (acked_obey _ _), ht ▸ hbuf1, ht ▸ hmem1, rfl⟩
  obtain ⟨t3, hstep3, h3, hbuf3, hmem3, hptr3, hrep3⟩ := h2.step
    (P := fun t => (∀ x, t.bufByte x = 0xFF) ∧ (∀ x, t.memByte x = s.target.memByte x) ∧ t.ptr = dataAddr start ∧
      t.rep = BitVec.ofNat 8 units)
    fun w hw hp _ ht hscript =>
      ⟨_, _, _, repeatSetsTheCounter _ w _ _ hw (by omega) hcount (forall₂_obey _) hscript, ht ▸ hbuf2, ht ▸ hmem2,
        ht ▸ hptr2, rfl⟩
  obtain ⟨t4, hstep4, h4, hbuf4, hmem4, honpage4⟩ := h3.step
    (P := fun t => (∀ j, j < n → t.bufByte (start + j) = page.getD j 0) ∧ (∀ x, t.memByte x = s.target.memByte x) ∧
      t.onPage (start, n))
    fun w hw hp hsess ht hscript => by
      have hptr : w.target.ptr.toNat = start := by rw [ht, hptr3, dataAddr_toNat_of_lt (by omega)]
      have hrep : w.target.rep.toNat = units := by
        rw [ht, hrep3, BitVec.toNat_ofNat]
        omega
      obtain ⟨out, d, u, hexec, hlanded, hon⟩ := exec_burstStore_obey (page := (start, n)) (dims := ⟨start, n, n⟩) hw
        (by rw [hpage, hrep, hn])
        (by rw [hptr, hp, hsess, hpage]; exact ⟨hspace, fun j hj => (hin j hj).2⟩)
        (by rw [hptr, hp, hsess, hpage]; exact fun j hj => (hin j hj).1) (by rw [hpage, hrep]; exact hscript)
      rw [hptr, hp, hsess, ht] at hlanded
      have hbuffer := fun j (hj : j < n) => hlanded.buffer j (hpage.symm ▸ hj) (by rw [(hin j hj).1]; rfl)
      refine ⟨out, d, u, hexec, fun j hj => ?_, fun x => ?_, hon⟩
      · exact (hbuffer j hj).1.trans ((congrArg (· &&& page.getD j 0) (hbuf3 (start + j))).trans BitVec.allOnes_and)
      · refine Eq.trans ?_ (hmem3 x)
        by_cases hx : start ≤ x ∧ x < start + n
        · obtain ⟨j, rfl⟩ := Nat.exists_eq_add_of_le hx.1
          exact (hbuffer j (by omega)).2
        · exact (hlanded.outside x (by omega)).1
  obtain ⟨t5, hstep5, h5, hmem5⟩ := h4.step
    (P := fun t => ∀ x, t.memByte x = if start ≤ x ∧ x < start + n then page.getD (x - start) 0 else s.target.memByte x)
    fun w hw hp _ ht hscript => by
      obtain ⟨t, hexec, hmem, -⟩ := eraseWritePageReplacesThePage w _ _ hw (hp ▸ hlegal) hscript (acked_obey _ _)
      refine ⟨_, _, t, hexec, fun x => ?_⟩
      obtain ⟨hps, hpl⟩ := honpage4
      rw [hmem, ht, hps, hpl, hmem4]
      refine if_ctx_congr Iff.rfl (fun hx => ?_) fun _ => rfl
      rw [← hbuf4 (x - start) (by omega), Nat.add_sub_cancel' hx.1]
  refine ⟨t5, ?_, h5.todo, h5.session, hmem5⟩
  rw [run_succ hstep1, run_succ hstep2, run_succ hstep3, run_succ hstep4, run_succ hstep5]
  rfl

end Sys2Proof.Machine
end

section
/-! Proofs of the statements about wrong, missing and short answers, and about what an instruction sends whatever the
environment answers (spec/42_updi_link.md section 1, spec/60_exceptions.md sections 1, 2 and 4). -/

namespace Sys2Proof.Machine

/-! ## Stores as phases, each awaiting its acknowledge (R202) -/

/-- No condition on the target. -/
def AnyTarget : Target → Prop := fun _ => True

/-- The end of a frame: the response and the target have changed, and nothing else. -/
def FrameEnd (s t : State) : Prop := OnlyWire AnyTarget s t ∧ t.wire.sent = s.wire.sent

theorem frameEnd_setResp (s : State) (bs : List Byte) : FrameEnd s (s.setResp bs) := ⟨setResp_only _ _ _, rfl⟩

/-- `c`, run from `s`, is a store of these phases: each goes out, the target takes it, its acknowledge is awaited. -/
inductive Phased : List (List Byte) → State → Comm Unit → Prop where
  | done {s t : State} (h : FrameEnd s t) : Phased [] s (.ok () t)
  | phase {s : State} {phs : List (List Byte)} (ph : List Byte) (owed : State → List Byte)
      (f : State → Nat → Target → Target) (rest : State → State → Comm Unit) (h : ∀ u v, Phased phs v (rest u v)) :
      Phased (ph :: phs) s ((send ph s).bind fun _ u => (expectAck (owed u) (onTarget u (f u))).bind fun _ v => rest u v)

theorem directStore_phased (insn : Byte) (a : Word) (data : List Byte) (s : State) :
    Phased [Config.sync :: insn :: wireWord a, data] s (directStore insn a data s) := by
  refine .phase _ (fun _ => [Config.ack]) (fun _ _ t => t.clearRep) (fun _ s =>
    (dataPhase data (fun d t => t.storeBytes s.params s.session.profile d a data) s).bind fun _ s => .ok () (s.setResp []))
    fun _ v => ?_
  rw [dataPhase, Comm.bind_assoc]
  exact .phase _ (fun _ => [Config.ack]) (fun _ d t => t.storeBytes v.params v.session.profile d a data)
    (fun _ s => .ok () (s.setResp [])) fun _ w => .done (frameEnd_setResp w [])

theorem storeUnits_phased {k : State → State} (hk : ∀ t, FrameEnd t (k t)) (us : List (List Byte)) (left : Nat) (s : State) :
    Phased us s ((storeUnits left us s).bind fun _ t => .ok () (k t)) := by
  induction us generalizing left s with
  | nil => exact .done (hk s)
  | cons u us ih =>
    rw [storeUnits, Comm.bind_assoc]
    simp only [Comm.bind_assoc]
    exact .phase u (fun _ => unitAck left) (fun s d t => t.takeUnit s.params s.session.profile d left u)
      (fun _ v => (storeUnits (left - 1) us v).bind fun _ t => .ok () (k t)) fun _ v => ih (left - 1) v

theorem burstStoreFrame_phased (insn : Byte) (u : List Byte) (us : List (List Byte)) (s : State) :
    Phased ((Config.sync :: insn :: u) :: us) s (burstStoreFrame insn (u :: us) s) :=
  .phase _ (fun s => unitAck (s.target.rep.toNat + 1))
    (fun s d t => t.takeUnit s.params s.session.profile d (s.target.rep.toNat + 1) u)
    (fun w v => (storeUnits w.target.rep.toNat us v).bind fun _ t => .ok () ((t.setTarget t.target.clearRep).setResp []))
    fun w v => storeUnits_phased (k := fun t => (t.setTarget t.target.clearRep).setResp []) (fun _ =>
      ⟨⟨rfl, rfl, rfl, rfl, rfl, fun _ => trivial, id⟩, rfl⟩) us w.target.rep.toNat v

/-- Every store is its phases. -/
theorem exec_phased {i : Instr} (hw : i.wf = true) (ha : awaitsAck i = true) (s : State) :
    ∃ body, exec i s = onLink s body ∧ Phased (phases s i) s (body s) := by
  have direct := fun (insn : Byte) (a : Word) (data : List Byte) => directStore_phased insn a data s
  cases i with
  | stsb a v => exact ⟨_, rfl, direct _ _ _⟩
  | stsw a w => exact ⟨_, rfl, direct _ _ _⟩
  | stPtr a => exact ⟨_, exec_stPtr a s, .phase _ (fun _ => [Config.ack]) (fun _ _ t => { t.clearRep with ptr := a })
      (fun _ v => .ok () (v.setResp [])) fun _ v => .done (frameEnd_setResp v [])⟩
  | stb d =>
    refine ⟨_, exec_stb hw s, ?_⟩
    cases hunits : byteUnits d with
    | nil => rw [phases, hunits]; exact .done ⟨OnlyWire.refl _ s, rfl⟩
    | cons u us => rw [phases_stb hunits]; exact burstStoreFrame_phased _ u us s
  | stw d =>
    obtain ⟨heven, hcount⟩ := Bool.and_eq_true_iff.1 hw
    refine ⟨_, exec_stw (of_decide_eq_true heven) hcount s, ?_⟩
    cases hunits : wordUnits d with
    | nil => rw [phases, hunits]; exact .done ⟨OnlyWire.refl _ s, rfl⟩
    | cons u us => rw [phases_stw hunits]; exact burstStoreFrame_phased _ u us s
  | writePage => exact ⟨_, rfl, direct _ _ _⟩
  | eraseWritePage => exact ⟨_, rfl, direct _ _ _⟩
  | pageBufferClr => exact ⟨_, rfl, direct _ _ _⟩
  | writeFuse => exact ⟨_, rfl, direct _ _ _⟩
  | data aaaa dd => cases ha
  | eof aaaa dd => cases ha
  | esa aaaa dd => cases ha
  | ssa aaaa dd => cases ha
  | ela aaaa dd => cases ha
  | hexReserved rr aaaa dd => cases ha
  | ldcs r => cases ha
  | stcs r v => cases ha
  | ldsb a => cases ha
  | ldsw a => cases ha
  | ldb n => cases ha
  | ldw n => cases ha
  | rep n => cases ha
  | key k => cases ha
  | brk => cases ha
  | doubleBreak => cases ha

theorem onTarget_any (s : State) (f : Nat → Target → Target) : OnlyWire AnyTarget s (onTarget s f) :=
  onTarget_only (fun _ _ _ => trivial) s

/-- What follows the bytes of a load sends nothing. -/
theorem load_rest_sends (n : Nat) (owed : State → List Byte) (f : State → Nat → Target → Target) (s : State) :
    ((expectBytes n (owed s) (onTarget s (f s))).bind fun v s => .ok () (s.setResp v)).Sends AnyTarget [] s :=
  Comm.Sends.of_only (onTarget_any s _) rfl
    ((expectBytes_sends AnyTarget n _ _).bind fun v u _ _ => Comm.sends_done (setResp_only AnyTarget u v) rfl)

theorem silent_rest_sends (f : Nat → Target → Target) (s : State) :
    (Comm.ok () ((onTarget s f).setResp [])).Sends AnyTarget [] s :=
  Comm.sends_done ((onTarget_any s f).trans (setResp_only _ _ _)) rfl

/-- Every other instruction of the link but the double break sends its encoding in one piece, and nothing after it. -/
theorem exec_one_piece {i : Instr} (hi : isLinkInstr i = true) (hw : i.wf = true) (ha : awaitsAck i = false)
    (hdouble : i ≠ .doubleBreak) (s : State) :
    phases s i = [encode s.params i] ∧
      ∃ k : State → Comm Unit, (exec i s = onLink s fun s' => (send (encode s.params i) s').bind fun _ u => k u) ∧
        ∀ u, (k u).Sends AnyTarget [] u := by
  cases i with
  | ldcs r => exact ⟨rfl, _, exec_ldcs (of_decide_eq_true hw) s, load_rest_sends _ _ _⟩
  | stcs r v => exact ⟨rfl, _, exec_stcs (of_decide_eq_true hw) v s, silent_rest_sends _⟩
  | ldsb a => exact ⟨rfl, _, rfl, load_rest_sends _ _ _⟩
  | ldsw a => exact ⟨rfl, _, rfl, load_rest_sends _ _ _⟩
  | ldb n => exact ⟨rfl, _, exec_ldb hw s, load_rest_sends _ _ _⟩
  | ldw n => exact ⟨rfl, _, exec_ldw hw s, load_rest_sends _ _ _⟩
  | rep n => exact ⟨rfl, _, exec_rep hw s, silent_rest_sends _⟩
  | key k => exact ⟨rfl, _, exec_key (of_decide_eq_true hw) s, silent_rest_sends _⟩
  | brk => exact ⟨rfl, _, exec_brk s, silent_rest_sends _⟩
  | doubleBreak => exact absurd rfl hdouble
  | data aaaa dd => cases hi
  | eof aaaa dd => cases hi
  | esa aaaa dd => cases hi
  | ssa aaaa dd => cases hi
  | ela aaaa dd => cases hi
  | hexReserved rr aaaa dd => cases hi
  | stsb a v => cases ha
  | stsw a w => cases ha
  | stPtr a => cases ha
  | stb d => cases ha
  | stw d => cases ha
  | writePage => cases ha
  | eraseWritePage => cases ha
  | pageBufferClr => cases ha
  | writeFuse => cases ha

/-! ## A wrong answer ends everything at once (R200, R202, R313) -/

/-- `c`, run from `s`, takes the error `e` after exactly the bytes `out` went out. -/
def StopsWith (s : State) (e : Error) (out : List Byte) (c : Comm Unit) : Prop :=
  ∃ u, c = .stop (takeError e u) ∧ Near s u ∧ u.wire.sent = s.wire.sent ++ s.onWire out

theorem StopsWith.exec {s : State} {e : Error} {out : List Byte} {i : Instr} {body : State → Comm Unit} (hr : Ready s)
    (he : e.fatal = true) (hexec : Machine.exec i s = onLink s body) (h : StopsWith s e out (body s)) :
    ∃ t, Machine.exec i s = .next t ∧ FatalExit e s t ∧ t.wire.sent = s.wire.sent ++ s.onWire out := by
  obtain ⟨u, hu, hnear, hsent⟩ := h
  rw [hexec, onLink_up hr.up, hu]
  exact ⟨_, rfl, exit_near he hnear, (fatal_sent he).trans hsent⟩

theorem StopsWith.bind {s : State} {e : Error} {out : List Byte} {c : Comm Unit} (h : StopsWith s e out c)
    (f : Unit → State → Comm Unit) : StopsWith s e out (c.bind f) := by
  obtain ⟨u, rfl, hu⟩ := h
  exact ⟨u, rfl, hu⟩

/-- What stops later has sent what went out before, too. -/
theorem StopsWith.after {s v : State} {e : Error} {sent out : List Byte} {c : Comm Unit} (h : StopsWith v e out c)
    (hnear : Near s v) (hsent : v.wire.sent = s.wire.sent ++ s.onWire sent) : StopsWith s e (sent ++ out) c := by
  obtain ⟨u, hu, hnear', hsent'⟩ := h
  refine ⟨u, hu, hnear.trans hnear', ?_⟩
  rw [hsent', hsent, onWire_append, onWire_congr hnear.session, List.append_assoc]

theorem near_wireAt (s : State) (bs : List Byte) (rest : List Answer) (n : Nat) : Near s (s.wireAt bs rest n) :=
  ⟨rfl, rfl, rfl, rfl, rfl, rfl, rfl⟩

theorem send_badEcho {s : State} {pre post : List Byte} {b : Byte} {bad rest : List Answer} {err : TransportError}
    (hq : s.wire.irq = none) (hp : 1 ≤ s.params.recvAttempts) (hbad : BadEcho s.params b bad err)
    (hs : s.wire.script = echoed pre ++ bad ++ rest) :
    StopsWith s (.transport err) (pre ++ if err = .shortWrite then [] else [b]) (send (pre ++ b :: post) s) := by
  rw [List.append_assoc] at hs
  cases hbad with
  | different c hc =>
    obtain ⟨n, hn⟩ := send_mismatch (post := post) hq hp (forall2_echoed pre) hs hc
    exact ⟨_, hn, near_wireAt _ _ _ _, rfl⟩
  | error =>
    obtain ⟨n, hn⟩ := send_missing (post := post) (b := b) hq hp (forall2_echoed pre) hs (.inl rfl)
    exact ⟨_, hn, near_wireAt _ _ _ _, rfl⟩
  | silence =>
    obtain ⟨n, hn⟩ := send_missing (post := post) (b := b) hq hp (forall2_echoed pre) hs (.inr rfl)
    exact ⟨_, hn, near_wireAt _ _ _ _, rfl⟩
  | short =>
    obtain ⟨n, hn⟩ := send_short (post := post) (b := b) hq hp (forall2_echoed pre) hs
    exact ⟨_, hn, near_wireAt _ _ _ _, by rw [if_pos rfl, List.append_nil]; rfl⟩

theorem stopsWith_raise {s u : State} (e : Error) (hnear : Near s u) (hsent : u.wire.sent = s.wire.sent) :
    StopsWith s e [] (raise e u) := ⟨u, rfl, hnear, hsent.trans (List.append_nil _).symm⟩

theorem expectAck_badAck {s : State} {owed : List Byte} {bad rest : List Answer} (hq : s.wire.irq = none)
    (hp : 1 ≤ s.params.recvAttempts) (hbad : BadAck s.params bad) (hs : s.wire.script = bad ++ rest) :
    StopsWith s (.protocol .missingAck) [] (expectAck owed s) := by
  unfold expectAck
  cases hbad with
  | different c hc =>
    rw [recv_delivers (len := 1) hq hp hs (.inr rfl) rfl le_rfl, Comm.bind_ok]
    simp only [if_neg hc]
    exact stopsWith_raise _ ⟨rfl, rfl, rfl, rfl, rfl, rfl, rfl⟩ rfl
  | error =>
    rw [recv_error hq hp hs le_rfl]
    exact stopsWith_raise _ ⟨rfl, rfl, rfl, rfl, rfl, rfl, rfl⟩ rfl
  | silence =>
    rw [recv_empty hq hs le_rfl]
    exact stopsWith_raise _ ⟨rfl, rfl, rfl, rfl, rfl, rfl, rfl⟩ rfl

theorem expectAck_acked {s : State} {owed : List Byte} {rest : List Answer} (hq : s.wire.irq = none)
    (hp : 1 ≤ s.params.recvAttempts) (hs : s.wire.script = .bytes [Config.ack] :: rest) :
    expectAck owed s = .ok () (s.received rest) := by
  unfold expectAck
  rw [recv_delivers (len := 1) (got := [Config.ack]) hq hp hs (.inr rfl) rfl le_rfl, Comm.bind_ok]
  exact if_pos rfl

/-- A phase that is echoed stands at its acknowledge. -/
theorem send_echoed {s : State} {ph : List Byte} {rest : List Answer} (hr : Ready s)
    (hs : s.wire.script = echoed ph ++ rest) :
    ∃ n, send ph s = .ok () (s.wireAt ph rest n) := send_ok' hr.quiet hr.patient (forall2_echoed ph) hs

/-- After phases that are echoed and acknowledged, what stops the store at the next one stops the store. -/
theorem Phased.stops {done more : List (List Byte)} {phase : List Byte} {s : State} {c : Comm Unit} {e : Error}
    {out : List Byte} {answers : List Answer} (h : Phased (done ++ phase :: more) s c) (hr : Ready s)
    (hs : s.wire.script = acked done ++ answers)
    (hstop : ∀ (w : State) (owed : State → List Byte) (f : State → Nat → Target → Target) (rest : State → State → Comm Unit),
      Ready w → w.params = s.params → w.wire.script = answers →
      StopsWith w e out ((send phase w).bind fun _ u =>
        (expectAck (owed u) (onTarget u (f u))).bind fun _ v => rest u v)) :
    StopsWith s e (done.flatten ++ out) c := by
  induction done generalizing s c with
  | nil =>
    cases h with
    | phase _ owed f rest _ => exact hstop s owed f rest hr rfl hs
  | cons d ds ih =>
    cases h with
    | phase _ owed f rest hrest =>
      rw [acked, List.append_assoc, List.cons_append] at hs
      obtain ⟨n, hn⟩ := send_echoed hr hs
      let u := s.wireAt d (.bytes [Config.ack] :: (acked ds ++ answers)) n
      let v := (onTarget u (f u)).received (acked ds ++ answers)
      have hack : expectAck (owed u) (onTarget u (f u)) = .ok () v := expectAck_acked hr.quiet hr.patient rfl
      have hnear : Near s v := ⟨rfl, rfl, rfl, rfl, rfl, rfl, rfl⟩
      have hlater : StopsWith v e (ds.flatten ++ out) (rest u v) :=
        ih (hrest u v) (hnear.ready hr) rfl fun w owed f rest hw hp hws => hstop w owed f rest hw (hp.trans hnear.params) hws
      rw [hn, Comm.bind_ok, hack, Comm.bind_ok, List.flatten_cons, List.append_assoc]
      exact hlater.after hnear rfl

/-- Settles O44. -/
theorem missingAckIsFatal : Obligations.MissingAckIsFatal := by
  intro i s done more phase bad rest hr hw ha hph hbad hs
  obtain ⟨body, hexec, hphased⟩ := exec_phased hw ha s
  rw [hph] at hphased
  rw [List.append_assoc, List.append_assoc] at hs
  refine StopsWith.exec hr rfl hexec (hphased.stops hr hs fun w owed f k hready hp hws => ?_)
  obtain ⟨n, hn⟩ := send_echoed hready hws
  rw [hn, Comm.bind_ok]
  have hstop := (expectAck_badAck (s := onTarget (w.wireAt phase (bad ++ rest) n) (f (w.wireAt phase (bad ++ rest) n)))
    (owed := owed (w.wireAt phase (bad ++ rest) n)) hready.quiet
    hready.patient (hp.symm ▸ hbad) rfl).after (s := w) (sent := phase) ⟨rfl, rfl, rfl, rfl, rfl, rfl, rfl⟩ rfl
  rw [List.append_nil] at hstop
  exact hstop.bind _

theorem isLinkInstr_of_phases {s : State} {i : Instr} (h : phases s i ≠ []) : isLinkInstr i = true := by
  cases i
  case data aaaa dd => exact absurd rfl h
  case eof aaaa dd => exact absurd rfl h
  case esa aaaa dd => exact absurd rfl h
  case ssa aaaa dd => exact absurd rfl h
  case ela aaaa dd => exact absurd rfl h
  case hexReserved rr aaaa dd => exact absurd rfl h
  all_goals rfl

/-- Settles O43: a store stops in one of its phases, any other instruction in its one piece. -/
theorem wrongEchoIsFatal : Obligations.WrongEchoIsFatal := by
  intro i s done more pre post b bad rest err hr hw hdouble hph hbad hs
  rw [List.append_assoc (acked done), List.append_assoc (acked done)] at hs
  have hsend : ∀ w : State, Ready w → w.params = s.params → w.wire.script = echoed pre ++ bad ++ rest →
      StopsWith w (.transport err) (pre ++ if err = .shortWrite then [] else [b]) (send (pre ++ b :: post) w) :=
    fun w hready hp hws => send_badEcho hready.quiet hready.patient (hp.symm ▸ hbad) hws
  rw [List.append_assoc]
  cases ha : awaitsAck i with
  | true =>
    obtain ⟨body, hexec, hphased⟩ := exec_phased hw ha s
    rw [hph] at hphased
    exact StopsWith.exec hr rfl hexec
      (hphased.stops hr hs fun w owed f k hready hp hws => (hsend w hready hp hws).bind _)
  | false =>
    obtain ⟨hone, k, hexec, -⟩ := exec_one_piece (isLinkInstr_of_phases (by rw [hph]; simp)) hw ha hdouble s
    rw [hone] at hph
    cases done with
    | nil =>
      rw [(List.cons.inj hph).1] at hexec
      exact StopsWith.exec hr rfl hexec ((hsend s hr rfl hs).bind _)
    | cons d ds => exact absurd (List.cons.inj hph).2 (by simp)

end Sys2Proof.Machine
end

section
/-! Proofs of the statements about responses that come in pieces, and about what an instruction sends whatever the environment
answers (spec/42_updi_link.md section 1, spec/60_exceptions.md sections 2 and 4). -/

namespace Sys2Proof.Machine

/-! ## Responses in pieces (R201, R202) -/

/-- The state after a frame went out and `n` attempts to receive were made; the target has taken the frame. -/
def State.heard (s : State) (out : List Byte) (rest : List Answer) (t : Target) (n : Nat) : State :=
  { s with
    target := t
    wire := { s.wire with
      sent := s.wire.sent ++ s.onWire out, script := rest, draws := s.wire.draws + 1, recvAttempt := n } }

/-- A load whose response comes in pieces: short it stops, whole it is the frame's value. -/
theorem loadFrame_receives {insn : Byte} {ops : List Byte} {n : Nat} {owed : Nat → Target → List Byte} {f : Target → Target}
    {s : State} {pieces : List (List Byte)} {as rest : List Answer} (hr : Ready s)
    (hp : Receives s.params.recvAttempts n pieces as)
    (hs : s.wire.script = echoed (Config.sync :: insn :: ops) ++ (as ++ rest)) :
    loadFrame insn ops n owed f s =
      let v := s.heard (Config.sync :: insn :: ops) rest (f s.target) pieces.length
      if pieces.flatten.length < n then raise (.transport .shortRead) v else .ok () (v.setResp pieces.flatten) := by
  rw [loadFrame, frame_eq, send_ok hr.quiet hr.patient (forall2_echoed _) hs (List.cons_ne_nil _ _), Comm.bind_ok, expectBytes,
    recv_receives (pieces := pieces) (as := as) (rest := rest) (by exact hr.quiet) (by exact hp) (by rfl), Comm.bind_ok]
  split <;> rfl

/-- Every load is one frame with its response; what it does depends on the parameters and the session alone. -/
theorem exec_eq_loadFrame {i : Instr} (hlen : 0 < responseLen i) (hw : i.wf = true) (s : State) :
    ∃ insn ops owed f, encode s.params i = Config.sync :: insn :: ops ∧ ∀ u : State, u.params = s.params →
      u.session = s.session → exec i u = onLink u (loadFrame insn ops (responseLen i) owed f) := by
  cases i with
  | ldcs r =>
    refine ⟨_, _, fun d t => [t.csRead s.params d r], Target.clearRep, rfl, fun u hp _ => ?_⟩
    rw [exec_ldcs (of_decide_eq_true hw), hp]
    rfl
  | ldsb a =>
    refine ⟨_, _, fun d t => t.loadBytes s.params s.session.profile d a 1,
      fun t => t.clearRep.polledBytes s.params s.session.profile a 1, rfl, fun u hp hsess => ?_⟩
    rw [← hp, ← hsess]
    rfl
  | ldsw a =>
    refine ⟨_, _, fun d t => t.loadBytes s.params s.session.profile d a 2,
      fun t => t.clearRep.polledBytes s.params s.session.profile a 2, rfl, fun u hp hsess => ?_⟩
    rw [← hp, ← hsess]
    rfl
  | ldb n =>
    refine ⟨_, _, fun d t => t.loadBytes s.params s.session.profile d t.ptr (1 * (t.rep.toNat + 1)),
      fun t => t.passBytes s.params s.session.profile (1 * (t.rep.toNat + 1)), rfl, fun u hp hsess => ?_⟩
    rw [exec_ldb hw, onLink, onLink, burstLoadFrame, hp, hsess, Nat.one_mul n]
    rfl
  | ldw n =>
    refine ⟨_, _, fun d t => t.loadBytes s.params s.session.profile d t.ptr (2 * (t.rep.toNat + 1)),
      fun t => t.passBytes s.params s.session.profile (2 * (t.rep.toNat + 1)), rfl, fun u hp hsess => ?_⟩
    rw [exec_ldw hw, onLink, onLink, burstLoadFrame, hp, hsess]
    rfl
  | data aaaa dd => cases hlen
  | eof aaaa dd => cases hlen
  | esa aaaa dd => cases hlen
  | ssa aaaa dd => cases hlen
  | ela aaaa dd => cases hlen
  | hexReserved rr aaaa dd => cases hlen
  | stcs r v => cases hlen
  | stsb a v => cases hlen
  | stsw a w => cases hlen
  | stPtr a => cases hlen
  | stb d => cases hlen
  | stw d => cases hlen
  | rep n => cases hlen
  | key k => cases hlen
  | brk => cases hlen
  | doubleBreak => cases hlen
  | writePage => cases hlen
  | eraseWritePage => cases hlen
  | pageBufferClr => cases hlen
  | writeFuse => cases hlen

theorem shortRead_stops {i : Instr} {s : State} {pieces : List (List Byte)} {as rest : List Answer} (hr : Ready s)
    (hw : i.wf = true) (hp : Receives s.params.recvAttempts (responseLen i) pieces as)
    (hs : s.wire.script = echoed (encode s.params i) ++ (as ++ rest)) (hshort : pieces.flatten.length < responseLen i) :
    ∃ t, exec i s = .next t ∧ FatalExit (.transport .shortRead) s t ∧
      t.wire.sent = s.wire.sent ++ s.onWire (encode s.params i) ∧ t.wire.script = rest := by
  obtain ⟨insn, ops, owed, f, henc, hexec⟩ := exec_eq_loadFrame (Nat.zero_lt_of_lt hshort) hw s
  rw [henc] at hs ⊢
  rw [hexec s rfl rfl, onLink_up hr.up, loadFrame_receives hr hp hs]
  simp only [if_pos hshort]
  exact ⟨_, rfl, exit_near rfl ⟨rfl, rfl, rfl, rfl, rfl, rfl, rfl⟩, fatal_sent (e := .transport .shortRead) rfl,
    takeError_script (.transport .shortRead) _⟩

theorem whole_response_completes {i : Instr} {s : State} {pieces : List (List Byte)} {as rest : List Answer} (hr : Ready s)
    (hw : i.wf = true) (hp : Receives s.params.recvAttempts (responseLen i) pieces as)
    (hs : s.wire.script = echoed (encode s.params i) ++ (as ++ rest)) (hlen : 0 < responseLen i)
    (hwhole : pieces.flatten.length = responseLen i) :
    ∃ t, exec i { s with wire :=
        { s.wire with script := echoed (encode s.params i) ++ .bytes pieces.flatten :: rest } } = .next t ∧
      t.wire.resp = pieces.flatten ∧ t.wire.script = rest ∧ t.session = s.session ∧
      exec i s = .next { t with wire := { t.wire with recvAttempt := pieces.length } } := by
  obtain ⟨insn, ops, owed, f, henc, hexec⟩ := exec_eq_loadFrame hlen hw s
  rw [henc] at hs ⊢
  have honce : ∀ u : State, u.params = s.params → u.session = s.session → Ready u →
      u.wire.script = echoed (Config.sync :: insn :: ops) ++ .bytes pieces.flatten :: rest →
      exec i u = .next (u.replied (Config.sync :: insn :: ops) rest 1 (f u.target) pieces.flatten) :=
    fun u hp hsess hready hscript => by
      rw [hexec u hp hsess, onLink_up hready.up, loadFrame_ok hready (forall2_echoed _) (.inr rfl) hwhole hlen hscript]
      rfl
  refine ⟨_, honce _ rfl rfl ⟨hr.up, hr.quiet, hr.patient⟩ rfl, rfl, rfl, rfl, ?_⟩
  rw [hexec s rfl rfl, onLink_up hr.up, loadFrame_receives hr hp hs]
  simp only [if_neg hwhole.not_lt]
  rfl

/-! ## `send` and `recv` as operations (R200, R201) -/

theorem step_sendBytes {s : State} {bs : List Byte} {todo : List Micro} {es more : List Answer} (hr : Ready s)
    (hrun : s.running) (htodo : s.ctl.todo = .sendBytes bs :: todo) (hes : List.Forall₂ Echoes es bs)
    (hs : s.wire.script = es ++ more) :
    step s = .next { s with
      ctl := { s.ctl with todo := todo }
      wire := { s.wire with
        sent := s.wire.sent ++ s.onWire bs
        script := more
        resp := []
        recvAttempt := if bs = [] then s.wire.recvAttempt else 1 } } := by
  have hstep : step s = runSend bs (s.setTodo todo) := step_micro hrun htodo
  rw [hstep, runSend, onLink_up (s := s.setTodo todo) hr.up]
  cases bs with
  | nil =>
    cases hes
    rw [List.nil_append] at hs
    rw [if_pos rfl, onWire_nil, List.append_nil, ← hs]
    rfl
  | cons b bs =>
    rw [if_neg (List.cons_ne_nil b bs),
      send_ok (s := s.setTodo todo) hr.quiet hr.patient hes hs (List.cons_ne_nil b bs)]
    rfl

theorem step_recvBytes {s : State} {n : Nat} {todo : List Micro} {pieces : List (List Byte)} {as more : List Answer}
    (hr : Ready s) (hrun : s.running) (htodo : s.ctl.todo = .recvBytes n :: todo)
    (hp : Receives s.params.recvAttempts n pieces as) (hs : s.wire.script = as ++ more) :
    step s = .next { s with
      ctl := { s.ctl with todo := todo }
      wire := { s.wire with script := more, resp := pieces.flatten, recvAttempt := pieces.length } } := by
  have hstep : step s = runRecv n (s.setTodo todo) := step_micro hrun htodo
  rw [hstep, runRecv, onLink_up (s := s.setTodo todo) hr.up, recv_receives (s := s.setTodo todo) hr.quiet hp hs]
  rfl

theorem require_true {r : Refusal} {k : Host.Outcome State Fault Refusal} {b : Bool} (h : b = true) : require b r k = k :=
  if_pos h

theorem hostLinkOk_of {ss : Session} (hfailed : ss.failed = none)
    (hlink : ss.linkState = .synced ∨ ss.linkState = .unlocked ∨ ss.linkState = .progMode) : hostLinkOk ss = true := by
  rcases hlink with hlink | hlink | hlink <;> simp [hostLinkOk, hfailed, hlink]

/-- Settles O45. -/
theorem shortReadIsFatal : Obligations.ShortReadIsFatal := by
  refine ⟨fun i s pieces as rest hr hw hp hs => ⟨shortRead_stops hr hw hp hs, whole_response_completes hr hw hp hs⟩,
    fun s todo hr hrun => ⟨fun bs es more => step_sendBytes hr hrun, fun n pieces as more => step_recvBytes hr hrun⟩,
    fun s todo hrun => ⟨fun rs htodo hfailed hlink => ⟨fun bs hreq => ?_, fun n hreq => ?_⟩, fun htodo => ?_, fun htodo => ?_⟩⟩
  · rw [step_host hrun htodo, hostTurn, hreq]
    exact require_true (hostLinkOk_of hfailed hlink)
  · rw [step_host hrun htodo, hostTurn, hreq]
    exact require_true (hostLinkOk_of hfailed hlink)
  · exact (step_micro hrun htodo).trans rfl
  · exact (step_micro hrun htodo).trans rfl

/-! ## Whatever the environment answers (R82, R202) -/

theorem Phased.sends {phs : List (List Byte)} {s : State} {c : Comm Unit} (h : Phased phs s c) :
    c.Sends AnyTarget phs.flatten s := by
  induction h with
  | done hend => exact Comm.sends_done hend.1 hend.2
  | phase ph owed f rest h ih =>
    rw [List.flatten_cons]
    exact (send_sends AnyTarget ph _).bind fun _ u _ _ =>
      (ackPhase_sends (f := f u) (fun _ _ _ => trivial) (owed u) u).bind (xs := []) fun _ v _ _ => ih u v

/-- Only a well-formed instruction of the link answers a next state. -/
theorem wf_of_exec_next {i : Instr} {s t : State} (hi : isLinkInstr i = true) (h : exec i s = .next t) : i.wf = true := by
  by_contra hw
  rw [Bool.not_eq_true] at hw
  have hrefused : ∀ r, exec i s ≠ .refused r := fun r hr => by rw [hr] at h; cases h
  obtain ⟨-, hreg, hcount, hdata⟩ := linkRefusals
  cases i with
  | data aaaa dd => cases hi
  | eof aaaa dd => cases hi
  | esa aaaa dd => cases hi
  | ssa aaaa dd => cases hi
  | ela aaaa dd => cases hi
  | hexReserved rr aaaa dd => cases hi
  | ldcs r => exact hrefused _ (hreg r 0 s (Nat.not_le.1 (of_decide_eq_false hw))).1
  | stcs r v => exact hrefused _ (hreg r v s (Nat.not_le.1 (of_decide_eq_false hw))).2
  | ldb n => exact hrefused _ (if_neg (Bool.not_eq_true _ ▸ hw))
  | ldw n => exact hrefused _ (if_neg (Bool.not_eq_true _ ▸ hw))
  | stb d => exact hrefused _ (if_neg (Bool.not_eq_true _ ▸ hw))
  | rep n => exact hrefused _ (if_neg (Bool.not_eq_true _ ▸ hw))
  | key k => exact hrefused _ (if_neg (of_decide_eq_false hw))
  | stw d =>
    by_cases heven : d.length % 2 = 0
    · exact hrefused _ ((if_neg (not_not.2 heven)).trans (if_neg fun hcount => by simp [Instr.wf, heven, hcount] at hw))
    · exact hrefused _ (if_pos heven)
  | ldsb a => cases hw
  | ldsw a => cases hw
  | stsb a v => cases hw
  | stsw a w => cases hw
  | stPtr a => cases hw
  | brk => cases hw
  | doubleBreak => cases hw
  | writePage => cases hw
  | eraseWritePage => cases hw
  | pageBufferClr => cases hw
  | writeFuse => cases hw

/-- An instruction of the link that answers a next state is a communication that sends its phases. -/
theorem exec_sends {i : Instr} {s t : State} (hi : isLinkInstr i = true) (hdouble : i ≠ .doubleBreak)
    (h : exec i s = .next t) : ∃ c : Comm Unit, t = c.final ∧ c.Sends AnyTarget (phases s i).flatten s := by
  have hw := wf_of_exec_next hi h
  cases ha : awaitsAck i with
  | true =>
    obtain ⟨body, hexec, hphased⟩ := exec_phased hw ha s
    rw [hexec] at h
    exact ⟨body s, (onLink_next h).2, hphased.sends⟩
  | false =>
    obtain ⟨hone, k, hexec, hk⟩ := exec_one_piece hi hw ha hdouble s
    rw [hexec] at h
    refine ⟨_, (onLink_next h).2, ?_⟩
    rw [hone, List.flatten_cons]
    exact (send_sends AnyTarget _ s).bind fun _ u _ _ => hk u

theorem linkUp_of_closed {ss : Session} (h : ss.linkState = .closed) : linkUp ss = false := by
  simp [linkUp, h]

/-- What stops a communication closes the session, and has kept the codec or has been the interruption. -/
theorem Stopped.closes {u t : State} (h : Stopped u t) :
    t.wire.sent = u.wire.sent ∧ linkUp t.session = false ∧ (t.codec = u.codec ∨ t.ctl.halted = true) := by
  cases h with
  | error e hf ht =>
    subst ht
    have hexit : FatalExit e u (takeError e u) := exit_near hf ⟨rfl, rfl, rfl, rfl, rfl, rfl, rfl⟩
    exact ⟨takeError_sent e u, linkUp_of_closed hexit.closed, .inl hexit.codec⟩
  | irq ht =>
    subst ht
    exact ⟨by simp [interrupt], linkUp_of_closed (by simp [interrupt]), .inr rfl⟩

/-- Settles O46. -/
theorem sendsOnlyItsBytes : Obligations.SendsOnlyItsBytes := by
  intro i s t hi hdouble h
  have heffect := exec_effect h
  obtain ⟨c, rfl, hc⟩ := exec_sends hi hdouble h
  cases c with
  | ok v u =>
    obtain ⟨honly, hsent⟩ := hc
    exact ⟨⟨_, by rw [List.take_length]; exact hsent⟩, fun _ => ⟨honly.session, honly.ctl, honly.nvm, hsent⟩, heffect.params,
      heffect.profile, heffect.chipEraseOk, heffect.requests, .inl honly.codec⟩
  | stop u =>
    obtain ⟨w, k, honly, hsent, hstop⟩ := hc
    obtain ⟨hsame, hdown, hcodec⟩ := hstop.closes
    exact ⟨⟨k, hsame.trans hsent⟩, fun hup => absurd hup (by rw [Comm.final_stop, hdown]; decide), heffect.params,
      heffect.profile, heffect.chipEraseOk, heffect.requests, hcodec.imp_left fun hcodec => hcodec.trans honly.codec⟩

end Sys2Proof.Machine
end

section
/-! Proof of the statement about the external interruption (spec/60_exceptions.md section 2, spec/10_state.md rule R20): where it
is due, and where it can cut a step. -/

namespace Sys2Proof.Machine

/-! ## Where it is due (R312) -/

/-- What the interruption leaves: everything ended, and nothing runs after it. -/
theorem interrupt_exit (s : State) : (interrupt s).session.linkState = .closed ∧ (interrupt s).session.transportOpen = false ∧
    (interrupt s).ctl.todo = [] ∧ (interrupt s).ctl.result = none ∧ (interrupt s).wire.sent = s.wire.sent ∧
    step (interrupt s) = .fault .halted := by
  simp [interrupt, step, stepBody]

theorem step_irq_due {s : State} (hirq : s.wire.irq = some 0) (hhalted : s.ctl.halted = false) :
    step s = .next (interrupt s) := by
  simp [step, stepBody, hirq, hhalted]

theorem tx_irq_due {s : State} (hirq : s.wire.irq = some 0) (b : Byte) : tx b s = .stop (interrupt s) := by
  simp [tx, tick, hirq]

theorem send_irq_due {s : State} (hirq : s.wire.irq = some 0) {bs : List Byte} (hne : bs ≠ []) :
    send bs s = .stop (interrupt s) := by
  cases bs with
  | nil => exact absurd rfl hne
  | cons b bs => rw [send, sendByte, tx_irq_due hirq, Comm.bind_stop, Comm.bind_stop]

theorem encode_ne_nil (p : Params) (i : Instr) : encode p i ≠ [] := by
  cases i <;> exact List.cons_ne_nil _ _

/-- The first phase of a store holds a byte. -/
theorem exists_first_phase {i : Instr} (hw : i.wf = true) (ha : awaitsAck i = true) (s : State) :
    ∃ b bs more, phases s i = (b :: bs) :: more := by
  cases i with
  | stb d =>
    cases d with
    | nil => cases hw
    | cons b bs => exact ⟨_, _, _, rfl⟩
  | stw d =>
    match d, hw with
    | [], hw => cases hw
    | [_], hw => cases hw
    | b0 :: b1 :: bs, _ => exact ⟨_, _, _, rfl⟩
  | stsb a v => exact ⟨_, _, _, rfl⟩
  | stsw a w => exact ⟨_, _, _, rfl⟩
  | stPtr a => exact ⟨_, _, _, rfl⟩
  | writePage => exact ⟨_, _, _, rfl⟩
  | eraseWritePage => exact ⟨_, _, _, rfl⟩
  | pageBufferClr => exact ⟨_, _, _, rfl⟩
  | writeFuse => exact ⟨_, _, _, rfl⟩
  | data aaaa dd => cases ha
  | eof aaaa dd => cases ha
  | esa aaaa dd => cases ha
  | ssa aaaa dd => cases ha
  | ela aaaa dd => cases ha
  | hexReserved rr aaaa dd => cases ha
  | ldcs r => cases ha
  | stcs r v => cases ha
  | ldsb a => cases ha
  | ldsw a => cases ha
  | ldb n => cases ha
  | ldw n => cases ha
  | rep n => cases ha
  | key k => cases ha
  | brk => cases ha
  | doubleBreak => cases ha

theorem Phased.irq_due {b : Byte} {bs : List Byte} {more : List (List Byte)} {s : State} {c : Comm Unit}
    (h : Phased ((b :: bs) :: more) s c) (hirq : s.wire.irq = some 0) : c = .stop (interrupt s) := by
  cases h with
  | phase _ owed f rest _ => rw [send_irq_due hirq (List.cons_ne_nil b bs), Comm.bind_stop]

/-- An instruction of the link is cut before its first byte: only the line may have been set for a double break. -/
theorem exec_irq_due {i : Instr} {s : State} (hirq : s.wire.irq = some 0) (hi : isLinkInstr i = true) (hw : i.wf = true)
    (hup : linkUp s.session = true) : ∃ u, exec i s = .next (interrupt u) ∧ u.wire.sent = s.wire.sent := by
  by_cases hdouble : i = .doubleBreak
  · subst hdouble
    refine ⟨s.setLine 300 1, ?_, rfl⟩
    rw [exec_doubleBreak, onLink_up hup, tx_irq_due (s := s.setLine 300 1) hirq]
    rfl
  refine ⟨s, ?_, rfl⟩
  cases ha : awaitsAck i with
  | true =>
    obtain ⟨body, hexec, hphased⟩ := exec_phased hw ha s
    obtain ⟨b, bs, more, hph⟩ := exists_first_phase hw ha s
    rw [hph] at hphased
    rw [hexec, onLink_up hup, hphased.irq_due hirq]
    rfl
  | false =>
    obtain ⟨-, k, hexec, -⟩ := exec_one_piece hi hw ha hdouble s
    rw [hexec, onLink_up hup, send_irq_due hirq (encode_ne_nil _ _)]
    rfl

/-! ## Where it cuts a step (R20, log 8) -/

theorem cutAt_eq_some {s t : State} {n : Nat} (h : step (cutState s n) = .next t) (ht : t.ctl.halted = true) :
    cutAt s n = some t := by
  simp [cutAt, h, ht]

theorem cutAt_eq_none {s : State} {n : Nat} (h : ∀ t, step (cutState s n) = .next t → t.ctl.halted = false) :
    cutAt s n = none := by
  unfold cutAt
  cases hstep : step (cutState s n) with
  | next t => simp [h t hstep]
  | fault f => rfl
  | refused r => rfl

/-- The answer of O47 for one step: its points, and what the interruption leaves at each. -/
def CutsWell (s t : State) : Prop :=
  ∃ n, 1 ≤ n ∧ progRun n ⟨s, 0⟩ = .next ⟨t, 0⟩ ∧ OneMore (Prog.state ⟨s, n - 1⟩) t ∧
    ∀ k, k < n →
      progRun k ⟨s, 0⟩ = .next ⟨s, k⟩ ∧
      step { s with wire := { s.wire with irq := some k } } = .next (interrupt (Prog.state ⟨s, k⟩)) ∧
      (k + 1 < n → OneMore (Prog.state ⟨s, k⟩) (Prog.state ⟨s, k + 1⟩))

/-- A step that sends and receives nothing is one point. -/
theorem cutsWell_of_calm {s t : State} (hrun : s.running) (hq : s.wire.irq = none) (h : step s = .next t) (hidle : Idle s t)
    (hcut : ∀ u, step (cutState s 1) = .next u → u.ctl.halted = false) : CutsWell s t := by
  obtain ⟨hend, hmid⟩ := progRun_points hq le_rfl h (fun k h1 h2 => absurd h1 (Nat.not_le.2 h2)) (cutAt_eq_none hcut)
  refine ⟨1, le_rfl, hend, hidle.oneMore, fun k hk => ⟨hmid k hk, ?_, fun hk' => absurd hk' (by omega)⟩⟩
  obtain rfl : k = 0 := by omega
  exact step_due s hrun.1

theorem Idle.of_setTodo {s t : State} {rest : List Micro} (h : Idle (s.setTodo rest) t) : Idle s t :=
  ⟨h.sent, h.script, h.attempt⟩

section OnWire

variable {s t : State} {m : Micro} {rest : List Micro} {body : State → Comm Unit} {K : Nat} {c : Nat → State}

/-- The step under an interruption that is not due yet is the communication under it. -/
theorem step_withIrq (hrun : s.running) (htodo : s.ctl.todo = m :: rest)
    (hbody : ∀ i pg, runMicro m ((s.setTodo rest).withIrq i pg) = .next (body ((s.setTodo rest).withIrq i pg)).final)
    {i : Option Nat} (hi : i ≠ some 0) (pg : Option (Nat × Nat)) :
    step (s.withIrq i pg) = .next (body ((s.setTodo rest).withIrq i pg)).final :=
  (step_micro (s := s.withIrq i pg) ⟨hrun.1, hi⟩ htodo).trans (hbody i pg)

/-- The end of a communication that is not cut. -/
theorem final_not_cut {f : State → Comm Unit} {w : State} (hend : (∃ v u, SameOperation w u ∧ AfterLast w K c u ∧
        ∀ i pg, notWithin K i → f (w.withIrq i pg) = .ok v (u.withIrq (i.map (fun n => n - K)) pg)) ∨
      (∀ i pg, notWithin K i →
        ∃ t, f (w.withIrq i pg) = .stop t ∧ t.ctl.halted = w.ctl.halted ∧ AfterLast w K c t))
    {i : Option Nat} (hi : notWithin K i) (pg : Option (Nat × Nat)) :
    (f (w.withIrq i pg)).final.ctl.halted = w.ctl.halted ∧ AfterLast w K c (f (w.withIrq i pg)).final := by
  rcases hend with ⟨v, u, hsame, hlast, hok⟩ | hstop
  · rw [hok i pg hi]
    exact ⟨congrArg (·.halted) hsame.ctl, hlast.idle ⟨rfl, rfl, le_rfl⟩⟩
  · obtain ⟨t, ht, hhalted, hlast⟩ := hstop i pg hi
    rw [ht]
    exact ⟨hhalted, hlast⟩

/-- The machine's state at a point has the wire of the communication there. -/
theorem wire_of_point {k : Nat} (hq : s.wire.irq = none) (hk : 1 ≤ k)
    (hcut : cutAt s k = some (interrupt ((c k).withIrq (some 0) none))) :
    Idle (Prog.state ⟨s, k⟩) (c k) ∧ Idle (c k) (Prog.state ⟨s, k⟩) := by
  obtain ⟨j, rfl⟩ := Nat.exists_eq_add_of_le' hk
  have hwire : (Prog.state ⟨s, j + 1⟩).wire = { (interrupt ((c (j + 1)).withIrq (some 0) none)).wire with irq := none } := by
    simp [Prog.state, hcut, hq]
  constructor <;> constructor <;> simp [hwire, interrupt, State.withIrq]

theorem interrupt_at_point {k : Nat} (hq : s.wire.irq = none) (hk : 1 ≤ k) (hsame : SameOperation (s.setTodo rest) (c k))
    (hcut : cutAt s k = some (interrupt ((c k).withIrq (some 0) none))) :
    interrupt ((c k).withIrq (some 0) s.nvm.openPage) = interrupt (Prog.state ⟨s, k⟩) := by
  obtain ⟨j, rfl⟩ := Nat.exists_eq_add_of_le' hk
  obtain ⟨b, n, hsession⟩ := hsame.session
  rw [interrupt_insideFrame (s := s) b n hsame.params hsame.nvm hsame.ctl hsession]
  simp [Prog.state, hcut, hq]

/-- A step on the wire is as many points as its communication has, and one at least. -/
theorem cutsWell_of_points (hrun : s.running) (hq : s.wire.irq = none) (htodo : s.ctl.todo = m :: rest)
    (h : step s = .next t)
    (hbody : ∀ i pg, runMicro m ((s.setTodo rest).withIrq i pg) = .next (body ((s.setTodo rest).withIrq i pg)).final)
    (hc : Cuttable body (s.setTodo rest)) : CutsWell s t := by
  obtain ⟨K, c, hp, hcut, hend⟩ := hc
  have hstep := fun i hi pg => step_withIrq hrun htodo hbody (i := i) hi pg
  have hat : ∀ k, 1 ≤ k → k < K → ∀ pg, step (s.withIrq (some k) pg) = .next (interrupt ((c k).withIrq (some 0) pg)) := by
    intro k h1 hk pg
    rw [hstep (some k) (by simp; omega), hcut k hk]
    rfl
  have hsome : ∀ k, 1 ≤ k → k < K → cutAt s k = some (interrupt ((c k).withIrq (some 0) none)) :=
    fun k h1 hk => cutAt_eq_some (hat k h1 hk none) rfl
  have hnone : ∀ k, 1 ≤ k → K ≤ k → cutAt s k = none := fun k h1 hk => cutAt_eq_none fun u hu => by
    rw [show cutState s k = s.withIrq (some k) none from rfl, hstep (some k) (by simp; omega)] at hu
    cases hu
    rw [(final_not_cut hend (fun n hn => by cases hn; exact hk) none).1]
    exact hrun.1
  have hlast : AfterLast (s.setTodo rest) K c t := by
    have hs := hstep none nofun s.nvm.openPage
    rw [withIrq_self hq, h] at hs
    cases hs
    exact (final_not_cut hend (fun n hn => (Option.some_ne_none n hn.symm).elim) _).2
  obtain ⟨hrunEnd, hrunMid⟩ := progRun_points hq (le_max_right K 1) h (fun k h1 hk => by rw [hsome k h1 (by omega)]; rfl)
    (hnone _ (le_max_right K 1) (le_max_left K 1))
  have hidle : ∀ k, k < K → Idle (Prog.state ⟨s, k⟩) (c k) := by
    intro k hk
    rcases Nat.eq_zero_or_pos k with rfl | h1
    · exact (hp.first hk).of_setTodo
    · exact (wire_of_point hq h1 (hsome k h1 hk)).1
  refine ⟨max K 1, le_max_right K 1, hrunEnd, ?_, fun k hk => ⟨hrunMid k hk, ?_, fun hk' => ?_⟩⟩
  · unfold AfterLast at hlast
    split at hlast
    next h0 =>
      subst h0
      exact Idle.oneMore (Idle.of_setTodo hlast)
    next h0 =>
      rw [Nat.max_eq_left (Nat.pos_of_ne_zero h0)]
      exact (hidle _ (Nat.sub_lt (Nat.pos_of_ne_zero h0) Nat.one_pos)).then_oneMore hlast
  · rcases Nat.eq_zero_or_pos k with rfl | h1
    · exact step_due s hrun.1
    · rw [← interrupt_at_point hq h1 (hp.line k (by omega)) (hsome k h1 (by omega))]
      exact hat k h1 (by omega) s.nvm.openPage
  · exact ((hidle k (by omega)).then_oneMore (hp.grow k (by omega))).idle
      (wire_of_point hq (by omega) (hsome (k + 1) (by omega) (by omega))).2

end OnWire

/-- Every step of the machine is points of PROG: a communication, or one that sends and receives nothing. -/
theorem step_cutsWell {s t : State} (hrun : s.running) (hq : s.wire.irq = none) (h : step s = .next t) : CutsWell s t := by
  have hcutrun : (cutState s 1).running := ⟨hrun.1, nofun⟩
  cases htodo : s.ctl.todo with
  | nil =>
    rw [step_host hrun htodo] at h
    refine cutsWell_of_calm hrun hq ((step_host hrun htodo).trans h) (calm_host h).2 fun u hu => ?_
    rw [step_host hcutrun htodo] at hu
    exact (calm_host hu).1.trans hrun.1
  | cons m rest =>
    rw [step_micro hrun htodo] at h
    rcases onWire_or_calm h with ⟨body, hbody, hc⟩ | hcalm
    · exact cutsWell_of_points hrun hq htodo ((step_micro hrun htodo).trans h) hbody hc
    · refine cutsWell_of_calm hrun hq ((step_micro hrun htodo).trans h) (hcalm _ _ h).2.of_setTodo fun u hu => ?_
      rw [step_micro (s := cutState s 1) hcutrun htodo] at hu
      exact (hcalm _ _ hu).1.trans hrun.1

/-- Settles O47. -/
theorem interruptionEndsEverything : Obligations.InterruptionEndsEverything := by
  refine ⟨fun s hirq => ⟨fun hhalted => ?_, fun i hi hw hup => ?_⟩, fun s t hrun hq h => step_cutsWell hrun hq h⟩
  · obtain ⟨hclosed, hopen, htodo, hresult, hsent, hstep⟩ := interrupt_exit s
    exact ⟨_, step_irq_due hirq hhalted, hclosed, hopen, by simp [interrupt], htodo, hresult, rfl, hsent, hstep⟩
  · obtain ⟨u, hu, hsame⟩ := exec_irq_due hirq hi hw hup
    obtain ⟨hclosed, hopen, htodo, hresult, hsent, hstep⟩ := interrupt_exit u
    exact ⟨_, hu, hclosed, hopen, htodo, hresult, hsent.trans hsame, hstep⟩

end Sys2Proof.Machine
end

section
/-! Proofs of the statements about HOST's turn: which link state permits which operation, the reset and the construction of a
session, the operations on fuses (spec/60_exceptions.md section 5, spec/70_reset_and_hazards.md section 1, spec/44_nvm.md
section 4). -/

namespace Sys2Proof.Machine

/-- A step with no operation in progress starts the next request, the result of the operation before gone. -/
theorem step_request {s : State} {r : Request} {rs : List Request} (hrun : s.running) (htodo : s.ctl.todo = [])
    (hreq : s.ctl.requests = r :: rs) :
    step s = startRequest r { s with ctl := { s.ctl with requests := rs, result := none } } := by
  rw [step_host hrun htodo, hostTurn, hreq]

theorem require_false {r : Refusal} {k : Host.Outcome State Fault Refusal} {b : Bool} (h : b = false) :
    require b r k = .refused r :=
  if_neg (Bool.eq_false_iff.1 h)

/-! ## Permissions (R316) -/

theorem hostLinkOk_eq {ss : Session} (h : ss.failed ≠ none → ss.linkState = .closed) :
    hostLinkOk ss = decide (ss.linkState ∈ [LinkState.synced, .unlocked, .progMode]) := by
  by_cases hfailed : ss.failed = none
  · cases hlink : ss.linkState <;> simp [hostLinkOk, hfailed, hlink]
  · simp [hostLinkOk, h hfailed]

theorem hostInitOk_eq {ss : Session} (h : ss.failed ≠ none → ss.linkState = .closed) :
    hostInitOk ss = decide (ss.linkState = .cold) := by
  by_cases hfailed : ss.failed = none
  · simp [hostInitOk, hfailed]
  · simp [hostInitOk, h hfailed]

theorem hostUnlockOk_eq {ss : Session} (h : ss.failed ≠ none → ss.linkState = .closed) :
    hostUnlockOk ss = decide (ss.linkState ∈ [LinkState.synced, .unlocked]) := by
  by_cases hfailed : ss.failed = none
  · simp [hostUnlockOk, hfailed]
  · simp [hostUnlockOk, h hfailed]

theorem hostNvmOk_eq {ss : Session} (h : ss.failed ≠ none → ss.linkState = .closed) :
    hostNvmOk ss = decide (ss.linkState = .progMode) := by
  by_cases hfailed : ss.failed = none
  · simp [hostNvmOk, hfailed]
  · simp [hostNvmOk, h hfailed]

theorem hostUnlockOk_of {ss : Session} (hfailed : ss.failed = none)
    (hlink : ss.linkState = .synced ∨ ss.linkState = .unlocked) : hostUnlockOk ss = true := by
  rcases hlink with hlink | hlink <;> simp [hostUnlockOk, hfailed, hlink]

theorem hostNvmOk_of {ss : Session} (hfailed : ss.failed = none) (hlink : ss.linkState = .progMode) :
    hostNvmOk ss = true := by
  simp [hostNvmOk, hfailed, hlink]

/-- The permission decides, where the rest does not refuse for the link state. -/
theorem require_permission {b ok : Bool} {k : Host.Outcome State Fault Refusal} (h : b = ok)
    (hk : k ≠ .refused .linkState) :
    (ok = false → require b .linkState k = .refused .linkState) ∧
      (ok = true → require b .linkState k ≠ .refused .linkState) := by
  subst h
  exact ⟨fun hno => require_false hno, fun hyes => require_true hyes ▸ hk⟩

/-- Another requirement does not refuse for the link state. -/
theorem require_ne_linkState {b : Bool} {r : Refusal} {k : Host.Outcome State Fault Refusal} (hr : r ≠ .linkState)
    (hk : k ≠ .refused .linkState) : require b r k ≠ .refused .linkState := by
  cases b
  · exact fun h => hr (Host.Outcome.refused.inj h)
  · exact hk

theorem next_ne_refused {t : State} {r : Refusal} : (.next t : Host.Outcome State Fault Refusal) ≠ .refused r := nofun

/-- A request is refused for the link state exactly where the table does not mark it. -/
theorem startRequest_permission {r : Request} {s : State} {ok : Bool} (hsess : SessionIn s)
    (hcommand : ∀ i, r = .command i → isLinkInstr i = true) (hok : permits r s.session.linkState = some ok) :
    (ok = false → startRequest r s = .refused .linkState) ∧ (ok = true → startRequest r s ≠ .refused .linkState) := by
  have hclosed : s.session.failed ≠ none → s.session.linkState = .closed := fun h => (hsess.failed h).1
  have hlink := hostLinkOk_eq hclosed
  have hinit := hostInitOk_eq hclosed
  have hunlock := hostUnlockOk_eq hclosed
  have hnvm := hostNvmOk_eq hclosed
  cases r with
  | initLink => exact require_permission (hinit.trans (Option.some.inj hok)) next_ne_refused
  | command i =>
    simp only [startRequest, require_true (hcommand i rfl)]
    exact require_permission (hlink.trans (Option.some.inj hok)) next_ne_refused
  | send bs => exact require_permission (hlink.trans (Option.some.inj hok)) next_ne_refused
  | recv len => exact require_permission (hlink.trans (Option.some.inj hok)) next_ne_refused
  | unlockErase => exact require_permission (hunlock.trans (Option.some.inj hok)) next_ne_refused
  | enterProgmode => exact require_permission (hlink.trans (Option.some.inj hok)) next_ne_refused
  | leaveProgmode => exact require_permission (hlink.trans (Option.some.inj hok)) next_ne_refused
  | userrowWrite data =>
    exact require_permission (hunlock.trans (Option.some.inj hok)) (require_ne_linkState nofun next_ne_refused)
  | close =>
    cases hok
    exact ⟨nofun, fun _ => next_ne_refused⟩
  | waitNvmReady => exact require_permission (hnvm.trans (Option.some.inj hok)) next_ne_refused
  | read k =>
    exact require_permission (hnvm.trans (Option.some.inj hok)) (require_ne_linkState nofun next_ne_refused)
  | write k src =>
    exact require_permission (hnvm.trans (Option.some.inj hok)) (require_ne_linkState nofun next_ne_refused)
  | verify k src =>
    exact require_permission (hnvm.trans (Option.some.inj hok)) (require_ne_linkState nofun next_ne_refused)
  | fuseRead n =>
    exact require_permission (hnvm.trans (Option.some.inj hok)) (require_ne_linkState nofun next_ne_refused)
  | fuseWrite n v =>
    exact require_permission (hnvm.trans (Option.some.inj hok)) (require_ne_linkState nofun next_ne_refused)
  | parse file => cases hok
  | serialize image length => cases hok
  | txt2hex text => cases hok
  | hex2c file => cases hok
  | hex2bin file => cases hok
  | merge a b => cases hok
  | newSession part baud verbosity => cases hok

/-- Settles O49. -/
theorem hostPermissions : Obligations.HostPermissions := by
  unfold Obligations.HostPermissions
  intro s r rs ok hrun hsess htodo hreq hcommand hok
  rw [step_request hrun htodo hreq]
  have hin : SessionIn s := sessionOk_iff.1 hsess
  exact startRequest_permission (hin.of_same (t := { s with ctl := { s.ctl with requests := rs, result := none } })
    rfl rfl rfl hin.up) hcommand hok

/-! ## Reset and a new session (R54, R340, R341) -/

theorem step_reset : step State.reset = .next State.reset := rfl

theorem reset_params_legal : State.reset.params.legal = true := by decide

theorem hostSessionOk_of {ss : Session} (h : ss.linkState = .cold ∨ ss.linkState = .closed) : hostSessionOk ss = true := by
  rcases h with h | h <;> simp [hostSessionOk, h]

theorem step_newSession {s : State} {part : PartCode} {baud verbosity : Nat} {rs : List Request} (hrun : s.running)
    (htodo : s.ctl.todo = []) (hreq : s.ctl.requests = .newSession part baud verbosity :: rs)
    (hlink : s.session.linkState = .cold ∨ s.session.linkState = .closed) (hbaud : baud ∈ Config.baudSet)
    (hlegal : (s.params.catalog.entry part).legal s.params.fuseCount = true) :
    step s = .next (newSession part baud verbosity { s with ctl := { s.ctl with requests := rs, result := none } }) :=
  (step_request hrun htodo hreq).trans ((require_true (hostSessionOk_of hlink)).trans
    ((require_true (decide_eq_true hbaud)).trans (require_true hlegal)))

/-- Settles O60. -/
theorem resetIsConsistent : Obligations.ResetIsConsistent := by
  unfold Obligations.ResetIsConsistent
  refine ⟨?_, fun s part baud verbosity rs hrun htodo hreq hlink hbaud hlegal => ?_⟩
  · rintro s rfl
    exact ⟨rfl, rfl, rfl, rfl, rfl, fun _ => rfl, rfl, rfl, rfl, rfl, rfl, rfl, rfl, rfl, rfl, rfl, rfl, rfl, rfl, rfl,
      reset_params_legal, step_reset⟩
  · exact ⟨_, step_newSession hrun htodo hreq hlink hbaud hlegal, rfl, rfl, rfl, rfl, rfl, rfl, rfl, rfl, rfl, rfl, rfl, rfl⟩

/-! ## The operations on fuses (R270, R271) -/

theorem respByte_eq {s : State} {v : Byte} (h : s.wire.resp = [v]) : s.respByte = v := by rw [State.respByte, h]; rfl

theorem step_fuseDone {s : State} {rest : List Micro} (hrun : s.running) (htodo : s.ctl.todo = .fuseDone :: rest) :
    step s = .next (finish (.byte s.respByte) s) :=
  step_micro hrun htodo

theorem step_fuseTest {s : State} {n : Nat} {v : Byte} {rest : List Micro} (hrun : s.running)
    (htodo : s.ctl.todo = .fuseTest n v :: rest) :
    (s.respByte = v → step s = .next (finish .fuseNoOp s)) ∧
    (s.respByte ≠ v → step s = .next (s.setTodo (fuseWriteFrames s.params s.session.profile n v ++ rest))) := by
  have hstep : step s = .next (runFuseTest n v (s.setTodo rest)) := step_micro hrun htodo
  exact ⟨fun h => hstep.trans (congrArg _ (if_pos h)), fun h => hstep.trans (congrArg _ (if_neg h))⟩

theorem step_fuseVerify {s : State} {n : Nat} {v : Byte} {rest : List Micro} (hrun : s.running)
    (htodo : s.ctl.todo = .fuseVerify n v :: rest) :
    step s = .next (endWith
      (some (if s.respByte = v then .fuseWritten else .error (.verify n (s.session.profile.fuses + n)))) s) := by
  have hstep : step s = .next (runFuseVerify n v (s.setTodo rest)) := step_micro hrun htodo
  by_cases h : s.respByte = v
  · rw [if_pos h]
    exact hstep.trans (congrArg _ (if_pos h))
  · rw [if_neg h]
    exact hstep.trans (congrArg _ (if_neg h))

/-- A request about fuse `n` starts when there is such a fuse. -/
theorem step_fuse_request {s t : State} {r : Request} {n : Nat} {rs : List Request} (hrun : s.running)
    (htodo : s.ctl.todo = []) (hreq : s.ctl.requests = r :: rs) (hok : hostNvmOk s.session = true)
    (hr : startRequest r { s with ctl := { s.ctl with requests := rs, result := none } } =
      require (hostNvmOk s.session) .linkState (require (decide (n < s.params.fuseCount)) .fuseIndex (.next t))) :
    (n < s.params.fuseCount → step s = .next t) ∧ (s.params.fuseCount ≤ n → step s = .refused .fuseIndex) := by
  rw [step_request hrun htodo hreq, hr, require_true hok]
  exact ⟨fun h => require_true (decide_eq_true h), fun h => require_false (decide_eq_false h.not_gt)⟩

/-- Settles O56. -/
theorem fuseWriteComparesFirst : Obligations.FuseWriteComparesFirst := by
  unfold Obligations.FuseWriteComparesFirst
  refine ⟨fun s n rs hrun htodo hlink hfailed => ?_, fun s n v old rest hrun hresp => ?_⟩
  · have hok : hostNvmOk s.session = true := hostNvmOk_of hfailed hlink
    exact ⟨fun hreq => step_fuse_request hrun htodo hreq hok rfl, fun v hreq => step_fuse_request hrun htodo hreq hok rfl⟩
  · have hbyte : s.respByte = old := respByte_eq hresp
    refine ⟨fun htodo => ?_, fun htodo => ⟨fun hsame => ?_, fun hother => ?_⟩, fun htodo => ?_⟩
    · rw [step_fuseDone hrun htodo, hbyte]
      rfl
    · exact ⟨_, (step_fuseTest hrun htodo).1 (hbyte.trans hsame), rfl, rfl, rfl, rfl, rfl⟩
    · exact (step_fuseTest hrun htodo).2 (hbyte ▸ hother)
    · exact ⟨_, step_fuseVerify hrun htodo, rfl, rfl, rfl, rfl, by rw [← hbyte]; rfl⟩

end Sys2Proof.Machine
end

section
/-! Proofs of the statements about `read`, `write` and `verify`, page by page (spec/44_nvm.md sections 1 and 3). -/

namespace Sys2Proof.Machine

/-! ## Pages (R260 to R263) -/

theorem hasPageData_iff {page : List Byte} : hasPageData page = true ↔ ∃ b ∈ page, b ≠ 0xFF := by
  simp [hasPageData, Config.sentinel]

theorem hasPageData_eq_false {page : List Byte} (h : ∀ b ∈ page, b = 0xFF) : hasPageData page = false :=
  Bool.eq_false_iff.2 fun hdata => let ⟨b, hb, hne⟩ := hasPageData_iff.1 hdata; hne (h b hb)

theorem hasPageData_pageOf {src : List Byte} {size p : Nat} :
    hasPageData (pageOf src size p) = decide (∃ j, j < size ∧ src.getD (p * size + j) 0xFF ≠ 0xFF) := by
  rw [Bool.eq_iff_iff, decide_eq_true_eq, hasPageData_iff]
  simp [pageOf, Config.sentinel]

/-- Half as many words as bytes on a page of flash (R261, R272). -/
theorem readPageFrames_flash {r : Region} (h : r.kind = .flash) (p : Nat) :
    readPageFrames r p = [.cmd (.stPtr (dataAddr (pageAddr r.dims p))), .cmd (.rep (r.dims.pageSize / 2)),
      .cmd (.ldw (r.dims.pageSize / 2))] := by
  simp only [readPageFrames, burstLoad, pageUnits, h, unitBytes]

/-- As many bytes as the page has in EEPROM (R261, R272). -/
theorem readPageFrames_eeprom {r : Region} (h : r.kind = .eeprom) (p : Nat) :
    readPageFrames r p = [.cmd (.stPtr (dataAddr (pageAddr r.dims p))), .cmd (.rep r.dims.pageSize),
      .cmd (.ldb r.dims.pageSize)] := by
  simp only [readPageFrames, burstLoad, pageUnits, h, unitBytes, Nat.div_one]

/-- What `write` does for a page before and after its burst (R267). -/
theorem writePageFrames_eq (r : Region) (p : Nat) (page : List Byte) (c : PageCommand) :
    writePageFrames r p page c =
      [.openPage (pageAddr r.dims p) r.dims.pageSize, .nvmWait, .cmd .pageBufferClr,
        .cmd (.stPtr (dataAddr (pageAddr r.dims p)))] ++ [.cmd (.rep (pageUnits r)), .cmd (burstStore r page)] ++
        [.cmd (commitInstr c), .closePage] := rfl

/-- The burst of a page of flash is in words (R261, R267). -/
theorem burst_flash {r : Region} (h : r.kind = .flash) (page : List Byte) :
    ([.cmd (.rep (pageUnits r)), .cmd (burstStore r page)] : List Micro) =
      [.cmd (.rep (r.dims.pageSize / 2)), .cmd (.stw page)] := by
  simp only [burstStore, pageUnits, h, unitBytes]

/-- The burst of a page of EEPROM is in bytes (R261, R267). -/
theorem burst_eeprom {r : Region} (h : r.kind = .eeprom) (page : List Byte) :
    ([.cmd (.rep (pageUnits r)), .cmd (burstStore r page)] : List Micro) =
      [.cmd (.rep r.dims.pageSize), .cmd (.stb page)] := by
  simp only [burstStore, pageUnits, h, unitBytes, Nat.div_one]

theorem pagesWithData_eq (src : List Byte) (d : RegionDims) :
    pagesWithData src d = ((List.range (max 1 (d.size / d.pageSize))).filter fun p =>
      decide (∃ j, j < d.pageSize ∧ src.getD (p * d.pageSize + j) 0xFF ≠ 0xFF)).length :=
  congrArg List.length (List.filter_congr fun _ _ => hasPageData_pageOf)

theorem startsPages_startNvm {s t : State} {k : RegionKind} {src : List Byte}
    (ht : t.nvm = (startNvm s k src (totalWithData s k src)).nvm) : StartsPages s t k src where
  region := by rw [ht]; cases k <;> rfl
  source := by rw [ht]; rfl
  page := by rw [ht]; rfl
  progress := by rw [ht]; rfl
  total := by rw [ht]; exact pagesWithData_eq _ _

/-- The start of an operation on the pages of a region. -/
theorem step_pages_request {s t : State} {r : Request} {rs : List Request} (hrun : s.running) (htodo : s.ctl.todo = [])
    (hreq : s.ctl.requests = r :: rs) (hlink : s.session.linkState = .progMode) (hfailed : s.session.failed = none)
    (hlegal : s.session.profile.legal s.params.fuseCount = true)
    (hr : startRequest r { s with ctl := { s.ctl with requests := rs, result := none } } =
      require (hostNvmOk s.session) .linkState (require (profileOk s) .profile (.next t))) : step s = .next t := by
  rw [step_request hrun htodo hreq, hr, require_true (hostNvmOk_of hfailed hlink)]
  exact require_true hlegal

/-! ## `write` (R267) -/

theorem step_writePage {s : State} {rest : List Micro} (hrun : s.running) (htodo : s.ctl.todo = .writePage :: rest) :
    (s.nvm.p < pageCount s.nvm.region.dims → hasPageData s.nvm.page = true → step s = .next (s.setTodo
      (writePageFrames s.nvm.region s.nvm.p s.nvm.page s.nvm.cmd ++ .writeDone :: rest))) ∧
    (s.nvm.p < pageCount s.nvm.region.dims → hasPageData s.nvm.page = false →
      step s = .next ((s.setNvm (s.nvm.pageDone false)).setTodo (.writePage :: rest))) ∧
    (pageCount s.nvm.region.dims ≤ s.nvm.p → step s = .next (finish .ok s)) := by
  have hstep : step s = .next (runWritePage (s.setTodo rest)) := step_micro hrun htodo
  refine ⟨fun hp hdata => ?_, fun hp hdata => ?_, fun hp => ?_⟩
  · exact hstep.trans (congrArg _ ((if_pos hp).trans (if_pos hdata)))
  · exact hstep.trans (congrArg _ ((if_pos hp).trans (if_neg (Bool.eq_false_iff.1 hdata))))
  · exact hstep.trans (congrArg _ (if_neg hp.not_gt))

theorem page_blank {n : Nvm} (h : ∀ b ∈ n.src, b = 0xFF) : hasPageData n.page = false := by
  refine hasPageData_eq_false fun b hb => ?_
  obtain ⟨j, -, rfl⟩ := List.mem_map.1 hb
  rcases Nat.lt_or_ge (n.p * n.region.dims.pageSize + j) n.src.length with hj | hj
  · rw [List.getD_eq_getElem _ _ hj]
    exact h _ (List.getElem_mem hj)
  · exact List.getD_eq_default _ _ hj

/-- Every page of a source without data is skipped, and then the operation ends. -/
theorem run_blank_pages {n : Nat} {s : State} (hrun : s.running) (htodo : s.ctl.todo = [.writePage])
    (hblank : ∀ b ∈ s.nvm.src, b = 0xFF) (hn : s.nvm.p + n = pageCount s.nvm.region.dims) :
    ∃ t, run (n + 1) s = .next t ∧ t.ctl.todo = [] ∧ t.ctl.result = some .ok ∧ t.wire = s.wire ∧ t.target = s.target ∧
      t.session = s.session := by
  obtain ⟨-, hskip, hend⟩ := step_writePage hrun htodo
  induction n generalizing s with
  | zero => exact ⟨_, run_succ (hend (by omega)) 0, rfl, rfl, rfl, rfl, rfl⟩
  | succ n ih =>
    have hstep := hskip (by omega) (page_blank hblank)
    rw [run_succ hstep]
    have hleft : s.nvm.p + 1 + n = pageCount s.nvm.region.dims := by omega
    set u := (s.setNvm (s.nvm.pageDone false)).setTodo [.writePage] with hu
    have hrun' : u.running := hrun
    obtain ⟨-, hskip', hend'⟩ := step_writePage hrun' (rest := []) rfl
    exact ih hrun' rfl hblank hleft hskip' hend'

/-- Settles O54. -/
theorem writeSkipsEmptyPages : Obligations.WriteSkipsEmptyPages := by
  unfold Obligations.WriteSkipsEmptyPages
  intro s hrun
  refine ⟨fun k src rs htodo hreq hlink hfailed hlegal => ?_, fun rest htodo => ?_, fun rest htodo => ?_,
    fun htodo hblank hp hquiet => ?_⟩
  · exact ⟨_, step_pages_request hrun htodo hreq hlink hfailed hlegal rfl, rfl, rfl, rfl, startsPages_startNvm rfl⟩
  · obtain ⟨hdata, hskip, hend⟩ := step_writePage hrun htodo
    refine ⟨fun hp h => (hdata hp (hasPageData_iff.2 h)).trans ?_, fun hp h => hskip hp (hasPageData_eq_false h), hend⟩
    rw [writePageFrames_eq]
    cases hkind : s.nvm.region.kind
    · rw [burst_flash hkind]
      cases hcmd : s.nvm.cmd <;> rfl
    · rw [burst_eeprom hkind]
      cases hcmd : s.nvm.cmd <;> rfl
  · exact step_micro hrun htodo
  · exact run_blank_pages hrun htodo hblank (Nat.add_sub_cancel' hp)

/-! ## `verify` and `read` (R266, R268, R272) -/

theorem firstDiff_spec {xs ys : List Byte} (hlen : xs.length = ys.length) (hne : xs ≠ ys) :
    firstDiff xs ys < ys.length ∧ xs.getD (firstDiff xs ys) 0 ≠ ys.getD (firstDiff xs ys) 0 ∧
      ∀ k, k < firstDiff xs ys → xs.getD k 0 = ys.getD k 0 := by
  induction xs generalizing ys with
  | nil => exact absurd (List.length_eq_zero_iff.1 hlen.symm).symm hne
  | cons x xs ih =>
    cases ys with
    | nil => cases hlen
    | cons y ys =>
      rw [firstDiff]
      split
      next heq =>
        subst heq
        obtain ⟨hlt, hdiff, hbefore⟩ := ih (Nat.succ.inj hlen) fun h => hne (congrArg _ h)
        refine ⟨Nat.succ_lt_succ hlt, hdiff, fun k hk => ?_⟩
        cases k with
        | zero => rfl
        | succ k => exact hbefore k (Nat.lt_of_succ_lt_succ hk)
      next hdiff => exact ⟨Nat.succ_pos _, hdiff, fun k hk => absurd hk (Nat.not_lt_zero k)⟩

theorem step_verifyPage {s : State} {rest : List Micro} (hrun : s.running) (htodo : s.ctl.todo = .verifyPage :: rest) :
    (s.nvm.p < pageCount s.nvm.region.dims → hasPageData s.nvm.page = true →
      step s = .next (s.setTodo (readPageFrames s.nvm.region s.nvm.p ++ .compare :: rest))) ∧
    (s.nvm.p < pageCount s.nvm.region.dims → hasPageData s.nvm.page = false →
      step s = .next ((s.setNvm (s.nvm.pageDone false)).setTodo (.verifyPage :: rest))) ∧
    (pageCount s.nvm.region.dims ≤ s.nvm.p → step s = .next (finish .ok s)) := by
  have hstep : step s = .next (runVerifyPage (s.setTodo rest)) := step_micro hrun htodo
  refine ⟨fun hp hdata => ?_, fun hp hdata => ?_, fun hp => ?_⟩
  · exact hstep.trans (congrArg _ ((if_pos hp).trans (if_pos hdata)))
  · exact hstep.trans (congrArg _ ((if_pos hp).trans (if_neg (Bool.eq_false_iff.1 hdata))))
  · exact hstep.trans (congrArg _ (if_neg hp.not_gt))

theorem step_readPage {s : State} {rest : List Micro} (hrun : s.running) (htodo : s.ctl.todo = .readPage :: rest) :
    (s.nvm.p < pageCount s.nvm.region.dims →
      step s = .next (s.setTodo (readPageFrames s.nvm.region s.nvm.p ++ .readStore :: rest))) ∧
    (pageCount s.nvm.region.dims ≤ s.nvm.p → step s = .next (finish (.bytes s.nvm.dst) s)) := by
  have hstep : step s = .next (runReadPage (s.setTodo rest)) := step_micro hrun htodo
  exact ⟨fun hp => hstep.trans (congrArg _ (if_pos hp)), fun hp => hstep.trans (congrArg _ (if_neg hp.not_gt))⟩

theorem step_compare {s : State} {rest : List Micro} (hrun : s.running) (htodo : s.ctl.todo = .compare :: rest) :
    (s.wire.resp = s.nvm.page → step s = .next ((s.setNvm (s.nvm.pageDone true)).setTodo (.verifyPage :: rest))) ∧
    (s.wire.resp ≠ s.nvm.page → step s = .next (takeError
      (.verify s.nvm.p (pageAddr s.nvm.region.dims s.nvm.p + firstDiff s.wire.resp s.nvm.page)) s)) := by
  have hstep : step s = .next (runCompare (s.setTodo rest)) := step_micro hrun htodo
  exact ⟨fun h => hstep.trans (congrArg _ (if_pos h)), fun h => hstep.trans (congrArg _ (if_neg h))⟩

/-- Settles O55. -/
theorem verifyReportsTheFirstMismatch : Obligations.VerifyReportsTheFirstMismatch := by
  unfold Obligations.VerifyReportsTheFirstMismatch
  intro s rest hrun
  refine ⟨fun k rs htodo hlink hfailed hlegal => ⟨fun src hreq => ?_, fun hreq => ?_⟩, fun htodo => ?_, fun htodo => ?_,
    fun htodo => ?_, fun htodo => step_micro hrun htodo⟩
  · exact ⟨_, step_pages_request hrun htodo hreq hlink hfailed hlegal rfl, rfl, rfl, startsPages_startNvm rfl⟩
  · exact ⟨_, step_pages_request hrun htodo hreq hlink hfailed hlegal rfl, rfl, rfl, rfl, rfl, by cases k <;> rfl, rfl, rfl⟩
  · obtain ⟨hdata, hskip, hend⟩ := step_verifyPage hrun htodo
    refine ⟨fun hp h => (hdata hp (hasPageData_iff.2 h)).trans ?_, fun hp h => hskip hp (hasPageData_eq_false h), hend⟩
    cases hkind : s.nvm.region.kind
    · rw [readPageFrames_flash hkind]
      rfl
    · rw [readPageFrames_eeprom hkind]
      rfl
  · obtain ⟨hsame, hother⟩ := step_compare hrun htodo
    refine ⟨hsame, fun hlen hne => ?_⟩
    exact ⟨_, hother hne, firstDiff_spec hlen hne⟩
  · obtain ⟨hread, hend⟩ := step_readPage hrun htodo
    refine ⟨fun hp => (hread hp).trans ?_, hend⟩
    cases hkind : s.nvm.region.kind
    · rw [readPageFrames_flash hkind]
      rfl
    · rw [readPageFrames_eeprom hkind]
      rfl

end Sys2Proof.Machine
end

section
/-! Proofs of the statements about polls that are bounded (spec/43_updi_session.md section 2, spec/44_nvm.md section 2,
spec/60_exceptions.md section 6). -/

namespace Sys2Proof.Machine

/-! ## A poll, from its start to its bound or to its last answer -/

/-- From `s` on a poll of at most `bound` attempts runs: `cmd`, whose frame is `frame` and whose response is one byte, then
`test`, which asks again after an answer in `miss` while attempts are left and does `stopped` when none is. -/
structure Polls (s : State) (cmd : Instr) (test : Micro) (frame : List Byte) (rest : List Micro) (bound : Nat)
    (stopped : State → State) (miss : Byte → Prop) : Prop where
  reads : ∀ (v : Byte) (more : List Answer) (u : State), Ready u → u.params = s.params → u.session = s.session →
    u.wire.script = echoed frame ++ .bytes [v] :: more → ∃ t, exec cmd u = .next (u.replied frame more 1 t [v])
  again : ∀ (u : State) (v : Byte), Near s u → u.running → u.ctl.todo = test :: rest → u.wire.resp = [v] → miss v →
    step u = .next (if u.ctl.pollAttempt + 1 < bound then
        ((u.setTodo rest).setPollAttempt (u.ctl.pollAttempt + 1)).setTodo (.cmd cmd :: test :: rest)
      else stopped ((u.setTodo rest).setPollAttempt (u.ctl.pollAttempt + 1)))
  starts : step s = .next (if 0 < bound then ((s.setTodo rest).setPollAttempt 0).setTodo (.cmd cmd :: test :: rest)
    else stopped ((s.setTodo rest).setPollAttempt 0))

section
variable {s : State} {cmd : Instr} {test : Micro} {frame : List Byte} {rest : List Micro} {bound : Nat}
  {stopped : State → State} {miss : Byte → Prop} {misses : List Byte} {more : List Answer}

theorem near_firstPoll (s : State) (todo rest : List Micro) : Near s (((s.setTodo rest).setPollAttempt 0).setTodo todo) :=
  ⟨rfl, rfl, rfl, rfl, rfl, rfl, rfl⟩

theorem onWire_none (s : State) (frame : List Byte) : s.onWire (List.replicate 0 frame).flatten = [] := onWire_nil s

/-- Polls that all miss reach the bound. -/
theorem Polls.stops (h : Polls s cmd test frame rest bound stopped miss) (hr : Ready s) (hrun : s.running)
    (hmiss : ∀ v ∈ misses, miss v) (hlen : misses.length = bound) (hs : s.wire.script = pollAnswers frame misses ++ more) :
    ∃ u, Near s u ∧ u.wire.sent = s.wire.sent ++ s.onWire (List.replicate misses.length frame).flatten ∧
      run (1 + 2 * misses.length) s = .next (stopped u) := by
  have hstart := h.starts
  cases misses with
  | nil =>
    rw [if_neg (by simp [← hlen])] at hstart
    refine ⟨(s.setTodo rest).setPollAttempt 0, ⟨rfl, rfl, rfl, rfl, rfl, rfl, rfl⟩, ?_, run_succ hstart 0⟩
    exact (by rw [List.length_nil, onWire_none, List.append_nil]; rfl)
  | cons v vs =>
    rw [if_pos (by simp [← hlen])] at hstart
    have hnear := near_firstPoll s (.cmd cmd :: test :: rest) rest
    obtain ⟨u, hu, -, hsent, -, hruns⟩ := poll_loop cmd test frame rest bound stopped more miss h.reads h.again (v :: vs) _
      hnear (hnear.ready hr) (hnear.running hrun) rfl hmiss
      (by rw [hlen]; exact (Nat.zero_add bound).le) (by simp) hs
    rw [hlen, if_neg (by exact (Nat.zero_add bound).not_lt), ← hlen] at hruns
    exact ⟨u, hu, hsent, (run_add (m := 1) (run_succ hstart 0)).trans hruns⟩

/-- Polls that miss within the bound are followed by one more. -/
theorem Polls.goes_on (h : Polls s cmd test frame rest bound stopped miss) (hr : Ready s) (hrun : s.running)
    (hmiss : ∀ v ∈ misses, miss v) (hlen : misses.length < bound) (hs : s.wire.script = pollAnswers frame misses ++ more) :
    ∃ u, Near s u ∧ u.ctl.todo = .cmd cmd :: test :: rest ∧ u.wire.script = more ∧
      u.wire.sent = s.wire.sent ++ s.onWire (List.replicate misses.length frame).flatten ∧
      run (1 + 2 * misses.length) s = .next u := by
  have hstart := h.starts
  rw [if_pos (Nat.zero_lt_of_lt hlen)] at hstart
  have hnear := near_firstPoll s (.cmd cmd :: test :: rest) rest
  cases misses with
  | nil =>
    refine ⟨_, hnear, rfl, hs, ?_, run_succ hstart 0⟩
    exact (by rw [List.length_nil, onWire_none, List.append_nil]; rfl)
  | cons v vs =>
    obtain ⟨u, hu, hscript, hsent, -, hruns⟩ := poll_loop cmd test frame rest bound stopped more miss h.reads h.again
      (v :: vs) _ hnear (hnear.ready hr) (hnear.running hrun) rfl hmiss
      ((Nat.zero_add _).le.trans hlen.le) (by simp) hs
    rw [if_pos (by exact (Nat.zero_add _).trans_lt hlen)] at hruns
    exact ⟨u.setTodo (.cmd cmd :: test :: rest), hu.trans ⟨rfl, rfl, rfl, rfl, rfl, rfl, rfl⟩, rfl, hscript, hsent,
      (run_add (m := 1) (run_succ hstart 0)).trans hruns⟩

theorem pollAnswers_append (frame vs ws : List Byte) :
    pollAnswers frame (vs ++ ws) = pollAnswers frame vs ++ pollAnswers frame ws := List.flatMap_append

theorem onWire_replicate_succ (s : State) (n : Nat) (frame : List Byte) :
    s.onWire (List.replicate (n + 1) frame).flatten = s.onWire (List.replicate n frame).flatten ++ s.onWire frame := by
  rw [List.replicate_succ', List.flatten_append, onWire_append, List.flatten_singleton]

/-- The last answer of a poll within its bound comes to the test. -/
theorem Polls.answered (h : Polls s cmd test frame rest bound stopped miss) (hr : Ready s) (hrun : s.running)
    {last : Byte} (hmiss : ∀ v ∈ misses, miss v) (hlen : misses.length < bound)
    (hs : s.wire.script = pollAnswers frame (misses ++ [last]) ++ more) :
    ∃ u, Near s u ∧ u.ctl.todo = test :: rest ∧ u.wire.resp = [last] ∧
      u.wire.sent = s.wire.sent ++ s.onWire (List.replicate (misses.length + 1) frame).flatten ∧
      ∀ t, step u = .next t → run (1 + 2 * (misses.length + 1)) s = .next t := by
  have hs' : s.wire.script = pollAnswers frame misses ++ (echoed frame ++ .bytes [last] :: more) := by
    rw [hs, pollAnswers_append]
    simp [pollAnswers]
  obtain ⟨u, hu, htodo, hscript, hsent, hruns⟩ := h.goes_on hr hrun hmiss hlen hs'
  obtain ⟨t, hstep, ht, htest, -, hresp, -, hsent'⟩ := read_step (hu.ready hr) (hu.running hrun)
    (fun v hv hp hsess => h.reads last more v hv (hp.trans hu.params) (hsess.trans hu.session)) htodo hscript
  refine ⟨t, hu.trans ht, htest, hresp, ?_, fun w hw => ?_⟩
  · rw [hsent', hsent, List.append_assoc, onWire_replicate_succ, onWire_congr hu.session]
  · rw [show 1 + 2 * (misses.length + 1) = 1 + 2 * misses.length + 2 by omega, run_add hruns]
    exact run_two (n := 0) hstep hw rfl

end

/-! ## The polls of the session (R250) -/

theorem polls_ldcs {s : State} {q : Poll} {rest : List Micro} (hrun : s.running) (hreg : q.reg ≤ 15)
    (htodo : s.ctl.todo = .poll q :: rest) :
    Polls s (.ldcs q.reg) (.pollTest q) (encode s.params (.ldcs q.reg)) rest q.attempts (pollTimeout q.onTimeout)
      fun v => bitSet v q.bit ≠ q.want where
  reads v more u hu hp _ hs := by
    rw [← hp] at hs ⊢
    exact ⟨_, exec_load_ok hu (exec_ldcs hreg u) rfl (forall2_echoed _) (.inr rfl) rfl le_rfl hs⟩
  again u v _ hu htest hresp hmiss := by
    have hstep : step u = .next (runPollTest q (u.setTodo rest)) := step_micro hu htest
    have hbyte : (u.setTodo rest).respByte = v := respByte_eq hresp
    exact hstep.trans (congrArg _ (if_neg (hbyte ▸ hmiss)))
  starts := step_micro hrun htodo

/-- A poll whose answer is the wanted one lets the operation go on. -/
theorem step_pollTest_hit {s : State} {q : Poll} {v : Byte} {rest : List Micro} (hrun : s.running)
    (htodo : s.ctl.todo = .pollTest q :: rest) (hresp : s.wire.resp = [v]) (hhit : bitSet v q.bit = q.want) :
    step s = .next ((s.setTodo rest).setPollAttempt (s.ctl.pollAttempt + 1)) := by
  have hstep : step s = .next (runPollTest q (s.setTodo rest)) := step_micro hrun htodo
  have hbyte : (s.setTodo rest).respByte = v := respByte_eq hresp
  exact hstep.trans (congrArg _ (if_pos (hbyte ▸ hhit)))

theorem pollTimeout_sent (f : PollFailure) (s : State) : (pollTimeout f s).wire.sent = s.wire.sent := by
  cases f with
  | unlockTimeout => exact fatal_sent (e := .protocol .unlockTimeout) rfl
  | urowTimeout => exact fatal_sent (e := .protocol .urowTimeout) rfl
  | lockedTimeout => rfl

/-- Settles O50. -/
theorem pollIsBounded : Obligations.PollIsBounded := by
  unfold Obligations.PollIsBounded
  intro s q rest misses more hr hrun hreg htodo hmiss
  have hpolls := polls_ldcs hrun hreg htodo
  refine ⟨fun hlen hs => ?_, fun hit hlen hhit hs => ?_⟩
  · obtain ⟨u, hu, hsent, hruns⟩ := hpolls.stops hr hrun hmiss hlen hs
    refine ⟨_, hruns, (pollTimeout_sent _ u).trans hsent, fun he => ?_, fun he => ?_, fun he => ?_⟩
    · rw [he]
      exact exit_near rfl hu
    · rw [he]
      exact exit_near rfl hu
    · rw [he]
      exact ⟨rfl, rfl, hu.session⟩
  · obtain ⟨u, hu, htest, hresp, hsent, hruns⟩ := hpolls.answered hr hrun hmiss hlen hs
    exact ⟨_, hruns _ (step_pollTest_hit (hu.running hrun) htest hresp hhit), rfl, hu.session, hsent⟩

/-! ## `wait_nvm_ready` (R264) -/

/-- What a poll of the NVM status register finds while the chip is busy. -/
def NvmBusy (p : Params) (v : Byte) : Prop :=
  bitSet v p.nstWriteError = false ∧ (bitSet v p.nstFlashBusy = true ∨ bitSet v p.nstEepromBusy = true)

theorem runNvmTest_error {s : State} (h : bitSet s.respByte s.params.nstWriteError = true) :
    runNvmTest s = takeError (.protocol .nvmWriteError) s := if_pos h

theorem runNvmTest_busy {s : State} (h : NvmBusy s.params s.respByte) :
    runNvmTest s = nvmNext (s.setPollAttempt (s.ctl.pollAttempt + 1)) := by
  obtain ⟨herror, hbusy⟩ := h
  refine (if_neg (Bool.eq_false_iff.1 herror)).trans (if_neg ?_)
  rcases hbusy with hbusy | hbusy <;> simp [hbusy]

theorem runNvmTest_ready {s : State} (herror : bitSet s.respByte s.params.nstWriteError = false)
    (hflash : bitSet s.respByte s.params.nstFlashBusy = false) (heeprom : bitSet s.respByte s.params.nstEepromBusy = false) :
    runNvmTest s = s.setPollAttempt (s.ctl.pollAttempt + 1) :=
  (if_neg (Bool.eq_false_iff.1 herror)).trans (if_pos (by simp [hflash, heeprom]))

theorem runNvmTest_sent (s : State) : (runNvmTest s).wire.sent = s.wire.sent := by
  unfold runNvmTest nvmNext
  repeat' split
  · exact fatal_sent (e := .protocol .nvmWriteError) rfl
  · rfl
  · rfl
  · exact fatal_sent (e := .protocol .nvmTimeout) rfl

theorem step_nvmTest {s : State} {rest : List Micro} (hrun : s.running) (htodo : s.ctl.todo = .nvmTest :: rest) :
    step s = .next (runNvmTest (s.setTodo rest)) := step_micro hrun htodo

theorem polls_nvm {s : State} {rest : List Micro} (hrun : s.running) (htodo : s.ctl.todo = .nvmWait :: rest) :
    Polls s (.ldsb (dataAddr (s.session.profile.nvmctrl + s.params.nvmStatus))) .nvmTest
      (encode s.params (.ldsb (dataAddr (s.session.profile.nvmctrl + s.params.nvmStatus)))) rest s.params.nvmReadyAttempts
      (takeError (.protocol .nvmTimeout)) (NvmBusy s.params) where
  reads v more u hu hp _ hs := by
    rw [← hp] at hs ⊢
    exact ⟨_, exec_ldsb_ok hu (forall2_echoed _) (.inr rfl) hs⟩
  again u v hnear hu htest hresp hbusy := by
    have hbyte : (u.setTodo rest).respByte = v := respByte_eq hresp
    rw [step_nvmTest hu htest, runNvmTest_busy (by rw [hbyte]; exact hnear.params ▸ hbusy), ← hnear.params, ← hnear.session]
    rfl
  starts := step_micro hrun htodo

/-- Settles O53. -/
theorem nvmWaitIsBounded : Obligations.NvmWaitIsBounded := by
  unfold Obligations.NvmWaitIsBounded
  refine ⟨fun s rs hrun htodo hreq hlink hfailed => ?_, fun s rest busy more hr hrun htodo hbusy => ?_⟩
  · rw [step_request hrun htodo hreq]
    exact require_true (hostNvmOk_of hfailed hlink)
  have hpolls := polls_nvm hrun htodo
  refine ⟨fun hlen hs => ?_, fun last hlen hs => ?_⟩
  · obtain ⟨u, hu, hsent, hruns⟩ := hpolls.stops hr hrun hbusy hlen hs
    exact ⟨_, hruns, exit_near rfl hu, (fatal_sent (e := .protocol .nvmTimeout) rfl).trans hsent⟩
  · obtain ⟨u, hu, htest, hresp, hsent, hruns⟩ := hpolls.answered hr hrun hbusy hlen hs
    have hbyte : (u.setTodo rest).respByte = last := respByte_eq hresp
    have hparams : (u.setTodo rest).params = s.params := hu.params
    have hnear : Near s (u.setTodo rest) := hu.trans ⟨rfl, rfl, rfl, rfl, rfl, rfl, rfl⟩
    refine ⟨_, hruns _ (step_nvmTest (hu.running hrun) htest), (runNvmTest_sent _).trans hsent, fun herror => ?_,
      fun herror hflash heeprom => ?_⟩
    · rw [runNvmTest_error (by rw [hbyte, hparams]; exact herror)]
      exact exit_near rfl hnear
    · rw [runNvmTest_ready (by rw [hbyte, hparams]; exact herror) (by rw [hbyte, hparams]; exact hflash)
        (by rw [hbyte, hparams]; exact heeprom)]
      have hrun' : ((u.setTodo rest).setPollAttempt ((u.setTodo rest).ctl.pollAttempt + 1)).running := hu.running hrun
      exact ⟨rfl, hu.session, fun hrest => step_micro hrun' hrest⟩

end Sys2Proof.Machine
end

section
/-! Proof of the statement about `init`, its rounds of the handshake and its recovery (spec/43_updi_session.md section 3). -/

namespace Sys2Proof.Machine

theorem legal_registers {p : Params} (h : p.legal = true) :
    ∀ r ∈ [p.csStatus, p.csCtrlA, p.csCtrlB, p.csKeyStatus, p.csResetReq, p.csSysCtrlA, p.csSysStatus], r ≤ 15 := by
  unfold Params.legal at h
  simp only [Bool.and_eq_true] at h
  obtain ⟨⟨⟨⟨⟨⟨⟨-, hregs⟩, -⟩, -⟩, -⟩, -⟩, -⟩, -⟩ := h
  exact fun r hr => of_decide_eq_true (List.all_eq_true.1 hregs r hr)

/-! ## The frames of one round (R241) -/

/-- Frames of an operation of `s` that sent `out` have led to `t`, where `todo` is left and `script` will be answered. -/
structure Underway (s t : State) (out : List Byte) (todo : List Micro) (script : List Answer) : Prop where
  near : Near s t
  round : t.ctl.initRound = s.ctl.initRound
  sent : t.wire.sent = s.wire.sent ++ s.onWire out
  todo : t.ctl.todo = todo
  script : t.wire.script = script

theorem Underway.refl (s : State) : Underway s s [] s.ctl.todo s.wire.script :=
  ⟨⟨rfl, rfl, rfl, rfl, rfl, rfl, rfl⟩, rfl, by rw [onWire_nil, List.append_nil], rfl, rfl⟩

/-- The next frame of the operation takes its answers. -/
theorem Underway.step {s t : State} {i : Instr} {out frame resp : List Byte} {todo : List Micro} {script more : List Answer}
    (h : Underway s t out (.cmd i :: todo) script) (hr : Ready s) (hrun : s.running)
    (hexec : ∀ u : State, Ready u → u.params = s.params → u.wire.script = script →
      ∃ n v, exec i u = .next (u.replied frame more n v resp)) :
    ∃ u, Machine.step t = .next u ∧ Underway s u (out ++ frame) todo more ∧ u.wire.resp = resp := by
  obtain ⟨hup, hquiet, hpatient⟩ := h.near.ready hr
  obtain ⟨n, v, hv⟩ := hexec (t.setTodo todo) ⟨hup, hquiet, hpatient⟩ h.near.params h.script
  refine ⟨_, (step_micro (h.near.running hrun) h.todo).trans hv,
    ⟨h.near.trans ⟨rfl, rfl, rfl, rfl, rfl, rfl, rfl⟩, h.round, ?_, rfl, rfl⟩, rfl⟩
  show t.wire.sent ++ t.onWire frame = _
  rw [h.sent, onWire_congr h.near.session, onWire_append, List.append_assoc]

section
variable {s : State} {p : Params} {r : Nat} {v : Byte} {more : List Answer}

theorem exec_brk_echoed (hr : Ready s) (hp : s.params = p) (hs : s.wire.script = echoed (encode p .brk) ++ more) :
    ∃ n t, exec .brk s = .next (s.replied (encode p .brk) more n t []) := by
  subst hp
  obtain ⟨t, ht, -⟩ := breakSendsOneByte s (.bytes [0x00]) more hr (.inr rfl) hs
  exact ⟨_, t, ht⟩

theorem exec_stcs_echoed (hr : Ready s) (hp : s.params = p) (hle : r ≤ 15)
    (hs : s.wire.script = echoed (encode p (.stcs r v)) ++ more) :
    ∃ n t, exec (.stcs r v) s = .next (s.replied (encode p (.stcs r v)) more n t []) := by
  subst hp
  exact ⟨_, _, exec_silent_ok hr (exec_stcs hle v s) rfl (forall2_echoed _) hs⟩

theorem exec_ldcs_echoed (hr : Ready s) (hp : s.params = p) (hle : r ≤ 15)
    (hs : s.wire.script = echoed (encode p (.ldcs r)) ++ .bytes [v] :: more) :
    ∃ n t, exec (.ldcs r) s = .next (s.replied (encode p (.ldcs r)) more n t [v]) := by
  subst hp
  exact ⟨_, _, exec_load_ok hr (exec_ldcs hle s) rfl (forall2_echoed _) (.inr rfl) rfl le_rfl hs⟩

end

/-- One round: the four frames go out, and the status comes to its test. -/
theorem handshake_round {s : State} {rest : List Micro} {v : Byte} {more : List Answer} (hr : Ready s) (hrun : s.running)
    (hlegal : s.params.legal = true) (htodo : s.ctl.todo = handshakeFrames s.params ++ rest)
    (hs : s.wire.script = echoed (handshakeBytes s.params) ++ .bytes [v] :: more) :
    ∃ t, run 4 s = .next t ∧ Underway s t (handshakeBytes s.params) (.initTest :: rest) more ∧ t.wire.resp = [v] := by
  have hregs := legal_registers hlegal
  have hstart := Underway.refl s
  have hscript : s.wire.script = echoed (encode s.params .brk) ++
      (echoed (encode s.params (.stcs s.params.csCtrlA (bitMask s.params.ibdly))) ++
        (echoed (encode s.params (.stcs s.params.csCtrlB (bitMask s.params.ccdetdis))) ++
          (echoed (encode s.params (.ldcs s.params.csStatus)) ++ .bytes [v] :: more))) := by
    rw [hs, handshakeBytes]
    simp only [echoed, List.map_append, List.append_assoc]
  rw [htodo, hscript] at hstart
  obtain ⟨a, ha, hstart, -⟩ := hstart.step hr hrun fun u hu hp => exec_brk_echoed hu hp
  obtain ⟨b, hb, hstart, -⟩ := hstart.step hr hrun fun u hu hp => exec_stcs_echoed hu hp (hregs _ (by simp))
  obtain ⟨c, hc, hstart, -⟩ := hstart.step hr hrun fun u hu hp => exec_stcs_echoed hu hp (hregs _ (by simp))
  obtain ⟨d, hd, hstart, hresp⟩ := hstart.step hr hrun fun u hu hp => exec_ldcs_echoed hu hp (hregs _ List.mem_cons_self)
  exact ⟨d, run_two (n := 2) ha hb (run_two (n := 0) hc hd rfl), hstart, hresp⟩

/-- The test of the status: `Synced`, the recovery, or the end at the bound. -/
theorem step_initTest {s : State} {rest : List Micro} {v : Byte} (hrun : s.running) (htodo : s.ctl.todo = .initTest :: rest)
    (hresp : s.wire.resp = [v]) :
    (v ≠ 0 → step s = .next (finish .ok (((s.setTodo rest).setInitRound (s.ctl.initRound + 1)).setLink .synced))) ∧
    (v = 0 → s.ctl.initRound + 1 < Config.initRounds → step s = .next
      (((s.setTodo rest).setInitRound (s.ctl.initRound + 1)).setTodo
        (.cmd .doubleBreak :: (handshakeFrames s.params ++ rest)))) ∧
    (v = 0 → Config.initRounds ≤ s.ctl.initRound + 1 → step s = .next
      (takeError (.protocol .initFailed) ((s.setTodo rest).setInitRound (s.ctl.initRound + 1)))) := by
  have hstep : step s = .next (runInitTest (s.setTodo rest)) := step_micro hrun htodo
  have hbyte : ((s.setTodo rest).setInitRound (s.ctl.initRound + 1)).respByte = v := respByte_eq hresp
  refine ⟨fun hv => ?_, fun hv hmore => ?_, fun hv hbound => ?_⟩
  · exact hstep.trans (congrArg _ (if_pos (hbyte ▸ hv)))
  · exact hstep.trans (congrArg _ ((if_neg (not_not.2 (hbyte.trans hv))).trans (if_pos hmore)))
  · exact hstep.trans (congrArg _ ((if_neg (not_not.2 (hbyte.trans hv))).trans (if_neg hbound.not_gt)))

/-- The double break on a line at 2 stop bits, whatever its two echoes are. -/
theorem step_doubleBreak {s : State} {rest : List Micro} {x y : Byte} {more : List Answer} (hr : Ready s) (hrun : s.running)
    (htodo : s.ctl.todo = .cmd .doubleBreak :: rest) (hstop : s.session.stopBits = 2)
    (hs : s.wire.script = .bytes [x, y] :: more) :
    ∃ t, step s = .next t ∧ Near s t ∧ t.ctl.initRound = s.ctl.initRound ∧ t.ctl.todo = rest ∧ t.wire.script = more ∧
      t.wire.sent = s.wire.sent ++ [⟨0x00, 300, 1⟩, ⟨0x00, 300, 1⟩] := by
  have hreceives : Receives s.params.recvAttempts 2 [[x, y]] [.bytes [x, y]] :=
    ⟨le_rfl, .inr (by simp), hr.patient, .inl ⟨rfl, .inl rfl⟩⟩
  obtain ⟨hcompletes, -⟩ := doubleBreakSendsAtTheSlowRate (s.setTodo rest) [.bytes [x, y]] more
    ⟨hr.up, hr.quiet, hr.patient⟩
  obtain ⟨t, ht, -⟩ := hcompletes 1 (.inr ⟨_, hreceives, rfl⟩) hs
  refine ⟨_, (step_micro hrun htodo).trans ht, ⟨rfl, rfl, ?_, rfl, rfl, rfl, rfl⟩, rfl, rfl, rfl, rfl⟩
  show { s.session with stopBits := 2 } = s.session
  rw [← hstop]

theorem takeError_initRound (e : Error) (s : State) : (takeError e s).ctl.initRound = s.ctl.initRound := by
  cases e <;> simp [takeError]

/-- A zero in the first round brings the recovery and a second round, whose status comes to its test. -/
theorem second_round {s : State} {x y w : Byte} {more : List Answer} (hr : Ready s) (hrun : s.running)
    (hlegal : s.params.legal = true) (hstop : s.session.stopBits = 2) (htodo : s.ctl.todo = handshakeFrames s.params)
    (hfirst : s.ctl.initRound = 0)
    (hs : s.wire.script = echoed (handshakeBytes s.params) ++ .bytes [0] :: .bytes [x, y] ::
      (echoed (handshakeBytes s.params) ++ .bytes [w] :: more)) :
    ∃ t, (∀ u, step t = .next u → run 11 s = .next u) ∧ Near s t ∧ t.ctl.initRound = 1 ∧ t.ctl.todo = [.initTest] ∧
      t.wire.resp = [w] ∧ t.wire.sent = s.wire.sent ++ s.onWire (handshakeBytes s.params) ++
        [⟨0x00, 300, 1⟩, ⟨0x00, 300, 1⟩] ++ s.onWire (handshakeBytes s.params) := by
  obtain ⟨a, hround, ha, hresp⟩ := handshake_round (rest := []) hr hrun hlegal (by rw [List.append_nil, htodo]) hs
  have hagain := (step_initTest (ha.near.running hrun) ha.todo hresp).2.1 rfl (by rw [ha.round, hfirst]; decide)
  set b := ((a.setTodo []).setInitRound (a.ctl.initRound + 1)).setTodo (.cmd .doubleBreak :: (handshakeFrames a.params ++ []))
    with hb
  have hnear : Near s b := ha.near.trans ⟨rfl, rfl, rfl, rfl, rfl, rfl, rfl⟩
  obtain ⟨c, hbreak, hc, hcround, hctodo, hcscript, hcsent⟩ := step_doubleBreak (hnear.ready hr) (hnear.running hrun) rfl
    (by rw [hnear.session]; exact hstop) ha.script
  have hnear' := hnear.trans hc
  obtain ⟨d, hround', hd, hresp'⟩ := handshake_round (rest := []) (hnear'.ready hr) (hnear'.running hrun)
    (hnear'.params.symm ▸ hlegal) (by rw [hctodo, hnear'.params, ha.near.params]) (by rw [hnear'.params]; exact hcscript)
  refine ⟨d, fun u hu => ?_, hnear'.trans hd.near, ?_, hd.todo, hresp', ?_⟩
  · exact (run_add hround).trans (run_two (n := 5) hagain hbreak ((run_add hround').trans (run_succ hu 0)))
  · rw [hd.round, hcround]
    exact congrArg (· + 1) (ha.round.trans hfirst)
  · rw [hd.sent, hcsent, hnear'.params, onWire_congr hnear'.session]
    exact congrArg (· ++ _ ++ _) ha.sent

/-- The state in which `init` begins its first round. -/
def State.synchronizing (s : State) (rs : List Request) : State :=
  (({ s with ctl := { s.ctl with requests := rs, result := none } }.setLink .syncPending).setInitRound 0).setTodo
    (handshakeFrames s.params)

theorem step_initLink {s : State} {rs : List Request} (hrun : s.running) (htodo : s.ctl.todo = [])
    (hreq : s.ctl.requests = .initLink :: rs) (hlink : s.session.linkState = .cold) (hfailed : s.session.failed = none) :
    step s = .next (s.synchronizing rs) := by
  rw [step_request hrun htodo hreq]
  exact require_true (by simp [hostInitOk, hlink, hfailed])

theorem synchronizing_ready {s : State} {rs : List Request} (hfailed : s.session.failed = none) (hquiet : s.wire.irq = none)
    (hpatient : 1 ≤ s.params.recvAttempts) : Ready (s.synchronizing rs) :=
  ⟨linkUp_iff.2 ⟨hfailed, nofun, nofun⟩, hquiet, hpatient⟩

/-- Settles O51. -/
theorem initHandshake : Obligations.InitHandshake := by
  unfold Obligations.InitHandshake
  intro s v x y w rs more hrun hquiet hpatient hlegal htodo hreq hlink hfailed hstop
  have hr := synchronizing_ready (rs := rs) hfailed hquiet hpatient
  have hrun' : (s.synchronizing rs).running := hrun
  have hstart := step_initLink hrun htodo hreq hlink hfailed
  refine ⟨fun hv hs => ?_, fun hs => ?_⟩
  · obtain ⟨t, hround, ht, hresp⟩ := handshake_round (rest := []) hr hrun' hlegal rfl hs
    have hend := (step_initTest (ht.near.running hrun') ht.todo hresp).1 hv
    refine ⟨_, (run_succ hstart 5).trans ((run_add hround).trans (run_succ hend 0)), ?_, rfl, rfl, ?_, ht.sent⟩
    · show { t.session with linkState := .synced } = _
      rw [ht.near.session]
      rfl
    · show t.ctl.initRound + 1 = 1
      rw [ht.round]
      rfl
  · obtain ⟨t, hruns, hnear, hround, htest, hresp, hsent⟩ := second_round hr hrun' hlegal hstop rfl rfl hs
    obtain ⟨hsync, -, hfatal⟩ := step_initTest (hnear.running hrun') htest hresp
    have hruns' : ∀ u, step t = .next u → run 12 s = .next u := fun u hu => (run_succ hstart 11).trans (hruns u hu)
    by_cases hw : w = 0
    · have hexit := exit_near (e := .protocol .initFailed) rfl
        (hnear.trans (u := (t.setTodo []).setInitRound (t.ctl.initRound + 1)) ⟨rfl, rfl, rfl, rfl, rfl, rfl, rfl⟩)
      refine ⟨_, hruns' _ (hfatal hw (by rw [hround]; decide)), hexit.ended, ?_,
        (fatal_sent (e := .protocol .initFailed) rfl).trans hsent, fun h => absurd hw h,
        fun _ => ⟨hexit.closed, hexit.failed, hexit.released, hexit.result⟩⟩
      exact (takeError_initRound _ _).trans (congrArg (· + 1) hround)
    · refine ⟨_, hruns' _ (hsync hw), rfl, congrArg (· + 1) hround, hsent, fun _ => ⟨?_, rfl⟩, fun h => absurd h hw⟩
      show { t.session with linkState := .synced } = _
      rw [hnear.session]
      rfl

end Sys2Proof.Machine
end

section
/-! Proof of the statement about the operations of the session and `chipEraseOk` (spec/43_updi_session.md sections 1 and 2,
spec/10_state.md section 4). -/

namespace Sys2Proof.Machine

/-! ## What every step but the return of `unlock_erase` keeps (R34) -/

/-- From `s` to `t` neither `chipEraseOk` nor the return of `unlock_erase` has come up. -/
structure NoUnlock (s t : State) : Prop where
  flag : t.session.chipEraseOk = true → s.session.chipEraseOk = true
  todo : .unlocked ∈ t.ctl.todo → .unlocked ∈ s.ctl.todo

theorem NoUnlock.trans {s t u : State} (h : NoUnlock s t) (k : NoUnlock t u) : NoUnlock s u :=
  ⟨fun hu => h.flag (k.flag hu), fun hu => h.todo (k.todo hu)⟩

theorem NoUnlock.of_push {s t : State} (ms : List Micro) (hflag : t.session.chipEraseOk = s.session.chipEraseOk)
    (hms : .unlocked ∉ ms) (htodo : t.ctl.todo = ms ++ s.ctl.todo) : NoUnlock s t := by
  refine ⟨fun h => hflag ▸ h, fun h => ?_⟩
  rw [htodo] at h
  exact (List.mem_append.1 h).resolve_left hms

theorem NoUnlock.of_same {s t : State} (hflag : t.session.chipEraseOk = s.session.chipEraseOk)
    (htodo : t.ctl.todo = s.ctl.todo) : NoUnlock s t :=
  .of_push [] hflag List.not_mem_nil htodo

theorem NoUnlock.of_ended {s t : State} (hflag : t.session.chipEraseOk = s.session.chipEraseOk)
    (htodo : t.ctl.todo = []) : NoUnlock s t :=
  ⟨fun h => hflag ▸ h, fun h => absurd (htodo ▸ h) List.not_mem_nil⟩

theorem Effect.noUnlock {s t : State} (h : Effect s t) : NoUnlock s t := by
  rcases h.todo with htodo | htodo
  · exact .of_same h.chipEraseOk htodo
  · exact .of_ended h.chipEraseOk htodo

theorem noUnlock_takeError (e : Error) (s : State) : NoUnlock s (takeError e s) := by
  cases e with
  | transport e => exact (takeError_effect rfl s).noUnlock
  | protocol e => exact (takeError_effect rfl s).noUnlock
  | format e => exact .of_ended rfl rfl
  | overlap a b => exact .of_ended rfl rfl
  | verify page addr => exact .of_ended rfl rfl

theorem noUnlock_finish (r : Result) (s : State) : NoUnlock s (finish r s) := .of_ended rfl rfl

theorem noUnlock_codecTick (s : State) : NoUnlock s (codecTick s) := .of_same (by simp) (by simp)

/-! ### The codec's operations -/

theorem noUnlock_runParse (file : List Byte) (keep : Bool) (s : State) : NoUnlock s (runParse file keep s) := by
  unfold runParse
  split
  · exact noUnlock_takeError _ s
  · exact .of_push [.records] rfl (by simp) rfl

theorem noUnlock_runRecord {s t : State} (h : runRecord s = .next t) : NoUnlock s t := by
  unfold runRecord at h
  split at h
  next => cases h; exact noUnlock_takeError _ s
  next r _ =>
    split at h <;> cases h
    next u hu =>
      have hlatched : NoUnlock s (s.setCodec { s.codec with record := r }) := .of_same rfl rfl
      have hdone := hlatched.trans (exec_effect hu).noUnlock
      exact hdone.trans (.of_same rfl rfl)

theorem noUnlock_runRecords {s t : State} (h : runRecords s = .next t) : NoUnlock s t := by
  unfold runRecords at h
  split at h
  next => cases h; exact .of_same rfl rfl
  split at h
  next => cases h; exact noUnlock_takeError _ s
  next =>
    have hagain : NoUnlock s (s.setTodo (.records :: s.ctl.todo)) := .of_push [.records] rfl (by simp) rfl
    exact hagain.trans (noUnlock_runRecord h)

theorem noUnlock_runMergeEnd (s : State) : NoUnlock s (runMergeEnd s) := by
  unfold runMergeEnd
  repeat' split
  · exact noUnlock_takeError _ s
  · exact noUnlock_finish _ s
  · exact noUnlock_finish _ s

theorem noUnlock_runChunks (s : State) : NoUnlock s (runChunks s) := by
  unfold runChunks
  split
  · exact .of_push [.chunks] rfl (by simp) rfl
  · exact .of_ended rfl rfl

theorem noUnlock_serializeFrom {c : Codec} {img : Image} {length : Nat} {s t : State}
    (h : serializeFrom c img length s = .next t) (htodo : s.ctl.todo = []) : NoUnlock s t := by
  unfold serializeFrom at h
  split at h <;> cases h
  exact .of_push [.chunks] rfl (by simp) (by rw [htodo]; rfl)

/-! ### The operations on the link -/

theorem noUnlock_initNext (s : State) : NoUnlock s (initNext s) := by
  unfold initNext
  repeat' split
  · exact .of_ended rfl rfl
  · exact .of_push (.cmd .doubleBreak :: handshakeFrames s.params) rfl (by simp [handshakeFrames]) rfl
  · exact noUnlock_takeError _ s

theorem noUnlock_setPollAttempt (s : State) (n : Nat) : NoUnlock s (s.setPollAttempt n) := .of_same rfl rfl

theorem noUnlock_pollNext (q : Poll) (s : State) : NoUnlock s (pollNext q s) := by
  unfold pollNext pollTimeout
  repeat' split
  · exact .of_push [.cmd (.ldcs q.reg), .pollTest q] rfl (by simp) rfl
  · exact noUnlock_takeError _ s
  · exact noUnlock_takeError _ s
  · exact noUnlock_finish _ s

theorem noUnlock_nvmNext (s : State) : NoUnlock s (nvmNext s) := by
  unfold nvmNext
  split
  · exact .of_push [.cmd (.ldsb (dataAddr (s.session.profile.nvmctrl + s.params.nvmStatus))), .nvmTest] rfl (by simp) rfl
  · exact noUnlock_takeError _ s

theorem unlocked_not_mem_readPageFrames (r : Region) (p : Nat) : .unlocked ∉ readPageFrames r p := by simp [readPageFrames]

theorem unlocked_not_mem_writePageFrames (r : Region) (p : Nat) (page : List Byte) (c : PageCommand) :
    .unlocked ∉ writePageFrames r p page c := by simp [writePageFrames]

theorem noUnlock_runMicro {m : Micro} {s t : State} (hm : m ≠ .unlocked) (h : runMicro m s = .next t) : NoUnlock s t := by
  cases m
  case unlocked => exact absurd rfl hm
  case records => exact (noUnlock_codecTick s).trans (noUnlock_runRecords h)
  case cmd i => exact (exec_effect h).noUnlock
  case sendBytes bs => exact (runSend_effect h).noUnlock
  case recvBytes len => exact (runRecv_effect h).noUnlock
  case window asC =>
    simp only [runMicro, runWindow] at h
    split at h <;> cases h
    exact noUnlock_finish _ s
  all_goals injection h with h; subst h
  case parse file keep => exact (noUnlock_codecTick s).trans (noUnlock_runParse file keep _)
  case mergeSecond b => exact .of_push [.parse b true] rfl (by simp) rfl
  case mergeEnd => exact noUnlock_runMergeEnd s
  case chunks => exact (noUnlock_codecTick s).trans (noUnlock_runChunks _)
  case initTest =>
    have hcounted : NoUnlock s (s.setInitRound (s.ctl.initRound + 1)) := .of_same rfl rfl
    exact hcounted.trans (noUnlock_initNext _)
  case poll q => exact (noUnlock_setPollAttempt s 0).trans (noUnlock_pollNext q _)
  case pollTest q =>
    unfold runPollTest
    split
    · exact noUnlock_setPollAttempt s _
    · exact (noUnlock_setPollAttempt s _).trans (noUnlock_pollNext q _)
  case nvmWait => exact (noUnlock_setPollAttempt s 0).trans (noUnlock_nvmNext _)
  case nvmTest =>
    unfold runNvmTest
    repeat' split
    · exact noUnlock_takeError _ s
    · exact noUnlock_setPollAttempt s _
    · exact (noUnlock_setPollAttempt s _).trans (noUnlock_nvmNext _)
  case keyTest bit =>
    unfold runKeyTest
    split
    · exact .of_same rfl rfl
    · exact noUnlock_takeError _ s
  case progTest =>
    unfold runProgTest
    split
    · exact .of_ended rfl rfl
    · exact .of_push (enterFrames s.params) rfl (by simp [enterFrames, keycheckFrames, resetToggleFrames]) rfl
  case progConfirm => unfold runProgConfirm; split <;> exact .of_ended rfl rfl
  case openPage start len => exact .of_same rfl rfl
  case closePage => exact .of_same rfl rfl
  case readPage =>
    unfold runReadPage
    split
    · exact .of_push (readPageFrames s.nvm.region s.nvm.p ++ [.readStore]) rfl
        (by simp [unlocked_not_mem_readPageFrames]) (by simp)
    · exact noUnlock_finish _ s
  case readStore => exact .of_push [.readPage] rfl (by simp) rfl
  case writePage =>
    unfold runWritePage
    repeat' split
    · exact .of_push (writePageFrames s.nvm.region s.nvm.p s.nvm.page s.nvm.cmd ++ [.writeDone]) rfl
        (by simp [unlocked_not_mem_writePageFrames]) (by simp)
    · exact .of_push [.writePage] rfl (by simp) rfl
    · exact noUnlock_finish _ s
  case writeDone => exact .of_push [.writePage] rfl (by simp) rfl
  case verifyPage =>
    unfold runVerifyPage
    repeat' split
    · exact .of_push (readPageFrames s.nvm.region s.nvm.p ++ [.compare]) rfl
        (by simp [unlocked_not_mem_readPageFrames]) (by simp)
    · exact .of_push [.verifyPage] rfl (by simp) rfl
    · exact noUnlock_finish _ s
  case compare =>
    unfold runCompare
    split
    · exact .of_push [.verifyPage] rfl (by simp) rfl
    · exact noUnlock_takeError _ s
  case fuseTest n value =>
    unfold runFuseTest
    split
    · exact noUnlock_finish _ s
    · exact .of_push (fuseWriteFrames s.params s.session.profile n value) rfl (by simp [fuseWriteFrames]) rfl
  case fuseVerify n value =>
    unfold runFuseVerify
    split
    · exact noUnlock_finish _ s
    · exact noUnlock_takeError _ s
  all_goals exact .of_ended rfl rfl

/-! ### The start of an operation -/

theorem noUnlock_startRequest {r : Request} {s t : State} (hr : r ≠ .unlockErase) (htodo : s.ctl.todo = [])
    (h : startRequest r s = .next t) : NoUnlock s t := by
  have starts : ∀ {ms : List Micro} {u : State}, u.session.chipEraseOk = s.session.chipEraseOk → u.ctl.todo = ms →
      .unlocked ∉ ms → NoUnlock s u := fun hflag hu hms => .of_push _ hflag hms (by rw [htodo, List.append_nil, hu])
  cases r
  case unlockErase => exact absurd rfl hr
  case serialize image length => exact noUnlock_serializeFrom h htodo
  case txt2hex text =>
    simp only [startRequest, startTxt2hex] at h
    split at h
    next => cases h; exact noUnlock_takeError _ s
    next => exact noUnlock_serializeFrom h htodo
  case newSession part baud verbosity =>
    obtain ⟨-, h⟩ := require_eq_next h
    obtain ⟨-, h⟩ := require_eq_next h
    obtain ⟨-, h⟩ := require_eq_next h
    cases h
    exact ⟨nofun, nofun⟩
  case userrowWrite data =>
    obtain ⟨-, h⟩ := require_eq_next h
    obtain ⟨-, h⟩ := require_eq_next h
    cases h
    exact starts rfl rfl (by simp [userrowFrames, keycheckFrames, resetToggleFrames])
  all_goals
    simp only [startRequest, require] at h
    repeat' split at h
    all_goals cases h
    all_goals exact starts rfl rfl (by simp [handshakeFrames, leaveFrames, resetToggleFrames])

theorem noUnlock_hostTurn {s t : State} (hr : s.ctl.requests.head? ≠ some .unlockErase) (htodo : s.ctl.todo = [])
    (h : hostTurn s = .next t) : NoUnlock s t := by
  unfold hostTurn at h
  split at h
  next => cases h; exact .of_same rfl rfl
  next r rs hreq =>
    have hasked : NoUnlock s { s with ctl := { s.ctl with requests := rs, result := none } } := .of_same rfl rfl
    refine hasked.trans (noUnlock_startRequest (fun hunlock => hr ?_) htodo h)
    rw [hreq, hunlock, List.head?_cons]

/-- A step of HOST that starts `unlock_erase` leaves the session as it is. -/
theorem hostTurn_unlockErase {s t : State} (hr : s.ctl.requests.head? = some .unlockErase) (h : hostTurn s = .next t) :
    t.session = s.session := by
  obtain ⟨rs, hreq⟩ := List.head?_eq_some_iff.1 hr
  rw [hostTurn, hreq] at h
  obtain ⟨-, h⟩ := require_eq_next h
  cases h
  rfl

/-- What a step can do to `chipEraseOk`, and where the return of `unlock_erase` comes from. -/
theorem step_unlock {s t : State} (h : step s = .next t) :
    (t.session.chipEraseOk = true → s.session.chipEraseOk = true ∨ s.ctl.todo.head? = some .unlocked) ∧
    (.unlocked ∈ t.ctl.todo → .unlocked ∈ s.ctl.todo ∨ s.ctl.requests.head? = some .unlockErase) := by
  obtain ⟨-, rfl | ⟨htodo, h⟩ | ⟨m, rest, htodo, h⟩⟩ := step_cases h
  · have hkept := (interrupt_effect s).noUnlock
    exact ⟨fun hflag => .inl (hkept.flag hflag), fun hmem => .inl (hkept.todo hmem)⟩
  · by_cases hr : s.ctl.requests.head? = some .unlockErase
    · exact ⟨fun hflag => .inl (hostTurn_unlockErase hr h ▸ hflag), fun _ => .inr hr⟩
    · have hkept := noUnlock_hostTurn hr htodo h
      exact ⟨fun hflag => .inl (hkept.flag hflag), fun hmem => .inl (hkept.todo hmem)⟩
  · by_cases hm : m = .unlocked
    · subst hm
      cases h
      exact ⟨fun _ => .inr (by rw [htodo, List.head?_cons]), nofun⟩
    · have hkept := noUnlock_runMicro hm h
      exact ⟨fun hflag => .inl (hkept.flag hflag), fun hmem => .inl (htodo ▸ List.mem_cons_of_mem _ (hkept.todo hmem))⟩

/-! ## The operations of the session (R243 to R249) -/

theorem step_keyTest {s : State} {b : Nat} {v : Byte} {rest : List Micro} (hrun : s.running)
    (htodo : s.ctl.todo = .keyTest b :: rest) (hresp : s.wire.resp = [v]) :
    (bitSet v b = true → step s = .next (s.setTodo rest)) ∧
    (bitSet v b = false → step s = .next (takeError (.protocol .keyRejected) (s.setTodo rest))) := by
  have hstep : step s = .next (runKeyTest b (s.setTodo rest)) := step_micro hrun htodo
  have hbyte : (s.setTodo rest).respByte = v := respByte_eq hresp
  exact ⟨fun h => hstep.trans (congrArg _ (if_pos (hbyte ▸ h))),
    fun h => hstep.trans (congrArg _ (if_neg (Bool.eq_false_iff.1 (hbyte ▸ h))))⟩

theorem step_progTest {s : State} {v : Byte} {rest : List Micro} (hrun : s.running)
    (htodo : s.ctl.todo = .progTest :: rest) (hresp : s.wire.resp = [v]) :
    (bitSet v s.params.ssNvmProg = true → step s = .next (finish .ok (s.setLink .progMode))) ∧
    (bitSet v s.params.ssNvmProg = false → step s = .next (s.setTodo (enterFrames s.params ++ rest))) := by
  have hstep : step s = .next (runProgTest (s.setTodo rest)) := step_micro hrun htodo
  have hbyte : (s.setTodo rest).respByte = v := respByte_eq hresp
  exact ⟨fun h => hstep.trans (congrArg _ (if_pos (hbyte ▸ h))),
    fun h => hstep.trans (congrArg _ (if_neg (Bool.eq_false_iff.1 (hbyte ▸ h))))⟩

theorem step_progConfirm {s : State} {v : Byte} {rest : List Micro} (hrun : s.running)
    (htodo : s.ctl.todo = .progConfirm :: rest) (hresp : s.wire.resp = [v]) :
    (bitSet v s.params.ssNvmProg = true → step s = .next (finish .ok (s.setLink .progMode))) ∧
    (bitSet v s.params.ssNvmProg = false → step s = .next (finish (.failure .notInProgMode) s)) := by
  have hstep : step s = .next (runProgConfirm (s.setTodo rest)) := step_micro hrun htodo
  have hbyte : (s.setTodo rest).respByte = v := respByte_eq hresp
  exact ⟨fun h => hstep.trans (congrArg _ (if_pos (hbyte ▸ h))),
    fun h => hstep.trans (congrArg _ (if_neg (Bool.eq_false_iff.1 (hbyte ▸ h))))⟩

/-- `userrow_write` of a whole row starts where its link state permits it. -/
theorem step_userrowWrite {s : State} {data : List Byte} {rs : List Request} (hrun : s.running) (htodo : s.ctl.todo = [])
    (hreq : s.ctl.requests = .userrowWrite data :: rs) (hok : hostUnlockOk s.session = true)
    (hlen : data.length = s.params.urowLen) (hcount : countOk data.length = true) :
    step s = .next ({ s with ctl := { s.ctl with requests := rs, result := none } }.setTodo
      (userrowFrames s.params s.session.profile.userrow data)) := by
  rw [step_request hrun htodo hreq]
  exact (require_true hok).trans (require_true (Bool.and_eq_true_iff.2 ⟨decide_eq_true hlen, hcount⟩))

/-- Settles O52: `chipEraseOk` by `step_unlock`, then the operations' starts, tests and returns. -/
theorem chipEraseOkOnlyByUnlock : Obligations.ChipEraseOkOnlyByUnlock := by
  unfold Obligations.ChipEraseOkOnlyByUnlock
  refine ⟨fun s t => step_unlock, fun s rs hrun htodo hfailed => ⟨fun hlink => ?_, fun hlink => ?_⟩,
    fun s rs hrun htodo hreq => ?_, fun s v rest hrun hresp => ⟨fun b htodo => ?_, fun htodo => ?_, fun htodo => ?_⟩,
    fun s rest hrun => ⟨fun htodo => ?_, fun htodo => ?_, fun htodo => ?_⟩⟩
  · have hok := hostUnlockOk_of hfailed hlink
    refine ⟨fun hreq => ?_, fun data hreq hlen h1 h256 => ?_⟩
    · rw [step_request hrun htodo hreq]
      exact require_true hok
    · exact step_userrowWrite hrun htodo hreq hok hlen (countOk_iff.2 ⟨h1, h256⟩)
  · have hok := hostLinkOk_of hfailed hlink
    refine ⟨fun hreq => ?_, fun hreq => ?_⟩
    · rw [step_request hrun htodo hreq]
      exact require_true hok
    · rw [step_request hrun htodo hreq]
      exact require_true hok
  · rw [step_request hrun htodo hreq]
    rfl
  · obtain ⟨hset, hclear⟩ := step_keyTest hrun htodo hresp
    exact ⟨hset, fun h => ⟨_, hclear h, exit_near rfl ⟨rfl, rfl, rfl, rfl, rfl, rfl, rfl⟩, takeError_sent _ _⟩⟩
  · exact step_progTest hrun htodo hresp
  · exact step_progConfirm hrun htodo hresp
  · exact step_micro hrun htodo
  · exact step_micro hrun htodo
  · exact step_micro hrun htodo

end Sys2Proof.Machine
end
